-- ==== Sys2Proof/Word.lean ====
section
/-! DEFINITION. The word types of AMLU-CORE (00_scope.md R12). -/

namespace Sys2Proof

/-- A byte, 8 bits (R12). -/
abbrev Byte := BitVec 8

/-- A 16-bit register: WIDTH, HEIGHT and the 16-bit header fields. -/
abbrev Half := BitVec 16

/-- A 32-bit register or scramble entry (R21, R110). -/
abbrev Word := BitVec 32

end Sys2Proof
end

