-- ==== Sys2Proof/Config.lean ====
section
/-! DEFINITION. What an implementation of AMLU-CORE fixes (00_scope.md R9), the names and sizes of the
buffers (10_state.md R36), and the free values of the model. -/

namespace Sys2Proof.Config

/-- The seven byte buffers (R36, R60). The eighth buffer, SCR, is addressed by entry, not by byte (R61). -/
inductive BufName where
  | IN | OUT | CBLK | ABLK | TILEOUT | IMG0 | IMG1
  deriving DecidableEq, Repr

/-- The parameters that R9 leaves OPEN and that one instance reads. They are plain data and stand in
`State`, so that a statement about every state is a statement about every value of them. -/
structure Params where
  /-- `IN_CAP`, 0 .. 2^32-1 bytes. -/
  inCap : BitVec 32
  /-- `OUT_CAP`, 0 .. 2^32-1 bytes. -/
  outCap : BitVec 32
  /-- `IMG_CAP`, bytes of each of IMG0 and IMG1. -/
  imgCap : Nat
  /-- `SCR_CAP`, 32-bit entries. -/
  scrCap : Nat
  /-- `CFG_MAGIC[0..3]` (R108). -/
  magic0 : Byte
  magic1 : Byte
  magic2 : Byte
  magic3 : Byte
  /-- `CFG_COLOR_REV` (R104). -/
  colorRev : Bool
  deriving DecidableEq, Repr

/-- DESIGN CHOICE (log 3), unsafe: the parameter values of `State.reset`. They are those under which the
spec's own vectors run (95_test_vectors.md, "Unless a vector says otherwise"): capacities large enough for
every image (the bounds R292 names), the example magic `54 45 58 30`, the literal colour order. -/
def vectorParams : Params where
  inCap := 0xFFFFFFFF#32
  outCap := 0xFFFFFFFF#32
  imgCap := 65532 * 65532 * 4
  scrCap := 16383 * 16383
  magic0 := 0x54#8
  magic1 := 0x45#8
  magic2 := 0x58#8
  magic3 := 0x30#8
  colorRev := false

/-- Free value (log 2), safe: what stands in byte `addr` of buffer `b` when nothing specified has been
written there. R39: "any value; a model must treat a read of it as a draw". `gen` numbers the draws. -/
opaque unspecByte (b : BufName) (gen addr : Nat) : BitVec 8

/-- Free value (log 2), safe: the same for entry `i` of SCR. -/
opaque unspecEntry (gen i : Nat) : BitVec 32

/-- Free value (log 6), safe: what the host reads from a busy block anywhere but in STATUS
(R323, R324: "returns unspecified values"). `n` numbers the draws. -/
opaque unspecRead (n : Nat) : BitVec 32

/-- Free value (log 6), safe: the results of a command that a host access to the busy block has disturbed
(R323: "its results are unspecified"). `n` numbers the draws, `field` the result of that draw. -/
opaque unspecResult (n field : Nat) : BitVec 32

end Sys2Proof.Config
end

