-- ==== Sys2Proof/Syntax.lean ====
section
/-! DEFINITION. The instructions of AMLU-CORE, one constructor per row of spec/opcode_table.json: the tokens of
the compressed stream (R93 to R96), the ETC block formats (R99 to R103) and the host commands (R109). -/

namespace Sys2Proof

/-- The operand fields of an individual-mode colour block (R99, R100, R102). -/
structure IndFields where
  table1 : BitVec 3
  table2 : BitVec 3
  r1 : BitVec 4
  r2 : BitVec 4
  g1 : BitVec 4
  g2 : BitVec 4
  b1 : BitVec 4
  b2 : BitVec 4
  /-- The two selector planes, the whole word `bottom` (R102). -/
  bottom : Word
  deriving DecidableEq, Repr

/-- The operand fields of a differential-mode colour block (R99, R101, R102). The deltas are the raw
three-bit fields; `sext_3` of them is their `toInt`. -/
structure DifFields where
  table1 : BitVec 3
  table2 : BitVec 3
  r : BitVec 5
  dr : BitVec 3
  g : BitVec 5
  dg : BitVec 3
  b : BitVec 5
  db : BitVec 3
  /-- The two selector planes, the whole word `bottom` (R102). -/
  bottom : Word
  deriving DecidableEq, Repr

/-- One constructor per row of the opcode table. -/
inductive Instr where
  /-- MARK, format LZ-H (R93): the first byte of the stream. -/
  | mark (m : Byte)
  /-- LIT, format LZ-1 (R94): a byte that is not the marker. -/
  | lit (b : Byte)
  /-- ESC, format LZ-2 (R95): two marker bytes, no operand. -/
  | esc
  /-- BREF, format LZ-3 (R96): raw offset `o`, not the marker, and count `c`. -/
  | bref (o c : Byte)
  /-- ETC.IND.NF (R184). -/
  | etcIndNf (f : IndFields)
  /-- ETC.IND.FL (R185). -/
  | etcIndFl (f : IndFields)
  /-- ETC.DIF.NF (R186). -/
  | etcDifNf (f : DifFields)
  /-- ETC.DIF.FL (R187). -/
  | etcDifFl (f : DifFields)
  /-- ETC.A4 (R103, R188): sixteen alpha nibbles, nibble `p` in bits `4*p+3 .. 4*p`. -/
  | etcA4 (a : BitVec 64)
  /-- CMD.DECOMPRESS, code 0x01 (R251). -/
  | cmdDecompress
  /-- CMD.PARSE_HEADER, code 0x02 (R252). -/
  | cmdParseHeader
  /-- CMD.DECODE_BLOCK, code 0x03 (R253). -/
  | cmdDecodeBlock
  /-- CMD.BUILD_SCRAMBLE, code 0x04 (R254). -/
  | cmdBuildScramble
  /-- CMD.DECODE_TEX, code 0x05 (R255). -/
  | cmdDecodeTex
  /-- CMD.DECODE_ENTRY, code 0x06 (R256). -/
  | cmdDecodeEntry
  /-- CMD.DECODE_RAW, code 0x07 (R257). -/
  | cmdDecodeRaw
  /-- CMD.RESERVED, every other code (R258). -/
  | cmdReserved (c : Byte)
  deriving DecidableEq, Repr

end Sys2Proof
end

