-- ==== Sys2Proof/WellFormed.lean ====
section
/-! DEFINITION. Which instruction terms stand for an encoding, under the run-time marker `m` (R92: the same
bytes decode differently under different markers). -/

namespace Sys2Proof

/-- R94: a LIT is any byte but the marker. R96: the raw offset of a BREF is any byte but the marker.
R109: the reserved codes are 0x00 and 0x08 to 0xFF. Every other term is legal (R91, R105). -/
def Instr.wellFormed (m : Byte) : Instr → Bool
  | .mark _ => true
  | .lit b => b != m
  | .esc => true
  | .bref o _ => o != m
  | .etcIndNf _ => true
  | .etcIndFl _ => true
  | .etcDifNf _ => true
  | .etcDifFl _ => true
  | .etcA4 _ => true
  | .cmdDecompress => true
  | .cmdParseHeader => true
  | .cmdDecodeBlock => true
  | .cmdBuildScramble => true
  | .cmdDecodeTex => true
  | .cmdDecodeEntry => true
  | .cmdDecodeRaw => true
  | .cmdReserved c => c == 0#8 || decide (8 ≤ c.toNat)

end Sys2Proof
end

