-- ==== Sys2Proof/Decode.lean ====
section
/-! DEFINITION. The decoder and the encoder (30_encoding.md). Which encoded object the next bytes are is decided
by their position (R90), so the decoder takes the encoding space beside the bytes. -/

namespace Sys2Proof

/-- R13 `le16`: the first byte is the less significant one. -/
def le16 (b0 b1 : Byte) : Half := b1 ++ b0

/-- R13 `le32`: the first byte is the least significant one. -/
def le32 (b0 b1 b2 b3 : Byte) : Word := b3 ++ b2 ++ b1 ++ b0

/-- The four bytes of a word, least significant first (R63). -/
def leBytes (w : Word) : List Byte :=
  [w.extractLsb' 0 8, w.extractLsb' 8 8, w.extractLsb' 16 8, w.extractLsb' 24 8]

/-- R99, R172: `flip` is bit 24 of `top`. -/
def topFlip (top : Word) : Bool := top.getLsbD 24

/-- R99, R172: `differential` is bit 25 of `top`. -/
def topDifferential (top : Word) : Bool := top.getLsbD 25

/-- The fields of an individual-mode block (R99, R100, R173, R174). -/
def indFields (top bottom : Word) : IndFields where
  table1 := top.extractLsb' 29 3
  table2 := top.extractLsb' 26 3
  r1 := top.extractLsb' 4 4
  r2 := top.extractLsb' 0 4
  g1 := top.extractLsb' 12 4
  g2 := top.extractLsb' 8 4
  b1 := top.extractLsb' 20 4
  b2 := top.extractLsb' 16 4
  bottom := bottom

/-- The fields of a differential-mode block (R99, R101, R173, R175). -/
def difFields (top bottom : Word) : DifFields where
  table1 := top.extractLsb' 29 3
  table2 := top.extractLsb' 26 3
  r := top.extractLsb' 3 5
  dr := top.extractLsb' 0 3
  g := top.extractLsb' 11 5
  dg := top.extractLsb' 8 3
  b := top.extractLsb' 19 5
  db := top.extractLsb' 16 3
  bottom := bottom

/-- R172: the mode bits `(differential, flip)` select the colour instruction. -/
def colourInstr (top bottom : Word) : Instr :=
  if topDifferential top then
    if topFlip top then .etcDifFl (difFields top bottom) else .etcDifNf (difFields top bottom)
  else
    if topFlip top then .etcIndFl (indFields top bottom) else .etcIndNf (indFields top bottom)

/-- R109: the command codes. -/
def commandInstr (c : Byte) : Instr :=
  if c = 1#8 then .cmdDecompress
  else if c = 2#8 then .cmdParseHeader
  else if c = 3#8 then .cmdDecodeBlock
  else if c = 4#8 then .cmdBuildScramble
  else if c = 5#8 then .cmdDecodeTex
  else if c = 6#8 then .cmdDecodeEntry
  else if c = 7#8 then .cmdDecodeRaw
  else .cmdReserved c

/-- The encoding spaces of R90: what the next bytes are by their position. `token m` is the stream after the
marker byte `m`. -/
inductive Space where
  | marker
  | token (m : Byte)
  | colour
  | alpha
  | command
  deriving DecidableEq, Repr

/-- Why the decoder finds no instruction. -/
inductive DecodeError where
  /-- No byte where a stream should start (R98). -/
  | emptyStream
  /-- The stream has ended: no token begins here (R127). -/
  | endOfStream
  /-- The stream ends inside a marker-prefixed token (R98). -/
  | truncatedToken
  /-- Fewer than the 8 bytes of an ETC block (R90). -/
  | shortBlock
  /-- No command code. -/
  | noCommand
  deriving DecidableEq, Repr

/-- R92: the length and kind of a token from its first one or two bytes, under the marker `m`. -/
def decodeToken (m : Byte) : List Byte → Except DecodeError (Instr × List Byte)
  | [] => .error .endOfStream
  | b0 :: rest =>
    if b0 ≠ m then .ok (.lit b0, rest)
    else match rest with
      | [] => .error .truncatedToken
      | b1 :: rest =>
        if b1 = m then .ok (.esc, rest)
        else match rest with
          | [] => .error .truncatedToken
          | b2 :: rest => .ok (.bref b1 b2, rest)

/-- The decoder: total on any bytes, answering the instruction and the bytes after it, or the reason why there
is none. -/
def decode : Space → List Byte → Except DecodeError (Instr × List Byte)
  | .marker, [] => .error .emptyStream
  | .marker, m :: rest => .ok (.mark m, rest)
  | .token m, bytes => decodeToken m bytes
  | .colour, c0 :: c1 :: c2 :: c3 :: c4 :: c5 :: c6 :: c7 :: rest =>
    .ok (colourInstr (le32 c0 c1 c2 c3) (le32 c4 c5 c6 c7), rest)
  | .colour, _ => .error .shortBlock
  | .alpha, a0 :: a1 :: a2 :: a3 :: a4 :: a5 :: a6 :: a7 :: rest =>
    .ok (.etcA4 (le32 a4 a5 a6 a7 ++ le32 a0 a1 a2 a3), rest)
  | .alpha, _ => .error .shortBlock
  | .command, [] => .error .noCommand
  | .command, c :: rest => .ok (commandInstr c, rest)

/-- The word `top` of an individual-mode block (R112, R63), `flip` given. -/
def indTop (flip : Bool) (f : IndFields) : Word :=
  f.table1 ++ f.table2 ++ 0#1 ++ BitVec.ofBool flip ++ f.b1 ++ f.b2 ++ f.g1 ++ f.g2 ++ f.r1 ++ f.r2

/-- The word `top` of a differential-mode block (R112, R63), `flip` given. -/
def difTop (flip : Bool) (f : DifFields) : Word :=
  f.table1 ++ f.table2 ++ 1#1 ++ BitVec.ofBool flip ++ f.b ++ f.db ++ f.g ++ f.dg ++ f.r ++ f.dr

/-- The space an instruction is encoded in, under the marker `m`. -/
def Instr.space (m : Byte) : Instr → Space
  | .mark _ => .marker
  | .lit _ => .token m
  | .esc => .token m
  | .bref _ _ => .token m
  | .etcIndNf _ => .colour
  | .etcIndFl _ => .colour
  | .etcDifNf _ => .colour
  | .etcDifFl _ => .colour
  | .etcA4 _ => .alpha
  | .cmdDecompress => .command
  | .cmdParseHeader => .command
  | .cmdDecodeBlock => .command
  | .cmdBuildScramble => .command
  | .cmdDecodeTex => .command
  | .cmdDecodeEntry => .command
  | .cmdDecodeRaw => .command
  | .cmdReserved _ => .command

/-- The bytes of an instruction under the marker `m`, written from the same encoding tables (R93 to R103, R109,
R111, R112). -/
def encode (m : Byte) : Instr → List Byte
  | .mark x => [x]
  | .lit b => [b]
  | .esc => [m, m]
  | .bref o c => [m, o, c]
  | .etcIndNf f => leBytes (indTop false f) ++ leBytes f.bottom
  | .etcIndFl f => leBytes (indTop true f) ++ leBytes f.bottom
  | .etcDifNf f => leBytes (difTop false f) ++ leBytes f.bottom
  | .etcDifFl f => leBytes (difTop true f) ++ leBytes f.bottom
  | .etcA4 a => leBytes (a.extractLsb' 0 32) ++ leBytes (a.extractLsb' 32 32)
  | .cmdDecompress => [1#8]
  | .cmdParseHeader => [2#8]
  | .cmdDecodeBlock => [3#8]
  | .cmdBuildScramble => [4#8]
  | .cmdDecodeTex => [5#8]
  | .cmdDecodeEntry => [6#8]
  | .cmdDecodeRaw => [7#8]
  | .cmdReserved c => [c]

/-- "length_bytes" of the instruction's row in the opcode table (R90). -/
def Instr.size : Instr → Nat
  | .mark _ => 1
  | .lit _ => 1
  | .esc => 2
  | .bref _ _ => 3
  | .etcIndNf _ => 8
  | .etcIndFl _ => 8
  | .etcDifNf _ => 8
  | .etcDifFl _ => 8
  | .etcA4 _ => 8
  | .cmdDecompress => 1
  | .cmdParseHeader => 1
  | .cmdDecodeBlock => 1
  | .cmdBuildScramble => 1
  | .cmdDecodeTex => 1
  | .cmdDecodeEntry => 1
  | .cmdDecodeRaw => 1
  | .cmdReserved _ => 1

/-- Byte `j` of the number `w`, byte 0 the least significant: the opcode table's bit numbering. -/
def tableByte (w j : Nat) : Byte := BitVec.ofNat 8 (w / 256 ^ j)

/-- The eight bytes of a table word. -/
def tableBytes (w : Nat) : List Byte :=
  [tableByte w 0, tableByte w 1, tableByte w 2, tableByte w 3,
   tableByte w 4, tableByte w 5, tableByte w 6, tableByte w 7]

/-- The space a table word of `nbits` bits is read in (log 10): one byte is a command code, two or three bytes
are a marker-prefixed token whose prefix is the marker, more is a colour block. -/
def tableSpace (nbits w : Nat) : Space :=
  if nbits ≤ 8 then .command
  else if nbits ≤ 24 then .token (tableByte w 0)
  else .colour

/-- The instruction the decoder reads from a word numbered as the opcode table numbers it. -/
def decodeTableWord (nbits w : Nat) : Option Instr :=
  match decode (tableSpace nbits w) (tableBytes w) with
  | .ok (i, _) => some i
  | .error _ => none

end Sys2Proof
end

