-- ==== Sys2Proof/Machine/State.lean ====
section
/-! DEFINITION. The state of one instance of AMLU-CORE (10_state.md R20 to R36), as plain data, its reset value
(R39), and the reasons for which the model can stop. -/

namespace Sys2Proof.Machine

open Sys2Proof.Config (BufName Params)

/-- One address space (R60): the cells something specified was written to, by rising address, and which draw of
unspecified contents stands behind every other cell (log 2). -/
structure Memory (w : Nat) where
  cells : List (Nat × BitVec w)
  gen : Nat
  deriving DecidableEq, Repr

/-- STATUS (R23). Bits 7:5 do not exist; I17: a model stores only the defined bits. -/
structure Status where
  busy : Bool
  done : Bool
  err : Bool
  warnSize : Bool
  diffOvf : Bool
  deriving DecidableEq, Repr

/-- CTRL (R25). Bits 7:2 do not exist. -/
structure Ctrl where
  strict : Bool
  rawLz : Bool
  deriving DecidableEq, Repr

/-- The TextureInfo registers TI_* (R29). -/
structure TextureInfo where
  magic : Word
  filePathOff : Word
  dataSize : Word
  dataOff : Word
  format : Word
  width : Half
  height : Half
  mipLevel : Byte
  type : Byte
  cubeMap : Half
  bmpSizeOff : Word
  timestamp : Word
  fmtClass : BitVec 2
  valid : Bool
  sizeOk : Bool
  deriving DecidableEq, Repr

/-- LZD working registers (R30, R31). `out_len` is the host register OUT_LEN. -/
structure LzdRegs where
  m : Byte
  ip : Word
  b0 : Byte
  b1 : Byte
  b2 : Byte
  o : Byte
  c : Byte
  src : Word
  k : Byte
  deriving DecidableEq, Repr

/-- ETC working registers (R32), with the operand `has_alpha` of R170. -/
structure EtcRegs where
  top : Word
  bottom : Word
  flip : Bool
  differential : Bool
  table1 : BitVec 3
  table2 : BitVec 3
  r1 : Byte
  g1 : Byte
  b1 : Byte
  r2 : Byte
  g2 : Byte
  b2 : Byte
  x : BitVec 2
  y : BitVec 2
  idx : BitVec 4
  sel : BitVec 2
  delta : Int
  alpha : Byte
  hasAlpha : Bool
  deriving DecidableEq, Repr

/-- TSA working registers (R33). -/
structure TsaRegs where
  baseNumber : Word
  rowNumber : Word
  baseToggle : Bool
  rowToggle : Bool
  t : Word
  tilesX : BitVec 14
  tilesY : BitVec 14
  deriving DecidableEq, Repr

/-- ASM working registers (R34); `n` is the tile count `N`, the last three the texture-data view of R230. -/
structure AsmRegs where
  s : BitVec 28
  i : BitVec 28
  r : BitVec 2
  n : BitVec 28
  tilesX : BitVec 14
  tilesY : BitVec 14
  w : Half
  h : Half
  alpha : Bool
  tdBuf : BufName
  tdOff : Word
  tdLen : Word
  deriving DecidableEq, Repr

/-- The model's own sequencer (log 4): which unit step comes next in a command that is run step by step (R329).
`idle` between commands. -/
inductive Seq where
  | idle
  /-- LZD's start step, MARK (R121). -/
  | mark
  /-- LZD's fetch and dispatch (R122). -/
  | token
  /-- HDR (R151 to R156). -/
  | header
  /-- The dimension check of CMD.BUILD_SCRAMBLE and the start of TSA (R254, R210, R211). -/
  | scramble
  /-- The format check of CMD.DECODE_ENTRY and ASM's checks (R256, R231, R232). -/
  | assemble
  /-- ASM's block fetch (R233). -/
  | block
  /-- ETC.A4 (R188). -/
  | alpha
  /-- The colour instruction of the block in CBLK (R172). -/
  | colour
  /-- ASM's copy of TILEOUT into IMG0 (R234). -/
  | store
  /-- One TSA position (R212). -/
  | table
  /-- One tile copy of ASM's stage 3 (R236). -/
  | gather
  /-- A host access has disturbed the command (R323, R324): it still ends, its results unspecified (log 6). `rawLz`:
  RAW_LZ was 1 at some moment of the run, so that either row of CMD.DECODE_RAW may be its own (R261, R324). -/
  | disturbed (rawLz : Bool)
  deriving DecidableEq, Repr

/-- The host registers (R21), in the order of their numbers 0 to 27. -/
inductive HostReg where
  | CMD | STATUS | ERR_CODE | ERR_INFO | CTRL | IN_LEN | OUT_LEN | WIDTH | HEIGHT | HAS_ALPHA
  | SCR_LEN | IMG_W | IMG_H | TI_MAGIC | TI_FILEPATHOFF | TI_DATASIZE | TI_DATAOFF | TI_FORMAT
  | TI_WIDTH | TI_HEIGHT | TI_MIPLEVEL | TI_TYPE | TI_CUBEMAP | TI_BMPSIZEOFF | TI_TIMESTAMP
  | TI_FMTCLASS | TI_VALID | TI_SIZE_OK
  deriving DecidableEq, Repr

/-- What the outside can do to the block (log 5): the host's register and buffer accesses (R21, R62) and the
platform's reset (R320). -/
inductive HostOp where
  /-- Write `v` to register `r`. Written to CMD it launches a command, whose end the host waits for (R22, R329). -/
  | writeReg (r : HostReg) (v : Word)
  /-- Write `c` to CMD and go on: the command runs unit step by unit step (R329). -/
  | start (c : Byte)
  /-- Read register `r` into `readData`. -/
  | readReg (r : HostReg)
  /-- Write byte `a` of buffer `b`. -/
  | writeBuf (b : BufName) (a : Nat) (v : Byte)
  /-- Read byte `a` of buffer `b` into `readData`. -/
  | readBuf (b : BufName) (a : Nat)
  /-- Read entry `i` of SCR into `readData` (R67: an entry is read whole). -/
  | readScr (i : Nat)
  /-- The platform applies reset (R320). -/
  | reset
  deriving DecidableEq, Repr

/-- A pending action, and how many unit steps of a running command pass before it lands. On an idle block it
lands at once. -/
structure HostEvent where
  after : Nat
  op : HostOp
  deriving DecidableEq, Repr

/-- The whole state (R20). -/
structure State where
  /-- The parameters of R9; no step writes them. -/
  params : Params
  -- the host register file (R21 to R29)
  cmd : Byte
  status : Status
  errCode : Byte
  errInfo : Word
  ctrl : Ctrl
  inLen : Word
  outLen : Word
  width : Half
  height : Half
  hasAlpha : Bool
  scrLen : Word
  imgW : Half
  imgH : Half
  ti : TextureInfo
  -- the working registers of the units (R30 to R34)
  lzd : LzdRegs
  etc : EtcRegs
  tsa : TsaRegs
  asm : AsmRegs
  -- the buffers (R36)
  inBuf : Memory 8
  outBuf : Memory 8
  cblk : Memory 8
  ablk : Memory 8
  tileout : Memory 8
  img0 : Memory 8
  img1 : Memory 8
  scr : Memory 32
  -- the model's own fields (log 2, 4, 5)
  seq : Seq
  host : List HostEvent
  readData : Word
  draws : Nat
  deriving DecidableEq, Repr

/-- Why a step of the model can stop with a fault. No instruction raises one: the spec's own faults are recorded
in ERR_CODE and ERR_INFO and the machine goes on (R296). -/
inductive Fault where
  /-- Raised by a host access to a byte or entry at or beyond the capacity of its buffer (R36: the buffer has no
  such byte). Safe: the model stops where the spec gives the access no meaning. -/
  | outsideBuffer
  deriving DecidableEq, Repr

/-- Why a step of the model can be refused. -/
inductive Refusal where
  /-- An instruction without a meaning in this model. No arm of `exec` answers it now. Safe. -/
  | notModelled (mnemonic : String)
  /-- Raised by a host write to TILEOUT, IMG0 or IMG1, which R62 does not let the host write and for which no
  rule gives an effect. Safe. -/
  | bufferNotHostWritable
  deriving DecidableEq, Repr

/-- R39 for a buffer: nothing specified in it. -/
def Memory.blank (w gen : Nat) : Memory w := { cells := [], gen := gen }

/-- The machine right after reset (R39, R321): every host register 0, every working register 0 (log 1), every
buffer unspecified (log 2), the parameters of log 3, nothing pending. -/
def State.reset : State where
  params := Config.vectorParams
  cmd := 0#8
  status := { busy := false, done := false, err := false, warnSize := false, diffOvf := false }
  errCode := 0#8
  errInfo := 0#32
  ctrl := { strict := false, rawLz := false }
  inLen := 0#32
  outLen := 0#32
  width := 0#16
  height := 0#16
  hasAlpha := false
  scrLen := 0#32
  imgW := 0#16
  imgH := 0#16
  ti :=
    { magic := 0#32, filePathOff := 0#32, dataSize := 0#32, dataOff := 0#32, format := 0#32
      width := 0#16, height := 0#16, mipLevel := 0#8, type := 0#8, cubeMap := 0#16
      bmpSizeOff := 0#32, timestamp := 0#32, fmtClass := 0#2, valid := false, sizeOk := false }
  lzd := { m := 0#8, ip := 0#32, b0 := 0#8, b1 := 0#8, b2 := 0#8, o := 0#8, c := 0#8, src := 0#32, k := 0#8 }
  etc :=
    { top := 0#32, bottom := 0#32, flip := false, differential := false, table1 := 0#3, table2 := 0#3
      r1 := 0#8, g1 := 0#8, b1 := 0#8, r2 := 0#8, g2 := 0#8, b2 := 0#8, x := 0#2, y := 0#2
      idx := 0#4, sel := 0#2, delta := 0, alpha := 0#8, hasAlpha := false }
  tsa :=
    { baseNumber := 0#32, rowNumber := 0#32, baseToggle := false, rowToggle := false, t := 0#32
      tilesX := 0#14, tilesY := 0#14 }
  asm :=
    { s := 0#28, i := 0#28, r := 0#2, n := 0#28, tilesX := 0#14, tilesY := 0#14, w := 0#16, h := 0#16
      alpha := false, tdBuf := .IN, tdOff := 0#32, tdLen := 0#32 }
  inBuf := Memory.blank 8 0
  outBuf := Memory.blank 8 0
  cblk := Memory.blank 8 0
  ablk := Memory.blank 8 0
  tileout := Memory.blank 8 0
  img0 := Memory.blank 8 0
  img1 := Memory.blank 8 0
  scr := Memory.blank 32 0
  seq := .idle
  host := []
  readData := 0#32
  draws := 1

end Sys2Proof.Machine
end

