-- ==== Sys2Proof/Machine/Flags.lean ====
section
/-! DEFINITION. Every flag computation of the block: the bits of STATUS (R23), of CTRL (R25), the differential
overflow (R177) and the size warning (R156). -/

namespace Sys2Proof.Machine

/-- STATUS as the host reads it (R23): BUSY bit 0, DONE 1, ERR 2, WARN_SIZE 3, DIFF_OVF 4, bits 7:5 zero. -/
def Status.word (t : Status) : Byte :=
  0#3 ++ BitVec.ofBool t.diffOvf ++ BitVec.ofBool t.warnSize ++ BitVec.ofBool t.err ++
    BitVec.ofBool t.done ++ BitVec.ofBool t.busy

/-- R250: STATUS at launch. -/
def Status.launched : Status :=
  { busy := true, done := false, err := false, warnSize := false, diffOvf := false }

/-- R260: STATUS at completion. The warnings stay. -/
def Status.completed (t : Status) : Status := { t with busy := false, done := true }

/-- R296: STATUS at a fault. The warnings stay. -/
def Status.faulted (t : Status) : Status := { t with err := true, busy := false, done := true }

/-- CTRL as the host reads it (R25): STRICT bit 0, RAW_LZ bit 1, bits 7:2 zero. -/
def Ctrl.word (c : Ctrl) : Byte := 0#6 ++ BitVec.ofBool c.rawLz ++ BitVec.ofBool c.strict

/-- CTRL as the host writes it (R25): writes to bits 7:2 are ignored. -/
def Ctrl.ofWord (v : Word) : Ctrl := { strict := v.getLsbD 0, rawLz := v.getLsbD 1 }

/-- R177: the exact sum of a 5-bit base and a delta, -4 .. 34. -/
def sum5 (c : BitVec 5) (d : BitVec 3) : Int := c.toNat + d.toInt

/-- R177: the sum leaves 0 .. 31. -/
def overflow5 (c : BitVec 5) (d : BitVec 3) : Bool := decide (sum5 c d < 0 ∨ 31 < sum5 c d)

/-- R177: DIFF_OVF of a differential block, set when any of its three sums leaves 0 .. 31 (R186). -/
def diffOverflow (f : DifFields) : Bool :=
  overflow5 f.r f.dr || overflow5 f.g f.dg || overflow5 f.b f.db

/-- R177: DIFF_OVF is sticky within a command. -/
def Status.withDiffOvf (t : Status) (v : Bool) : Status := { t with diffOvf := t.diffOvf || v }

/-- R156: WARN_SIZE. -/
def Status.withWarnSize (t : Status) : Status := { t with warnSize := true }

end Sys2Proof.Machine
end

