-- ==== Sys2Proof/Machine/Operands.lean ====
section
/-! DEFINITION. The operand forms of AMLU-CORE: the offset of a back-reference (R97), colour expansion (R176),
sub-block and selector choice (R178, R179), the modulation table (R35), alpha nibbles (R103), tile placement
(R71). Every function here is pure. -/

namespace Sys2Proof.Machine

open Sys2Proof.Config (BufName)

/-! LZD -/

/-- R97: the effective offset of the raw byte `o` under the marker `m` (unsigned compare). -/
def effectiveOffset (m o : Byte) : Byte := if m.toNat < o.toNat then o - 1#8 else o

/-! ETC -/

/-- R35: the rows of the ModulationTable. The values are the spec's `[from general knowledge]` passage G1. -/
def modRows : List (List Int) :=
  [[2, 8, -2, -8], [5, 17, -5, -17], [9, 29, -9, -29], [13, 42, -13, -42],
   [18, 60, -18, -60], [24, 80, -24, -80], [33, 106, -33, -106], [47, 183, -47, -183]]

/-- R35, R180: `MOD_TABLE[row][col]`. -/
def MOD_TABLE (row : BitVec 3) (col : BitVec 2) : Int := (modRows.getD row.toNat []).getD col.toNat 0

/-- R176: a 4-bit channel to 8 bits, by nibble replication. -/
def exp4 (c : BitVec 4) : Byte := BitVec.ofNat 8 (c.toNat * 16 + c.toNat)

/-- R176: a 5-bit channel to 8 bits, its top 3 bits replicated below. -/
def exp5 (c : BitVec 5) : Byte := BitVec.ofNat 8 (c.toNat * 8 + c.toNat / 4)

/-- R177: the second 5-bit channel, the sum wrapped to 5 bits. -/
def add5 (c : BitVec 5) (d : BitVec 3) : BitVec 5 := BitVec.ofInt 5 (sum5 c d)

/-- R13: saturation to 0 .. 255. -/
def sat8 (v : Int) : Byte := if v < 0 then 0#8 else if 255 < v then 255#8 else BitVec.ofNat 8 v.toNat

/-- A base colour after expansion, with the table row that goes with it (R178). -/
structure SubBlock where
  r : Byte
  g : Byte
  b : Byte
  table : BitVec 3
  deriving DecidableEq, Repr

/-- R174: the first sub-block of an individual-mode block. -/
def indFirst (f : IndFields) : SubBlock :=
  { r := exp4 f.r1, g := exp4 f.g1, b := exp4 f.b1, table := f.table1 }

/-- R174: the second sub-block of an individual-mode block. -/
def indSecond (f : IndFields) : SubBlock :=
  { r := exp4 f.r2, g := exp4 f.g2, b := exp4 f.b2, table := f.table2 }

/-- R175: the first sub-block of a differential-mode block. -/
def difFirst (f : DifFields) : SubBlock :=
  { r := exp5 f.r, g := exp5 f.g, b := exp5 f.b, table := f.table1 }

/-- R175, R177: the second sub-block of a differential-mode block. -/
def difSecond (f : DifFields) : SubBlock :=
  { r := exp5 (add5 f.r f.dr), g := exp5 (add5 f.g f.dg), b := exp5 (add5 f.b f.db), table := f.table2 }

/-- R178: pixel `(x, y)` lies in the first sub-block. -/
def inFirst (flip : Bool) (x y : BitVec 2) : Bool :=
  if flip then decide (y.toNat < 2) else decide (x.toNat < 2)

/-- R179: `idx = x*4 + y`. -/
def pixelIndex (x y : BitVec 2) : Nat := x.toNat * 4 + y.toNat

/-- R179: the low selector bit of pixel `idx`. -/
def selLsb (bottom : Word) (idx : Nat) : Bool :=
  if idx < 8 then bottom.getLsbD (idx + 24) else bottom.getLsbD (idx + 8)

/-- R179: the high selector bit of pixel `idx`. -/
def selMsb (bottom : Word) (idx : Nat) : Bool :=
  if idx < 8 then bottom.getLsbD (idx + 8) else bottom.getLsbD (idx - 8)

/-- R179: `sel = 2*msb + lsb`. -/
def selector (bottom : Word) (idx : Nat) : BitVec 2 :=
  BitVec.ofBool (selMsb bottom idx) ++ BitVec.ofBool (selLsb bottom idx)

/-- R182: the nibble of scan position `p` in its byte: low for even `p`, high for odd. -/
def nibbleOf (byte : Byte) (p : Nat) : BitVec 4 :=
  if p % 2 = 0 then byte.extractLsb' 0 4 else byte.extractLsb' 4 4

/-- R182: 4-bit alpha to 8 bits, `nib*16 + nib`. -/
def expAlpha (nib : BitVec 4) : Byte := BitVec.ofNat 8 (nib.toNat * 16 + nib.toNat)

/-- R183: the byte of TILEOUT where pixel `(x, y)` starts. -/
def pixelOffset (x y : BitVec 2) : Nat := (y.toNat * 4 + x.toNat) * 4

/-- The 16 pixel coordinates in the order of `decode_pixels`: x outer, y inner. -/
def scanOrder : List (BitVec 2 × BitVec 2) :=
  [0#2, 1#2, 2#2, 3#2].flatMap fun x => [0#2, 1#2, 2#2, 3#2].map fun y => (x, y)

/-! ASM -/

/-- R71: the byte where row `r` of the tile with index `k` starts, in an image `w` pixels wide. -/
def rowOffset (w tilesX k r : Nat) : Nat := ((4 * (k / tilesX) + r) * w + 4 * (k % tilesX)) * 4

/-- R232: bytes per stored block. -/
def blockSize (alpha : Bool) : Nat := if alpha then 16 else 8

/-- The operands of ASM (R230). -/
structure AsmOperands where
  w : Half
  h : Half
  alpha : Bool
  buf : BufName
  off : Nat
  len : Nat
  deriving DecidableEq, Repr

/-- R230, R255, R257: the view `(IN, 0, IN_LEN)` with the raw-mode operands. -/
def operandsOfIn (s : State) : AsmOperands :=
  { w := s.width, h := s.height, alpha := s.hasAlpha, buf := .IN, off := 0, len := s.inLen.toNat }

/-- R230, R257: the view `(OUT, 0, OUT_LEN)` with the raw-mode operands. -/
def operandsOfOut (s : State) : AsmOperands :=
  { w := s.width, h := s.height, alpha := s.hasAlpha, buf := .OUT, off := 0, len := s.outLen.toNat }

/-- R230, R256: the view `(OUT, 36, OUT_LEN - 36)` with the operands of the parsed header. -/
def operandsOfEntry (s : State) : AsmOperands :=
  { w := s.ti.width, h := s.ti.height, alpha := s.ti.fmtClass == 1#2, buf := .OUT, off := 36
    len := s.outLen.toNat - 36 }

end Sys2Proof.Machine
end

