-- ==== Sys2Proof/Machine/Ops.lean ====
section
/-! DEFINITION. The named operations every meaning is written over: buffer reads and writes, forgetting, raising a
fault and what follows it (R296, R298), launch and completion of a command (R250, R260). -/

namespace Sys2Proof.Machine

open Sys2Proof.Config (BufName)

/-! ### Cells and buffers -/

/-- What stands in the first cell of `cells` at `a`. -/
def cellAt {w : Nat} : List (Nat × BitVec w) → Nat → Option (BitVec w)
  | [], _ => none
  | (b, v) :: rest, a => if a = b then some v else cellAt rest a

/-- `cells` with `v` at `a`, keeping rising addresses. -/
def putCell {w : Nat} : List (Nat × BitVec w) → Nat → BitVec w → List (Nat × BitVec w)
  | [], a, v => [(a, v)]
  | (b, x) :: rest, a, v =>
    if a < b then (a, v) :: (b, x) :: rest
    else if a = b then (a, v) :: rest
    else (b, x) :: putCell rest a v

/-- What stands at `a`, if anything specified does. -/
def Memory.get? {w : Nat} (m : Memory w) (a : Nat) : Option (BitVec w) := cellAt m.cells a

/-- Write `v` at `a`. -/
def Memory.set {w : Nat} (m : Memory w) (a : Nat) (v : BitVec w) : Memory w :=
  { m with cells := putCell m.cells a v }

/-- The canonical form: addresses strictly rising. An unlisted cell reads as no value (`get?` is `none`), so no
entry can equal what an unlisted address reads as. -/
abbrev Memory.wf {w : Nat} (m : Memory w) : Prop := List.Pairwise (fun p q => p.1 < q.1) m.cells

/-- The byte buffer of that name (R36). -/
def State.buf (s : State) : BufName → Memory 8
  | .IN => s.inBuf
  | .OUT => s.outBuf
  | .CBLK => s.cblk
  | .ABLK => s.ablk
  | .TILEOUT => s.tileout
  | .IMG0 => s.img0
  | .IMG1 => s.img1

/-- `s` with that byte buffer replaced. -/
def State.setBuf (s : State) (b : BufName) (m : Memory 8) : State :=
  match b with
  | .IN => { s with inBuf := m }
  | .OUT => { s with outBuf := m }
  | .CBLK => { s with cblk := m }
  | .ABLK => { s with ablk := m }
  | .TILEOUT => { s with tileout := m }
  | .IMG0 => { s with img0 := m }
  | .IMG1 => { s with img1 := m }

/-- `MemRead(b, a, 1)` (R13). Where nothing specified stands the value is the free value of log 2 (R39, R322). -/
def State.rd (s : State) (b : BufName) (a : Nat) : Byte :=
  ((s.buf b).get? a).getD (Config.unspecByte b (s.buf b).gen a)

/-- `MemWrite(b, a, 1, v)` (R13). -/
def State.wr (s : State) (b : BufName) (a : Nat) (v : Byte) : State := s.setBuf b ((s.buf b).set a v)

/-- The read of entry `i` of SCR (R110). -/
def State.rdScr (s : State) (i : Nat) : Word := (s.scr.get? i).getD (Config.unspecEntry s.scr.gen i)

/-- `SCR[i] <- v` (R214). -/
def State.wrScr (s : State) (i : Nat) (v : Word) : State := { s with scr := s.scr.set i v }

/-- Write `f 0 .. f (n-1)` to bytes `a .. a+n-1` of `b`, in rising order. -/
def State.fill (b : BufName) (a : Nat) (f : Nat → Byte) : Nat → State → State
  | 0, s => s
  | n + 1, s => (State.fill b a f n s).wr b (a + n) (f n)

/-- The contents of `b` become unspecified (log 7): nothing is listed and a fresh draw stands behind it. -/
def State.forget (s : State) (b : BufName) : State :=
  { s.setBuf b (Memory.blank 8 s.draws) with draws := s.draws + 1 }

/-- The contents of SCR become unspecified (log 7). -/
def State.forgetScr (s : State) : State :=
  { s with scr := Memory.blank 32 s.draws, draws := s.draws + 1 }

/-- R9, R36: how many bytes the buffer has. -/
def State.capacity (s : State) : BufName → Nat
  | .IN => s.params.inCap.toNat
  | .OUT => s.params.outCap.toNat
  | .CBLK => 8
  | .ABLK => 8
  | .TILEOUT => 64
  | .IMG0 => s.params.imgCap
  | .IMG1 => s.params.imgCap

/-! ### Taking a fault, and what follows it -/

/-- The fault codes of R281, NONE left out. -/
inductive FaultName where
  | formatError | sizeMismatch | unsupportedFormat | lzBounds | lzTruncated | outOverflow
  | texTruncated | dimError | scrRange | badCmd | capacity
  deriving DecidableEq, Repr

/-- R281: the number of each fault. -/
def FaultName.code : FaultName → Byte
  | .formatError => 0x01#8
  | .sizeMismatch => 0x02#8
  | .unsupportedFormat => 0x03#8
  | .lzBounds => 0x04#8
  | .lzTruncated => 0x10#8
  | .outOverflow => 0x11#8
  | .texTruncated => 0x12#8
  | .dimError => 0x13#8
  | .scrRange => 0x14#8
  | .badCmd => 0x15#8
  | .capacity => 0x16#8

/-- Taking a fault (R296): the one shared operation. The block is idle afterwards; nothing else is saved and
control goes nowhere. DESIGN CHOICE (log 20): every buffer and register keeps what stood in it, those too that R297
does not list as valid after the fault and I20 leaves at any value; only SCR_RANGE forgets buffers (`scrRange`). -/
def raise (e : FaultName) (info : Nat) (s : State) : State :=
  { s with errCode := e.code, errInfo := BitVec.ofNat 32 info, status := s.status.faulted, seq := .idle }

/-- What acknowledges a fault and takes the place of a return from it (R298): the clears every launch makes
(R250), with the new code in CMD. -/
def acknowledge (c : Byte) (s : State) : State :=
  { s with cmd := c, status := Status.launched, errCode := 0#8, errInfo := 0#32 }

/-- The faults in the order of their codes (R281). -/
def FaultName.all : List FaultName :=
  [.formatError, .sizeMismatch, .unsupportedFormat, .lzBounds, .lzTruncated, .outOverflow, .texTruncated,
    .dimError, .scrRange, .badCmd, .capacity]

/-- A fault drawn by `n`. -/
def FaultName.drawn (n : Nat) : FaultName := FaultName.all.getD (n % 11) .capacity

/-- A running command after one of its operations: it goes on, or a fault has ended it (R11, R296). -/
inductive Flow where
  | go (s : State)
  | ended (s : State)
  deriving DecidableEq, Repr

/-- The state reached. -/
def Flow.state : Flow → State
  | .go s => s
  | .ended s => s

/-- "Nothing after a `raise` in a rule is executed" (R13). -/
def Flow.andThen (x : Flow) (f : State → Flow) : Flow :=
  match x with
  | .go s => f s
  | .ended s => .ended s

/-- At most `n` times `f`, stopping at a fault. -/
def Flow.times (f : State → Flow) : Nat → State → Flow
  | 0, s => .go s
  | n + 1, s => (f s).andThen (Flow.times f n)

/-- End the command as faulted. -/
def stop (e : FaultName) (info : Nat) (s : State) : Flow := .ended (raise e info s)

/-! ### Launch and completion -/

/-- R250: the commands that run HDR. -/
def runsHeader (c : Byte) : Bool := c == 2#8 || c == 6#8

/-- R250: the commands that read IN. -/
def readsIn (c : Byte) : Bool := c == 1#8 || c == 5#8 || c == 6#8 || c == 7#8

/-- R109, R258: the reserved codes. -/
def isReserved (c : Byte) : Bool := c == 0#8 || decide (8 ≤ c.toNat)

/-- `TI_VALID <- 0` (R250). -/
def clearValid (s : State) : State := { s with ti := { s.ti with valid := false } }

/-- Launch (R250): the clears, then BAD_CMD, `TI_VALID <- 0`, CAPACITY(0), CAPACITY(1), in that order. -/
def launch (c : Byte) (s : State) : Flow :=
  let s := acknowledge c s
  if isReserved c then stop .badCmd c.toNat s
  else
    let s := if runsHeader c then clearValid s else s
    if readsIn c ∧ s.params.inCap.toNat < s.inLen.toNat then stop .capacity 0 s
    else if c = 2#8 ∧ s.params.outCap.toNat < s.outLen.toNat then stop .capacity 1 s
    else .go s

/-- Completion (R260). -/
def complete (s : State) : State := { s with status := s.status.completed, seq := .idle }

/-- R260: a command that has not faulted completes. -/
def finish : Flow → State
  | .go s => complete s
  | .ended s => s

/-- A host command run to its end as one function (R329): a CMD write is dropped while BUSY = 1 (R259), else the
command is launched, run and ended. -/
def command (c : Byte) (body : State → Flow) (s : State) : State :=
  if s.status.busy then s else finish ((launch c s).andThen body)

end Sys2Proof.Machine
end

