-- ==== Sys2Proof/Machine/Etc.lean ====
section
/-! DEFINITION. ETC, the block decoder (42_etc_block_decoder.md): the pixel step, the colour operations, the alpha
operation, the unit, and the meanings of the five block instructions. -/

namespace Sys2Proof.Machine

/-- The sub-block pixel `(x, y)` lies in (R178). -/
def chosen (flip : Bool) (p q : SubBlock) (x y : BitVec 2) : SubBlock := if inFirst flip x y then p else q

/-- R182: the alpha of scan position `idx`; ABLK is read only when `has_alpha = 1`. -/
def pixelAlpha (s : State) (idx : Nat) : Byte :=
  if s.etc.hasAlpha then expAlpha (nibbleOf (s.rd .ABLK (idx / 2)) idx) else 255#8

/-- The modulation of pixel `(x, y)` (R178 to R180). -/
def pixelDelta (s : State) (flip : Bool) (p q : SubBlock) (x y : BitVec 2) : Int :=
  MOD_TABLE (chosen flip p q x y).table (selector s.etc.bottom (pixelIndex x y))

/-- R181: one channel, the delta added and saturated. -/
def modulate (channel : Byte) (delta : Int) : Byte := sat8 (channel.toNat + delta)

/-- The per-pixel registers of R32 while pixel `(x, y)` is decoded. -/
def latchPixel (s : State) (flip : Bool) (p q : SubBlock) (x y : BitVec 2) : State :=
  { s with etc := { s.etc with
      x := x, y := y
      idx := BitVec.ofNat 4 (pixelIndex x y)
      sel := selector s.etc.bottom (pixelIndex x y)
      delta := pixelDelta s flip p q x y
      alpha := pixelAlpha s (pixelIndex x y) } }

/-- Write one pixel to TILEOUT, bytes R, G, B, A (R183). -/
def putPixel (x y : BitVec 2) (r g b a : Byte) (s : State) : State :=
  (((s.wr .TILEOUT (pixelOffset x y) r).wr .TILEOUT (pixelOffset x y + 1) g).wr
    .TILEOUT (pixelOffset x y + 2) b).wr .TILEOUT (pixelOffset x y + 3) a

/-- Reconstruct pixel `(x, y)` (R178 to R183). -/
def decodePixel (flip : Bool) (p q : SubBlock) (s : State) (xy : BitVec 2 × BitVec 2) : State :=
  putPixel xy.1 xy.2
    (modulate (chosen flip p q xy.1 xy.2).r (pixelDelta s flip p q xy.1 xy.2))
    (modulate (chosen flip p q xy.1 xy.2).g (pixelDelta s flip p q xy.1 xy.2))
    (modulate (chosen flip p q xy.1 xy.2).b (pixelDelta s flip p q xy.1 xy.2))
    (pixelAlpha s (pixelIndex xy.1 xy.2))
    (latchPixel s flip p q xy.1 xy.2)

/-- `decode_pixels` (42_etc_block_decoder.md section 5). -/
def decodePixels (flip : Bool) (p q : SubBlock) (s : State) : State :=
  scanOrder.foldl (decodePixel flip p q) s

/-- The block registers of R32: words, mode bits, tables and base colours (R171 to R175). -/
def latchBlock (top bottom : Word) (flip differential : Bool) (p q : SubBlock) (s : State) : State :=
  { s with etc := { s.etc with
      top := top, bottom := bottom, flip := flip, differential := differential
      table1 := p.table, table2 := q.table
      r1 := p.r, g1 := p.g, b1 := p.b
      r2 := q.r, g2 := q.g, b2 := q.b } }

/-- The individual-mode block `f` (R184, R185). DIFF_OVF is not touched. -/
def decodeInd (flip : Bool) (f : IndFields) (s : State) : State :=
  decodePixels flip (indFirst f) (indSecond f)
    (latchBlock (indTop flip f) f.bottom flip false (indFirst f) (indSecond f) s)

/-- `STATUS.DIFF_OVF <- 1` when a sum leaves 0 .. 31 (R177). -/
def flagOverflow (f : DifFields) (s : State) : State :=
  { s with status := s.status.withDiffOvf (diffOverflow f) }

/-- The differential-mode block `f` (R186, R187). -/
def decodeDif (flip : Bool) (f : DifFields) (s : State) : State :=
  decodePixels flip (difFirst f) (difSecond f)
    (latchBlock (difTop flip f) f.bottom flip true (difFirst f) (difSecond f) (flagOverflow f s))

/-- R103: the nibble of scan position `p` of the alpha block `a`. -/
def alphaNibble (a : BitVec 64) (p : Nat) : BitVec 4 := a.extractLsb' (4 * p) 4

/-- Byte 3 of pixel `(x, y)` from the alpha block (R188). -/
def alphaPixel (a : BitVec 64) (s : State) (xy : BitVec 2 × BitVec 2) : State :=
  let v := expAlpha (alphaNibble a (pixelIndex xy.1 xy.2))
  State.wr
    { s with etc := { s.etc with
        x := xy.1, y := xy.2, idx := BitVec.ofNat 4 (pixelIndex xy.1 xy.2), alpha := v } }
    .TILEOUT (pixelOffset xy.1 xy.2 + 3) v

/-- ETC.A4 (R188): byte 3 of every pixel and nothing else. -/
def decodeAlpha (a : BitVec 64) (s : State) : State := scanOrder.foldl (alphaPixel a) s

/-! ### The unit -/

/-- The bytes of CBLK. -/
def colourBytes (s : State) : List Byte :=
  [s.rd .CBLK 0, s.rd .CBLK 1, s.rd .CBLK 2, s.rd .CBLK 3,
   s.rd .CBLK 4, s.rd .CBLK 5, s.rd .CBLK 6, s.rd .CBLK 7]

/-- The bytes of ABLK. -/
def alphaBytes (s : State) : List Byte :=
  [s.rd .ABLK 0, s.rd .ABLK 1, s.rd .ABLK 2, s.rd .ABLK 3,
   s.rd .ABLK 4, s.rd .ABLK 5, s.rd .ABLK 6, s.rd .ABLK 7]

/-- The operation of a block instruction. The decoders of the colour and alpha spaces answer no other. -/
def blockOp (i : Instr) (s : State) : State :=
  match i with
  | .etcIndNf f => decodeInd false f s
  | .etcIndFl f => decodeInd true f s
  | .etcDifNf f => decodeDif false f s
  | .etcDifFl f => decodeDif true f s
  | .etcA4 a => decodeAlpha a s
  | .mark _ => s
  | .lit _ => s
  | .esc => s
  | .bref _ _ => s
  | .cmdDecompress => s
  | .cmdParseHeader => s
  | .cmdDecodeBlock => s
  | .cmdBuildScramble => s
  | .cmdDecodeTex => s
  | .cmdDecodeEntry => s
  | .cmdDecodeRaw => s
  | .cmdReserved _ => s

/-- Decode the bytes of a block in its space and execute it. -/
def runBlock (sp : Space) (bytes : List Byte) (s : State) : State :=
  match decode sp bytes with
  | .ok (i, _) => blockOp i s
  | .error _ => s

/-- ETC with its operand `has_alpha` set (R170): the alpha block first when there is one (R104, R188), then the
colour block. -/
def etcRun (s : State) : State :=
  let s := if s.etc.hasAlpha then runBlock .alpha (alphaBytes s) s else s
  runBlock .colour (colourBytes s) s

/-- Set the operand `has_alpha` (R170). -/
def withAlpha (v : Bool) (s : State) : State := { s with etc := { s.etc with hasAlpha := v } }

/-! ### Meanings -/

/-- ETC.IND.NF (R184). -/
def execEtcIndNf (f : IndFields) (s : State) : Host.Outcome State Fault Refusal := .next (decodeInd false f s)

/-- ETC.IND.FL (R185). -/
def execEtcIndFl (f : IndFields) (s : State) : Host.Outcome State Fault Refusal := .next (decodeInd true f s)

/-- ETC.DIF.NF (R186). -/
def execEtcDifNf (f : DifFields) (s : State) : Host.Outcome State Fault Refusal := .next (decodeDif false f s)

/-- ETC.DIF.FL (R187). -/
def execEtcDifFl (f : DifFields) (s : State) : Host.Outcome State Fault Refusal := .next (decodeDif true f s)

/-- ETC.A4 (R188). -/
def execEtcA4 (a : BitVec 64) (s : State) : Host.Outcome State Fault Refusal := .next (decodeAlpha a s)

end Sys2Proof.Machine
end

