-- ==== Sys2Proof/Machine/Tsa.lean ====
section
/-! DEFINITION. TSA, the tile-scramble address generator (43_tsa_scrambler.md), one definition per step of the
algorithm that "must match bit-for-bit". -/

namespace Sys2Proof.Machine

/-- The number of positions of the grid in TSA's registers (R210). -/
def tsaCount (s : State) : Nat := s.tsa.tilesX.toNat * s.tsa.tilesY.toNat

/-- The grid, and the start-of-run values (R211). SCR's old entries are beyond the table now being built and so
unspecified (R216, log 7). -/
def tsaInit (tilesX tilesY : Nat) (s : State) : State :=
  { s.forgetScr with tsa :=
      { baseNumber := 0#32, rowNumber := 0#32, baseToggle := false, rowToggle := false, t := 0#32
        tilesX := BitVec.ofNat 14 tilesX, tilesY := BitVec.ofNat 14 tilesY } }

/-- The capacity check and the start of a build (R210, R211). DESIGN CHOICE (log 19): a build that the check ends leaves
TSA's registers as they were. -/
def tsaStart (tilesX tilesY : Nat) (s : State) : Flow :=
  if s.params.scrCap < tilesX * tilesY then stop .capacity 3 s else .go (tsaInit tilesX tilesY s)

/-- The new-row action (R213). -/
def newRow (g : TsaRegs) : TsaRegs :=
  if g.t.toNat % g.tilesX.toNat = 0 ∧ 0 < g.t.toNat then
    if g.rowToggle = false then
      { g with rowToggle := true, rowNumber := g.rowNumber + 2#32, baseNumber := g.rowNumber + 2#32 }
    else
      { g with rowToggle := false, baseNumber := g.baseNumber - 2#32, rowNumber := g.baseNumber - 2#32 }
  else g

/-- The base step (R215). -/
def baseStep (g : TsaRegs) : TsaRegs :=
  if g.baseToggle = false then { g with baseToggle := true, baseNumber := g.baseNumber + 1#32 }
  else { g with baseToggle := false, baseNumber := g.baseNumber + 3#32 }

/-- `t <- t + 1` (R212). -/
def nextPosition (g : TsaRegs) : TsaRegs := { g with t := g.t + 1#32 }

/-- One position (R212): the new-row action, the assignment (R214), the base step. -/
def tsaStep (s : State) : State :=
  let g := newRow s.tsa
  { s.wrScr g.t.toNat g.baseNumber with tsa := nextPosition (baseStep g) }

/-- Termination (R216). -/
def tsaEnd (s : State) : State := { s with scrLen := BitVec.ofNat 32 (tsaCount s) }

/-- TSA on a grid (R210 to R216). -/
def tsaRun (tilesX tilesY : Nat) (s : State) : Flow :=
  (tsaStart tilesX tilesY s).andThen fun s => .go (tsaEnd (tsaStep^[tsaCount s] s))

end Sys2Proof.Machine
end

