-- ==== Sys2Proof/Machine/Asm.lean ====
section
/-! DEFINITION. ASM, the texture assembler (44_asm_assembler.md). -/

namespace Sys2Proof.Machine

open Sys2Proof.Config (BufName)

/-- The operands of a run (R230), with the counters at their start (R34). -/
def asmLatch (p : AsmOperands) (s : State) : State :=
  { s with asm :=
      { s := 0#28, i := 0#28, r := 0#2
        n := BitVec.ofNat 28 ((p.w.toNat / 4) * (p.h.toNat / 4))
        tilesX := BitVec.ofNat 14 (p.w.toNat / 4), tilesY := BitVec.ofNat 14 (p.h.toNat / 4)
        w := p.w, h := p.h, alpha := p.alpha
        tdBuf := p.buf, tdOff := BitVec.ofNat 32 p.off, tdLen := BitVec.ofNat 32 p.len } }

/-- The checks before any block is decoded (R231, R232), ASM's registers set at the start of the run, whatever
the checks then answer (R34). DESIGN CHOICE (log 19): `tilesX`, `tilesY` and `N` are set with the others, rounded down,
also in a run that a dimension check ends before R231 assigns them; `has_alpha` goes to ETC when the checks have passed. -/
def asmStart (p : AsmOperands) (s : State) : Flow :=
  let s := asmLatch p s
  let n := (p.w.toNat / 4) * (p.h.toNat / 4)
  if p.w.toNat % 4 ≠ 0 then stop .dimError 0 s
  else if p.h.toNat % 4 ≠ 0 then stop .dimError 1 s
  else if s.params.imgCap < p.w.toNat * p.h.toNat * 4 then stop .capacity 2 s
  else if s.params.scrCap < n then stop .capacity 3 s
  else if p.len < n * blockSize p.alpha then stop .texTruncated p.len s
  else .go (withAlpha p.alpha s)

/-- `TD[j]` (R230). -/
def tdByte (s : State) (j : Nat) : Byte := s.rd s.asm.tdBuf (s.asm.tdOff.toNat + j)

/-- R233: where block `s` starts in the texture data. -/
def blockBase (s : State) : Nat := s.asm.s.toNat * blockSize s.asm.alpha

/-- R233: where its colour half starts. -/
def colourBase (s : State) : Nat := if s.asm.alpha then blockBase s + 8 else blockBase s

/-- R233: the byte that goes to `CBLK[j]`. -/
def colourByte (s : State) (j : Nat) : Byte :=
  if s.params.colorRev then tdByte s (colourBase s + (7 - j)) else tdByte s (colourBase s + j)

/-- Block fetch (R233): the alpha half, never reversed, and the colour half. -/
def asmFetch (s : State) : State :=
  State.fill .CBLK 0 (colourByte s) 8
    (if s.asm.alpha then State.fill .ABLK 0 (fun j => tdByte s (blockBase s + j)) 8 s else s)

/-- One row of a tile (R71): 16 bytes into row `r` of tile `k` of an image buffer. -/
def tileRow (dst : BufName) (k : Nat) (row : Nat → Nat → Byte) (s : State) (r : Nat) : State :=
  State.fill dst (rowOffset s.asm.w.toNat s.asm.tilesX.toNat k r) (row r) 16
    { s with asm := { s.asm with r := BitVec.ofNat 2 r } }

/-- Copy the four rows of a tile to tile `k` of an image buffer. -/
def putTile (dst : BufName) (k : Nat) (row : Nat → Nat → Byte) (s : State) : State :=
  [0, 1, 2, 3].foldl (tileRow dst k row) s

/-- R234: TILEOUT to tile `s` of IMG0, and the next storage index. -/
def asmStore (s : State) : State :=
  let s' := putTile .IMG0 s.asm.s.toNat (fun r j => s.rd .TILEOUT (r * 16 + j)) s
  { s' with asm := { s'.asm with s := s.asm.s + 1#28 } }

/-- R234: one block of stage 1. -/
def asmBlock (s : State) : State := asmStore (etcRun (asmFetch s))

/-- The start of stage 3: what IMG1 held is no longer an image (R36, log 7). -/
def beginGather (s : State) : State := s.forget .IMG1

/-- R237, R297: an entry outside the grid ends the command; IMG1, CBLK, ABLK and TILEOUT are unspecified then. -/
def scrRange (s : State) : State :=
  raise .scrRange s.asm.i.toNat ((((s.forget .IMG1).forget .CBLK).forget .ABLK).forget .TILEOUT)

/-- R236: one destination tile of stage 3. -/
def asmGather (s : State) : Flow :=
  let k := (s.rdScr s.asm.i.toNat).toNat
  if s.asm.n.toNat ≤ k then .ended (scrRange s)
  else
    let s' := putTile .IMG1 s.asm.i.toNat
      (fun r j => s.rd .IMG0 (rowOffset s.asm.w.toNat s.asm.tilesX.toNat k r + j)) s
    .go { s' with asm := { s'.asm with i := s.asm.i + 1#28 } }

/-- R238. -/
def asmEnd (s : State) : State := { s with imgW := s.asm.w, imgH := s.asm.h }

/-- The three stages and the result (R234 to R238). -/
def asmStages (s : State) : Flow :=
  (tsaRun s.asm.tilesX.toNat s.asm.tilesY.toNat (asmBlock^[s.asm.n.toNat] s)).andThen fun s =>
    (Flow.times asmGather s.asm.n.toNat (beginGather s)).andThen fun s => .go (asmEnd s)

/-- ASM (R230). -/
def asmRun (p : AsmOperands) (s : State) : Flow := (asmStart p s).andThen asmStages

end Sys2Proof.Machine
end

