-- ==== Sys2Proof/Machine/Hdr.lean ====
section
/-! DEFINITION. HDR, the texture-info header parser (41_hdr_header_parser.md). -/

namespace Sys2Proof.Machine

/-- A 16-bit header field at offset `a` of OUT (R64). -/
def headerHalf (s : State) (a : Nat) : Half := le16 (s.rd .OUT a) (s.rd .OUT (a + 1))

/-- A 32-bit header field at offset `a` of OUT (R64). -/
def headerWord (s : State) (a : Nat) : Word :=
  le32 (s.rd .OUT a) (s.rd .OUT (a + 1)) (s.rd .OUT (a + 2)) (s.rd .OUT (a + 3))

/-- R152: the four bytes are compared one by one with `CFG_MAGIC`. -/
def magicMatches (s : State) : Bool :=
  s.rd .OUT 0 == s.params.magic0 && s.rd .OUT 1 == s.params.magic1 &&
    s.rd .OUT 2 == s.params.magic2 && s.rd .OUT 3 == s.params.magic3

/-- R107, R154: 0 = ETC1, 1 = ETC1A4, 2 = Unsupported. -/
def formatClass (format : Word) : BitVec 2 :=
  if format = 0xC#32 then 0#2 else if format = 0xD#32 then 1#2 else 2#2

/-- R153, R154, R155: the record of the header that stands in `OUT[0 .. 36)`. -/
def parsedHeader (s : State) : TextureInfo where
  magic := headerWord s 0
  filePathOff := headerWord s 4
  dataSize := headerWord s 8
  dataOff := headerWord s 12
  format := headerWord s 16
  width := headerHalf s 20
  height := headerHalf s 22
  mipLevel := s.rd .OUT 24
  type := s.rd .OUT 25
  cubeMap := headerHalf s 26
  bmpSizeOff := headerWord s 28
  timestamp := headerWord s 32
  fmtClass := formatClass (headerWord s 16)
  valid := true
  sizeOk := decide ((headerWord s 8).toNat = s.outLen.toNat - 36)

/-- HDR (R150): length (R151), magic (R152), fields, class and size (R153 to R155), policy (R156). -/
def hdrRun (s : State) : Flow :=
  if s.outLen.toNat < 36 then stop .formatError 0 s
  else if magicMatches s = false then stop .formatError 1 s
  else
    let s := { s with ti := parsedHeader s }
    if s.ti.sizeOk then .go s
    else if s.ctrl.strict then stop .sizeMismatch (s.outLen.toNat - 36) s
    else .go { s with status := s.status.withWarnSize }

end Sys2Proof.Machine
end

