-- ==== Sys2Proof/Machine/Lzd.lean ====
section
/-! DEFINITION. LZD, the marker-escape decompressor (40_lzd_decompressor.md): the start step, the fetch, one operation per
token, the loop, and the meanings of MARK, LIT, ESC and BREF. -/

namespace Sys2Proof.Machine

/-! ### Tokens -/

/-- `out_len <- 0` (R121). What OUT held is now beyond its valid length and so unspecified (R127, log 7). -/
def clearOutput (s : State) : State := { s.forget .OUT with outLen := 0#32 }

/-- MARK (R121), `m` being the byte `IN[0]`. -/
def lzdMark (m : Byte) (s : State) : Flow :=
  let s := clearOutput s
  if s.inLen.toNat = 0 then stop .lzTruncated 0 s
  else .go { s with lzd := { s.lzd with m := m, ip := 1#32 } }

/-- Append one byte to OUT: `MemWrite(OUT, out_len, 1, v)` and `out_len <- out_len + 1`. -/
def emit (v : Byte) (s : State) : State :=
  { s.wr .OUT s.outLen.toNat v with outLen := BitVec.ofNat 32 (s.outLen.toNat + 1) }

/-- `ip <- ip + n` (R31). -/
def advance (n : Nat) (s : State) : State :=
  { s with lzd := { s.lzd with ip := BitVec.ofNat 32 (s.lzd.ip.toNat + n) } }

/-- Emit one byte if it fits, and advance by `n`: the common operation of LIT (R123) and ESC (R124). -/
def emitOne (v : Byte) (n : Nat) (s : State) : Flow :=
  if s.params.outCap.toNat < s.outLen.toNat + 1 then stop .outOverflow s.lzd.ip.toNat s
  else .go (advance n (emit v s))

/-- LIT (R123). -/
def lzdLit (b : Byte) (s : State) : Flow := emitOne b 1 s

/-- ESC (R124). -/
def lzdEsc (s : State) : Flow := emitOne s.lzd.m 2 s

/-- One iteration of the BREF copy (R125, R126): the write is complete before the next read. -/
def copyByte (s : State) : State :=
  let s' := emit (s.rd .OUT (s.lzd.src.toNat + s.lzd.k.toNat)) s
  { s' with lzd := { s'.lzd with k := BitVec.ofNat 8 (s.lzd.k.toNat + 1) } }

/-- The BREF copy of `n` bytes, one byte at a time (R126). -/
def copyBytes : Nat → State → State
  | 0, s => s
  | n + 1, s => copyBytes n (copyByte s)

/-- `O` and `C` of a BREF (R97, R125). -/
def latchBref (o c : Byte) (s : State) : State :=
  { s with lzd := { s.lzd with o := effectiveOffset s.lzd.m o, c := c } }

/-- `src <- out_len - O` and `k <- 0` (R125). -/
def beginCopy (s : State) : State :=
  { s with lzd := { s.lzd with src := BitVec.ofNat 32 (s.outLen.toNat - s.lzd.o.toNat), k := 0#8 } }

/-- BREF (R125): the two checks before the first byte is copied, the copy, the advance. -/
def lzdBref (o c : Byte) (s : State) : Flow :=
  let s := latchBref o c s
  if s.lzd.o.toNat = 0 ∨ s.outLen.toNat < s.lzd.o.toNat then stop .lzBounds s.lzd.ip.toNat s
  else if s.params.outCap.toNat < s.outLen.toNat + s.lzd.c.toNat then stop .outOverflow s.lzd.ip.toNat s
  else .go (advance 3 (copyBytes s.lzd.c.toNat (beginCopy s)))

/-! ### Fetch and dispatch -/

/-- The marker byte, if the stream has one (R121). -/
def markerBytes (s : State) : List Byte := if s.inLen.toNat = 0 then [] else [s.rd .IN 0]

/-- The bytes of the stream a token fetch may read: those at `ip`, `ip+1`, `ip+2` that lie below IN_LEN (R122,
R72). -/
def tokenBytes (s : State) : List Byte :=
  (List.range (min 3 (s.inLen.toNat - s.lzd.ip.toNat))).map fun j => s.rd .IN (s.lzd.ip.toNat + j)

/-- `b0`, `b1`, `b2` take the bytes that were fetched (R122). -/
def latchBytes (bytes : List Byte) (s : State) : State :=
  { s with lzd := { s.lzd with
      b0 := bytes.getD 0 s.lzd.b0
      b1 := bytes.getD 1 s.lzd.b1
      b2 := bytes.getD 2 s.lzd.b2 } }

/-- The operation of a token. The token decoder answers LIT, ESC and BREF only; any other instruction leaves the
running decompression as it is. -/
def tokenFlow (i : Instr) (s : State) : Flow :=
  match i with
  | .lit b => lzdLit b s
  | .esc => lzdEsc s
  | .bref o c => lzdBref o c s
  | .mark _ => .go s
  | .etcIndNf _ => .go s
  | .etcIndFl _ => .go s
  | .etcDifNf _ => .go s
  | .etcDifFl _ => .go s
  | .etcA4 _ => .go s
  | .cmdDecompress => .go s
  | .cmdParseHeader => .go s
  | .cmdDecodeBlock => .go s
  | .cmdBuildScramble => .go s
  | .cmdDecodeTex => .go s
  | .cmdDecodeEntry => .go s
  | .cmdDecodeRaw => .go s
  | .cmdReserved _ => .go s

/-- The token at `ip` (R92, R122). -/
def tokenAt (s : State) : Except DecodeError (Instr × List Byte) := decode (.token s.lzd.m) (tokenBytes s)

/-- A stream that ends inside a token (R122): LZ_TRUNCATED at its first byte, after the fetch of what there is. -/
def lzdTruncated (s : State) : State := raise .lzTruncated s.lzd.ip.toNat (latchBytes (tokenBytes s) s)

/-- One turn of the loop of R122 when `ip < IN_LEN`: fetch one token whole, then execute it. -/
def lzdStep (s : State) : Flow :=
  match tokenAt s with
  | .error _ => .ended (lzdTruncated s)
  | .ok (i, _) => tokenFlow i (latchBytes (encode s.lzd.m i) s)

/-- The loop of R122 with at most `n` tokens; termination is R127. -/
def lzdLoop : Nat → State → Flow
  | 0, s => .go s
  | n + 1, s => if s.inLen.toNat ≤ s.lzd.ip.toNat then .go s else (lzdStep s).andThen (lzdLoop n)

/-- The start step (R121). -/
def lzdStart (s : State) : Flow :=
  match decode .marker (markerBytes s) with
  | .ok (.mark m, _) => lzdMark m s
  | _ => stop .lzTruncated 0 (clearOutput s)

/-- LZD from start to end (R120, R130): R129 item 5 bounds the loop by the stream's length. -/
def lzdRun (s : State) : Flow := (lzdStart s).andThen fun s => lzdLoop s.inLen.toNat s

/-! ### Meanings -/

/-- MARK (R121). -/
def execMark (m : Byte) (s : State) : Host.Outcome State Fault Refusal := .next (lzdMark m s).state

/-- LIT (R123). -/
def execLit (b : Byte) (s : State) : Host.Outcome State Fault Refusal := .next (lzdLit b s).state

/-- ESC (R124). -/
def execEsc (s : State) : Host.Outcome State Fault Refusal := .next (lzdEsc s).state

/-- BREF (R125). -/
def execBref (o c : Byte) (s : State) : Host.Outcome State Fault Refusal := .next (lzdBref o c s).state

end Sys2Proof.Machine
end

