-- ==== Sys2Proof/Machine/Commands.lean ====
section
/-! DEFINITION. The host commands (45_cmd_commands.md), each run to its end as one function (R329). -/

namespace Sys2Proof.Machine

/-- R254: the dimension check of CMD.BUILD_SCRAMBLE and the start of TSA. -/
def scrambleStart (s : State) : Flow :=
  if s.width.toNat % 4 ≠ 0 then stop .dimError 0 s
  else if s.height.toNat % 4 ≠ 0 then stop .dimError 1 s
  else tsaStart (s.width.toNat / 4) (s.height.toNat / 4) s

/-- R254: CMD.BUILD_SCRAMBLE after its launch. -/
def scrambleRun (s : State) : Flow :=
  (scrambleStart s).andThen fun s => .go (tsaEnd (tsaStep^[tsaCount s] s))

/-- R256 step 3: an unsupported format ends CMD.DECODE_ENTRY. -/
def checkFormat (s : State) : Flow :=
  if s.ti.fmtClass = 2#2 then stop .unsupportedFormat s.ti.format.toNat s else .go s

/-- R256: CMD.DECODE_ENTRY after its launch. -/
def entryRun (s : State) : Flow :=
  (((lzdRun s).andThen hdrRun).andThen checkFormat).andThen fun s => asmRun (operandsOfEntry s) s

/-- R257: CMD.DECODE_RAW after its launch. -/
def rawRun (s : State) : Flow :=
  if s.ctrl.rawLz then (lzdRun s).andThen fun s => asmRun (operandsOfOut s) s
  else asmRun (operandsOfIn s) s

/-- CMD.DECOMPRESS (R251). -/
def execCmdDecompress (s : State) : Host.Outcome State Fault Refusal := .next (command 1#8 lzdRun s)

/-- CMD.PARSE_HEADER (R252). -/
def execCmdParseHeader (s : State) : Host.Outcome State Fault Refusal := .next (command 2#8 hdrRun s)

/-- CMD.DECODE_BLOCK (R253). -/
def execCmdDecodeBlock (s : State) : Host.Outcome State Fault Refusal :=
  .next (command 3#8 (fun s => .go (etcRun (withAlpha s.hasAlpha s))) s)

/-- CMD.BUILD_SCRAMBLE (R254). -/
def execCmdBuildScramble (s : State) : Host.Outcome State Fault Refusal := .next (command 4#8 scrambleRun s)

/-- CMD.DECODE_TEX (R255). -/
def execCmdDecodeTex (s : State) : Host.Outcome State Fault Refusal :=
  .next (command 5#8 (fun s => asmRun (operandsOfIn s) s) s)

/-- CMD.DECODE_ENTRY (R256). -/
def execCmdDecodeEntry (s : State) : Host.Outcome State Fault Refusal := .next (command 6#8 entryRun s)

/-- CMD.DECODE_RAW (R257). -/
def execCmdDecodeRaw (s : State) : Host.Outcome State Fault Refusal := .next (command 7#8 rawRun s)

/-- CMD.RESERVED (R258): the launch itself raises BAD_CMD, and nothing runs after it. -/
def execCmdReserved (c : Byte) (s : State) : Host.Outcome State Fault Refusal :=
  .next (command c (stop .badCmd c.toNat) s)

end Sys2Proof.Machine
end

