-- ==== Sys2Proof/Machine/Dispatch.lean ====
section
/-! DEFINITION. One arm per constructor of Instr. -/

namespace Sys2Proof.Machine

def exec (i : Instr) (s : State) : Host.Outcome State Fault Refusal :=
  match i with
  | .mark m => Sys2Proof.Machine.execMark m s
  | .lit b => Sys2Proof.Machine.execLit b s
  | .esc => Sys2Proof.Machine.execEsc s
  | .bref o c => Sys2Proof.Machine.execBref o c s
  | .etcIndNf f => Sys2Proof.Machine.execEtcIndNf f s
  | .etcIndFl f => Sys2Proof.Machine.execEtcIndFl f s
  | .etcDifNf f => Sys2Proof.Machine.execEtcDifNf f s
  | .etcDifFl f => Sys2Proof.Machine.execEtcDifFl f s
  | .etcA4 a => Sys2Proof.Machine.execEtcA4 a s
  | .cmdDecompress => Sys2Proof.Machine.execCmdDecompress s
  | .cmdParseHeader => Sys2Proof.Machine.execCmdParseHeader s
  | .cmdDecodeBlock => Sys2Proof.Machine.execCmdDecodeBlock s
  | .cmdBuildScramble => Sys2Proof.Machine.execCmdBuildScramble s
  | .cmdDecodeTex => Sys2Proof.Machine.execCmdDecodeTex s
  | .cmdDecodeEntry => Sys2Proof.Machine.execCmdDecodeEntry s
  | .cmdDecodeRaw => Sys2Proof.Machine.execCmdDecodeRaw s
  | .cmdReserved c => Sys2Proof.Machine.execCmdReserved c s

end Sys2Proof.Machine
end

