-- ==== Sys2Proof/Machine/Sequencer.lean ====
section
/-! DEFINITION. A command run unit step by unit step (R329, log 4): what follows the launch, and what each step does
until the command ends. Each step that reaches an instruction decodes it and runs `exec` of it. -/

namespace Sys2Proof.Machine

/-- Go to the next place of the command. -/
def goTo (q : Seq) (s : State) : State := { s with seq := q }

/-- Go to `q` unless a fault has ended the command. -/
def Flow.thenGo (q : Seq) : Flow → State
  | .go s => goTo q s
  | .ended s => s

/-- After an instruction: `f`, unless the instruction ended the command. -/
def whileBusy (f : State → State) : Host.Outcome State Fault Refusal → Host.Outcome State Fault Refusal
  | .next s => .next (if s.status.busy then f s else s)
  | .fault r => .fault r
  | .refused r => .refused r

/-- The first instruction of a block: its alpha half when there is one (R104). -/
def blockSeq (s : State) : Seq := if s.etc.hasAlpha then .alpha else .colour

/-- Where a launched command begins (R251 to R257). -/
def enter (c : Byte) (s : State) : State :=
  if c = 1#8 ∨ c = 6#8 then goTo .mark s
  else if c = 2#8 then goTo .header s
  else if c = 3#8 then goTo (blockSeq (withAlpha s.hasAlpha s)) (withAlpha s.hasAlpha s)
  else if c = 4#8 then goTo .scramble s
  else if c = 7#8 ∧ s.ctrl.rawLz then goTo .mark s
  else goTo .assemble s

/-- A CMD write whose command is then run step by step: dropped while BUSY = 1 (R259), else launched (R250). -/
def startCommand (c : Byte) (s : State) : State :=
  if s.status.busy then s
  else match launch c s with
    | .go s => enter c s
    | .ended s => s

/-- What follows LZD in the running command (R251, R256, R257). -/
def afterLzd (s : State) : State :=
  if s.cmd = 6#8 then goTo .header s
  else if s.cmd = 7#8 then goTo .assemble s
  else complete s

/-- What follows HDR (R252, R256). -/
def afterHeader : Flow → State
  | .go s => if s.cmd = 6#8 then goTo .assemble s else complete s
  | .ended s => s

/-- What follows the colour instruction: the end of CMD.DECODE_BLOCK (R253) or the copy to IMG0 (R234). -/
def afterColour (s : State) : State := if s.cmd = 3#8 then complete s else goTo .store s

/-- ASM's checks with the operands of the running command (R255 to R257). -/
def assembleStart (s : State) : Flow :=
  if s.cmd = 6#8 then (checkFormat s).andThen fun s => asmStart (operandsOfEntry s) s
  else if s.cmd = 7#8 ∧ s.ctrl.rawLz then asmStart (operandsOfOut s) s
  else asmStart (operandsOfIn s) s

/-- Stage 1: the next block, or the start of stage 2 (R234, R235). -/
def blockStep (s : State) : State :=
  if s.asm.s.toNat < s.asm.n.toNat then goTo (blockSeq (asmFetch s)) (asmFetch s)
  else (tsaStart s.asm.tilesX.toNat s.asm.tilesY.toNat s).thenGo .table

/-- TSA: the next position, or the end of the table (R212, R216). -/
def tableStep (s : State) : State :=
  if s.tsa.t.toNat < tsaCount s then tsaStep s
  else if s.cmd = 4#8 then complete (tsaEnd s)
  else goTo .gather (beginGather (tsaEnd s))

/-- Stage 3: the next tile, or the end of ASM (R236, R238). -/
def gatherStep (s : State) : State :=
  if s.asm.i.toNat < s.asm.n.toNat then (asmGather s).state else complete (asmEnd s)

/-- LZD's start step: MARK, or the empty stream's fault (R121). -/
def markStep (s : State) : Host.Outcome State Fault Refusal :=
  match decode .marker (markerBytes s) with
  | .ok (i, _) => whileBusy (goTo .token) (exec i s)
  | .error _ => .next (lzdStart s).state

/-- One turn of LZD's loop: termination, a cut token, or a token (R122, R127). -/
def tokenStep (s : State) : Host.Outcome State Fault Refusal :=
  if s.inLen.toNat ≤ s.lzd.ip.toNat then .next (afterLzd s)
  else match tokenAt s with
    | .ok (i, _) => exec i (latchBytes (encode s.lzd.m i) s)
    | .error _ => .next (lzdTruncated s)

/-- The alpha half of a block (R188). -/
def alphaStep (s : State) : Host.Outcome State Fault Refusal :=
  match decode .alpha (alphaBytes s) with
  | .ok (i, _) => whileBusy (goTo .colour) (exec i s)
  | .error _ => .next (goTo .colour s)

/-- The colour half of a block (R172). -/
def colourStep (s : State) : Host.Outcome State Fault Refusal :=
  match decode .colour (colourBytes s) with
  | .ok (i, _) => whileBusy afterColour (exec i s)
  | .error _ => .next (afterColour s)

/-! ### The end of a disturbed command (R323, R324, log 6)

The results of a command are what the operand table marks W in its row (R261) and the status and fault registers. -/

/-- R261: the rows that mark OUT and OUT_LEN; of CMD.DECODE_RAW that with `RAW_LZ = 1`. -/
def writesOutput (rawLz : Bool) (c : Byte) : Bool := c == 1#8 || c == 6#8 || (c == 7#8 && rawLz)

/-- R261: the rows that mark SCR and SCR_LEN. -/
def writesTable (c : Byte) : Bool := c == 4#8 || c == 5#8 || c == 6#8 || c == 7#8

/-- R261: the rows that mark TILEOUT. -/
def writesTile (c : Byte) : Bool := c == 3#8 || c == 5#8 || c == 6#8 || c == 7#8

/-- R261: the rows that mark CBLK, ABLK, IMG0, IMG1, IMG_W and IMG_H. -/
def writesImage (c : Byte) : Bool := c == 5#8 || c == 6#8 || c == 7#8

/-- OUT and OUT_LEN become unspecified. -/
def loseOutput (s : State) : State := { s.forget .OUT with outLen := Config.unspecResult s.draws 0 }

/-- SCR and SCR_LEN become unspecified. -/
def loseTable (s : State) : State := { s.forgetScr with scrLen := Config.unspecResult s.draws 0 }

/-- CBLK, ABLK, IMG0, IMG1, IMG_W and IMG_H become unspecified. -/
def loseImage (s : State) : State :=
  { (((s.forget .CBLK).forget .ABLK).forget .IMG0).forget .IMG1 with
    imgW := (Config.unspecResult s.draws 0).setWidth 16
    imgH := (Config.unspecResult s.draws 1).setWidth 16 }

/-- TI_* become unspecified. -/
def loseHeader (s : State) : State :=
  let v := Config.unspecResult s.draws
  { s with
    draws := s.draws + 1
    ti :=
      { magic := v 0, filePathOff := v 1, dataSize := v 2, dataOff := v 3, format := v 4
        width := (v 5).setWidth 16, height := (v 6).setWidth 16, mipLevel := (v 7).setWidth 8
        type := (v 8).setWidth 8, cubeMap := (v 9).setWidth 16, bmpSizeOff := v 10, timestamp := v 11
        fmtClass := (v 12).setWidth 2, valid := (v 13).getLsbD 0, sizeOk := (v 14).getLsbD 0 } }

/-- The end: completed or faulted, the warnings, the fault and its information word unspecified. With `ERR = 0`
both fault registers read 0 (R24), and a code is one of R281. -/
def loseStatus (s : State) : State :=
  let v := Config.unspecResult s.draws
  let err := (v 0).getLsbD 0
  { s with
    draws := s.draws + 1
    status := { busy := false, done := true, err := err, warnSize := (v 1).getLsbD 0, diffOvf := (v 2).getLsbD 0 }
    errCode := if err then (FaultName.drawn (v 3).toNat).code else 0#8
    errInfo := if err then v 4 else 0#32
    seq := .idle }

/-- `f`, where the row of the command marks what it loses. -/
def loseIf (marked : Bool) (f : State → State) (s : State) : State := if marked then f s else s

/-- The end of a disturbed command; `rawLz` says whether RAW_LZ was 1 at some moment of it. -/
def endDisturbed (rawLz : Bool) (s : State) : State :=
  loseStatus
    (loseIf (runsHeader s.cmd) loseHeader
      (loseIf (writesImage s.cmd) loseImage
        (loseIf (writesTile s.cmd) (fun s => s.forget .TILEOUT)
          (loseIf (writesTable s.cmd) loseTable
            (loseIf (writesOutput rawLz s.cmd) loseOutput s)))))

/-- One unit step of the running command. -/
def unitStep (s : State) : Host.Outcome State Fault Refusal :=
  match s.seq with
  | .idle => .next s
  | .mark => markStep s
  | .token => tokenStep s
  | .header => .next (afterHeader (hdrRun s))
  | .scramble => .next ((scrambleStart s).thenGo .table)
  | .assemble => .next ((assembleStart s).thenGo .block)
  | .block => .next (blockStep s)
  | .alpha => alphaStep s
  | .colour => colourStep s
  | .store => .next (goTo .block (asmStore s))
  | .table => .next (tableStep s)
  | .gather => .next (gatherStep s)
  | .disturbed rawLz => .next (endDisturbed rawLz s)

end Sys2Proof.Machine
end

