-- ==== Sys2Proof/Machine/HostPort.lean ====
section
/-! DEFINITION. The host's side: register and buffer accesses (R21, R62), with the block idle and with the block
running (R323, R324), reset (R320), and what one step of the whole machine is. -/

namespace Sys2Proof.Machine

open Sys2Proof.Config (BufName)

/-- R21: the register numbers. -/
def HostReg.number : HostReg → Nat
  | .CMD => 0
  | .STATUS => 1
  | .ERR_CODE => 2
  | .ERR_INFO => 3
  | .CTRL => 4
  | .IN_LEN => 5
  | .OUT_LEN => 6
  | .WIDTH => 7
  | .HEIGHT => 8
  | .HAS_ALPHA => 9
  | .SCR_LEN => 10
  | .IMG_W => 11
  | .IMG_H => 12
  | .TI_MAGIC => 13
  | .TI_FILEPATHOFF => 14
  | .TI_DATASIZE => 15
  | .TI_DATAOFF => 16
  | .TI_FORMAT => 17
  | .TI_WIDTH => 18
  | .TI_HEIGHT => 19
  | .TI_MIPLEVEL => 20
  | .TI_TYPE => 21
  | .TI_CUBEMAP => 22
  | .TI_BMPSIZEOFF => 23
  | .TI_TIMESTAMP => 24
  | .TI_FMTCLASS => 25
  | .TI_VALID => 26
  | .TI_SIZE_OK => 27

/-- How many low bits of a register exist: its width (R21), less the reserved bits of STATUS and CTRL (R23, R25). The
bits above read as 0. -/
def HostReg.bits : HostReg → Nat
  | .CMD => 8
  | .STATUS => 5
  | .ERR_CODE => 8
  | .ERR_INFO => 32
  | .CTRL => 2
  | .IN_LEN => 32
  | .OUT_LEN => 32
  | .WIDTH => 16
  | .HEIGHT => 16
  | .HAS_ALPHA => 1
  | .SCR_LEN => 32
  | .IMG_W => 16
  | .IMG_H => 16
  | .TI_MAGIC => 32
  | .TI_FILEPATHOFF => 32
  | .TI_DATASIZE => 32
  | .TI_DATAOFF => 32
  | .TI_FORMAT => 32
  | .TI_WIDTH => 16
  | .TI_HEIGHT => 16
  | .TI_MIPLEVEL => 8
  | .TI_TYPE => 8
  | .TI_CUBEMAP => 16
  | .TI_BMPSIZEOFF => 32
  | .TI_TIMESTAMP => 32
  | .TI_FMTCLASS => 2
  | .TI_VALID => 1
  | .TI_SIZE_OK => 1

/-- What the host reads from a register (R21: bits above a register's width read as 0). -/
def readReg (s : State) : HostReg → Word
  | .CMD => s.cmd.setWidth 32
  | .STATUS => s.status.word.setWidth 32
  | .ERR_CODE => s.errCode.setWidth 32
  | .ERR_INFO => s.errInfo
  | .CTRL => s.ctrl.word.setWidth 32
  | .IN_LEN => s.inLen
  | .OUT_LEN => s.outLen
  | .WIDTH => s.width.setWidth 32
  | .HEIGHT => s.height.setWidth 32
  | .HAS_ALPHA => (BitVec.ofBool s.hasAlpha).setWidth 32
  | .SCR_LEN => s.scrLen
  | .IMG_W => s.imgW.setWidth 32
  | .IMG_H => s.imgH.setWidth 32
  | .TI_MAGIC => s.ti.magic
  | .TI_FILEPATHOFF => s.ti.filePathOff
  | .TI_DATASIZE => s.ti.dataSize
  | .TI_DATAOFF => s.ti.dataOff
  | .TI_FORMAT => s.ti.format
  | .TI_WIDTH => s.ti.width.setWidth 32
  | .TI_HEIGHT => s.ti.height.setWidth 32
  | .TI_MIPLEVEL => s.ti.mipLevel.setWidth 32
  | .TI_TYPE => s.ti.type.setWidth 32
  | .TI_CUBEMAP => s.ti.cubeMap.setWidth 32
  | .TI_BMPSIZEOFF => s.ti.bmpSizeOff
  | .TI_TIMESTAMP => s.ti.timestamp
  | .TI_FMTCLASS => s.ti.fmtClass.setWidth 32
  | .TI_VALID => (BitVec.ofBool s.ti.valid).setWidth 32
  | .TI_SIZE_OK => (BitVec.ofBool s.ti.sizeOk).setWidth 32

/-- R21: the operand registers, those marked W other than CMD. -/
def isOperandReg : HostReg → Bool
  | .CTRL => true
  | .IN_LEN => true
  | .OUT_LEN => true
  | .WIDTH => true
  | .HEIGHT => true
  | .HAS_ALPHA => true
  | .CMD => false
  | .STATUS => false
  | .ERR_CODE => false
  | .ERR_INFO => false
  | .SCR_LEN => false
  | .IMG_W => false
  | .IMG_H => false
  | .TI_MAGIC => false
  | .TI_FILEPATHOFF => false
  | .TI_DATASIZE => false
  | .TI_DATAOFF => false
  | .TI_FORMAT => false
  | .TI_WIDTH => false
  | .TI_HEIGHT => false
  | .TI_MIPLEVEL => false
  | .TI_TYPE => false
  | .TI_CUBEMAP => false
  | .TI_BMPSIZEOFF => false
  | .TI_TIMESTAMP => false
  | .TI_FMTCLASS => false
  | .TI_VALID => false
  | .TI_SIZE_OK => false

/-- A host write to an operand register; a write to any other register but CMD is ignored, and so are the bits
above the register's width (R21). -/
def writeOperand (r : HostReg) (v : Word) (s : State) : State :=
  match r with
  | .CTRL => { s with ctrl := Ctrl.ofWord v }
  | .IN_LEN => { s with inLen := v }
  | .OUT_LEN => { s with outLen := v }
  | .WIDTH => { s with width := v.setWidth 16 }
  | .HEIGHT => { s with height := v.setWidth 16 }
  | .HAS_ALPHA => { s with hasAlpha := v.getLsbD 0 }
  | .CMD => s
  | .STATUS => s
  | .ERR_CODE => s
  | .ERR_INFO => s
  | .SCR_LEN => s
  | .IMG_W => s
  | .IMG_H => s
  | .TI_MAGIC => s
  | .TI_FILEPATHOFF => s
  | .TI_DATASIZE => s
  | .TI_DATAOFF => s
  | .TI_FORMAT => s
  | .TI_WIDTH => s
  | .TI_HEIGHT => s
  | .TI_MIPLEVEL => s
  | .TI_TYPE => s
  | .TI_CUBEMAP => s
  | .TI_BMPSIZEOFF => s
  | .TI_TIMESTAMP => s
  | .TI_FMTCLASS => s
  | .TI_VALID => s
  | .TI_SIZE_OK => s

/-- R62: the buffers the host writes. -/
def hostWritable : BufName → Bool
  | .IN => true
  | .OUT => true
  | .CBLK => true
  | .ABLK => true
  | .TILEOUT => false
  | .IMG0 => false
  | .IMG1 => false

/-- The result of a host read. -/
def answer (v : Word) (s : State) : State := { s with readData := v }

/-- A host read of `bits` bits of a running block: a free value of them (R323, R324, log 6). The bits that the register,
byte or entry does not have read as 0 all the same (R21, R25). -/
def answerUnspecified (bits : Nat) (s : State) : State :=
  { s with readData := ((Config.unspecRead s.draws).setWidth bits).setWidth 32, draws := s.draws + 1 }

/-- Reset (R320, R321): every register as after reset and every buffer unspecified, a running command abandoned.
The parameters are not affected, nor are the model's list of what the outside does next and the last answer. -/
def resetNow (s : State) : State :=
  { State.reset with
    params := s.params
    inBuf := Memory.blank 8 s.draws
    outBuf := Memory.blank 8 s.draws
    cblk := Memory.blank 8 s.draws
    ablk := Memory.blank 8 s.draws
    tileout := Memory.blank 8 s.draws
    img0 := Memory.blank 8 s.draws
    img1 := Memory.blank 8 s.draws
    scr := Memory.blank 32 s.draws
    host := s.host
    readData := s.readData
    draws := s.draws + 1 }

/-- An action that lands on an idle block. A write to CMD runs the command it names (R22). DESIGN CHOICE (log 21): every
write of an ended command is seen from the moment `BUSY = 0`, also by a host that has not yet read `DONE = 1`, for which
R75 orders nothing. -/
def hostIdle (op : HostOp) (s : State) : Host.Outcome State Fault Refusal :=
  match op with
  | .writeReg .CMD v => exec (commandInstr (v.setWidth 8)) s
  | .writeReg r v => .next (writeOperand r v s)
  | .start c => .next (startCommand c s)
  | .readReg r => .next (answer (readReg s r) s)
  | .writeBuf b a v =>
    if hostWritable b = false then .refused .bufferNotHostWritable
    else if s.capacity b ≤ a then .fault .outsideBuffer
    else .next (s.wr b a v)
  | .readBuf b a =>
    if s.capacity b ≤ a then .fault .outsideBuffer else .next (answer ((s.rd b a).setWidth 32) s)
  | .readScr i =>
    if s.params.scrCap ≤ i then .fault .outsideBuffer else .next (answer (s.rdScr i) s)
  | .reset => .next (resetNow s)

/-- RAW_LZ is 1, or was at an earlier disturbance of the running command. -/
def rawLzSeen (s : State) : Bool := s.ctrl.rawLz || s.seq == .disturbed true

/-- A host access to a running block that R323 or R324 forbids, from `old` to `s`: the command goes on to an end, with
unspecified results. It may use the old or the new value of RAW_LZ (R324). -/
def disturb (old s : State) : State := goTo (.disturbed (rawLzSeen old || s.ctrl.rawLz)) s

/-- An action that lands on a running block (R259, R323, R324, log 6): a CMD write is dropped, STATUS reads as it is,
any other register reads as a free value of its bits; a write to an operand register or to a buffer lands and disturbs the command;
a buffer read answers a free value and disturbs it too. -/
def hostBusy (op : HostOp) (s : State) : Host.Outcome State Fault Refusal :=
  match op with
  | .writeReg r v => .next (if isOperandReg r then disturb s (writeOperand r v s) else s)
  | .start _ => .next s
  | .readReg .STATUS => .next (answer (readReg s .STATUS) s)
  | .readReg r => .next (answerUnspecified r.bits s)
  | .writeBuf b a v =>
    if hostWritable b = false then .refused .bufferNotHostWritable
    else if s.capacity b ≤ a then .fault .outsideBuffer
    else .next (disturb s (s.wr b a v))
  | .readBuf b a =>
    if s.capacity b ≤ a then .fault .outsideBuffer else .next (disturb s (answerUnspecified 8 s))
  | .readScr i =>
    if s.params.scrCap ≤ i then .fault .outsideBuffer else .next (disturb s (answerUnspecified 32 s))
  | .reset => .next (resetNow s)

/-- `s` with other pending actions. -/
def withHost (h : List HostEvent) (s : State) : State := { s with host := h }

/-- One step. An idle block takes the next pending action, and waits when there is none (R303, R321). A running
block takes it when its count of unit steps has passed, else makes a unit step. -/
def nextStep (s : State) : Host.Outcome State Fault Refusal :=
  match s.status.busy, s.host with
  | false, [] => .next s
  | false, e :: rest => hostIdle e.op (withHost rest s)
  | true, [] => unitStep s
  | true, e :: rest =>
    if e.after = 0 then hostBusy e.op (withHost rest s)
    else unitStep (withHost ({ e with after := e.after - 1 } :: rest) s)

/-! ### Placing one instruction (log 10) -/

/-- A pending action waits one unit step longer. -/
def delayHost : List HostEvent → List HostEvent
  | [] => []
  | e :: rest => { e with after := e.after + 1 } :: rest

/-- The block is idle and a write of `c` to CMD is what lands next. -/
def placeCommand (c : Byte) (s : State) : State :=
  { s with
    host := { after := 0, op := .writeReg .CMD (c.setWidth 32) } :: s.host
    status := { s.status with busy := false }
    seq := .idle }

/-- A decompression is running, its marker is the prefix byte of the token `b0 b1 b2`, and the token stands at
`ip`. DESIGN CHOICE (log 10): OUT and `out_len` stay as they are, where MARK would have cleared them. -/
def placeToken (b0 b1 b2 : Byte) (s : State) : State :=
  let s := acknowledge 1#8 s
  let s := (((s.wr .IN 0 b0).wr .IN 1 b0).wr .IN 2 b1).wr .IN 3 b2
  { s with
    inLen := 4#32
    lzd := { s.lzd with m := b0, ip := 1#32 }
    seq := .token
    host := delayHost s.host }

/-- CMD.DECODE_BLOCK is running, ETC has its operand `has_alpha` (R170, R253), and the colour block, whose bytes stand in
CBLK, is next. DESIGN CHOICE (log 10): no alpha half is run before it, also when `HAS_ALPHA = 1`. -/
def placeBlock (bytes : Nat → Byte) (s : State) : State :=
  let s := State.fill .CBLK 0 bytes 8 (withAlpha s.hasAlpha (acknowledge 3#8 s))
  { s with seq := .colour, host := delayHost s.host }

/-- Place a table word where the next step fetches (R90: the space decides which memory that is). -/
def placeWord (nbits w : Nat) (s : State) : State :=
  match tableSpace nbits w with
  | .command => placeCommand (tableByte w 0) s
  | .token _ => placeToken (tableByte w 0) (tableByte w 1) (tableByte w 2) s
  | .marker => s
  | .alpha => s
  | .colour => placeBlock (tableByte w) s

end Sys2Proof.Machine
end

