-- ==== Sys2Proof/Safety.lean ====
section
/-! DEFINITION. What counts as a good state of the block, in the terms the statements use. -/

namespace Sys2Proof.Safety

open Sys2Proof.Machine
open Sys2Proof.Config (BufName)

/-- Every buffer is in its canonical form. -/
abbrev memoryCanonical (s : State) : Prop := (∀ b : BufName, (s.buf b).wf) ∧ s.scr.wf

/-- R23: not BUSY and DONE at once; ERR implies DONE. R24: with ERR = 0 both fault registers read 0. The model's
sequencer is idle exactly when the block is. -/
abbrev statusLegal (s : State) : Prop :=
  ¬ (s.status.busy = true ∧ s.status.done = true) ∧
  (s.status.err = true → s.status.done = true) ∧
  (s.status.err = false → s.errCode = 0#8 ∧ s.errInfo = 0#32) ∧
  (s.status.busy = true ↔ s.seq ≠ .idle)

/-- R72: nothing is listed outside a buffer. -/
abbrev cellsInBounds (s : State) : Prop :=
  (∀ (b : BufName), ∀ p ∈ (s.buf b).cells, p.1 < s.capacity b) ∧ ∀ p ∈ s.scr.cells, p.1 < s.params.scrCap

/-- The checks of R231 have passed for the operands in ASM's registers. -/
abbrev asmChecked (s : State) : Prop :=
  s.asm.w.toNat % 4 = 0 ∧ s.asm.h.toNat % 4 = 0 ∧
  s.asm.tilesX.toNat = s.asm.w.toNat / 4 ∧ s.asm.tilesY.toNat = s.asm.h.toNat / 4 ∧
  s.asm.n.toNat = (s.asm.w.toNat / 4) * (s.asm.h.toNat / 4) ∧
  s.asm.w.toNat * s.asm.h.toNat * 4 ≤ s.params.imgCap ∧ s.asm.n.toNat ≤ s.params.scrCap

/-- What holds at each place of a running command so that its next unit step stays inside the buffers (R72). -/
def placeChecked (s : State) : Prop :=
  match s.seq with
  | .block => asmChecked s
  | .alpha => s.cmd = 3#8 ∨ (asmChecked s ∧ s.asm.s.toNat < s.asm.n.toNat)
  | .colour => s.cmd = 3#8 ∨ (asmChecked s ∧ s.asm.s.toNat < s.asm.n.toNat)
  | .store => asmChecked s ∧ s.asm.s.toNat < s.asm.n.toNat
  | .table => tsaCount s ≤ s.params.scrCap ∧ (s.cmd = 4#8 ∨ asmChecked s)
  | .gather => asmChecked s
  | .idle => True
  | .mark => True
  | .token => True
  | .header => True
  | .scramble => s.cmd = 4#8
  | .assemble => True
  | .disturbed _ => True

/-- R72 as an invariant: every listed cell lies in its buffer, and a running command has made the checks its next
step relies on. -/
abbrev inBounds (s : State) : Prop := cellsInBounds s ∧ (s.status.busy = true → placeChecked s)

/-- The state a step or an instruction reaches; where it stops, the state given. -/
def reached (o : Host.Outcome State Fault Refusal) (s : State) : State :=
  match o with
  | .next t => t
  | .fault _ => s
  | .refused _ => s

end Sys2Proof.Safety
end

