-- ==== Sys2Proof/Certificates/Slice0/Obligations.lean ====
section
/-! DEFINITION. The statements for the provers. They are written against reference functions of their own (namespace
`Sys2Proof.Reference`), which follow the rules over lists and natural numbers, and against the byte read `State.rd`. -/

namespace Sys2Proof.Reference

open Sys2Proof.Machine
open Sys2Proof.Config (BufName)

/-! ### Status and faults -/

/-- R260: STATUS of a command that completed, its two warnings given. -/
def doneStatus (warnSize diffOvf : Bool) : Status :=
  { busy := false, done := true, err := false, warnSize := warnSize, diffOvf := diffOvf }

/-- R296: what a fault with that code and information word leaves of a state. -/
def faulted (code : Byte) (info : Word) (s : State) : State :=
  { s with
    errCode := code, errInfo := info, seq := .idle
    status := { s.status with err := true, busy := false, done := true } }

/-- R250: the clears a launch of `c` makes. -/
def launched (c : Byte) (s : State) : State :=
  { s with
    cmd := c, errCode := 0#8, errInfo := 0#32
    status := { busy := true, done := false, err := false, warnSize := false, diffOvf := false } }

/-- A launch of `c` that clears `TI_VALID` as well (R250, codes 0x02 and 0x06). -/
def launchedHeader (c : Byte) (s : State) : State :=
  { launched c s with ti := { s.ti with valid := false } }

/-! ### LZD over lists -/

/-- How a decompression ends, with the output so far (R128). -/
inductive LzEnd where
  | done (out : List Byte)
  | fault (code : Byte) (info : Nat) (out : List Byte)
  deriving DecidableEq, Repr

/-- R126: append `n` bytes, each the byte `o` places before the current end. -/
def extend (o : Nat) : Nat → List Byte → List Byte
  | 0, out => out
  | n + 1, out => extend o n (out ++ [out.getD (out.length - o) 0#8])

/-- R122 to R125 on the rest of a stream: `ip` is the index of its first byte. -/
def lzTokens (cap : Nat) (m : Byte) : Nat → List Byte → List Byte → LzEnd
  | _, [], out => .done out
  | ip, b0 :: rest, out =>
    if b0 ≠ m then
      if cap < out.length + 1 then .fault 0x11#8 ip out
      else lzTokens cap m (ip + 1) rest (out ++ [b0])
    else match rest with
      | [] => .fault 0x10#8 ip out
      | b1 :: rest =>
        if b1 = m then
          if cap < out.length + 1 then .fault 0x11#8 ip out
          else lzTokens cap m (ip + 2) rest (out ++ [m])
        else match rest with
          | [] => .fault 0x10#8 ip out
          | b2 :: rest =>
            let o := if m.toNat < b1.toNat then b1.toNat - 1 else b1.toNat
            if o = 0 ∨ out.length < o then .fault 0x04#8 ip out
            else if cap < out.length + b2.toNat then .fault 0x11#8 ip out
            else lzTokens cap m (ip + 3) rest (extend o b2.toNat out)

/-- R130: the decompressor as a function of the stream and `OUT_CAP`. -/
def lz (cap : Nat) : List Byte → LzEnd
  | [] => .fault 0x10#8 0 []
  | m :: rest => lzTokens cap m 1 rest []

/-- `IN[0 .. IN_LEN)`. -/
def stream (s : State) : List Byte := (List.range s.inLen.toNat).map fun j => s.rd .IN j

/-- `OUT[0 .. OUT_LEN)` is `out`. -/
def outputIs (t : State) (out : List Byte) : Prop :=
  t.outLen.toNat = out.length ∧ ∀ j < out.length, t.rd .OUT j = out.getD j 0#8

/-! ### The header over a byte function -/

/-- R106, R153 to R155: the record of the header bytes `d`, in a buffer of `len` bytes. -/
def header (d : Nat → Byte) (len : Nat) : TextureInfo where
  magic := le32 (d 0) (d 1) (d 2) (d 3)
  filePathOff := le32 (d 4) (d 5) (d 6) (d 7)
  dataSize := le32 (d 8) (d 9) (d 10) (d 11)
  dataOff := le32 (d 12) (d 13) (d 14) (d 15)
  format := le32 (d 16) (d 17) (d 18) (d 19)
  width := le16 (d 20) (d 21)
  height := le16 (d 22) (d 23)
  mipLevel := d 24
  type := d 25
  cubeMap := le16 (d 26) (d 27)
  bmpSizeOff := le32 (d 28) (d 29) (d 30) (d 31)
  timestamp := le32 (d 32) (d 33) (d 34) (d 35)
  fmtClass :=
    if le32 (d 16) (d 17) (d 18) (d 19) = 0xC#32 then 0#2
    else if le32 (d 16) (d 17) (d 18) (d 19) = 0xD#32 then 1#2 else 2#2
  valid := true
  sizeOk := decide ((le32 (d 8) (d 9) (d 10) (d 11)).toNat = len - 36)

/-- R152: the header bytes begin with `CFG_MAGIC`. -/
abbrev magicOk (s : State) (d : Nat → Byte) : Prop :=
  d 0 = s.params.magic0 ∧ d 1 = s.params.magic1 ∧ d 2 = s.params.magic2 ∧ d 3 = s.params.magic3

/-! ### ETC over block words -/

/-- R178: pixel `(x, y)` lies in the first sub-block. -/
def inFirst (flip : Bool) (x y : Nat) : Bool := if flip then decide (y < 2) else decide (x < 2)

/-- R13 `sat8`: an integer clamped to 0 .. 255. -/
def clamp (v : Int) : Byte := BitVec.ofInt 8 (max 0 (min 255 v))

/-- R174 to R177: channel `c` (0 red, 1 green, 2 blue) of the first or second base colour of the word `top`. -/
def baseChannel (top : Word) (first : Bool) (c : Nat) : Byte :=
  if topDifferential top then
    if first then exp5 (top.extractLsb' (8 * c + 3) 5)
    else exp5 (add5 (top.extractLsb' (8 * c + 3) 5) (top.extractLsb' (8 * c) 3))
  else if first then exp4 (top.extractLsb' (8 * c + 4) 4) else exp4 (top.extractLsb' (8 * c) 4)

/-- R173: the table row of the first or second sub-block. -/
def tableRow (top : Word) (first : Bool) : BitVec 3 :=
  if first then top.extractLsb' 29 3 else top.extractLsb' 26 3

/-- R182: the alpha byte of scan position `p` of the alpha bytes `a`. -/
def alphaByte (a : Nat → Byte) (p : Nat) : Byte :=
  if p % 2 = 0 then BitVec.ofNat 8 (((a (p / 2)).toNat % 16) * 17)
  else BitVec.ofNat 8 (((a (p / 2)).toNat / 16) * 17)

/-- R178 to R182: byte `c` (0 to 3: R, G, B, A) of pixel `(x, y)` of the block with those words and alpha bytes. -/
def pixelByte (top bottom : Word) (a : Nat → Byte) (hasAlpha : Bool) (x y c : Nat) : Byte :=
  if c = 3 then (if hasAlpha then alphaByte a (x * 4 + y) else 255#8)
  else clamp ((baseChannel top (inFirst (topFlip top) x y) c).toNat +
    MOD_TABLE (tableRow top (inFirst (topFlip top) x y)) (selector bottom (x * 4 + y)))

/-- R177: a differential block whose sum leaves 0 .. 31 in some channel. -/
def overflows (top : Word) : Bool :=
  topDifferential top &&
    (overflow5 (top.extractLsb' 3 5) (top.extractLsb' 0 3) ||
      overflow5 (top.extractLsb' 11 5) (top.extractLsb' 8 3) ||
      overflow5 (top.extractLsb' 19 5) (top.extractLsb' 16 3))

/-! ### TSA over natural numbers -/

/-- The counters of R211. -/
structure Scr where
  base : Nat
  row : Nat
  baseToggle : Bool
  rowToggle : Bool

/-- R213. -/
def scrNewRow (tilesX t : Nat) (g : Scr) : Scr :=
  if t % tilesX = 0 ∧ 0 < t then
    if g.rowToggle = false then { g with rowToggle := true, row := g.row + 2, base := g.row + 2 }
    else { g with rowToggle := false, base := g.base - 2, row := g.base - 2 }
  else g

/-- R215. -/
def scrBaseStep (g : Scr) : Scr :=
  if g.baseToggle = false then { g with baseToggle := true, base := g.base + 1 }
  else { g with baseToggle := false, base := g.base + 3 }

/-- The counters before position `t` (R211, R212). -/
def scrAt (tilesX : Nat) : Nat → Scr
  | 0 => { base := 0, row := 0, baseToggle := false, rowToggle := false }
  | t + 1 => scrBaseStep (scrNewRow tilesX t (scrAt tilesX t))

/-- R214: `table[t]`. -/
def scrEntry (tilesX t : Nat) : Nat := (scrNewRow tilesX t (scrAt tilesX t)).base

/-! ### The image over texture data -/

/-- R233: byte `j` of the colour half of stored block `k`, as ETC gets it. -/
def blockColour (td : Nat → Byte) (rev alpha : Bool) (k j : Nat) : Byte :=
  let base := if alpha then k * 16 + 8 else k * 8
  if rev then td (base + (7 - j)) else td (base + j)

/-- R177: DIFF_OVF after the first `n` stored blocks: some block's word `top` overflows. -/
def anyOverflow (td : Nat → Byte) (rev alpha : Bool) (n : Nat) : Bool :=
  (List.range n).any fun k =>
    let b := blockColour td rev alpha k
    overflows (le32 (b 0) (b 1) (b 2) (b 3))

/-- R238: byte `c` of pixel `(X, Y)` of the tile that stored block `k` decodes to. -/
def tileByte (td : Nat → Byte) (rev alpha : Bool) (k x y c : Nat) : Byte :=
  let b := blockColour td rev alpha k
  pixelByte (le32 (b 0) (b 1) (b 2) (b 3)) (le32 (b 4) (b 5) (b 6) (b 7)) (fun j => td (k * 16 + j)) alpha x y c

/-- R238: byte `c` of pixel `(X, Y)` of the final image, `w` pixels wide. -/
def imageByte (td : Nat → Byte) (rev alpha : Bool) (w X Y c : Nat) : Byte :=
  tileByte td rev alpha (scrEntry (w / 4) ((Y / 4) * (w / 4) + X / 4)) (X % 4) (Y % 4) c

/-- R34, R230: ASM's registers at the start of a run on the view `(buf, off, len)`. -/
def asmStarted (w h : Half) (alpha : Bool) (buf : BufName) (off : Nat) (len : Word) : AsmRegs :=
  { s := 0#28, i := 0#28, r := 0#2, n := BitVec.ofNat 28 ((w.toNat / 4) * (h.toNat / 4))
    tilesX := BitVec.ofNat 14 (w.toNat / 4), tilesY := BitVec.ofNat 14 (h.toNat / 4), w := w, h := h, alpha := alpha
    tdBuf := buf, tdOff := BitVec.ofNat 32 off, tdLen := len }

/-- The tile count of an image. -/
def tiles (w h : Half) : Nat := (w.toNat / 4) * (h.toNat / 4)

/-- Bytes per stored block (R232). -/
def perBlock (alpha : Bool) : Nat := if alpha then 16 else 8

/-- The conditions under which ASM passes its checks (R231, R232), with `len` bytes of texture data. -/
abbrev fits (s : State) (w h : Half) (alpha : Bool) (len : Nat) : Prop :=
  w.toNat % 4 = 0 ∧ h.toNat % 4 = 0 ∧ w.toNat * h.toNat * 4 ≤ s.params.imgCap ∧
    tiles w h ≤ s.params.scrCap ∧ tiles w h * perBlock alpha ≤ len

/-- The first check that fails, with its fault's code and information word (R231, R232). -/
def checkFault (s : State) (w h : Half) (alpha : Bool) (len : Nat) : Option (Byte × Nat) :=
  if w.toNat % 4 ≠ 0 then some (0x13#8, 0)
  else if h.toNat % 4 ≠ 0 then some (0x13#8, 1)
  else if s.params.imgCap < w.toNat * h.toNat * 4 then some (0x16#8, 2)
  else if s.params.scrCap < tiles w h then some (0x16#8, 3)
  else if len < tiles w h * perBlock alpha then some (0x12#8, len)
  else none

/-- `i` is the least index whose entry lies outside the grid (R237). -/
abbrev leastOutside (w h : Half) (i : Nat) : Prop :=
  i < tiles w h ∧ tiles w h ≤ scrEntry (w.toNat / 4) i ∧ ∀ j < i, scrEntry (w.toNat / 4) j < tiles w h

/-- Every entry of the table lies in the grid (R237). -/
abbrev tableInGrid (w h : Half) : Prop := ∀ i < tiles w h, scrEntry (w.toNat / 4) i < tiles w h

/-- IMG1 holds the image that the texture data `td` decodes to (R238). -/
def imageIs (t : State) (td : Nat → Byte) (rev alpha : Bool) (w h : Half) : Prop :=
  t.imgW = w ∧ t.imgH = h ∧
  ∀ X < w.toNat, ∀ Y < h.toNat, ∀ c < 4,
    t.rd .IMG1 ((Y * w.toNat + X) * 4 + c) = imageByte td rev alpha w.toNat X Y c

/-- IMG0 holds the blocks of the texture data `td` in storage order, and nothing beyond the image changed (R234). -/
def intermediateIs (s t : State) (td : Nat → Byte) (rev alpha : Bool) (w h : Half) : Prop :=
  (∀ X < w.toNat, ∀ Y < h.toNat, ∀ c < 4,
    t.rd .IMG0 ((Y * w.toNat + X) * 4 + c) =
      tileByte td rev alpha ((Y / 4) * (w.toNat / 4) + X / 4) (X % 4) (Y % 4) c) ∧
  ∀ a, w.toNat * h.toNat * 4 ≤ a → t.rd .IMG0 a = s.rd .IMG0 a

/-- CBLK, ABLK and TILEOUT hold what the last block left in them; ABLK only where blocks have alpha; with no block
nothing is written (R233, R238). -/
def lastBlockIs (s t : State) (td : Nat → Byte) (rev alpha : Bool) (n : Nat) : Prop :=
  (n = 0 → t.cblk = s.cblk ∧ t.ablk = s.ablk ∧ t.tileout = s.tileout) ∧
  (alpha = false → t.ablk = s.ablk) ∧
  (0 < n →
    (∀ j < 8, t.rd .CBLK j = blockColour td rev alpha (n - 1) j) ∧
    (alpha = true → ∀ j < 8, t.rd .ABLK j = td ((n - 1) * 16 + j)) ∧
    ∀ x < 4, ∀ y < 4, ∀ c < 4, t.rd .TILEOUT ((y * 4 + x) * 4 + c) = tileByte td rev alpha (n - 1) x y c)

/-- Only what ASM writes differs (R230, R261): the image registers and buffers, SCR, the block buffers, the working
registers of ETC, TSA and ASM, and CMD, STATUS and the fault registers. -/
def onlyImageSide (s t : State) : Prop :=
  t = { s with
    cmd := t.cmd, status := t.status, errCode := t.errCode, errInfo := t.errInfo, scrLen := t.scrLen
    imgW := t.imgW, imgH := t.imgH, etc := t.etc, tsa := t.tsa, asm := t.asm, cblk := t.cblk, ablk := t.ablk
    tileout := t.tileout, img0 := t.img0, img1 := t.img1, scr := t.scr, seq := .idle, draws := t.draws }

/-- SCR holds the table of the grid (R216). -/
def scrambleIs (t : State) (tilesX n : Nat) : Prop :=
  t.scrLen.toNat = n ∧ ∀ i < n, (t.rdScr i).toNat = scrEntry tilesX i

/-- A completed assembly of the texture data `td` (R238): IMG1 is its image, SCR the table, IMG0 the intermediate image,
CBLK, ABLK and TILEOUT what the last block left. -/
def assembled (s t : State) (td : Nat → Byte) (rev alpha : Bool) (w h : Half) : Prop :=
  imageIs t td rev alpha w h ∧ scrambleIs t (w.toNat / 4) (tiles w h) ∧ intermediateIs s t td rev alpha w h ∧
    lastBlockIs s t td rev alpha (tiles w h)

/-- An assembly of `td` that SCR_RANGE ended at index `i` (R237, R297): the fault, SCR the table just built, IMG0 the
intermediate image, IMG_W and IMG_H unchanged. -/
def scrRangeEnded (s t : State) (td : Nat → Byte) (rev alpha : Bool) (w h : Half) (i : Nat) : Prop :=
  t.errCode = 0x14#8 ∧ t.errInfo = BitVec.ofNat 32 i ∧ scrambleIs t (w.toNat / 4) (tiles w h) ∧
    intermediateIs s t td rev alpha w h ∧ t.imgW = s.imgW ∧ t.imgH = s.imgH

/-- TSA's counters are `g` (R33). -/
def countersAre (t : State) (g : Scr) : Prop :=
  t.tsa.baseNumber.toNat = g.base ∧ t.tsa.rowNumber.toNat = g.row ∧
    t.tsa.baseToggle = g.baseToggle ∧ t.tsa.rowToggle = g.rowToggle

/-- The host registers and the buffers that no command writes (R261). -/
def operandsKept (s t : State) : Prop :=
  t.inBuf = s.inBuf ∧ t.inLen = s.inLen ∧ t.width = s.width ∧ t.height = s.height ∧
    t.hasAlpha = s.hasAlpha ∧ t.ctrl = s.ctrl ∧ t.params = s.params ∧ t.host = s.host ∧ t.readData = s.readData

/-- Only what LZD and HDR write differs, and CMD, STATUS and the fault registers (R256 steps 1 to 3). -/
def onlyPayloadSide (s t : State) : Prop :=
  t = { s with
    cmd := t.cmd, status := t.status, errCode := t.errCode, errInfo := t.errInfo, outBuf := t.outBuf
    outLen := t.outLen, lzd := t.lzd, ti := t.ti, seq := .idle, draws := t.draws }

/-- Nothing of the image side is touched: IMG0, IMG1, SCR, SCR_LEN, IMG_W, IMG_H, CBLK, ABLK, TILEOUT. -/
def imageSideKept (s t : State) : Prop :=
  t.img0 = s.img0 ∧ t.img1 = s.img1 ∧ t.scr = s.scr ∧ t.scrLen = s.scrLen ∧ t.imgW = s.imgW ∧
    t.imgH = s.imgH ∧ t.cblk = s.cblk ∧ t.ablk = s.ablk ∧ t.tileout = s.tileout

/-! ### The host's view -/

/-- R21: the number each register reads as, its bits above its width 0; STATUS and CTRL by their bits (R23, R25). -/
def regValue (s : State) : HostReg → Nat
  | .CMD => s.cmd.toNat
  | .STATUS => s.status.busy.toNat + 2 * s.status.done.toNat + 4 * s.status.err.toNat +
      8 * s.status.warnSize.toNat + 16 * s.status.diffOvf.toNat
  | .ERR_CODE => s.errCode.toNat
  | .ERR_INFO => s.errInfo.toNat
  | .CTRL => s.ctrl.strict.toNat + 2 * s.ctrl.rawLz.toNat
  | .IN_LEN => s.inLen.toNat
  | .OUT_LEN => s.outLen.toNat
  | .WIDTH => s.width.toNat
  | .HEIGHT => s.height.toNat
  | .HAS_ALPHA => s.hasAlpha.toNat
  | .SCR_LEN => s.scrLen.toNat
  | .IMG_W => s.imgW.toNat
  | .IMG_H => s.imgH.toNat
  | .TI_MAGIC => s.ti.magic.toNat
  | .TI_FILEPATHOFF => s.ti.filePathOff.toNat
  | .TI_DATASIZE => s.ti.dataSize.toNat
  | .TI_DATAOFF => s.ti.dataOff.toNat
  | .TI_FORMAT => s.ti.format.toNat
  | .TI_WIDTH => s.ti.width.toNat
  | .TI_HEIGHT => s.ti.height.toNat
  | .TI_MIPLEVEL => s.ti.mipLevel.toNat
  | .TI_TYPE => s.ti.type.toNat
  | .TI_CUBEMAP => s.ti.cubeMap.toNat
  | .TI_BMPSIZEOFF => s.ti.bmpSizeOff.toNat
  | .TI_TIMESTAMP => s.ti.timestamp.toNat
  | .TI_FMTCLASS => s.ti.fmtClass.toNat
  | .TI_VALID => s.ti.valid.toNat
  | .TI_SIZE_OK => s.ti.sizeOk.toNat

/-- R21, R23, R25: how many low bits each register has; the others read as 0. -/
def regBits : HostReg → Nat
  | .CMD => 8
  | .STATUS => 5
  | .ERR_CODE => 8
  | .ERR_INFO => 32
  | .CTRL => 2
  | .IN_LEN => 32
  | .OUT_LEN => 32
  | .WIDTH => 16
  | .HEIGHT => 16
  | .HAS_ALPHA => 1
  | .SCR_LEN => 32
  | .IMG_W => 16
  | .IMG_H => 16
  | .TI_MAGIC => 32
  | .TI_FILEPATHOFF => 32
  | .TI_DATASIZE => 32
  | .TI_DATAOFF => 32
  | .TI_FORMAT => 32
  | .TI_WIDTH => 16
  | .TI_HEIGHT => 16
  | .TI_MIPLEVEL => 8
  | .TI_TYPE => 8
  | .TI_CUBEMAP => 16
  | .TI_BMPSIZEOFF => 32
  | .TI_TIMESTAMP => 32
  | .TI_FMTCLASS => 2
  | .TI_VALID => 1
  | .TI_SIZE_OK => 1

/-- R21: the registers marked W. -/
abbrev written (r : HostReg) : Prop :=
  r = .CMD ∨ r = .CTRL ∨ r = .IN_LEN ∨ r = .OUT_LEN ∨ r = .WIDTH ∨ r = .HEIGHT ∨ r = .HAS_ALPHA

/-- R21: `s` with `v` in an operand register, cut to the register's width (CTRL: to its two bits). -/
def operandWritten (r : HostReg) (v : Word) (s : State) : State :=
  if r = .CTRL then { s with ctrl := { strict := v.getLsbD 0, rawLz := v.getLsbD 1 } }
  else if r = .IN_LEN then { s with inLen := v }
  else if r = .OUT_LEN then { s with outLen := v }
  else if r = .WIDTH then { s with width := v.setWidth 16 }
  else if r = .HEIGHT then { s with height := v.setWidth 16 }
  else if r = .HAS_ALPHA then { s with hasAlpha := v.getLsbD 0 }
  else s

/-- RAW_LZ is 1, or was when the running command was disturbed before (log 6). -/
def rawSeen (s : State) : Bool := s.ctrl.rawLz || s.seq == .disturbed true

end Sys2Proof.Reference

open Sys2Proof Sys2Proof.Machine Sys2Proof.Reference
open Sys2Proof.Config (BufName)

/-! ### Encoding -/

/-- Decoding what the encoder writes gives the instruction back, for every instruction and every marker (R92 to R103,
R109, R111, R112). -/
def Obligations.DecodeOfEncodeIsInstr : Prop :=
  ∀ (m : Byte) (i : Instr) (rest : List Byte), i.wellFormed m = true →
    decode (i.space m) (encode m i ++ rest) = .ok (i, rest)

/-- What the decoder answers is well formed and its encoding is exactly the bytes consumed, so that no two
instructions share an encoding in one space (R90, R92, R105, R109). -/
def Obligations.EncodeOfDecodedIsBytes : Prop :=
  ∀ (m : Byte) (sp : Space) (bytes rest : List Byte) (i : Instr),
    (∀ m', sp = .token m' → m' = m) → decode sp bytes = .ok (i, rest) →
    i.space m = sp ∧ i.wellFormed m = true ∧ encode m i ++ rest = bytes

/-- A few words written out from the encodings decode to their instructions: tokens of 95_test_vectors.md P1,
the blocks V-ETC-01 and V-ETC-04, the alpha block V-ETC-07, three command codes. -/
def Obligations.SpecWordsDecode : Prop :=
  decode .marker [0x04#8, 0x41#8] = .ok (.mark 0x04#8, [0x41#8]) ∧
  decode (.token 0x04#8) [0x41#8, 0x42#8] = .ok (.lit 0x41#8, [0x42#8]) ∧
  decode (.token 0x04#8) [0x04#8, 0x04#8, 0x43#8] = .ok (.esc, [0x43#8]) ∧
  decode (.token 0x04#8) [0x04#8, 0x05#8, 0x02#8] = .ok (.bref 0x05#8 0x02#8, []) ∧
  decode .colour [0x14#8, 0x25#8, 0x36#8, 0x00#8, 0x00#8, 0x00#8, 0x00#8, 0x00#8] =
    .ok (.etcIndNf { table1 := 0#3, table2 := 0#3, r1 := 1#4, r2 := 4#4, g1 := 2#4, g2 := 5#4
                     b1 := 3#4, b2 := 6#4, bottom := 0#32 }, []) ∧
  decode .colour [0x54#8, 0xA3#8, 0xF1#8, 0x3A#8, 0xFF#8, 0x00#8, 0x0F#8, 0xF0#8] =
    .ok (.etcDifNf { table1 := 1#3, table2 := 6#3, r := 10#5, dr := 4#3, g := 20#5, dg := 3#3
                     b := 30#5, db := 1#3, bottom := 0xF00F00FF#32 }, []) ∧
  decode .alpha [0x10#8, 0x32#8, 0x54#8, 0x76#8, 0x98#8, 0xBA#8, 0xDC#8, 0xFE#8] =
    .ok (.etcA4 0xFEDCBA9876543210#64, []) ∧
  decode .command [0x01#8] = .ok (.cmdDecompress, []) ∧
  decode .command [0x07#8] = .ok (.cmdDecodeRaw, []) ∧
  decode .command [0x09#8] = .ok (.cmdReserved 0x09#8, [])

/-- R97: the effective offset is the raw byte, less one above the marker, and the map is a bijection from the 255
values that are not the marker onto 0 .. 254. -/
def Obligations.OffsetMapIsBijection : Prop :=
  ∀ m : Byte,
    (∀ o : Byte, (effectiveOffset m o).toNat = if m.toNat < o.toNat then o.toNat - 1 else o.toNat) ∧
    (∀ o : Byte, o ≠ m → (effectiveOffset m o).toNat ≤ 254) ∧
    (∀ n ≤ 254, ∃! o : Byte, o ≠ m ∧ (effectiveOffset m o).toNat = n)

/-! ### Steps run what is decoded -/

/-- One step of an idle block with a CMD write pending runs the command its code decodes to, on the state without
that pending action (R22, R109). -/
def Obligations.StepRunsPendingCommand : Prop :=
  ∀ (s : State) (v : Word) (n : Nat) (rest : List HostEvent) (i : Instr),
    s.status.busy = false → s.host = { after := n, op := .writeReg .CMD v } :: rest →
    decode .command [v.setWidth 8] = .ok (i, []) →
    step s = exec i { s with host := rest }

/-- One step of LZD (R121, R122, R127), no host action landing: at the start step MARK of the byte `IN[0]`, then the
sequencer goes to the token loop; inside the loop the token at `ip`, its bytes latched in `b0`, `b1`, `b2`; at a
token cut short LZ_TRUNCATED at its first byte; at the end of the stream the command's next stage. The places of the
sequencer are the model's (log 4); that OUT's old bytes become a fresh draw at the empty stream is log 7 (DESIGN CHOICE);
that `b0` and `b1` are latched in a cut token is log 12 (DEDUCED). -/
def Obligations.StepRunsToken : Prop :=
  ∀ s : State, s.status.busy = true → s.host = [] →
    (s.seq = .mark → s.inLen.toNat ≠ 0 →
      step s = .next { Safety.reached (exec (.mark (s.rd .IN 0)) s) s with seq := .token }) ∧
    (s.seq = .mark → s.inLen.toNat = 0 →
      step s = .next (faulted 0x10#8 0#32 { s.forget .OUT with outLen := 0#32 })) ∧
    (s.seq = .token → s.inLen.toNat ≤ s.lzd.ip.toNat →
      step s = .next (if s.cmd = 6#8 then { s with seq := .header }
        else if s.cmd = 7#8 then { s with seq := .assemble }
        else { s with seq := .idle, status := { s.status with busy := false, done := true } })) ∧
    (s.seq = .token → s.lzd.ip.toNat < s.inLen.toNat → s.rd .IN s.lzd.ip.toNat ≠ s.lzd.m →
      step s = exec (.lit (s.rd .IN s.lzd.ip.toNat))
        { s with lzd := { s.lzd with b0 := s.rd .IN s.lzd.ip.toNat } }) ∧
    (s.seq = .token → s.lzd.ip.toNat < s.inLen.toNat → s.rd .IN s.lzd.ip.toNat = s.lzd.m →
      (s.inLen.toNat = s.lzd.ip.toNat + 1 →
        step s = .next (faulted 0x10#8 s.lzd.ip { s with lzd := { s.lzd with b0 := s.lzd.m } })) ∧
      (s.lzd.ip.toNat + 1 < s.inLen.toNat → s.rd .IN (s.lzd.ip.toNat + 1) = s.lzd.m →
        step s = exec .esc { s with lzd := { s.lzd with b0 := s.lzd.m, b1 := s.lzd.m } }) ∧
      (s.rd .IN (s.lzd.ip.toNat + 1) ≠ s.lzd.m →
        (s.inLen.toNat = s.lzd.ip.toNat + 2 →
          step s = .next (faulted 0x10#8 s.lzd.ip
            { s with lzd := { s.lzd with b0 := s.lzd.m, b1 := s.rd .IN (s.lzd.ip.toNat + 1) } })) ∧
        (s.lzd.ip.toNat + 2 < s.inLen.toNat →
          step s = exec (.bref (s.rd .IN (s.lzd.ip.toNat + 1)) (s.rd .IN (s.lzd.ip.toNat + 2)))
            { s with lzd := { s.lzd with
                b0 := s.lzd.m
                b1 := s.rd .IN (s.lzd.ip.toNat + 1)
                b2 := s.rd .IN (s.lzd.ip.toNat + 2) } })))

/-- One step of ETC (R171, R172, R188), no host action landing: the alpha half in ABLK, then the colour half in CBLK,
each decoded from its eight bytes and run by `exec`; the sequencer then goes on. -/
def Obligations.StepRunsBlock : Prop :=
  ∀ (s : State) (i : Instr), s.status.busy = true → s.host = [] →
    (s.seq = .alpha →
      decode .alpha ((List.range 8).map fun j => s.rd .ABLK j) = .ok (i, []) →
      step s = .next { Safety.reached (exec i s) s with seq := .colour }) ∧
    (s.seq = .colour →
      decode .colour ((List.range 8).map fun j => s.rd .CBLK j) = .ok (i, []) →
      step s = .next (if s.cmd = 3#8
        then { Safety.reached (exec i s) s with
          seq := .idle
          status := { (Safety.reached (exec i s) s).status with busy := false, done := true } }
        else { Safety.reached (exec i s) s with seq := .store }))

/-! ### LZD -/

/-- MARK (R121): with a stream, `out_len = 0`, `M` is the byte, `ip = 1`, OUT holds nothing specified and nothing else
changes; with an empty stream LZ_TRUNCATED(0), `OUT_LEN = 0`. That OUT's old bytes become a fresh draw is log 7. -/
def Obligations.MarkStartsStream : Prop :=
  ∀ (m : Byte) (s : State),
    (s.inLen.toNat ≠ 0 →
      ∃ t, exec (.mark m) s = .next t ∧ t.lzd.m = m ∧ t.lzd.ip = 1#32 ∧ t.outLen = 0#32 ∧
        (∀ b a, b ≠ .OUT → t.rd b a = s.rd b a) ∧
        t = { s with
          lzd := { s.lzd with m := m, ip := 1#32 }, outLen := 0#32
          outBuf := Memory.blank 8 s.draws, draws := s.draws + 1 }) ∧
    (s.inLen.toNat = 0 →
      exec (.mark m) s = .next (faulted 0x10#8 0#32
        { s with outLen := 0#32, outBuf := Memory.blank 8 s.draws, draws := s.draws + 1 }))

/-- LIT (R123): the byte goes to `OUT[out_len]`, `out_len` grows by 1, `ip` by 1, nothing else changes; with OUT full
OUT_OVERFLOW(ip) before anything is written. -/
def Obligations.LitAppendsByte : Prop :=
  ∀ (b : Byte) (s : State),
    (s.outLen.toNat + 1 ≤ s.params.outCap.toNat →
      ∃ t, exec (.lit b) s = .next t ∧ t.rd .OUT s.outLen.toNat = b ∧
        (∀ d a, d ≠ .OUT ∨ a ≠ s.outLen.toNat → t.rd d a = s.rd d a) ∧
        t = { s with
          lzd := { s.lzd with ip := s.lzd.ip + 1#32 }, outLen := s.outLen + 1#32, outBuf := t.outBuf }) ∧
    (s.params.outCap.toNat < s.outLen.toNat + 1 →
      exec (.lit b) s = .next (faulted 0x11#8 s.lzd.ip s))

/-- ESC (R124): the marker goes to `OUT[out_len]`, `out_len` grows by 1, `ip` by 2, nothing else changes; with OUT full
OUT_OVERFLOW(ip); a lone marker at the end of the stream is no ESC but LZ_TRUNCATED(ip) at fetch. The last clause is about
a step at the place `token` of the model's own sequencer (log 4, DESIGN CHOICE), and that `b0` is latched in a cut token is
log 12 (DEDUCED). -/
def Obligations.EscAppendsMarker : Prop :=
  ∀ s : State,
    (s.outLen.toNat + 1 ≤ s.params.outCap.toNat →
      ∃ t, exec .esc s = .next t ∧ t.rd .OUT s.outLen.toNat = s.lzd.m ∧
        (∀ d a, d ≠ .OUT ∨ a ≠ s.outLen.toNat → t.rd d a = s.rd d a) ∧
        t = { s with
          lzd := { s.lzd with ip := s.lzd.ip + 2#32 }, outLen := s.outLen + 1#32, outBuf := t.outBuf }) ∧
    (s.params.outCap.toNat < s.outLen.toNat + 1 →
      exec .esc s = .next (faulted 0x11#8 s.lzd.ip s)) ∧
    (s.status.busy = true → s.host = [] → s.seq = .token → s.inLen.toNat = s.lzd.ip.toNat + 1 →
      s.rd .IN s.lzd.ip.toNat = s.lzd.m →
      step s = .next (faulted 0x10#8 s.lzd.ip { s with lzd := { s.lzd with b0 := s.lzd.m } }))

/-- BREF (R125, R126): `O` and `C` as given; LZ_BOUNDS(ip) when `O` is 0 or beyond the output, then OUT_OVERFLOW(ip)
when the bytes do not fit; else `C` bytes are appended, each equal to the byte `O` places before it (the copy is
byte-serial), every byte below `out_len` and every other buffer unchanged, `ip` grows by 3. -/
def Obligations.BrefCopiesForward : Prop :=
  ∀ (o c : Byte) (s : State),
    let off := effectiveOffset s.lzd.m o
    let l := s.outLen.toNat
    let s1 : State := { s with lzd := { s.lzd with o := off, c := c } }
    (off.toNat = 0 ∨ l < off.toNat → exec (.bref o c) s = .next (faulted 0x04#8 s.lzd.ip s1)) ∧
    (1 ≤ off.toNat → off.toNat ≤ l → s.params.outCap.toNat < l + c.toNat →
      exec (.bref o c) s = .next (faulted 0x11#8 s.lzd.ip s1)) ∧
    (1 ≤ off.toNat → off.toNat ≤ l → l + c.toNat ≤ s.params.outCap.toNat →
      ∃ t, exec (.bref o c) s = .next t ∧
        t.outLen.toNat = l + c.toNat ∧
        (∀ k < c.toNat, t.rd .OUT (l + k) = t.rd .OUT (l - off.toNat + k)) ∧
        (∀ d a, d ≠ .OUT ∨ a < l ∨ l + c.toNat ≤ a → t.rd d a = s.rd d a) ∧
        t = { s1 with
          lzd := { s1.lzd with
            ip := s.lzd.ip + 3#32, src := BitVec.ofNat 32 (l - off.toNat), k := c }
          outLen := t.outLen, outBuf := t.outBuf })

/-- R126 (its derived form): the bytes a BREF appends repeat the last `O` bytes of the output with period `O`. -/
def Obligations.BrefRepeatsWithPeriod : Prop :=
  ∀ (o c : Byte) (s : State),
    let off := (effectiveOffset s.lzd.m o).toNat
    let l := s.outLen.toNat
    1 ≤ off → off ≤ l → l + c.toNat ≤ s.params.outCap.toNat →
    ∃ t, exec (.bref o c) s = .next t ∧
      ∀ k < c.toNat, t.rd .OUT (l + k) = s.rd .OUT (l - off + k % off)

/-- CMD.DECOMPRESS computes the list function `lz` of the stream and OUT_CAP (R130, R251), and changes only OUT,
OUT_LEN, LZD's registers and the status and fault registers (R120, R261). On a fault the output is that of the
tokens before the faulting one (R128); on completion `ip = IN_LEN` (R127). -/
def Obligations.DecompressComputesLz : Prop :=
  ∀ s : State, s.status.busy = false → s.inLen.toNat ≤ s.params.inCap.toNat →
    ∃ t, exec .cmdDecompress s = .next t ∧
      (∀ out, lz s.params.outCap.toNat (stream s) = .done out →
        outputIs t out ∧ t.lzd.ip = s.inLen ∧ t.status = doneStatus false false ∧
          t.errCode = 0#8 ∧ t.errInfo = 0#32) ∧
      (∀ code info out, lz s.params.outCap.toNat (stream s) = .fault code info out →
        outputIs t out ∧ t.status = { doneStatus false false with err := true } ∧
          t.errCode = code ∧ t.errInfo = BitVec.ofNat 32 info) ∧
      (∀ b a, b ≠ .OUT → t.rd b a = s.rd b a) ∧
      t = { s with
        cmd := 1#8, status := t.status, errCode := t.errCode, errInfo := t.errInfo, outLen := t.outLen
        outBuf := t.outBuf, lzd := t.lzd, seq := .idle, draws := t.draws }

/-- R129 item 4: the output is at most 85 times the stream less its marker, whatever the outcome. -/
def Obligations.DecompressGrowthBound : Prop :=
  ∀ s t : State, s.status.busy = false → 1 ≤ s.inLen.toNat → s.inLen.toNat ≤ s.params.inCap.toNat →
    exec .cmdDecompress s = .next t → t.outLen.toNat ≤ 85 * (s.inLen.toNat - 1)

/-! ### HDR -/

/-- CMD.PARSE_HEADER (R150 to R157, R252): the checks in their order, the record of the 36 bytes, the size policy. In
every case nothing but CMD, STATUS, the fault registers and TI_* changes. CAPACITY(1) is the launch's (R250). The offsets
and widths of the header's fields are the spec's passage G4 (log 16, PRESUMED). -/
def Obligations.ParseHeaderOutcome : Prop :=
  ∀ s : State, s.status.busy = false →
    let s1 := launchedHeader 2#8 s
    let d := fun j => s.rd .OUT j
    let s2 : State := { s1 with ti := header d s.outLen.toNat }
    (s.params.outCap.toNat < s.outLen.toNat →
      exec .cmdParseHeader s = .next (faulted 0x16#8 1#32 s1)) ∧
    (s.outLen.toNat ≤ s.params.outCap.toNat → s.outLen.toNat < 36 →
      exec .cmdParseHeader s = .next (faulted 0x01#8 0#32 s1)) ∧
    (s.outLen.toNat ≤ s.params.outCap.toNat → 36 ≤ s.outLen.toNat →
      (¬ magicOk s d → exec .cmdParseHeader s = .next (faulted 0x01#8 1#32 s1)) ∧
      (magicOk s d → (header d s.outLen.toNat).sizeOk = true →
        exec .cmdParseHeader s = .next { s2 with status := doneStatus false false, seq := .idle }) ∧
      (magicOk s d → (header d s.outLen.toNat).sizeOk = false → s.ctrl.strict = false →
        exec .cmdParseHeader s = .next { s2 with status := doneStatus true false, seq := .idle }) ∧
      (magicOk s d → (header d s.outLen.toNat).sizeOk = false → s.ctrl.strict = true →
        exec .cmdParseHeader s = .next (faulted 0x02#8 (BitVec.ofNat 32 (s.outLen.toNat - 36)) s2)))

/-! ### ETC -/

/-- ETC.IND.NF and ETC.IND.FL (R184, R185): the pixels, no flag, nothing changed but TILEOUT and ETC's registers. The
modulation values are those of MOD_TABLE (R35, the spec's passage G1). -/
def Obligations.IndividualBlockPixels : Prop :=
  ∀ (flip : Bool) (f : IndFields) (s : State),
    ∃ t, exec (if flip then .etcIndFl f else .etcIndNf f) s = .next t ∧
      (∀ x y : BitVec 2,
        let first := Reference.inFirst flip x.toNat y.toNat
        let delta := MOD_TABLE (if first then f.table1 else f.table2) (selector f.bottom (x.toNat * 4 + y.toNat))
        let o := (y.toNat * 4 + x.toNat) * 4
        t.rd .TILEOUT o = clamp ((exp4 (if first then f.r1 else f.r2)).toNat + delta) ∧
        t.rd .TILEOUT (o + 1) = clamp ((exp4 (if first then f.g1 else f.g2)).toNat + delta) ∧
        t.rd .TILEOUT (o + 2) = clamp ((exp4 (if first then f.b1 else f.b2)).toNat + delta) ∧
        t.rd .TILEOUT (o + 3) =
          if s.etc.hasAlpha then alphaByte (fun j => s.rd .ABLK j) (x.toNat * 4 + y.toNat) else 255#8) ∧
      (∀ b a, b ≠ .TILEOUT ∨ 64 ≤ a → t.rd b a = s.rd b a) ∧
      t = { s with etc := t.etc, tileout := t.tileout }

/-- ETC.DIF.NF and ETC.DIF.FL (R186, R187): the pixels, DIFF_OVF set when a sum leaves 0 .. 31 and else left as it is,
nothing changed but that flag, TILEOUT and ETC's registers. The modulation values are those of MOD_TABLE (R35, the
spec's passage G1). -/
def Obligations.DifferentialBlockPixels : Prop :=
  ∀ (flip : Bool) (f : DifFields) (s : State),
    ∃ t, exec (if flip then .etcDifFl f else .etcDifNf f) s = .next t ∧
      (∀ x y : BitVec 2,
        let first := Reference.inFirst flip x.toNat y.toNat
        let delta := MOD_TABLE (if first then f.table1 else f.table2) (selector f.bottom (x.toNat * 4 + y.toNat))
        let o := (y.toNat * 4 + x.toNat) * 4
        t.rd .TILEOUT o = clamp ((exp5 (if first then f.r else add5 f.r f.dr)).toNat + delta) ∧
        t.rd .TILEOUT (o + 1) = clamp ((exp5 (if first then f.g else add5 f.g f.dg)).toNat + delta) ∧
        t.rd .TILEOUT (o + 2) = clamp ((exp5 (if first then f.b else add5 f.b f.db)).toNat + delta) ∧
        t.rd .TILEOUT (o + 3) =
          if s.etc.hasAlpha then alphaByte (fun j => s.rd .ABLK j) (x.toNat * 4 + y.toNat) else 255#8) ∧
      (t.status = { s.status with diffOvf := s.status.diffOvf ||
        (decide ((f.r.toNat : Int) + f.dr.toInt < 0 ∨ 31 < (f.r.toNat : Int) + f.dr.toInt) ||
          decide ((f.g.toNat : Int) + f.dg.toInt < 0 ∨ 31 < (f.g.toNat : Int) + f.dg.toInt) ||
          decide ((f.b.toNat : Int) + f.db.toInt < 0 ∨ 31 < (f.b.toNat : Int) + f.db.toInt)) }) ∧
      (∀ b a, b ≠ .TILEOUT ∨ 64 ≤ a → t.rd b a = s.rd b a) ∧
      t = { s with etc := t.etc, tileout := t.tileout, status := t.status }

/-- ETC.A4 (R188): byte 3 of pixel `(x, y)` is 17 times nibble `x*4 + y`; no other byte of any buffer changes, nor
any register but ETC's. -/
def Obligations.AlphaBlockPixels : Prop :=
  ∀ (a : BitVec 64) (s : State),
    ∃ t, exec (.etcA4 a) s = .next t ∧
      (∀ x y : BitVec 2,
        (t.rd .TILEOUT ((y.toNat * 4 + x.toNat) * 4 + 3)).toNat =
          17 * (a.extractLsb' (4 * (x.toNat * 4 + y.toNat)) 4).toNat) ∧
      (∀ b d, b ≠ .TILEOUT ∨ 64 ≤ d ∨ d % 4 ≠ 3 → t.rd b d = s.rd b d) ∧
      t = { s with etc := t.etc, tileout := t.tileout }

/-- R176: `exp4` and `exp5` on every field value, with the table the rule gives for `exp5`. -/
def Obligations.ChannelExpansionTable : Prop :=
  (∀ c : BitVec 4, (exp4 c).toNat = 17 * c.toNat) ∧
  (List.range 32).map (fun c => (exp5 (BitVec.ofNat 5 c)).toNat) =
    [0, 8, 16, 24, 33, 41, 49, 57, 66, 74, 82, 90, 99, 107, 115, 123, 132, 140, 148, 156, 165, 173, 181,
     189, 198, 206, 214, 222, 231, 239, 247, 255]

/-- R35: the 32 values of `MOD_TABLE`, row by row (the spec's passage G1, log 16). -/
def Obligations.ModulationTableValues : Prop :=
  (List.range 8).map (fun r => (List.range 4).map fun c => MOD_TABLE (BitVec.ofNat 3 r) (BitVec.ofNat 2 c)) =
    [[2, 8, -2, -8], [5, 17, -5, -17], [9, 29, -9, -29], [13, 42, -13, -42], [18, 60, -18, -60],
      [24, 80, -24, -80], [33, 106, -33, -106], [47, 183, -47, -183]]

/-- R179: the selector of pixel `idx` is twice its high bit plus its low bit, each at its place in `bottom` (the spec's
passage G3, log 16). -/
def Obligations.SelectorPlanes : Prop :=
  ∀ (bottom : Word) (idx : Nat), idx < 16 →
    (selector bottom idx).toNat =
      2 * (bottom.toNat / 2 ^ (if idx < 8 then idx + 8 else idx - 8) % 2) +
        bottom.toNat / 2 ^ (if idx < 8 then idx + 24 else idx + 8) % 2

/-- R177: the sum of a 5-bit base and a delta wraps modulo 32. -/
def Obligations.DifferentialSumWraps : Prop :=
  ∀ (c : BitVec 5) (d : BitVec 3),
    ((add5 c d).toNat : Int) = ((c.toNat : Int) + d.toInt) % 32 ∧
    (overflow5 c d = true ↔ (c.toNat : Int) + d.toInt < 0 ∨ 31 < (c.toNat : Int) + d.toInt)

/-- CMD.DECODE_BLOCK (R253) always completes: TILEOUT is the tile of CBLK and, with HAS_ALPHA = 1, ABLK; DIFF_OVF says
whether a differential sum overflowed; no other buffer, and no register but CMD, STATUS, the fault registers and
ETC's, changes. The modulation values are those of MOD_TABLE (R35, the spec's passage G1). -/
def Obligations.DecodeBlockTile : Prop :=
  ∀ s : State, s.status.busy = false →
    let top := le32 (s.rd .CBLK 0) (s.rd .CBLK 1) (s.rd .CBLK 2) (s.rd .CBLK 3)
    let bottom := le32 (s.rd .CBLK 4) (s.rd .CBLK 5) (s.rd .CBLK 6) (s.rd .CBLK 7)
    ∃ t, exec .cmdDecodeBlock s = .next t ∧
      (∀ x < 4, ∀ y < 4, ∀ c < 4,
        t.rd .TILEOUT ((y * 4 + x) * 4 + c) =
          pixelByte top bottom (fun j => s.rd .ABLK j) s.hasAlpha x y c) ∧
      t.status = doneStatus false (overflows top) ∧
      (∀ b a, b ≠ .TILEOUT ∨ 64 ≤ a → t.rd b a = s.rd b a) ∧
      t = { s with
        cmd := 3#8, status := t.status, errCode := 0#8, errInfo := 0#32, etc := t.etc
        tileout := t.tileout, seq := .idle }

/-- R189: what ETC leaves in TILEOUT and in STATUS is a function of CBLK, HAS_ALPHA and, only with HAS_ALPHA = 1,
ABLK. -/
def Obligations.DecodeBlockReadsOnlyItsInputs : Prop :=
  ∀ s s' t t' : State, s.status.busy = false → s'.status.busy = false →
    (∀ j < 8, s.rd .CBLK j = s'.rd .CBLK j) → s.hasAlpha = s'.hasAlpha →
    (s.hasAlpha = true → ∀ j < 8, s.rd .ABLK j = s'.rd .ABLK j) →
    exec .cmdDecodeBlock s = .next t → exec .cmdDecodeBlock s' = .next t' →
    t.status = t'.status ∧ ∀ a < 64, t.rd .TILEOUT a = t'.rd .TILEOUT a

/-! ### TSA -/

/-- CMD.BUILD_SCRAMBLE (R254, R210 to R216): the dimension checks, the capacity check, else the table of the counting
procedure, with TSA's counters where the last position leaves them; nothing but CMD, STATUS, the fault registers,
TSA's registers, SCR and SCR_LEN changes. That TSA's registers are as before after CAPACITY(3) is the model's choice
(log 19). -/
def Obligations.BuildScrambleTable : Prop :=
  ∀ s : State, s.status.busy = false →
    (s.width.toNat % 4 ≠ 0 → exec .cmdBuildScramble s = .next (faulted 0x13#8 0#32 (launched 4#8 s))) ∧
    (s.width.toNat % 4 = 0 → s.height.toNat % 4 ≠ 0 →
      exec .cmdBuildScramble s = .next (faulted 0x13#8 1#32 (launched 4#8 s))) ∧
    (s.width.toNat % 4 = 0 → s.height.toNat % 4 = 0 → s.params.scrCap < tiles s.width s.height →
      exec .cmdBuildScramble s = .next (faulted 0x16#8 3#32 (launched 4#8 s))) ∧
    (s.width.toNat % 4 = 0 → s.height.toNat % 4 = 0 → tiles s.width s.height ≤ s.params.scrCap →
      ∃ t, exec .cmdBuildScramble s = .next t ∧
        scrambleIs t (s.width.toNat / 4) (tiles s.width s.height) ∧
        countersAre t (scrAt (s.width.toNat / 4) (tiles s.width s.height)) ∧
        (∀ b a, t.rd b a = s.rd b a) ∧
        t = { s with
          cmd := 4#8, status := doneStatus false false, errCode := 0#8, errInfo := 0#32, tsa := t.tsa
          scr := t.scr, scrLen := t.scrLen, seq := .idle, draws := t.draws })

/-- R217 item 1 (derived in the spec): for even `tilesX` the table has a closed form. -/
def Obligations.ScrambleClosedFormEven : Prop :=
  ∀ s t : State, s.status.busy = false → s.width.toNat % 8 = 0 → s.height.toNat % 4 = 0 →
    tiles s.width s.height ≤ s.params.scrCap → exec .cmdBuildScramble s = .next t →
    ∀ i < tiles s.width s.height,
      let tx := s.width.toNat / 4
      (t.rdScr i).toNat = 2 * tx * (i / tx / 2) + 4 * (i % tx / 2) + 2 * (i / tx % 2) + i % tx % 2

/-- R217 item 2, one direction (derived in the spec): on a grid with both sides even the table is a permutation. -/
def Obligations.ScrambleEvenGridPermutes : Prop :=
  ∀ s t : State, s.status.busy = false → s.width.toNat % 8 = 0 → s.height.toNat % 8 = 0 →
    tiles s.width s.height ≤ s.params.scrCap → exec .cmdBuildScramble s = .next t →
    (∀ i < tiles s.width s.height, (t.rdScr i).toNat < tiles s.width s.height) ∧
    (∀ i < tiles s.width s.height, ∀ j < tiles s.width s.height, t.rdScr i = t.rdScr j → i = j)

/-- R218 (derived in the spec): on every grid `SCR[i] <= 3*i`, and TSA's 32-bit counters never wrap: SCR and the counters
at the end are those of the counting procedure over natural numbers, in which both numbers stay at most `3*k` at every
position `k` up to the end, below `2^30`, and the `- 2` of a new row never goes below 0. -/
def Obligations.ScrambleEntryBound : Prop :=
  ∀ s t : State, s.status.busy = false → s.width.toNat % 4 = 0 → s.height.toNat % 4 = 0 →
    tiles s.width s.height ≤ s.params.scrCap → exec .cmdBuildScramble s = .next t →
    let tx := s.width.toNat / 4
    let n := tiles s.width s.height
    (∀ i < n, (t.rdScr i).toNat ≤ 3 * i) ∧ scrambleIs t tx n ∧ countersAre t (scrAt tx n) ∧
    (∀ k ≤ n, (scrAt tx k).base ≤ 3 * k ∧ (scrAt tx k).row ≤ 3 * k ∧
      ((scrAt tx k).rowToggle = true → 2 ≤ (scrAt tx k).base)) ∧
    3 * n < 2 ^ 30

/-! ### ASM and the commands that run it -/

/-- CMD.DECODE_TEX, the checks before any block is decoded, in their order (R250, R231, R232): each ends the command
with its fault and nothing but CMD, STATUS and the fault registers changed, and from the start of ASM's run ASM's registers,
which R34 sets at the start of each run. The model's choices: that `tilesX`, `tilesY` and `N` are set, rounded down, also
where a dimension check ends the run, and that ETC's `has_alpha` is as before (log 19); that CBLK, ABLK and TILEOUT, which
R297 does not list, keep their bytes (log 20). -/
def Obligations.DecodeTexChecks : Prop :=
  ∀ s : State, s.status.busy = false →
    let s1 := launched 5#8 s
    let s2 : State := { s1 with asm := asmStarted s.width s.height s.hasAlpha .IN 0 s.inLen }
    let n := tiles s.width s.height
    (s.params.inCap.toNat < s.inLen.toNat → exec .cmdDecodeTex s = .next (faulted 0x16#8 0#32 s1)) ∧
    (s.inLen.toNat ≤ s.params.inCap.toNat → s.width.toNat % 4 ≠ 0 →
      exec .cmdDecodeTex s = .next (faulted 0x13#8 0#32 s2)) ∧
    (s.inLen.toNat ≤ s.params.inCap.toNat → s.width.toNat % 4 = 0 → s.height.toNat % 4 ≠ 0 →
      exec .cmdDecodeTex s = .next (faulted 0x13#8 1#32 s2)) ∧
    (s.inLen.toNat ≤ s.params.inCap.toNat → s.width.toNat % 4 = 0 → s.height.toNat % 4 = 0 →
      (s.params.imgCap < s.width.toNat * s.height.toNat * 4 →
        exec .cmdDecodeTex s = .next (faulted 0x16#8 2#32 s2)) ∧
      (s.width.toNat * s.height.toNat * 4 ≤ s.params.imgCap → s.params.scrCap < n →
        exec .cmdDecodeTex s = .next (faulted 0x16#8 3#32 s2)) ∧
      (s.width.toNat * s.height.toNat * 4 ≤ s.params.imgCap → n ≤ s.params.scrCap →
        s.inLen.toNat < n * perBlock s.hasAlpha →
        exec .cmdDecodeTex s = .next (faulted 0x12#8 s.inLen s2)))

/-- CMD.DECODE_TEX (R255, R230 to R238): when the checks pass and every entry of the table lies in the grid, the
command completes and IMG1 is the image, pixel by pixel, of the blocks in IN; SCR is the table, IMG0 the intermediate
image, CBLK, ABLK and TILEOUT what the last block left; DIFF_OVF says whether some block overflowed (R177); nothing else
changes. That IMG0 keeps its bytes beyond the image is log 15. The modulation values are those of MOD_TABLE (R35, the
spec's passage G1). -/
def Obligations.DecodeTexImage : Prop :=
  ∀ s : State, s.status.busy = false → s.inLen.toNat ≤ s.params.inCap.toNat →
    fits s s.width s.height s.hasAlpha s.inLen.toNat → tableInGrid s.width s.height →
    let td := fun j => s.rd .IN j
    ∃ t, exec .cmdDecodeTex s = .next t ∧
      t.status = doneStatus false (anyOverflow td s.params.colorRev s.hasAlpha (tiles s.width s.height)) ∧
      t.errCode = 0#8 ∧ t.errInfo = 0#32 ∧ t.cmd = 5#8 ∧
      assembled s t td s.params.colorRev s.hasAlpha s.width s.height ∧ onlyImageSide s t

/-- R237, R290, R297: when the checks pass and `i` is the least index whose entry lies outside the grid, CMD.DECODE_TEX
ends with SCR_RANGE(i); SCR is the table just built, IMG0 the intermediate image; IMG_W and IMG_H are unchanged, DIFF_OVF
says whether some block of stage 1 overflowed, and everything that is not ASM's is as before. That IMG0 keeps its bytes
beyond the image is log 15. The modulation values are those of MOD_TABLE (R35, the spec's passage G1). -/
def Obligations.DecodeTexScrRange : Prop :=
  ∀ (s : State) (i : Nat), s.status.busy = false → s.inLen.toNat ≤ s.params.inCap.toNat →
    fits s s.width s.height s.hasAlpha s.inLen.toNat → leastOutside s.width s.height i →
    let td := fun j => s.rd .IN j
    ∃ t, exec .cmdDecodeTex s = .next t ∧ t.cmd = 5#8 ∧
      t.status = { doneStatus false (anyOverflow td s.params.colorRev s.hasAlpha (tiles s.width s.height)) with
        err := true } ∧
      scrRangeEnded s t td s.params.colorRev s.hasAlpha s.width s.height i ∧ onlyImageSide s t

/-- R290: on a grid with both sides even CMD.DECODE_TEX never ends with SCR_RANGE: it completes. -/
def Obligations.DecodeTexEvenGridCompletes : Prop :=
  ∀ s : State, s.status.busy = false → s.inLen.toNat ≤ s.params.inCap.toNat →
    s.width.toNat % 8 = 0 → s.height.toNat % 8 = 0 → fits s s.width s.height s.hasAlpha s.inLen.toNat →
    ∃ t, exec .cmdDecodeTex s = .next t ∧
      t.status = doneStatus false
        (anyOverflow (fun j => s.rd .IN j) s.params.colorRev s.hasAlpha (tiles s.width s.height)) ∧
      t.imgW = s.width ∧ t.imgH = s.height

/-- R257: with RAW_LZ = 0 CMD.DECODE_RAW is CMD.DECODE_TEX, but for the code CMD reads back. -/
def Obligations.RawWithoutLzIsDecodeTex : Prop :=
  ∀ s : State, s.status.busy = false → s.ctrl.rawLz = false →
    ∃ t, exec .cmdDecodeTex s = .next t ∧ exec .cmdDecodeRaw s = .next { t with cmd := 7#8 }

/-- CMD.DECODE_RAW with RAW_LZ = 1 (R257): when the stream decompresses to `out`, the checks pass on it and the table
lies in the grid, OUT is `out`, IMG1 its image, SCR, IMG0 and the block buffers as for CMD.DECODE_TEX, DIFF_OVF says
whether some block overflowed; nothing but LZD's and ASM's state changes. That IMG0 keeps its bytes beyond the image is
log 15. The modulation values are those of MOD_TABLE (R35, the spec's passage G1). -/
def Obligations.RawWithLzImage : Prop :=
  ∀ (s : State) (out : List Byte), s.status.busy = false → s.inLen.toNat ≤ s.params.inCap.toNat →
    s.ctrl.rawLz = true → lz s.params.outCap.toNat (stream s) = .done out →
    fits s s.width s.height s.hasAlpha out.length → tableInGrid s.width s.height →
    let td := fun j => out.getD j 0#8
    ∃ t, exec .cmdDecodeRaw s = .next t ∧
      t.status = doneStatus false (anyOverflow td s.params.colorRev s.hasAlpha (tiles s.width s.height)) ∧
      t.errCode = 0#8 ∧ t.errInfo = 0#32 ∧ t.cmd = 7#8 ∧ outputIs t out ∧
      assembled s t td s.params.colorRev s.hasAlpha s.width s.height ∧
      onlyImageSide { s with outBuf := t.outBuf, outLen := t.outLen, lzd := t.lzd } t

/-- CMD.DECODE_RAW with RAW_LZ = 1, its faults in order (R257, R295, R297): the stream's fault; else the first failing
check of ASM, with OUT the output and the image side untouched; else SCR_RANGE at the least index outside the grid, as
for CMD.DECODE_TEX. In every case TI_* and everything but LZD's and ASM's state is as before. That the buffers of the
image side that R297 does not list after a fault keep their bytes is log 20 (DESIGN CHOICE), that IMG0 does beyond the
image is log 15. The modulation values are those of MOD_TABLE (R35, the spec's passage G1). -/
def Obligations.RawWithLzFaults : Prop :=
  ∀ s : State, s.status.busy = false → s.inLen.toNat ≤ s.params.inCap.toNat → s.ctrl.rawLz = true →
    ∃ t, exec .cmdDecodeRaw s = .next t ∧ t.cmd = 7#8 ∧
      onlyImageSide { s with outBuf := t.outBuf, outLen := t.outLen, lzd := t.lzd } t ∧
      (∀ code info out, lz s.params.outCap.toNat (stream s) = .fault code info out →
        t.errCode = code ∧ t.errInfo = BitVec.ofNat 32 info ∧
          t.status = { doneStatus false false with err := true } ∧ outputIs t out ∧ imageSideKept s t) ∧
      (∀ out, lz s.params.outCap.toNat (stream s) = .done out →
        let td := fun j => out.getD j 0#8
        outputIs t out ∧
        (∀ code info, checkFault s s.width s.height s.hasAlpha out.length = some (code, info) →
          t.errCode = code ∧ t.errInfo = BitVec.ofNat 32 info ∧
            t.status = { doneStatus false false with err := true } ∧ imageSideKept s t) ∧
        (∀ i, fits s s.width s.height s.hasAlpha out.length → leastOutside s.width s.height i →
          t.status = { doneStatus false (anyOverflow td s.params.colorRev s.hasAlpha (tiles s.width s.height)) with
            err := true } ∧
          scrRangeEnded s t td s.params.colorRev s.hasAlpha s.width s.height i))

/-- CMD.DECODE_ENTRY (R256): when the stream decompresses to `out`, whose header has the magic, a supported format and
an accepted size, whose data pass ASM's checks and whose grid holds its table, the command completes: OUT is `out`,
TI_* its header, IMG1 the image of the bytes from 36 on, SCR, IMG0 and the block buffers as for CMD.DECODE_TEX, WARN_SIZE
the size mismatch, DIFF_OVF whether some block overflowed; nothing but the state of LZD, HDR and ASM changes. That IMG0
keeps its bytes beyond the image is log 15. The modulation values are those of MOD_TABLE (R35, the spec's passage G1), the
offsets and widths of the header's fields those of the spec's passage G4 (log 16, PRESUMED). -/
def Obligations.EntryDecodesPayload : Prop :=
  ∀ (s : State) (out : List Byte), s.status.busy = false → s.inLen.toNat ≤ s.params.inCap.toNat →
    lz s.params.outCap.toNat (stream s) = .done out → 36 ≤ out.length →
    let d := fun j => out.getD j 0#8
    let ti := header d out.length
    let alpha := ti.fmtClass == 1#2
    let td := fun j => d (36 + j)
    magicOk s d → (ti.sizeOk = true ∨ s.ctrl.strict = false) → ti.fmtClass ≠ 2#2 →
    fits s ti.width ti.height alpha (out.length - 36) → tableInGrid ti.width ti.height →
    ∃ t, exec .cmdDecodeEntry s = .next t ∧
      t.status = doneStatus (!ti.sizeOk) (anyOverflow td s.params.colorRev alpha (tiles ti.width ti.height)) ∧
      t.errCode = 0#8 ∧ t.errInfo = 0#32 ∧ t.cmd = 6#8 ∧ outputIs t out ∧ t.ti = ti ∧
      assembled s t td s.params.colorRev alpha ti.width ti.height ∧
      onlyImageSide { s with outBuf := t.outBuf, outLen := t.outLen, lzd := t.lzd, ti := t.ti } t

/-- R256 step 4, R295, R297: in CMD.DECODE_ENTRY, when the stream decompresses to `out`, whose header has the magic, a
supported format and an accepted size, the first failing check of ASM ends the command with its fault and the image side
untouched; when the checks pass and `i` is the least index outside the grid it ends with SCR_RANGE(i), as
CMD.DECODE_TEX does. OUT is `out` and TI_* its header in every case, WARN_SIZE the size mismatch, and nothing but the state
of LZD, HDR and ASM changes. That CBLK, ABLK and TILEOUT, which R297 does not list after a failed check, keep their bytes
is log 20 (DESIGN CHOICE), that IMG0 does beyond the image is log 15. The modulation values are those of
MOD_TABLE (R35, the spec's passage G1), the header's layout that of the spec's passage G4 (log 16, PRESUMED). -/
def Obligations.EntryAssemblyFaults : Prop :=
  ∀ (s : State) (out : List Byte), s.status.busy = false → s.inLen.toNat ≤ s.params.inCap.toNat →
    lz s.params.outCap.toNat (stream s) = .done out → 36 ≤ out.length →
    let d := fun j => out.getD j 0#8
    let ti := header d out.length
    let alpha := ti.fmtClass == 1#2
    let td := fun j => d (36 + j)
    magicOk s d → (ti.sizeOk = true ∨ s.ctrl.strict = false) → ti.fmtClass ≠ 2#2 →
    ∃ t, exec .cmdDecodeEntry s = .next t ∧ t.cmd = 6#8 ∧ outputIs t out ∧ t.ti = ti ∧
      onlyImageSide { s with outBuf := t.outBuf, outLen := t.outLen, lzd := t.lzd, ti := t.ti } t ∧
      (∀ code info, checkFault s ti.width ti.height alpha (out.length - 36) = some (code, info) →
        t.errCode = code ∧ t.errInfo = BitVec.ofNat 32 info ∧
          t.status = { doneStatus (!ti.sizeOk) false with err := true } ∧ imageSideKept s t) ∧
      (∀ i, fits s ti.width ti.height alpha (out.length - 36) → leastOutside ti.width ti.height i →
        t.status = { doneStatus (!ti.sizeOk) (anyOverflow td s.params.colorRev alpha (tiles ti.width ti.height)) with
          err := true } ∧
        scrRangeEnded s t td s.params.colorRev alpha ti.width ti.height i)

/-- R256 steps 1 to 3 and R295: in CMD.DECODE_ENTRY an earlier stage's fault hides every later stage's. The stream's
fault first, then the header's length and magic, then the strict size policy, then the format; OUT keeps the output, TI_*
is written exactly when the length and the magic passed (R297), and WARN_SIZE is 1 only where a mismatch was tolerated
before the format was refused (R293). Nothing outside the state of LZD and HDR, CMD, STATUS and the fault registers
changes, so the image side is untouched; where R297 does not list its buffers, that they keep their bytes is log 20
(DESIGN CHOICE). Step 4 is EntryAssemblyFaults. The header's layout is that of the spec's passage G4 (log 16, PRESUMED). -/
def Obligations.EntryFaultsInOrder : Prop :=
  ∀ s : State, s.status.busy = false → s.inLen.toNat ≤ s.params.inCap.toNat →
    ∃ t, exec .cmdDecodeEntry s = .next t ∧ t.cmd = 6#8 ∧
      (∀ code info out, lz s.params.outCap.toNat (stream s) = .fault code info out →
        t.errCode = code ∧ t.errInfo = BitVec.ofNat 32 info ∧
          t.status = { doneStatus false false with err := true } ∧ outputIs t out ∧
          t.ti = { s.ti with valid := false } ∧ imageSideKept s t ∧ onlyPayloadSide s t) ∧
      (∀ out, lz s.params.outCap.toNat (stream s) = .done out →
        let d := fun j => out.getD j 0#8
        let ti := header d out.length
        (out.length < 36 ∨ ¬ magicOk s d →
          t.errCode = 0x01#8 ∧ t.errInfo = (if out.length < 36 then 0#32 else 1#32) ∧
            t.status = { doneStatus false false with err := true } ∧ outputIs t out ∧
            t.ti = { s.ti with valid := false } ∧ imageSideKept s t ∧ onlyPayloadSide s t) ∧
        (36 ≤ out.length → magicOk s d → ti.sizeOk = false → s.ctrl.strict = true →
          t.errCode = 0x02#8 ∧ t.errInfo = BitVec.ofNat 32 (out.length - 36) ∧
            t.status = { doneStatus false false with err := true } ∧ outputIs t out ∧ t.ti = ti ∧
            imageSideKept s t ∧ onlyPayloadSide s t) ∧
        (36 ≤ out.length → magicOk s d → (ti.sizeOk = true ∨ s.ctrl.strict = false) → ti.fmtClass = 2#2 →
          t.errCode = 0x03#8 ∧ t.errInfo = ti.format ∧
            t.status = { doneStatus (!ti.sizeOk) false with err := true } ∧ outputIs t out ∧ t.ti = ti ∧
            imageSideKept s t ∧ onlyPayloadSide s t))

/-! ### Launch, end and frame of every command -/

/-- R258, R291: a reserved code launches and at once faults BAD_CMD with the code; nothing else changes. -/
def Obligations.ReservedCodeFaults : Prop :=
  ∀ (c : Byte) (s : State), (c = 0#8 ∨ 8 ≤ c.toNat) → s.status.busy = false →
    exec (.cmdReserved c) s = .next (faulted 0x15#8 (c.setWidth 32) (launched c s))

/-- R259: a write to CMD while BUSY = 1 is dropped: no state changes. -/
def Obligations.CommandWhileBusyIsDropped : Prop :=
  ∀ (c : Byte) (s : State), s.status.busy = true → exec (commandInstr c) s = .next s

/-- R250, R292, R297: IN_LEN beyond IN_CAP ends the four commands that read IN with CAPACITY(0), everything else as
before the launch but `TI_VALID = 0` for CMD.DECODE_ENTRY. -/
def Obligations.InputCapacityAtLaunch : Prop :=
  ∀ s : State, s.status.busy = false → s.params.inCap.toNat < s.inLen.toNat →
    exec .cmdDecompress s = .next (faulted 0x16#8 0#32 (launched 1#8 s)) ∧
    exec .cmdDecodeTex s = .next (faulted 0x16#8 0#32 (launched 5#8 s)) ∧
    exec .cmdDecodeEntry s = .next (faulted 0x16#8 0#32 (launchedHeader 6#8 s)) ∧
    exec .cmdDecodeRaw s = .next (faulted 0x16#8 0#32 (launched 7#8 s))

/-- R11, R260, R327: every command written to an idle block ends in exactly one of two outcomes: completed with no
fault recorded, or faulted; the block is idle again and CMD reads back the code. -/
def Obligations.EveryCommandEnds : Prop :=
  ∀ (c : Byte) (s : State), s.status.busy = false →
    ∃ t, exec (commandInstr c) s = .next t ∧ t.cmd = c ∧ t.seq = .idle ∧
      t.status.busy = false ∧ t.status.done = true ∧
      ((t.status.err = false ∧ t.errCode = 0#8 ∧ t.errInfo = 0#32) ∨
        (t.status.err = true ∧ t.errCode ≠ 0#8))

/-- R261: no command writes IN, IN_LEN, WIDTH, HEIGHT, HAS_ALPHA or CTRL, and each changes only what its row marks W
(besides CMD, the status and fault registers and the units' working registers). -/
def Obligations.CommandsWriteOnlyTheirRow : Prop :=
  ∀ s : State,
    (∀ c t, exec (commandInstr c) s = .next t → operandsKept s t) ∧
    (∀ t, exec .cmdDecompress s = .next t → imageSideKept s t ∧ t.ti = s.ti) ∧
    (∀ t, exec .cmdParseHeader s = .next t →
      imageSideKept s t ∧ t.outBuf = s.outBuf ∧ t.outLen = s.outLen) ∧
    (∀ t, exec .cmdDecodeBlock s = .next t →
      imageSideKept s { t with tileout := s.tileout } ∧ t.outBuf = s.outBuf ∧ t.outLen = s.outLen ∧ t.ti = s.ti) ∧
    (∀ t, exec .cmdBuildScramble s = .next t →
      imageSideKept s { t with scr := s.scr, scrLen := s.scrLen } ∧ t.outBuf = s.outBuf ∧
        t.outLen = s.outLen ∧ t.ti = s.ti) ∧
    (∀ t, exec .cmdDecodeTex s = .next t → t.outBuf = s.outBuf ∧ t.outLen = s.outLen ∧ t.ti = s.ti) ∧
    (∀ t, exec .cmdDecodeRaw s = .next t →
      t.ti = s.ti ∧ (s.ctrl.rawLz = false → t.outBuf = s.outBuf ∧ t.outLen = s.outLen))

/-! ### Invariants -/

/-- R23, R24, over every step: STATUS stays in one of its three phases, ERR implies DONE, and with ERR = 0 both fault
registers read 0. That the model's sequencer is idle exactly when BUSY = 0 is part of the invariant (log 4). -/
def Obligations.StepKeepsStatusLegal : Prop :=
  ∀ s t : State, Safety.statusLegal s → step s = .next t → Safety.statusLegal t

/-- Every step keeps every buffer in its canonical form (the model's own representation, log 2). -/
def Obligations.StepKeepsMemoryCanonical : Prop :=
  ∀ s t : State, Safety.memoryCanonical s → step s = .next t → Safety.memoryCanonical t

/-- R72, the writes: no step lists a cell outside its buffer. The premise on the running command is itself part of the
invariant. -/
def Obligations.StepStaysInBounds : Prop :=
  ∀ s t : State, Safety.inBounds s → step s = .next t → Safety.inBounds t

/-- R9: no step changes a parameter. -/
def Obligations.StepKeepsParameters : Prop :=
  ∀ s t : State, step s = .next t → t.params = s.params

/-- The state after reset meets the three invariants. -/
def Obligations.ResetMeetsInvariants : Prop :=
  Safety.statusLegal State.reset ∧ Safety.memoryCanonical State.reset ∧ Safety.inBounds State.reset

/-! ### The host's side -/

/-- R321, R39: after reset every host register reads 0; and a reset that lands at any time, also on a running command,
leaves every host register reading 0 and no fault recorded, the block idle (R320). -/
def Obligations.ResetClearsHostRegisters : Prop :=
  (∀ r : HostReg, readReg State.reset r = 0#32) ∧
  ∀ (s : State) (rest : List HostEvent), s.host = { after := 0, op := .reset } :: rest →
    ∃ t, step s = .next t ∧ (∀ r : HostReg, readReg t r = 0#32) ∧ t.seq = .idle ∧ t.host = rest ∧
      t.params = s.params

/-- R21: an idle block's operand registers take what the host writes, cut to their width (CTRL: to its two bits); a
write to a register that is not marked W is ignored. -/
def Obligations.HostWritesOperandRegisters : Prop :=
  ∀ (s : State) (r : HostReg) (v : Word) (n : Nat) (rest : List HostEvent),
    s.status.busy = false → s.host = { after := n, op := .writeReg r v } :: rest → r ≠ .CMD →
    ∃ t, step s = .next t ∧
      (r = .IN_LEN → t = { s with host := rest, inLen := v }) ∧
      (r = .OUT_LEN → t = { s with host := rest, outLen := v }) ∧
      (r = .WIDTH → t = { s with host := rest, width := v.setWidth 16 }) ∧
      (r = .HEIGHT → t = { s with host := rest, height := v.setWidth 16 }) ∧
      (r = .HAS_ALPHA → t = { s with host := rest, hasAlpha := v.getLsbD 0 }) ∧
      (r = .CTRL → t = { s with host := rest, ctrl := { strict := v.getLsbD 0, rawLz := v.getLsbD 1 } }) ∧
      (r ≠ .IN_LEN → r ≠ .OUT_LEN → r ≠ .WIDTH → r ≠ .HEIGHT → r ≠ .HAS_ALPHA → r ≠ .CTRL →
        t = { s with host := rest })

/-- R23, R25: the layout of STATUS and CTRL as the host reads them, their reserved bits 0. -/
def Obligations.StatusAndCtrlLayout : Prop :=
  ∀ s : State,
    (readReg s .STATUS).toNat = s.status.busy.toNat + 2 * s.status.done.toNat + 4 * s.status.err.toNat +
      8 * s.status.warnSize.toNat + 16 * s.status.diffOvf.toNat ∧
    (readReg s .CTRL).toNat = s.ctrl.strict.toNat + 2 * s.ctrl.rawLz.toNat

/-- R62, R21: the host's other accesses to an idle block. A write to a byte of IN, OUT, CBLK or ABLK changes that byte and
nothing else; a read of a register, of a byte of any buffer or of an entry of SCR answers what stands there and changes
nothing else; of a register, for each of the 28, the field it stands for, bits above its width 0 (R21). Beyond a buffer's
capacity the model faults, and a write to TILEOUT, IMG0 or IMG1 is refused: the model's reading of R62 (log 8). That a
read sees an ended command's writes also before the host has read `DONE = 1` is log 21 (DESIGN CHOICE). -/
def Obligations.HostBufferAccesses : Prop :=
  ∀ (s : State) (op : HostOp) (n : Nat) (rest : List HostEvent),
    s.status.busy = false → s.host = { after := n, op := op } :: rest →
    (∀ b a v, op = .writeBuf b a v →
      (b = .IN ∨ b = .OUT ∨ b = .CBLK ∨ b = .ABLK →
        (a < s.capacity b →
          ∃ t, step s = .next t ∧ t.rd b a = v ∧ (∀ c, c ≠ a → t.rd b c = s.rd b c) ∧
            (∀ d, d ≠ b → t.buf d = s.buf d) ∧
            t = { s with host := rest, inBuf := t.inBuf, outBuf := t.outBuf, cblk := t.cblk, ablk := t.ablk }) ∧
        (s.capacity b ≤ a → step s = .fault .outsideBuffer)) ∧
      (b = .TILEOUT ∨ b = .IMG0 ∨ b = .IMG1 → step s = .refused .bufferNotHostWritable)) ∧
    (∀ b a, op = .readBuf b a →
      (a < s.capacity b → step s = .next { s with host := rest, readData := (s.rd b a).setWidth 32 }) ∧
      (s.capacity b ≤ a → step s = .fault .outsideBuffer)) ∧
    (∀ i, op = .readScr i →
      (i < s.params.scrCap → step s = .next { s with host := rest, readData := s.rdScr i }) ∧
      (s.params.scrCap ≤ i → step s = .fault .outsideBuffer)) ∧
    (∀ r, op = .readReg r →
      ∃ v, step s = .next { s with host := rest, readData := v } ∧ v.toNat = regValue s r)

/-- R323, R324: on a running block a host write to an operand register or to IN, OUT, CBLK or ABLK lands, a host read of a
buffer or of SCR answers an unspecified value, and each disturbs the command: STATUS is as before, so BUSY = 1. A disturbed
command still ends, completed or faulted, with an unspecified outcome within R24 and R281, and changes only results that
its row of R261 marks; CMD.DECODE_RAW has the row of RAW_LZ = 0, whose OUT is kept, unless RAW_LZ was 1 at some moment of
the run (R324: the old or the new value). That it ends in one unit step is the model's choice (log 6). -/
def Obligations.DisturbedCommandEnds : Prop :=
  ∀ s : State, s.status.busy = true →
    (∀ (op : HostOp) (rest : List HostEvent), s.host = { after := 0, op := op } :: rest →
      (∀ r v, op = .writeReg r v →
        (r = .CTRL ∨ r = .IN_LEN ∨ r = .OUT_LEN ∨ r = .WIDTH ∨ r = .HEIGHT ∨ r = .HAS_ALPHA) →
        let u := operandWritten r v { s with host := rest }
        step s = .next { u with seq := .disturbed (rawSeen s || u.ctrl.rawLz) }) ∧
      (∀ b a v, op = .writeBuf b a v → (b = .IN ∨ b = .OUT ∨ b = .CBLK ∨ b = .ABLK) → a < s.capacity b →
        ∃ t, step s = .next t ∧ t.rd b a = v ∧ (∀ c, c ≠ a → t.rd b c = s.rd b c) ∧
          (∀ d, d ≠ b → t.buf d = s.buf d) ∧
          t = { s with
            host := rest, seq := .disturbed (rawSeen s), inBuf := t.inBuf, outBuf := t.outBuf, cblk := t.cblk
            ablk := t.ablk }) ∧
      (∀ b a, op = .readBuf b a → a < s.capacity b →
        ∃ v : Word, v.toNat < 2 ^ 8 ∧ step s = .next { s with
          host := rest, seq := .disturbed (rawSeen s), readData := v, draws := s.draws + 1 }) ∧
      (∀ i, op = .readScr i → i < s.params.scrCap →
        ∃ v, step s = .next { s with
          host := rest, seq := .disturbed (rawSeen s), readData := v, draws := s.draws + 1 })) ∧
    (∀ raw, s.seq = .disturbed raw → s.host = [] →
      ∃ t, step s = .next t ∧ t.seq = .idle ∧ t.status.busy = false ∧ t.status.done = true ∧
        ((t.status.err = false ∧ t.errCode = 0#8 ∧ t.errInfo = 0#32) ∨
          (t.status.err = true ∧ t.errCode.toNat ∈
            [0x01, 0x02, 0x03, 0x04, 0x10, 0x11, 0x12, 0x13, 0x14, 0x15, 0x16])) ∧
        t.cmd = s.cmd ∧ operandsKept s t ∧
        (s.cmd = 1#8 → imageSideKept s t ∧ t.ti = s.ti) ∧
        (s.cmd = 2#8 → imageSideKept s t ∧ t.outBuf = s.outBuf ∧ t.outLen = s.outLen) ∧
        (s.cmd = 3#8 →
          imageSideKept s { t with tileout := s.tileout } ∧ t.outBuf = s.outBuf ∧ t.outLen = s.outLen ∧ t.ti = s.ti) ∧
        (s.cmd = 4#8 →
          imageSideKept s { t with scr := s.scr, scrLen := s.scrLen } ∧ t.outBuf = s.outBuf ∧ t.outLen = s.outLen ∧
            t.ti = s.ti) ∧
        (s.cmd = 5#8 → t.outBuf = s.outBuf ∧ t.outLen = s.outLen ∧ t.ti = s.ti) ∧
        (s.cmd = 7#8 → t.ti = s.ti ∧ (raw = false → t.outBuf = s.outBuf ∧ t.outLen = s.outLen)))

/-- R259, R324, R21: while a command runs a CMD write is dropped, a write to a register that is not marked W is ignored, a
read of STATUS answers BUSY = 1, DONE = 0, and a read of any other register an unspecified value in the bits it has, 0
above them (R25: CTRL has two); none of them changes anything else, so the command is not disturbed. -/
def Obligations.HostWhileBusy : Prop :=
  ∀ (s : State) (v : Word) (r : HostReg) (rest : List HostEvent), Safety.statusLegal s → s.status.busy = true →
    (s.host = { after := 0, op := .writeReg .CMD v } :: rest → step s = .next { s with host := rest }) ∧
    (s.host = { after := 0, op := .writeReg r v } :: rest → ¬ written r → step s = .next { s with host := rest }) ∧
    (s.host = { after := 0, op := .readReg .STATUS } :: rest →
      ∃ t, step s = .next t ∧ t = { s with host := rest, readData := t.readData } ∧
        t.readData.getLsbD 0 = true ∧ t.readData.getLsbD 1 = false) ∧
    (s.host = { after := 0, op := .readReg r } :: rest → r ≠ .STATUS →
      ∃ w : Word, w.toNat < 2 ^ regBits r ∧
        step s = .next { s with host := rest, readData := w, draws := s.draws + 1 })

/-- R296: what raising a fault does, and that no later step of a rule runs; R281: the fault codes. That raising changes
nothing else, in particular no buffer that R297 does not list, is the model's choice (log 20, DESIGN CHOICE). -/
def Obligations.FaultEntryRecord : Prop :=
  (∀ (e : FaultName) (n : Nat) (s : State), raise e n s = faulted e.code (BitVec.ofNat 32 n) s) ∧
  (∀ (e : FaultName) (n : Nat) (s : State) (later : State → Flow),
    (stop e n s).andThen later = .ended (faulted e.code (BitVec.ofNat 32 n) s)) ∧
  [FaultName.formatError, .sizeMismatch, .unsupportedFormat, .lzBounds, .lzTruncated, .outOverflow, .texTruncated,
    .dimError, .scrRange, .badCmd, .capacity].map (fun e => e.code.toNat) =
    [0x01, 0x02, 0x03, 0x04, 0x10, 0x11, 0x12, 0x13, 0x14, 0x15, 0x16]

/-- R329: a command run unit step by unit step, nothing pending, ends in exactly the state the atomic command gives:
"both are the same machine to every legal host". -/
def Obligations.StepwiseEqualsAtomic : Prop :=
  ∀ (c : Byte) (s : State), s.status.busy = false → s.host = [] →
    ∃ n, Host.Core.run Sys2Proof.core n (startCommand c s) = exec (commandInstr c) s

/-- R327 for LZD: CMD.DECOMPRESS run unit step by unit step (log 4) ends within `IN_LEN + 1` steps - the start step, at
most `IN_LEN - 1` tokens, the termination step - in the state of the atomic CMD.DECOMPRESS. -/
def Obligations.DecompressEndsWithinBound : Prop :=
  ∀ s : State, s.status.busy = false → s.host = [] →
    ∃ n ≤ s.inLen.toNat + 1, Host.Core.run Sys2Proof.core n (startCommand 1#8 s) = exec .cmdDecompress s
end

