-- ==== Sys2Proof/Laws/State.lean ====
section
/-! SUPPORT. The fields of `State` after each named update: one lemma per field per update, so that no later proof
unfolds a record update. -/

namespace Sys2Proof.Machine

open Sys2Proof.Config (BufName)

/-! `State.setBuf` -/

@[simp] theorem State.setBuf_params (s : State) (b : BufName) (m : Memory 8) : (State.setBuf s b m).params = s.params := by cases b <;> rfl
@[simp] theorem State.setBuf_cmd (s : State) (b : BufName) (m : Memory 8) : (State.setBuf s b m).cmd = s.cmd := by cases b <;> rfl
@[simp] theorem State.setBuf_status (s : State) (b : BufName) (m : Memory 8) : (State.setBuf s b m).status = s.status := by cases b <;> rfl
@[simp] theorem State.setBuf_errCode (s : State) (b : BufName) (m : Memory 8) : (State.setBuf s b m).errCode = s.errCode := by cases b <;> rfl
@[simp] theorem State.setBuf_errInfo (s : State) (b : BufName) (m : Memory 8) : (State.setBuf s b m).errInfo = s.errInfo := by cases b <;> rfl
@[simp] theorem State.setBuf_ctrl (s : State) (b : BufName) (m : Memory 8) : (State.setBuf s b m).ctrl = s.ctrl := by cases b <;> rfl
@[simp] theorem State.setBuf_inLen (s : State) (b : BufName) (m : Memory 8) : (State.setBuf s b m).inLen = s.inLen := by cases b <;> rfl
@[simp] theorem State.setBuf_outLen (s : State) (b : BufName) (m : Memory 8) : (State.setBuf s b m).outLen = s.outLen := by cases b <;> rfl
@[simp] theorem State.setBuf_width (s : State) (b : BufName) (m : Memory 8) : (State.setBuf s b m).width = s.width := by cases b <;> rfl
@[simp] theorem State.setBuf_height (s : State) (b : BufName) (m : Memory 8) : (State.setBuf s b m).height = s.height := by cases b <;> rfl
@[simp] theorem State.setBuf_hasAlpha (s : State) (b : BufName) (m : Memory 8) : (State.setBuf s b m).hasAlpha = s.hasAlpha := by cases b <;> rfl
@[simp] theorem State.setBuf_scrLen (s : State) (b : BufName) (m : Memory 8) : (State.setBuf s b m).scrLen = s.scrLen := by cases b <;> rfl
@[simp] theorem State.setBuf_imgW (s : State) (b : BufName) (m : Memory 8) : (State.setBuf s b m).imgW = s.imgW := by cases b <;> rfl
@[simp] theorem State.setBuf_imgH (s : State) (b : BufName) (m : Memory 8) : (State.setBuf s b m).imgH = s.imgH := by cases b <;> rfl
@[simp] theorem State.setBuf_ti (s : State) (b : BufName) (m : Memory 8) : (State.setBuf s b m).ti = s.ti := by cases b <;> rfl
@[simp] theorem State.setBuf_lzd (s : State) (b : BufName) (m : Memory 8) : (State.setBuf s b m).lzd = s.lzd := by cases b <;> rfl
@[simp] theorem State.setBuf_etc (s : State) (b : BufName) (m : Memory 8) : (State.setBuf s b m).etc = s.etc := by cases b <;> rfl
@[simp] theorem State.setBuf_tsa (s : State) (b : BufName) (m : Memory 8) : (State.setBuf s b m).tsa = s.tsa := by cases b <;> rfl
@[simp] theorem State.setBuf_asm (s : State) (b : BufName) (m : Memory 8) : (State.setBuf s b m).asm = s.asm := by cases b <;> rfl
@[simp] theorem State.setBuf_scr (s : State) (b : BufName) (m : Memory 8) : (State.setBuf s b m).scr = s.scr := by cases b <;> rfl
@[simp] theorem State.setBuf_seq (s : State) (b : BufName) (m : Memory 8) : (State.setBuf s b m).seq = s.seq := by cases b <;> rfl
@[simp] theorem State.setBuf_host (s : State) (b : BufName) (m : Memory 8) : (State.setBuf s b m).host = s.host := by cases b <;> rfl
@[simp] theorem State.setBuf_readData (s : State) (b : BufName) (m : Memory 8) : (State.setBuf s b m).readData = s.readData := by cases b <;> rfl
@[simp] theorem State.setBuf_draws (s : State) (b : BufName) (m : Memory 8) : (State.setBuf s b m).draws = s.draws := by cases b <;> rfl
@[simp] theorem State.setBuf_capacity (s : State) (b : BufName) (m : Memory 8) (b' : BufName) : (State.setBuf s b m).capacity b' = s.capacity b' := by
  cases b' <;> simp [State.capacity]
@[simp] theorem State.setBuf_rdScr (s : State) (b : BufName) (m : Memory 8) (i : Nat) : (State.setBuf s b m).rdScr i = s.rdScr i := by simp [State.rdScr]

/-! `State.wr` -/

@[simp] theorem State.wr_params (s : State) (b : BufName) (a : Nat) (v : Byte) : (State.wr s b a v).params = s.params := by simp [State.wr]
@[simp] theorem State.wr_cmd (s : State) (b : BufName) (a : Nat) (v : Byte) : (State.wr s b a v).cmd = s.cmd := by simp [State.wr]
@[simp] theorem State.wr_status (s : State) (b : BufName) (a : Nat) (v : Byte) : (State.wr s b a v).status = s.status := by simp [State.wr]
@[simp] theorem State.wr_errCode (s : State) (b : BufName) (a : Nat) (v : Byte) : (State.wr s b a v).errCode = s.errCode := by simp [State.wr]
@[simp] theorem State.wr_errInfo (s : State) (b : BufName) (a : Nat) (v : Byte) : (State.wr s b a v).errInfo = s.errInfo := by simp [State.wr]
@[simp] theorem State.wr_ctrl (s : State) (b : BufName) (a : Nat) (v : Byte) : (State.wr s b a v).ctrl = s.ctrl := by simp [State.wr]
@[simp] theorem State.wr_inLen (s : State) (b : BufName) (a : Nat) (v : Byte) : (State.wr s b a v).inLen = s.inLen := by simp [State.wr]
@[simp] theorem State.wr_outLen (s : State) (b : BufName) (a : Nat) (v : Byte) : (State.wr s b a v).outLen = s.outLen := by simp [State.wr]
@[simp] theorem State.wr_width (s : State) (b : BufName) (a : Nat) (v : Byte) : (State.wr s b a v).width = s.width := by simp [State.wr]
@[simp] theorem State.wr_height (s : State) (b : BufName) (a : Nat) (v : Byte) : (State.wr s b a v).height = s.height := by simp [State.wr]
@[simp] theorem State.wr_hasAlpha (s : State) (b : BufName) (a : Nat) (v : Byte) : (State.wr s b a v).hasAlpha = s.hasAlpha := by simp [State.wr]
@[simp] theorem State.wr_scrLen (s : State) (b : BufName) (a : Nat) (v : Byte) : (State.wr s b a v).scrLen = s.scrLen := by simp [State.wr]
@[simp] theorem State.wr_imgW (s : State) (b : BufName) (a : Nat) (v : Byte) : (State.wr s b a v).imgW = s.imgW := by simp [State.wr]
@[simp] theorem State.wr_imgH (s : State) (b : BufName) (a : Nat) (v : Byte) : (State.wr s b a v).imgH = s.imgH := by simp [State.wr]
@[simp] theorem State.wr_ti (s : State) (b : BufName) (a : Nat) (v : Byte) : (State.wr s b a v).ti = s.ti := by simp [State.wr]
@[simp] theorem State.wr_lzd (s : State) (b : BufName) (a : Nat) (v : Byte) : (State.wr s b a v).lzd = s.lzd := by simp [State.wr]
@[simp] theorem State.wr_etc (s : State) (b : BufName) (a : Nat) (v : Byte) : (State.wr s b a v).etc = s.etc := by simp [State.wr]
@[simp] theorem State.wr_tsa (s : State) (b : BufName) (a : Nat) (v : Byte) : (State.wr s b a v).tsa = s.tsa := by simp [State.wr]
@[simp] theorem State.wr_asm (s : State) (b : BufName) (a : Nat) (v : Byte) : (State.wr s b a v).asm = s.asm := by simp [State.wr]
@[simp] theorem State.wr_scr (s : State) (b : BufName) (a : Nat) (v : Byte) : (State.wr s b a v).scr = s.scr := by simp [State.wr]
@[simp] theorem State.wr_seq (s : State) (b : BufName) (a : Nat) (v : Byte) : (State.wr s b a v).seq = s.seq := by simp [State.wr]
@[simp] theorem State.wr_host (s : State) (b : BufName) (a : Nat) (v : Byte) : (State.wr s b a v).host = s.host := by simp [State.wr]
@[simp] theorem State.wr_readData (s : State) (b : BufName) (a : Nat) (v : Byte) : (State.wr s b a v).readData = s.readData := by simp [State.wr]
@[simp] theorem State.wr_draws (s : State) (b : BufName) (a : Nat) (v : Byte) : (State.wr s b a v).draws = s.draws := by simp [State.wr]
@[simp] theorem State.wr_capacity (s : State) (b : BufName) (a : Nat) (v : Byte) (b' : BufName) : (State.wr s b a v).capacity b' = s.capacity b' := by
  cases b' <;> simp [State.capacity]
@[simp] theorem State.wr_rdScr (s : State) (b : BufName) (a : Nat) (v : Byte) (i : Nat) : (State.wr s b a v).rdScr i = s.rdScr i := by simp [State.rdScr]

/-! `State.fill` -/

@[simp] theorem State.fill_params (b : BufName) (a : Nat) (f : Nat → Byte) (n : Nat) (s : State) : (State.fill b a f n s).params = s.params := by induction n <;> simp_all [State.fill]
@[simp] theorem State.fill_cmd (b : BufName) (a : Nat) (f : Nat → Byte) (n : Nat) (s : State) : (State.fill b a f n s).cmd = s.cmd := by induction n <;> simp_all [State.fill]
@[simp] theorem State.fill_status (b : BufName) (a : Nat) (f : Nat → Byte) (n : Nat) (s : State) : (State.fill b a f n s).status = s.status := by induction n <;> simp_all [State.fill]
@[simp] theorem State.fill_errCode (b : BufName) (a : Nat) (f : Nat → Byte) (n : Nat) (s : State) : (State.fill b a f n s).errCode = s.errCode := by induction n <;> simp_all [State.fill]
@[simp] theorem State.fill_errInfo (b : BufName) (a : Nat) (f : Nat → Byte) (n : Nat) (s : State) : (State.fill b a f n s).errInfo = s.errInfo := by induction n <;> simp_all [State.fill]
@[simp] theorem State.fill_ctrl (b : BufName) (a : Nat) (f : Nat → Byte) (n : Nat) (s : State) : (State.fill b a f n s).ctrl = s.ctrl := by induction n <;> simp_all [State.fill]
@[simp] theorem State.fill_inLen (b : BufName) (a : Nat) (f : Nat → Byte) (n : Nat) (s : State) : (State.fill b a f n s).inLen = s.inLen := by induction n <;> simp_all [State.fill]
@[simp] theorem State.fill_outLen (b : BufName) (a : Nat) (f : Nat → Byte) (n : Nat) (s : State) : (State.fill b a f n s).outLen = s.outLen := by induction n <;> simp_all [State.fill]
@[simp] theorem State.fill_width (b : BufName) (a : Nat) (f : Nat → Byte) (n : Nat) (s : State) : (State.fill b a f n s).width = s.width := by induction n <;> simp_all [State.fill]
@[simp] theorem State.fill_height (b : BufName) (a : Nat) (f : Nat → Byte) (n : Nat) (s : State) : (State.fill b a f n s).height = s.height := by induction n <;> simp_all [State.fill]
@[simp] theorem State.fill_hasAlpha (b : BufName) (a : Nat) (f : Nat → Byte) (n : Nat) (s : State) : (State.fill b a f n s).hasAlpha = s.hasAlpha := by induction n <;> simp_all [State.fill]
@[simp] theorem State.fill_scrLen (b : BufName) (a : Nat) (f : Nat → Byte) (n : Nat) (s : State) : (State.fill b a f n s).scrLen = s.scrLen := by induction n <;> simp_all [State.fill]
@[simp] theorem State.fill_imgW (b : BufName) (a : Nat) (f : Nat → Byte) (n : Nat) (s : State) : (State.fill b a f n s).imgW = s.imgW := by induction n <;> simp_all [State.fill]
@[simp] theorem State.fill_imgH (b : BufName) (a : Nat) (f : Nat → Byte) (n : Nat) (s : State) : (State.fill b a f n s).imgH = s.imgH := by induction n <;> simp_all [State.fill]
@[simp] theorem State.fill_ti (b : BufName) (a : Nat) (f : Nat → Byte) (n : Nat) (s : State) : (State.fill b a f n s).ti = s.ti := by induction n <;> simp_all [State.fill]
@[simp] theorem State.fill_lzd (b : BufName) (a : Nat) (f : Nat → Byte) (n : Nat) (s : State) : (State.fill b a f n s).lzd = s.lzd := by induction n <;> simp_all [State.fill]
@[simp] theorem State.fill_etc (b : BufName) (a : Nat) (f : Nat → Byte) (n : Nat) (s : State) : (State.fill b a f n s).etc = s.etc := by induction n <;> simp_all [State.fill]
@[simp] theorem State.fill_tsa (b : BufName) (a : Nat) (f : Nat → Byte) (n : Nat) (s : State) : (State.fill b a f n s).tsa = s.tsa := by induction n <;> simp_all [State.fill]
@[simp] theorem State.fill_asm (b : BufName) (a : Nat) (f : Nat → Byte) (n : Nat) (s : State) : (State.fill b a f n s).asm = s.asm := by induction n <;> simp_all [State.fill]
@[simp] theorem State.fill_scr (b : BufName) (a : Nat) (f : Nat → Byte) (n : Nat) (s : State) : (State.fill b a f n s).scr = s.scr := by induction n <;> simp_all [State.fill]
@[simp] theorem State.fill_seq (b : BufName) (a : Nat) (f : Nat → Byte) (n : Nat) (s : State) : (State.fill b a f n s).seq = s.seq := by induction n <;> simp_all [State.fill]
@[simp] theorem State.fill_host (b : BufName) (a : Nat) (f : Nat → Byte) (n : Nat) (s : State) : (State.fill b a f n s).host = s.host := by induction n <;> simp_all [State.fill]
@[simp] theorem State.fill_readData (b : BufName) (a : Nat) (f : Nat → Byte) (n : Nat) (s : State) : (State.fill b a f n s).readData = s.readData := by induction n <;> simp_all [State.fill]
@[simp] theorem State.fill_draws (b : BufName) (a : Nat) (f : Nat → Byte) (n : Nat) (s : State) : (State.fill b a f n s).draws = s.draws := by induction n <;> simp_all [State.fill]
@[simp] theorem State.fill_capacity (b : BufName) (a : Nat) (f : Nat → Byte) (n : Nat) (s : State) (b' : BufName) : (State.fill b a f n s).capacity b' = s.capacity b' := by
  cases b' <;> simp [State.capacity]
@[simp] theorem State.fill_rdScr (b : BufName) (a : Nat) (f : Nat → Byte) (n : Nat) (s : State) (i : Nat) : (State.fill b a f n s).rdScr i = s.rdScr i := by simp [State.rdScr]

/-! `State.forget` -/

@[simp] theorem State.forget_params (s : State) (b : BufName) : (State.forget s b).params = s.params := by cases b <;> rfl
@[simp] theorem State.forget_cmd (s : State) (b : BufName) : (State.forget s b).cmd = s.cmd := by cases b <;> rfl
@[simp] theorem State.forget_status (s : State) (b : BufName) : (State.forget s b).status = s.status := by cases b <;> rfl
@[simp] theorem State.forget_errCode (s : State) (b : BufName) : (State.forget s b).errCode = s.errCode := by cases b <;> rfl
@[simp] theorem State.forget_errInfo (s : State) (b : BufName) : (State.forget s b).errInfo = s.errInfo := by cases b <;> rfl
@[simp] theorem State.forget_ctrl (s : State) (b : BufName) : (State.forget s b).ctrl = s.ctrl := by cases b <;> rfl
@[simp] theorem State.forget_inLen (s : State) (b : BufName) : (State.forget s b).inLen = s.inLen := by cases b <;> rfl
@[simp] theorem State.forget_outLen (s : State) (b : BufName) : (State.forget s b).outLen = s.outLen := by cases b <;> rfl
@[simp] theorem State.forget_width (s : State) (b : BufName) : (State.forget s b).width = s.width := by cases b <;> rfl
@[simp] theorem State.forget_height (s : State) (b : BufName) : (State.forget s b).height = s.height := by cases b <;> rfl
@[simp] theorem State.forget_hasAlpha (s : State) (b : BufName) : (State.forget s b).hasAlpha = s.hasAlpha := by cases b <;> rfl
@[simp] theorem State.forget_scrLen (s : State) (b : BufName) : (State.forget s b).scrLen = s.scrLen := by cases b <;> rfl
@[simp] theorem State.forget_imgW (s : State) (b : BufName) : (State.forget s b).imgW = s.imgW := by cases b <;> rfl
@[simp] theorem State.forget_imgH (s : State) (b : BufName) : (State.forget s b).imgH = s.imgH := by cases b <;> rfl
@[simp] theorem State.forget_ti (s : State) (b : BufName) : (State.forget s b).ti = s.ti := by cases b <;> rfl
@[simp] theorem State.forget_lzd (s : State) (b : BufName) : (State.forget s b).lzd = s.lzd := by cases b <;> rfl
@[simp] theorem State.forget_etc (s : State) (b : BufName) : (State.forget s b).etc = s.etc := by cases b <;> rfl
@[simp] theorem State.forget_tsa (s : State) (b : BufName) : (State.forget s b).tsa = s.tsa := by cases b <;> rfl
@[simp] theorem State.forget_asm (s : State) (b : BufName) : (State.forget s b).asm = s.asm := by cases b <;> rfl
@[simp] theorem State.forget_scr (s : State) (b : BufName) : (State.forget s b).scr = s.scr := by cases b <;> rfl
@[simp] theorem State.forget_seq (s : State) (b : BufName) : (State.forget s b).seq = s.seq := by cases b <;> rfl
@[simp] theorem State.forget_host (s : State) (b : BufName) : (State.forget s b).host = s.host := by cases b <;> rfl
@[simp] theorem State.forget_readData (s : State) (b : BufName) : (State.forget s b).readData = s.readData := by cases b <;> rfl
@[simp] theorem State.forget_draws (s : State) (b : BufName) : (State.forget s b).draws = s.draws + 1 := by cases b <;> rfl
@[simp] theorem State.forget_capacity (s : State) (b : BufName) (b' : BufName) : (State.forget s b).capacity b' = s.capacity b' := by
  cases b' <;> simp [State.capacity]
@[simp] theorem State.forget_rdScr (s : State) (b : BufName) (i : Nat) : (State.forget s b).rdScr i = s.rdScr i := by simp [State.rdScr]

/-! `State.forgetScr` -/

@[simp] theorem State.forgetScr_params (s : State) : (State.forgetScr s).params = s.params := rfl
@[simp] theorem State.forgetScr_cmd (s : State) : (State.forgetScr s).cmd = s.cmd := rfl
@[simp] theorem State.forgetScr_status (s : State) : (State.forgetScr s).status = s.status := rfl
@[simp] theorem State.forgetScr_errCode (s : State) : (State.forgetScr s).errCode = s.errCode := rfl
@[simp] theorem State.forgetScr_errInfo (s : State) : (State.forgetScr s).errInfo = s.errInfo := rfl
@[simp] theorem State.forgetScr_ctrl (s : State) : (State.forgetScr s).ctrl = s.ctrl := rfl
@[simp] theorem State.forgetScr_inLen (s : State) : (State.forgetScr s).inLen = s.inLen := rfl
@[simp] theorem State.forgetScr_outLen (s : State) : (State.forgetScr s).outLen = s.outLen := rfl
@[simp] theorem State.forgetScr_width (s : State) : (State.forgetScr s).width = s.width := rfl
@[simp] theorem State.forgetScr_height (s : State) : (State.forgetScr s).height = s.height := rfl
@[simp] theorem State.forgetScr_hasAlpha (s : State) : (State.forgetScr s).hasAlpha = s.hasAlpha := rfl
@[simp] theorem State.forgetScr_scrLen (s : State) : (State.forgetScr s).scrLen = s.scrLen := rfl
@[simp] theorem State.forgetScr_imgW (s : State) : (State.forgetScr s).imgW = s.imgW := rfl
@[simp] theorem State.forgetScr_imgH (s : State) : (State.forgetScr s).imgH = s.imgH := rfl
@[simp] theorem State.forgetScr_ti (s : State) : (State.forgetScr s).ti = s.ti := rfl
@[simp] theorem State.forgetScr_lzd (s : State) : (State.forgetScr s).lzd = s.lzd := rfl
@[simp] theorem State.forgetScr_etc (s : State) : (State.forgetScr s).etc = s.etc := rfl
@[simp] theorem State.forgetScr_tsa (s : State) : (State.forgetScr s).tsa = s.tsa := rfl
@[simp] theorem State.forgetScr_asm (s : State) : (State.forgetScr s).asm = s.asm := rfl
@[simp] theorem State.forgetScr_inBuf (s : State) : (State.forgetScr s).inBuf = s.inBuf := rfl
@[simp] theorem State.forgetScr_outBuf (s : State) : (State.forgetScr s).outBuf = s.outBuf := rfl
@[simp] theorem State.forgetScr_cblk (s : State) : (State.forgetScr s).cblk = s.cblk := rfl
@[simp] theorem State.forgetScr_ablk (s : State) : (State.forgetScr s).ablk = s.ablk := rfl
@[simp] theorem State.forgetScr_tileout (s : State) : (State.forgetScr s).tileout = s.tileout := rfl
@[simp] theorem State.forgetScr_img0 (s : State) : (State.forgetScr s).img0 = s.img0 := rfl
@[simp] theorem State.forgetScr_img1 (s : State) : (State.forgetScr s).img1 = s.img1 := rfl
@[simp] theorem State.forgetScr_scr (s : State) : (State.forgetScr s).scr = Memory.blank 32 s.draws := rfl
@[simp] theorem State.forgetScr_seq (s : State) : (State.forgetScr s).seq = s.seq := rfl
@[simp] theorem State.forgetScr_host (s : State) : (State.forgetScr s).host = s.host := rfl
@[simp] theorem State.forgetScr_readData (s : State) : (State.forgetScr s).readData = s.readData := rfl
@[simp] theorem State.forgetScr_draws (s : State) : (State.forgetScr s).draws = s.draws + 1 := rfl
@[simp] theorem State.forgetScr_buf (s : State) (b : BufName) : (State.forgetScr s).buf b = s.buf b := by cases b <;> rfl
@[simp] theorem State.forgetScr_rd (s : State) (b : BufName) (a : Nat) : (State.forgetScr s).rd b a = s.rd b a := by
  cases b <;> rfl
@[simp] theorem State.forgetScr_capacity (s : State) (b : BufName) : (State.forgetScr s).capacity b = s.capacity b := by
  cases b <;> rfl

/-! `State.wrScr` -/

@[simp] theorem State.wrScr_params (s : State) (i : Nat) (v : Word) : (State.wrScr s i v).params = s.params := rfl
@[simp] theorem State.wrScr_cmd (s : State) (i : Nat) (v : Word) : (State.wrScr s i v).cmd = s.cmd := rfl
@[simp] theorem State.wrScr_status (s : State) (i : Nat) (v : Word) : (State.wrScr s i v).status = s.status := rfl
@[simp] theorem State.wrScr_errCode (s : State) (i : Nat) (v : Word) : (State.wrScr s i v).errCode = s.errCode := rfl
@[simp] theorem State.wrScr_errInfo (s : State) (i : Nat) (v : Word) : (State.wrScr s i v).errInfo = s.errInfo := rfl
@[simp] theorem State.wrScr_ctrl (s : State) (i : Nat) (v : Word) : (State.wrScr s i v).ctrl = s.ctrl := rfl
@[simp] theorem State.wrScr_inLen (s : State) (i : Nat) (v : Word) : (State.wrScr s i v).inLen = s.inLen := rfl
@[simp] theorem State.wrScr_outLen (s : State) (i : Nat) (v : Word) : (State.wrScr s i v).outLen = s.outLen := rfl
@[simp] theorem State.wrScr_width (s : State) (i : Nat) (v : Word) : (State.wrScr s i v).width = s.width := rfl
@[simp] theorem State.wrScr_height (s : State) (i : Nat) (v : Word) : (State.wrScr s i v).height = s.height := rfl
@[simp] theorem State.wrScr_hasAlpha (s : State) (i : Nat) (v : Word) : (State.wrScr s i v).hasAlpha = s.hasAlpha := rfl
@[simp] theorem State.wrScr_scrLen (s : State) (i : Nat) (v : Word) : (State.wrScr s i v).scrLen = s.scrLen := rfl
@[simp] theorem State.wrScr_imgW (s : State) (i : Nat) (v : Word) : (State.wrScr s i v).imgW = s.imgW := rfl
@[simp] theorem State.wrScr_imgH (s : State) (i : Nat) (v : Word) : (State.wrScr s i v).imgH = s.imgH := rfl
@[simp] theorem State.wrScr_ti (s : State) (i : Nat) (v : Word) : (State.wrScr s i v).ti = s.ti := rfl
@[simp] theorem State.wrScr_lzd (s : State) (i : Nat) (v : Word) : (State.wrScr s i v).lzd = s.lzd := rfl
@[simp] theorem State.wrScr_etc (s : State) (i : Nat) (v : Word) : (State.wrScr s i v).etc = s.etc := rfl
@[simp] theorem State.wrScr_tsa (s : State) (i : Nat) (v : Word) : (State.wrScr s i v).tsa = s.tsa := rfl
@[simp] theorem State.wrScr_asm (s : State) (i : Nat) (v : Word) : (State.wrScr s i v).asm = s.asm := rfl
@[simp] theorem State.wrScr_inBuf (s : State) (i : Nat) (v : Word) : (State.wrScr s i v).inBuf = s.inBuf := rfl
@[simp] theorem State.wrScr_outBuf (s : State) (i : Nat) (v : Word) : (State.wrScr s i v).outBuf = s.outBuf := rfl
@[simp] theorem State.wrScr_cblk (s : State) (i : Nat) (v : Word) : (State.wrScr s i v).cblk = s.cblk := rfl
@[simp] theorem State.wrScr_ablk (s : State) (i : Nat) (v : Word) : (State.wrScr s i v).ablk = s.ablk := rfl
@[simp] theorem State.wrScr_tileout (s : State) (i : Nat) (v : Word) : (State.wrScr s i v).tileout = s.tileout := rfl
@[simp] theorem State.wrScr_img0 (s : State) (i : Nat) (v : Word) : (State.wrScr s i v).img0 = s.img0 := rfl
@[simp] theorem State.wrScr_img1 (s : State) (i : Nat) (v : Word) : (State.wrScr s i v).img1 = s.img1 := rfl
@[simp] theorem State.wrScr_scr (s : State) (i : Nat) (v : Word) : (State.wrScr s i v).scr = s.scr.set i v := rfl
@[simp] theorem State.wrScr_seq (s : State) (i : Nat) (v : Word) : (State.wrScr s i v).seq = s.seq := rfl
@[simp] theorem State.wrScr_host (s : State) (i : Nat) (v : Word) : (State.wrScr s i v).host = s.host := rfl
@[simp] theorem State.wrScr_readData (s : State) (i : Nat) (v : Word) : (State.wrScr s i v).readData = s.readData := rfl
@[simp] theorem State.wrScr_draws (s : State) (i : Nat) (v : Word) : (State.wrScr s i v).draws = s.draws := rfl
@[simp] theorem State.wrScr_buf (s : State) (i : Nat) (v : Word) (b : BufName) : (State.wrScr s i v).buf b = s.buf b := by cases b <;> rfl
@[simp] theorem State.wrScr_rd (s : State) (i : Nat) (v : Word) (b : BufName) (a : Nat) : (State.wrScr s i v).rd b a = s.rd b a := by
  cases b <;> rfl
@[simp] theorem State.wrScr_capacity (s : State) (i : Nat) (v : Word) (b : BufName) : (State.wrScr s i v).capacity b = s.capacity b := by
  cases b <;> rfl

/-! `raise` -/

@[simp] theorem raise_params (e : FaultName) (n : Nat) (s : State) : (raise e n s).params = s.params := rfl
@[simp] theorem raise_cmd (e : FaultName) (n : Nat) (s : State) : (raise e n s).cmd = s.cmd := rfl
@[simp] theorem raise_status (e : FaultName) (n : Nat) (s : State) : (raise e n s).status = s.status.faulted := rfl
@[simp] theorem raise_errCode (e : FaultName) (n : Nat) (s : State) : (raise e n s).errCode = e.code := rfl
@[simp] theorem raise_errInfo (e : FaultName) (n : Nat) (s : State) : (raise e n s).errInfo = BitVec.ofNat 32 n := rfl
@[simp] theorem raise_ctrl (e : FaultName) (n : Nat) (s : State) : (raise e n s).ctrl = s.ctrl := rfl
@[simp] theorem raise_inLen (e : FaultName) (n : Nat) (s : State) : (raise e n s).inLen = s.inLen := rfl
@[simp] theorem raise_outLen (e : FaultName) (n : Nat) (s : State) : (raise e n s).outLen = s.outLen := rfl
@[simp] theorem raise_width (e : FaultName) (n : Nat) (s : State) : (raise e n s).width = s.width := rfl
@[simp] theorem raise_height (e : FaultName) (n : Nat) (s : State) : (raise e n s).height = s.height := rfl
@[simp] theorem raise_hasAlpha (e : FaultName) (n : Nat) (s : State) : (raise e n s).hasAlpha = s.hasAlpha := rfl
@[simp] theorem raise_scrLen (e : FaultName) (n : Nat) (s : State) : (raise e n s).scrLen = s.scrLen := rfl
@[simp] theorem raise_imgW (e : FaultName) (n : Nat) (s : State) : (raise e n s).imgW = s.imgW := rfl
@[simp] theorem raise_imgH (e : FaultName) (n : Nat) (s : State) : (raise e n s).imgH = s.imgH := rfl
@[simp] theorem raise_ti (e : FaultName) (n : Nat) (s : State) : (raise e n s).ti = s.ti := rfl
@[simp] theorem raise_lzd (e : FaultName) (n : Nat) (s : State) : (raise e n s).lzd = s.lzd := rfl
@[simp] theorem raise_etc (e : FaultName) (n : Nat) (s : State) : (raise e n s).etc = s.etc := rfl
@[simp] theorem raise_tsa (e : FaultName) (n : Nat) (s : State) : (raise e n s).tsa = s.tsa := rfl
@[simp] theorem raise_asm (e : FaultName) (n : Nat) (s : State) : (raise e n s).asm = s.asm := rfl
@[simp] theorem raise_inBuf (e : FaultName) (n : Nat) (s : State) : (raise e n s).inBuf = s.inBuf := rfl
@[simp] theorem raise_outBuf (e : FaultName) (n : Nat) (s : State) : (raise e n s).outBuf = s.outBuf := rfl
@[simp] theorem raise_cblk (e : FaultName) (n : Nat) (s : State) : (raise e n s).cblk = s.cblk := rfl
@[simp] theorem raise_ablk (e : FaultName) (n : Nat) (s : State) : (raise e n s).ablk = s.ablk := rfl
@[simp] theorem raise_tileout (e : FaultName) (n : Nat) (s : State) : (raise e n s).tileout = s.tileout := rfl
@[simp] theorem raise_img0 (e : FaultName) (n : Nat) (s : State) : (raise e n s).img0 = s.img0 := rfl
@[simp] theorem raise_img1 (e : FaultName) (n : Nat) (s : State) : (raise e n s).img1 = s.img1 := rfl
@[simp] theorem raise_scr (e : FaultName) (n : Nat) (s : State) : (raise e n s).scr = s.scr := rfl
@[simp] theorem raise_seq (e : FaultName) (n : Nat) (s : State) : (raise e n s).seq = Seq.idle := rfl
@[simp] theorem raise_host (e : FaultName) (n : Nat) (s : State) : (raise e n s).host = s.host := rfl
@[simp] theorem raise_readData (e : FaultName) (n : Nat) (s : State) : (raise e n s).readData = s.readData := rfl
@[simp] theorem raise_draws (e : FaultName) (n : Nat) (s : State) : (raise e n s).draws = s.draws := rfl
@[simp] theorem raise_buf (e : FaultName) (n : Nat) (s : State) (b : BufName) : (raise e n s).buf b = s.buf b := by cases b <;> rfl
@[simp] theorem raise_rd (e : FaultName) (n : Nat) (s : State) (b : BufName) (a : Nat) : (raise e n s).rd b a = s.rd b a := by
  cases b <;> rfl
@[simp] theorem raise_capacity (e : FaultName) (n : Nat) (s : State) (b : BufName) : (raise e n s).capacity b = s.capacity b := by
  cases b <;> rfl
@[simp] theorem raise_rdScr (e : FaultName) (n : Nat) (s : State) (i : Nat) : (raise e n s).rdScr i = s.rdScr i := rfl

/-! `acknowledge` -/

@[simp] theorem acknowledge_params (c : Byte) (s : State) : (acknowledge c s).params = s.params := rfl
@[simp] theorem acknowledge_cmd (c : Byte) (s : State) : (acknowledge c s).cmd = c := rfl
@[simp] theorem acknowledge_status (c : Byte) (s : State) : (acknowledge c s).status = Status.launched := rfl
@[simp] theorem acknowledge_errCode (c : Byte) (s : State) : (acknowledge c s).errCode = 0#8 := rfl
@[simp] theorem acknowledge_errInfo (c : Byte) (s : State) : (acknowledge c s).errInfo = 0#32 := rfl
@[simp] theorem acknowledge_ctrl (c : Byte) (s : State) : (acknowledge c s).ctrl = s.ctrl := rfl
@[simp] theorem acknowledge_inLen (c : Byte) (s : State) : (acknowledge c s).inLen = s.inLen := rfl
@[simp] theorem acknowledge_outLen (c : Byte) (s : State) : (acknowledge c s).outLen = s.outLen := rfl
@[simp] theorem acknowledge_width (c : Byte) (s : State) : (acknowledge c s).width = s.width := rfl
@[simp] theorem acknowledge_height (c : Byte) (s : State) : (acknowledge c s).height = s.height := rfl
@[simp] theorem acknowledge_hasAlpha (c : Byte) (s : State) : (acknowledge c s).hasAlpha = s.hasAlpha := rfl
@[simp] theorem acknowledge_scrLen (c : Byte) (s : State) : (acknowledge c s).scrLen = s.scrLen := rfl
@[simp] theorem acknowledge_imgW (c : Byte) (s : State) : (acknowledge c s).imgW = s.imgW := rfl
@[simp] theorem acknowledge_imgH (c : Byte) (s : State) : (acknowledge c s).imgH = s.imgH := rfl
@[simp] theorem acknowledge_ti (c : Byte) (s : State) : (acknowledge c s).ti = s.ti := rfl
@[simp] theorem acknowledge_lzd (c : Byte) (s : State) : (acknowledge c s).lzd = s.lzd := rfl
@[simp] theorem acknowledge_etc (c : Byte) (s : State) : (acknowledge c s).etc = s.etc := rfl
@[simp] theorem acknowledge_tsa (c : Byte) (s : State) : (acknowledge c s).tsa = s.tsa := rfl
@[simp] theorem acknowledge_asm (c : Byte) (s : State) : (acknowledge c s).asm = s.asm := rfl
@[simp] theorem acknowledge_inBuf (c : Byte) (s : State) : (acknowledge c s).inBuf = s.inBuf := rfl
@[simp] theorem acknowledge_outBuf (c : Byte) (s : State) : (acknowledge c s).outBuf = s.outBuf := rfl
@[simp] theorem acknowledge_cblk (c : Byte) (s : State) : (acknowledge c s).cblk = s.cblk := rfl
@[simp] theorem acknowledge_ablk (c : Byte) (s : State) : (acknowledge c s).ablk = s.ablk := rfl
@[simp] theorem acknowledge_tileout (c : Byte) (s : State) : (acknowledge c s).tileout = s.tileout := rfl
@[simp] theorem acknowledge_img0 (c : Byte) (s : State) : (acknowledge c s).img0 = s.img0 := rfl
@[simp] theorem acknowledge_img1 (c : Byte) (s : State) : (acknowledge c s).img1 = s.img1 := rfl
@[simp] theorem acknowledge_scr (c : Byte) (s : State) : (acknowledge c s).scr = s.scr := rfl
@[simp] theorem acknowledge_seq (c : Byte) (s : State) : (acknowledge c s).seq = s.seq := rfl
@[simp] theorem acknowledge_host (c : Byte) (s : State) : (acknowledge c s).host = s.host := rfl
@[simp] theorem acknowledge_readData (c : Byte) (s : State) : (acknowledge c s).readData = s.readData := rfl
@[simp] theorem acknowledge_draws (c : Byte) (s : State) : (acknowledge c s).draws = s.draws := rfl
@[simp] theorem acknowledge_buf (c : Byte) (s : State) (b : BufName) : (acknowledge c s).buf b = s.buf b := by cases b <;> rfl
@[simp] theorem acknowledge_rd (c : Byte) (s : State) (b : BufName) (a : Nat) : (acknowledge c s).rd b a = s.rd b a := by
  cases b <;> rfl
@[simp] theorem acknowledge_capacity (c : Byte) (s : State) (b : BufName) : (acknowledge c s).capacity b = s.capacity b := by
  cases b <;> rfl
@[simp] theorem acknowledge_rdScr (c : Byte) (s : State) (i : Nat) : (acknowledge c s).rdScr i = s.rdScr i := rfl

/-! `complete` -/

@[simp] theorem complete_params (s : State) : (complete s).params = s.params := rfl
@[simp] theorem complete_cmd (s : State) : (complete s).cmd = s.cmd := rfl
@[simp] theorem complete_status (s : State) : (complete s).status = s.status.completed := rfl
@[simp] theorem complete_errCode (s : State) : (complete s).errCode = s.errCode := rfl
@[simp] theorem complete_errInfo (s : State) : (complete s).errInfo = s.errInfo := rfl
@[simp] theorem complete_ctrl (s : State) : (complete s).ctrl = s.ctrl := rfl
@[simp] theorem complete_inLen (s : State) : (complete s).inLen = s.inLen := rfl
@[simp] theorem complete_outLen (s : State) : (complete s).outLen = s.outLen := rfl
@[simp] theorem complete_width (s : State) : (complete s).width = s.width := rfl
@[simp] theorem complete_height (s : State) : (complete s).height = s.height := rfl
@[simp] theorem complete_hasAlpha (s : State) : (complete s).hasAlpha = s.hasAlpha := rfl
@[simp] theorem complete_scrLen (s : State) : (complete s).scrLen = s.scrLen := rfl
@[simp] theorem complete_imgW (s : State) : (complete s).imgW = s.imgW := rfl
@[simp] theorem complete_imgH (s : State) : (complete s).imgH = s.imgH := rfl
@[simp] theorem complete_ti (s : State) : (complete s).ti = s.ti := rfl
@[simp] theorem complete_lzd (s : State) : (complete s).lzd = s.lzd := rfl
@[simp] theorem complete_etc (s : State) : (complete s).etc = s.etc := rfl
@[simp] theorem complete_tsa (s : State) : (complete s).tsa = s.tsa := rfl
@[simp] theorem complete_asm (s : State) : (complete s).asm = s.asm := rfl
@[simp] theorem complete_inBuf (s : State) : (complete s).inBuf = s.inBuf := rfl
@[simp] theorem complete_outBuf (s : State) : (complete s).outBuf = s.outBuf := rfl
@[simp] theorem complete_cblk (s : State) : (complete s).cblk = s.cblk := rfl
@[simp] theorem complete_ablk (s : State) : (complete s).ablk = s.ablk := rfl
@[simp] theorem complete_tileout (s : State) : (complete s).tileout = s.tileout := rfl
@[simp] theorem complete_img0 (s : State) : (complete s).img0 = s.img0 := rfl
@[simp] theorem complete_img1 (s : State) : (complete s).img1 = s.img1 := rfl
@[simp] theorem complete_scr (s : State) : (complete s).scr = s.scr := rfl
@[simp] theorem complete_seq (s : State) : (complete s).seq = Seq.idle := rfl
@[simp] theorem complete_host (s : State) : (complete s).host = s.host := rfl
@[simp] theorem complete_readData (s : State) : (complete s).readData = s.readData := rfl
@[simp] theorem complete_draws (s : State) : (complete s).draws = s.draws := rfl
@[simp] theorem complete_buf (s : State) (b : BufName) : (complete s).buf b = s.buf b := by cases b <;> rfl
@[simp] theorem complete_rd (s : State) (b : BufName) (a : Nat) : (complete s).rd b a = s.rd b a := by
  cases b <;> rfl
@[simp] theorem complete_capacity (s : State) (b : BufName) : (complete s).capacity b = s.capacity b := by
  cases b <;> rfl
@[simp] theorem complete_rdScr (s : State) (i : Nat) : (complete s).rdScr i = s.rdScr i := rfl

/-! `clearValid` -/

@[simp] theorem clearValid_params (s : State) : (clearValid s).params = s.params := rfl
@[simp] theorem clearValid_cmd (s : State) : (clearValid s).cmd = s.cmd := rfl
@[simp] theorem clearValid_status (s : State) : (clearValid s).status = s.status := rfl
@[simp] theorem clearValid_errCode (s : State) : (clearValid s).errCode = s.errCode := rfl
@[simp] theorem clearValid_errInfo (s : State) : (clearValid s).errInfo = s.errInfo := rfl
@[simp] theorem clearValid_ctrl (s : State) : (clearValid s).ctrl = s.ctrl := rfl
@[simp] theorem clearValid_inLen (s : State) : (clearValid s).inLen = s.inLen := rfl
@[simp] theorem clearValid_outLen (s : State) : (clearValid s).outLen = s.outLen := rfl
@[simp] theorem clearValid_width (s : State) : (clearValid s).width = s.width := rfl
@[simp] theorem clearValid_height (s : State) : (clearValid s).height = s.height := rfl
@[simp] theorem clearValid_hasAlpha (s : State) : (clearValid s).hasAlpha = s.hasAlpha := rfl
@[simp] theorem clearValid_scrLen (s : State) : (clearValid s).scrLen = s.scrLen := rfl
@[simp] theorem clearValid_imgW (s : State) : (clearValid s).imgW = s.imgW := rfl
@[simp] theorem clearValid_imgH (s : State) : (clearValid s).imgH = s.imgH := rfl
@[simp] theorem clearValid_ti (s : State) : (clearValid s).ti = { s.ti with valid := false } := rfl
@[simp] theorem clearValid_lzd (s : State) : (clearValid s).lzd = s.lzd := rfl
@[simp] theorem clearValid_etc (s : State) : (clearValid s).etc = s.etc := rfl
@[simp] theorem clearValid_tsa (s : State) : (clearValid s).tsa = s.tsa := rfl
@[simp] theorem clearValid_asm (s : State) : (clearValid s).asm = s.asm := rfl
@[simp] theorem clearValid_inBuf (s : State) : (clearValid s).inBuf = s.inBuf := rfl
@[simp] theorem clearValid_outBuf (s : State) : (clearValid s).outBuf = s.outBuf := rfl
@[simp] theorem clearValid_cblk (s : State) : (clearValid s).cblk = s.cblk := rfl
@[simp] theorem clearValid_ablk (s : State) : (clearValid s).ablk = s.ablk := rfl
@[simp] theorem clearValid_tileout (s : State) : (clearValid s).tileout = s.tileout := rfl
@[simp] theorem clearValid_img0 (s : State) : (clearValid s).img0 = s.img0 := rfl
@[simp] theorem clearValid_img1 (s : State) : (clearValid s).img1 = s.img1 := rfl
@[simp] theorem clearValid_scr (s : State) : (clearValid s).scr = s.scr := rfl
@[simp] theorem clearValid_seq (s : State) : (clearValid s).seq = s.seq := rfl
@[simp] theorem clearValid_host (s : State) : (clearValid s).host = s.host := rfl
@[simp] theorem clearValid_readData (s : State) : (clearValid s).readData = s.readData := rfl
@[simp] theorem clearValid_draws (s : State) : (clearValid s).draws = s.draws := rfl
@[simp] theorem clearValid_buf (s : State) (b : BufName) : (clearValid s).buf b = s.buf b := by cases b <;> rfl
@[simp] theorem clearValid_rd (s : State) (b : BufName) (a : Nat) : (clearValid s).rd b a = s.rd b a := by
  cases b <;> rfl
@[simp] theorem clearValid_capacity (s : State) (b : BufName) : (clearValid s).capacity b = s.capacity b := by
  cases b <;> rfl
@[simp] theorem clearValid_rdScr (s : State) (i : Nat) : (clearValid s).rdScr i = s.rdScr i := rfl

/-! `goTo` -/

@[simp] theorem goTo_params (q : Seq) (s : State) : (goTo q s).params = s.params := rfl
@[simp] theorem goTo_cmd (q : Seq) (s : State) : (goTo q s).cmd = s.cmd := rfl
@[simp] theorem goTo_status (q : Seq) (s : State) : (goTo q s).status = s.status := rfl
@[simp] theorem goTo_errCode (q : Seq) (s : State) : (goTo q s).errCode = s.errCode := rfl
@[simp] theorem goTo_errInfo (q : Seq) (s : State) : (goTo q s).errInfo = s.errInfo := rfl
@[simp] theorem goTo_ctrl (q : Seq) (s : State) : (goTo q s).ctrl = s.ctrl := rfl
@[simp] theorem goTo_inLen (q : Seq) (s : State) : (goTo q s).inLen = s.inLen := rfl
@[simp] theorem goTo_outLen (q : Seq) (s : State) : (goTo q s).outLen = s.outLen := rfl
@[simp] theorem goTo_width (q : Seq) (s : State) : (goTo q s).width = s.width := rfl
@[simp] theorem goTo_height (q : Seq) (s : State) : (goTo q s).height = s.height := rfl
@[simp] theorem goTo_hasAlpha (q : Seq) (s : State) : (goTo q s).hasAlpha = s.hasAlpha := rfl
@[simp] theorem goTo_scrLen (q : Seq) (s : State) : (goTo q s).scrLen = s.scrLen := rfl
@[simp] theorem goTo_imgW (q : Seq) (s : State) : (goTo q s).imgW = s.imgW := rfl
@[simp] theorem goTo_imgH (q : Seq) (s : State) : (goTo q s).imgH = s.imgH := rfl
@[simp] theorem goTo_ti (q : Seq) (s : State) : (goTo q s).ti = s.ti := rfl
@[simp] theorem goTo_lzd (q : Seq) (s : State) : (goTo q s).lzd = s.lzd := rfl
@[simp] theorem goTo_etc (q : Seq) (s : State) : (goTo q s).etc = s.etc := rfl
@[simp] theorem goTo_tsa (q : Seq) (s : State) : (goTo q s).tsa = s.tsa := rfl
@[simp] theorem goTo_asm (q : Seq) (s : State) : (goTo q s).asm = s.asm := rfl
@[simp] theorem goTo_inBuf (q : Seq) (s : State) : (goTo q s).inBuf = s.inBuf := rfl
@[simp] theorem goTo_outBuf (q : Seq) (s : State) : (goTo q s).outBuf = s.outBuf := rfl
@[simp] theorem goTo_cblk (q : Seq) (s : State) : (goTo q s).cblk = s.cblk := rfl
@[simp] theorem goTo_ablk (q : Seq) (s : State) : (goTo q s).ablk = s.ablk := rfl
@[simp] theorem goTo_tileout (q : Seq) (s : State) : (goTo q s).tileout = s.tileout := rfl
@[simp] theorem goTo_img0 (q : Seq) (s : State) : (goTo q s).img0 = s.img0 := rfl
@[simp] theorem goTo_img1 (q : Seq) (s : State) : (goTo q s).img1 = s.img1 := rfl
@[simp] theorem goTo_scr (q : Seq) (s : State) : (goTo q s).scr = s.scr := rfl
@[simp] theorem goTo_seq (q : Seq) (s : State) : (goTo q s).seq = q := rfl
@[simp] theorem goTo_host (q : Seq) (s : State) : (goTo q s).host = s.host := rfl
@[simp] theorem goTo_readData (q : Seq) (s : State) : (goTo q s).readData = s.readData := rfl
@[simp] theorem goTo_draws (q : Seq) (s : State) : (goTo q s).draws = s.draws := rfl
@[simp] theorem goTo_buf (q : Seq) (s : State) (b : BufName) : (goTo q s).buf b = s.buf b := by cases b <;> rfl
@[simp] theorem goTo_rd (q : Seq) (s : State) (b : BufName) (a : Nat) : (goTo q s).rd b a = s.rd b a := by
  cases b <;> rfl
@[simp] theorem goTo_capacity (q : Seq) (s : State) (b : BufName) : (goTo q s).capacity b = s.capacity b := by
  cases b <;> rfl
@[simp] theorem goTo_rdScr (q : Seq) (s : State) (i : Nat) : (goTo q s).rdScr i = s.rdScr i := rfl

/-! `withAlpha` -/

@[simp] theorem withAlpha_params (v : Bool) (s : State) : (withAlpha v s).params = s.params := rfl
@[simp] theorem withAlpha_cmd (v : Bool) (s : State) : (withAlpha v s).cmd = s.cmd := rfl
@[simp] theorem withAlpha_status (v : Bool) (s : State) : (withAlpha v s).status = s.status := rfl
@[simp] theorem withAlpha_errCode (v : Bool) (s : State) : (withAlpha v s).errCode = s.errCode := rfl
@[simp] theorem withAlpha_errInfo (v : Bool) (s : State) : (withAlpha v s).errInfo = s.errInfo := rfl
@[simp] theorem withAlpha_ctrl (v : Bool) (s : State) : (withAlpha v s).ctrl = s.ctrl := rfl
@[simp] theorem withAlpha_inLen (v : Bool) (s : State) : (withAlpha v s).inLen = s.inLen := rfl
@[simp] theorem withAlpha_outLen (v : Bool) (s : State) : (withAlpha v s).outLen = s.outLen := rfl
@[simp] theorem withAlpha_width (v : Bool) (s : State) : (withAlpha v s).width = s.width := rfl
@[simp] theorem withAlpha_height (v : Bool) (s : State) : (withAlpha v s).height = s.height := rfl
@[simp] theorem withAlpha_hasAlpha (v : Bool) (s : State) : (withAlpha v s).hasAlpha = s.hasAlpha := rfl
@[simp] theorem withAlpha_scrLen (v : Bool) (s : State) : (withAlpha v s).scrLen = s.scrLen := rfl
@[simp] theorem withAlpha_imgW (v : Bool) (s : State) : (withAlpha v s).imgW = s.imgW := rfl
@[simp] theorem withAlpha_imgH (v : Bool) (s : State) : (withAlpha v s).imgH = s.imgH := rfl
@[simp] theorem withAlpha_ti (v : Bool) (s : State) : (withAlpha v s).ti = s.ti := rfl
@[simp] theorem withAlpha_lzd (v : Bool) (s : State) : (withAlpha v s).lzd = s.lzd := rfl
@[simp] theorem withAlpha_etc (v : Bool) (s : State) : (withAlpha v s).etc = { s.etc with hasAlpha := v } := rfl
@[simp] theorem withAlpha_tsa (v : Bool) (s : State) : (withAlpha v s).tsa = s.tsa := rfl
@[simp] theorem withAlpha_asm (v : Bool) (s : State) : (withAlpha v s).asm = s.asm := rfl
@[simp] theorem withAlpha_inBuf (v : Bool) (s : State) : (withAlpha v s).inBuf = s.inBuf := rfl
@[simp] theorem withAlpha_outBuf (v : Bool) (s : State) : (withAlpha v s).outBuf = s.outBuf := rfl
@[simp] theorem withAlpha_cblk (v : Bool) (s : State) : (withAlpha v s).cblk = s.cblk := rfl
@[simp] theorem withAlpha_ablk (v : Bool) (s : State) : (withAlpha v s).ablk = s.ablk := rfl
@[simp] theorem withAlpha_tileout (v : Bool) (s : State) : (withAlpha v s).tileout = s.tileout := rfl
@[simp] theorem withAlpha_img0 (v : Bool) (s : State) : (withAlpha v s).img0 = s.img0 := rfl
@[simp] theorem withAlpha_img1 (v : Bool) (s : State) : (withAlpha v s).img1 = s.img1 := rfl
@[simp] theorem withAlpha_scr (v : Bool) (s : State) : (withAlpha v s).scr = s.scr := rfl
@[simp] theorem withAlpha_seq (v : Bool) (s : State) : (withAlpha v s).seq = s.seq := rfl
@[simp] theorem withAlpha_host (v : Bool) (s : State) : (withAlpha v s).host = s.host := rfl
@[simp] theorem withAlpha_readData (v : Bool) (s : State) : (withAlpha v s).readData = s.readData := rfl
@[simp] theorem withAlpha_draws (v : Bool) (s : State) : (withAlpha v s).draws = s.draws := rfl
@[simp] theorem withAlpha_buf (v : Bool) (s : State) (b : BufName) : (withAlpha v s).buf b = s.buf b := by cases b <;> rfl
@[simp] theorem withAlpha_rd (v : Bool) (s : State) (b : BufName) (a : Nat) : (withAlpha v s).rd b a = s.rd b a := by
  cases b <;> rfl
@[simp] theorem withAlpha_capacity (v : Bool) (s : State) (b : BufName) : (withAlpha v s).capacity b = s.capacity b := by
  cases b <;> rfl
@[simp] theorem withAlpha_rdScr (v : Bool) (s : State) (i : Nat) : (withAlpha v s).rdScr i = s.rdScr i := rfl

/-! `withHost` -/

@[simp] theorem withHost_params (h : List HostEvent) (s : State) : (withHost h s).params = s.params := rfl
@[simp] theorem withHost_cmd (h : List HostEvent) (s : State) : (withHost h s).cmd = s.cmd := rfl
@[simp] theorem withHost_status (h : List HostEvent) (s : State) : (withHost h s).status = s.status := rfl
@[simp] theorem withHost_errCode (h : List HostEvent) (s : State) : (withHost h s).errCode = s.errCode := rfl
@[simp] theorem withHost_errInfo (h : List HostEvent) (s : State) : (withHost h s).errInfo = s.errInfo := rfl
@[simp] theorem withHost_ctrl (h : List HostEvent) (s : State) : (withHost h s).ctrl = s.ctrl := rfl
@[simp] theorem withHost_inLen (h : List HostEvent) (s : State) : (withHost h s).inLen = s.inLen := rfl
@[simp] theorem withHost_outLen (h : List HostEvent) (s : State) : (withHost h s).outLen = s.outLen := rfl
@[simp] theorem withHost_width (h : List HostEvent) (s : State) : (withHost h s).width = s.width := rfl
@[simp] theorem withHost_height (h : List HostEvent) (s : State) : (withHost h s).height = s.height := rfl
@[simp] theorem withHost_hasAlpha (h : List HostEvent) (s : State) : (withHost h s).hasAlpha = s.hasAlpha := rfl
@[simp] theorem withHost_scrLen (h : List HostEvent) (s : State) : (withHost h s).scrLen = s.scrLen := rfl
@[simp] theorem withHost_imgW (h : List HostEvent) (s : State) : (withHost h s).imgW = s.imgW := rfl
@[simp] theorem withHost_imgH (h : List HostEvent) (s : State) : (withHost h s).imgH = s.imgH := rfl
@[simp] theorem withHost_ti (h : List HostEvent) (s : State) : (withHost h s).ti = s.ti := rfl
@[simp] theorem withHost_lzd (h : List HostEvent) (s : State) : (withHost h s).lzd = s.lzd := rfl
@[simp] theorem withHost_etc (h : List HostEvent) (s : State) : (withHost h s).etc = s.etc := rfl
@[simp] theorem withHost_tsa (h : List HostEvent) (s : State) : (withHost h s).tsa = s.tsa := rfl
@[simp] theorem withHost_asm (h : List HostEvent) (s : State) : (withHost h s).asm = s.asm := rfl
@[simp] theorem withHost_inBuf (h : List HostEvent) (s : State) : (withHost h s).inBuf = s.inBuf := rfl
@[simp] theorem withHost_outBuf (h : List HostEvent) (s : State) : (withHost h s).outBuf = s.outBuf := rfl
@[simp] theorem withHost_cblk (h : List HostEvent) (s : State) : (withHost h s).cblk = s.cblk := rfl
@[simp] theorem withHost_ablk (h : List HostEvent) (s : State) : (withHost h s).ablk = s.ablk := rfl
@[simp] theorem withHost_tileout (h : List HostEvent) (s : State) : (withHost h s).tileout = s.tileout := rfl
@[simp] theorem withHost_img0 (h : List HostEvent) (s : State) : (withHost h s).img0 = s.img0 := rfl
@[simp] theorem withHost_img1 (h : List HostEvent) (s : State) : (withHost h s).img1 = s.img1 := rfl
@[simp] theorem withHost_scr (h : List HostEvent) (s : State) : (withHost h s).scr = s.scr := rfl
@[simp] theorem withHost_seq (h : List HostEvent) (s : State) : (withHost h s).seq = s.seq := rfl
@[simp] theorem withHost_host (h : List HostEvent) (s : State) : (withHost h s).host = h := rfl
@[simp] theorem withHost_readData (h : List HostEvent) (s : State) : (withHost h s).readData = s.readData := rfl
@[simp] theorem withHost_draws (h : List HostEvent) (s : State) : (withHost h s).draws = s.draws := rfl
@[simp] theorem withHost_buf (h : List HostEvent) (s : State) (b : BufName) : (withHost h s).buf b = s.buf b := by cases b <;> rfl
@[simp] theorem withHost_rd (h : List HostEvent) (s : State) (b : BufName) (a : Nat) : (withHost h s).rd b a = s.rd b a := by
  cases b <;> rfl
@[simp] theorem withHost_capacity (h : List HostEvent) (s : State) (b : BufName) : (withHost h s).capacity b = s.capacity b := by
  cases b <;> rfl
@[simp] theorem withHost_rdScr (h : List HostEvent) (s : State) (i : Nat) : (withHost h s).rdScr i = s.rdScr i := rfl

/-! `advance` -/

@[simp] theorem advance_params (n : Nat) (s : State) : (advance n s).params = s.params := rfl
@[simp] theorem advance_cmd (n : Nat) (s : State) : (advance n s).cmd = s.cmd := rfl
@[simp] theorem advance_status (n : Nat) (s : State) : (advance n s).status = s.status := rfl
@[simp] theorem advance_errCode (n : Nat) (s : State) : (advance n s).errCode = s.errCode := rfl
@[simp] theorem advance_errInfo (n : Nat) (s : State) : (advance n s).errInfo = s.errInfo := rfl
@[simp] theorem advance_ctrl (n : Nat) (s : State) : (advance n s).ctrl = s.ctrl := rfl
@[simp] theorem advance_inLen (n : Nat) (s : State) : (advance n s).inLen = s.inLen := rfl
@[simp] theorem advance_outLen (n : Nat) (s : State) : (advance n s).outLen = s.outLen := rfl
@[simp] theorem advance_width (n : Nat) (s : State) : (advance n s).width = s.width := rfl
@[simp] theorem advance_height (n : Nat) (s : State) : (advance n s).height = s.height := rfl
@[simp] theorem advance_hasAlpha (n : Nat) (s : State) : (advance n s).hasAlpha = s.hasAlpha := rfl
@[simp] theorem advance_scrLen (n : Nat) (s : State) : (advance n s).scrLen = s.scrLen := rfl
@[simp] theorem advance_imgW (n : Nat) (s : State) : (advance n s).imgW = s.imgW := rfl
@[simp] theorem advance_imgH (n : Nat) (s : State) : (advance n s).imgH = s.imgH := rfl
@[simp] theorem advance_ti (n : Nat) (s : State) : (advance n s).ti = s.ti := rfl
@[simp] theorem advance_lzd (n : Nat) (s : State) : (advance n s).lzd = { s.lzd with ip := BitVec.ofNat 32 (s.lzd.ip.toNat + n) } := rfl
@[simp] theorem advance_etc (n : Nat) (s : State) : (advance n s).etc = s.etc := rfl
@[simp] theorem advance_tsa (n : Nat) (s : State) : (advance n s).tsa = s.tsa := rfl
@[simp] theorem advance_asm (n : Nat) (s : State) : (advance n s).asm = s.asm := rfl
@[simp] theorem advance_inBuf (n : Nat) (s : State) : (advance n s).inBuf = s.inBuf := rfl
@[simp] theorem advance_outBuf (n : Nat) (s : State) : (advance n s).outBuf = s.outBuf := rfl
@[simp] theorem advance_cblk (n : Nat) (s : State) : (advance n s).cblk = s.cblk := rfl
@[simp] theorem advance_ablk (n : Nat) (s : State) : (advance n s).ablk = s.ablk := rfl
@[simp] theorem advance_tileout (n : Nat) (s : State) : (advance n s).tileout = s.tileout := rfl
@[simp] theorem advance_img0 (n : Nat) (s : State) : (advance n s).img0 = s.img0 := rfl
@[simp] theorem advance_img1 (n : Nat) (s : State) : (advance n s).img1 = s.img1 := rfl
@[simp] theorem advance_scr (n : Nat) (s : State) : (advance n s).scr = s.scr := rfl
@[simp] theorem advance_seq (n : Nat) (s : State) : (advance n s).seq = s.seq := rfl
@[simp] theorem advance_host (n : Nat) (s : State) : (advance n s).host = s.host := rfl
@[simp] theorem advance_readData (n : Nat) (s : State) : (advance n s).readData = s.readData := rfl
@[simp] theorem advance_draws (n : Nat) (s : State) : (advance n s).draws = s.draws := rfl
@[simp] theorem advance_buf (n : Nat) (s : State) (b : BufName) : (advance n s).buf b = s.buf b := by cases b <;> rfl
@[simp] theorem advance_rd (n : Nat) (s : State) (b : BufName) (a : Nat) : (advance n s).rd b a = s.rd b a := by
  cases b <;> rfl
@[simp] theorem advance_capacity (n : Nat) (s : State) (b : BufName) : (advance n s).capacity b = s.capacity b := by
  cases b <;> rfl
@[simp] theorem advance_rdScr (n : Nat) (s : State) (i : Nat) : (advance n s).rdScr i = s.rdScr i := rfl

/-! `latchBytes` -/

@[simp] theorem latchBytes_params (l : List Byte) (s : State) : (latchBytes l s).params = s.params := rfl
@[simp] theorem latchBytes_cmd (l : List Byte) (s : State) : (latchBytes l s).cmd = s.cmd := rfl
@[simp] theorem latchBytes_status (l : List Byte) (s : State) : (latchBytes l s).status = s.status := rfl
@[simp] theorem latchBytes_errCode (l : List Byte) (s : State) : (latchBytes l s).errCode = s.errCode := rfl
@[simp] theorem latchBytes_errInfo (l : List Byte) (s : State) : (latchBytes l s).errInfo = s.errInfo := rfl
@[simp] theorem latchBytes_ctrl (l : List Byte) (s : State) : (latchBytes l s).ctrl = s.ctrl := rfl
@[simp] theorem latchBytes_inLen (l : List Byte) (s : State) : (latchBytes l s).inLen = s.inLen := rfl
@[simp] theorem latchBytes_outLen (l : List Byte) (s : State) : (latchBytes l s).outLen = s.outLen := rfl
@[simp] theorem latchBytes_width (l : List Byte) (s : State) : (latchBytes l s).width = s.width := rfl
@[simp] theorem latchBytes_height (l : List Byte) (s : State) : (latchBytes l s).height = s.height := rfl
@[simp] theorem latchBytes_hasAlpha (l : List Byte) (s : State) : (latchBytes l s).hasAlpha = s.hasAlpha := rfl
@[simp] theorem latchBytes_scrLen (l : List Byte) (s : State) : (latchBytes l s).scrLen = s.scrLen := rfl
@[simp] theorem latchBytes_imgW (l : List Byte) (s : State) : (latchBytes l s).imgW = s.imgW := rfl
@[simp] theorem latchBytes_imgH (l : List Byte) (s : State) : (latchBytes l s).imgH = s.imgH := rfl
@[simp] theorem latchBytes_ti (l : List Byte) (s : State) : (latchBytes l s).ti = s.ti := rfl
@[simp] theorem latchBytes_lzd (l : List Byte) (s : State) : (latchBytes l s).lzd = { s.lzd with b0 := l.getD 0 s.lzd.b0, b1 := l.getD 1 s.lzd.b1, b2 := l.getD 2 s.lzd.b2 } := rfl
@[simp] theorem latchBytes_etc (l : List Byte) (s : State) : (latchBytes l s).etc = s.etc := rfl
@[simp] theorem latchBytes_tsa (l : List Byte) (s : State) : (latchBytes l s).tsa = s.tsa := rfl
@[simp] theorem latchBytes_asm (l : List Byte) (s : State) : (latchBytes l s).asm = s.asm := rfl
@[simp] theorem latchBytes_inBuf (l : List Byte) (s : State) : (latchBytes l s).inBuf = s.inBuf := rfl
@[simp] theorem latchBytes_outBuf (l : List Byte) (s : State) : (latchBytes l s).outBuf = s.outBuf := rfl
@[simp] theorem latchBytes_cblk (l : List Byte) (s : State) : (latchBytes l s).cblk = s.cblk := rfl
@[simp] theorem latchBytes_ablk (l : List Byte) (s : State) : (latchBytes l s).ablk = s.ablk := rfl
@[simp] theorem latchBytes_tileout (l : List Byte) (s : State) : (latchBytes l s).tileout = s.tileout := rfl
@[simp] theorem latchBytes_img0 (l : List Byte) (s : State) : (latchBytes l s).img0 = s.img0 := rfl
@[simp] theorem latchBytes_img1 (l : List Byte) (s : State) : (latchBytes l s).img1 = s.img1 := rfl
@[simp] theorem latchBytes_scr (l : List Byte) (s : State) : (latchBytes l s).scr = s.scr := rfl
@[simp] theorem latchBytes_seq (l : List Byte) (s : State) : (latchBytes l s).seq = s.seq := rfl
@[simp] theorem latchBytes_host (l : List Byte) (s : State) : (latchBytes l s).host = s.host := rfl
@[simp] theorem latchBytes_readData (l : List Byte) (s : State) : (latchBytes l s).readData = s.readData := rfl
@[simp] theorem latchBytes_draws (l : List Byte) (s : State) : (latchBytes l s).draws = s.draws := rfl
@[simp] theorem latchBytes_buf (l : List Byte) (s : State) (b : BufName) : (latchBytes l s).buf b = s.buf b := by cases b <;> rfl
@[simp] theorem latchBytes_rd (l : List Byte) (s : State) (b : BufName) (a : Nat) : (latchBytes l s).rd b a = s.rd b a := by
  cases b <;> rfl
@[simp] theorem latchBytes_capacity (l : List Byte) (s : State) (b : BufName) : (latchBytes l s).capacity b = s.capacity b := by
  cases b <;> rfl
@[simp] theorem latchBytes_rdScr (l : List Byte) (s : State) (i : Nat) : (latchBytes l s).rdScr i = s.rdScr i := rfl

/-! `latchBref` -/

@[simp] theorem latchBref_params (o c : Byte) (s : State) : (latchBref o c s).params = s.params := rfl
@[simp] theorem latchBref_cmd (o c : Byte) (s : State) : (latchBref o c s).cmd = s.cmd := rfl
@[simp] theorem latchBref_status (o c : Byte) (s : State) : (latchBref o c s).status = s.status := rfl
@[simp] theorem latchBref_errCode (o c : Byte) (s : State) : (latchBref o c s).errCode = s.errCode := rfl
@[simp] theorem latchBref_errInfo (o c : Byte) (s : State) : (latchBref o c s).errInfo = s.errInfo := rfl
@[simp] theorem latchBref_ctrl (o c : Byte) (s : State) : (latchBref o c s).ctrl = s.ctrl := rfl
@[simp] theorem latchBref_inLen (o c : Byte) (s : State) : (latchBref o c s).inLen = s.inLen := rfl
@[simp] theorem latchBref_outLen (o c : Byte) (s : State) : (latchBref o c s).outLen = s.outLen := rfl
@[simp] theorem latchBref_width (o c : Byte) (s : State) : (latchBref o c s).width = s.width := rfl
@[simp] theorem latchBref_height (o c : Byte) (s : State) : (latchBref o c s).height = s.height := rfl
@[simp] theorem latchBref_hasAlpha (o c : Byte) (s : State) : (latchBref o c s).hasAlpha = s.hasAlpha := rfl
@[simp] theorem latchBref_scrLen (o c : Byte) (s : State) : (latchBref o c s).scrLen = s.scrLen := rfl
@[simp] theorem latchBref_imgW (o c : Byte) (s : State) : (latchBref o c s).imgW = s.imgW := rfl
@[simp] theorem latchBref_imgH (o c : Byte) (s : State) : (latchBref o c s).imgH = s.imgH := rfl
@[simp] theorem latchBref_ti (o c : Byte) (s : State) : (latchBref o c s).ti = s.ti := rfl
@[simp] theorem latchBref_lzd (o c : Byte) (s : State) : (latchBref o c s).lzd = { s.lzd with o := effectiveOffset s.lzd.m o, c := c } := rfl
@[simp] theorem latchBref_etc (o c : Byte) (s : State) : (latchBref o c s).etc = s.etc := rfl
@[simp] theorem latchBref_tsa (o c : Byte) (s : State) : (latchBref o c s).tsa = s.tsa := rfl
@[simp] theorem latchBref_asm (o c : Byte) (s : State) : (latchBref o c s).asm = s.asm := rfl
@[simp] theorem latchBref_inBuf (o c : Byte) (s : State) : (latchBref o c s).inBuf = s.inBuf := rfl
@[simp] theorem latchBref_outBuf (o c : Byte) (s : State) : (latchBref o c s).outBuf = s.outBuf := rfl
@[simp] theorem latchBref_cblk (o c : Byte) (s : State) : (latchBref o c s).cblk = s.cblk := rfl
@[simp] theorem latchBref_ablk (o c : Byte) (s : State) : (latchBref o c s).ablk = s.ablk := rfl
@[simp] theorem latchBref_tileout (o c : Byte) (s : State) : (latchBref o c s).tileout = s.tileout := rfl
@[simp] theorem latchBref_img0 (o c : Byte) (s : State) : (latchBref o c s).img0 = s.img0 := rfl
@[simp] theorem latchBref_img1 (o c : Byte) (s : State) : (latchBref o c s).img1 = s.img1 := rfl
@[simp] theorem latchBref_scr (o c : Byte) (s : State) : (latchBref o c s).scr = s.scr := rfl
@[simp] theorem latchBref_seq (o c : Byte) (s : State) : (latchBref o c s).seq = s.seq := rfl
@[simp] theorem latchBref_host (o c : Byte) (s : State) : (latchBref o c s).host = s.host := rfl
@[simp] theorem latchBref_readData (o c : Byte) (s : State) : (latchBref o c s).readData = s.readData := rfl
@[simp] theorem latchBref_draws (o c : Byte) (s : State) : (latchBref o c s).draws = s.draws := rfl
@[simp] theorem latchBref_buf (o c : Byte) (s : State) (b : BufName) : (latchBref o c s).buf b = s.buf b := by cases b <;> rfl
@[simp] theorem latchBref_rd (o c : Byte) (s : State) (b : BufName) (a : Nat) : (latchBref o c s).rd b a = s.rd b a := by
  cases b <;> rfl
@[simp] theorem latchBref_capacity (o c : Byte) (s : State) (b : BufName) : (latchBref o c s).capacity b = s.capacity b := by
  cases b <;> rfl
@[simp] theorem latchBref_rdScr (o c : Byte) (s : State) (i : Nat) : (latchBref o c s).rdScr i = s.rdScr i := rfl

/-! `beginCopy` -/

@[simp] theorem beginCopy_params (s : State) : (beginCopy s).params = s.params := rfl
@[simp] theorem beginCopy_cmd (s : State) : (beginCopy s).cmd = s.cmd := rfl
@[simp] theorem beginCopy_status (s : State) : (beginCopy s).status = s.status := rfl
@[simp] theorem beginCopy_errCode (s : State) : (beginCopy s).errCode = s.errCode := rfl
@[simp] theorem beginCopy_errInfo (s : State) : (beginCopy s).errInfo = s.errInfo := rfl
@[simp] theorem beginCopy_ctrl (s : State) : (beginCopy s).ctrl = s.ctrl := rfl
@[simp] theorem beginCopy_inLen (s : State) : (beginCopy s).inLen = s.inLen := rfl
@[simp] theorem beginCopy_outLen (s : State) : (beginCopy s).outLen = s.outLen := rfl
@[simp] theorem beginCopy_width (s : State) : (beginCopy s).width = s.width := rfl
@[simp] theorem beginCopy_height (s : State) : (beginCopy s).height = s.height := rfl
@[simp] theorem beginCopy_hasAlpha (s : State) : (beginCopy s).hasAlpha = s.hasAlpha := rfl
@[simp] theorem beginCopy_scrLen (s : State) : (beginCopy s).scrLen = s.scrLen := rfl
@[simp] theorem beginCopy_imgW (s : State) : (beginCopy s).imgW = s.imgW := rfl
@[simp] theorem beginCopy_imgH (s : State) : (beginCopy s).imgH = s.imgH := rfl
@[simp] theorem beginCopy_ti (s : State) : (beginCopy s).ti = s.ti := rfl
@[simp] theorem beginCopy_lzd (s : State) : (beginCopy s).lzd = { s.lzd with src := BitVec.ofNat 32 (s.outLen.toNat - s.lzd.o.toNat), k := 0#8 } := rfl
@[simp] theorem beginCopy_etc (s : State) : (beginCopy s).etc = s.etc := rfl
@[simp] theorem beginCopy_tsa (s : State) : (beginCopy s).tsa = s.tsa := rfl
@[simp] theorem beginCopy_asm (s : State) : (beginCopy s).asm = s.asm := rfl
@[simp] theorem beginCopy_inBuf (s : State) : (beginCopy s).inBuf = s.inBuf := rfl
@[simp] theorem beginCopy_outBuf (s : State) : (beginCopy s).outBuf = s.outBuf := rfl
@[simp] theorem beginCopy_cblk (s : State) : (beginCopy s).cblk = s.cblk := rfl
@[simp] theorem beginCopy_ablk (s : State) : (beginCopy s).ablk = s.ablk := rfl
@[simp] theorem beginCopy_tileout (s : State) : (beginCopy s).tileout = s.tileout := rfl
@[simp] theorem beginCopy_img0 (s : State) : (beginCopy s).img0 = s.img0 := rfl
@[simp] theorem beginCopy_img1 (s : State) : (beginCopy s).img1 = s.img1 := rfl
@[simp] theorem beginCopy_scr (s : State) : (beginCopy s).scr = s.scr := rfl
@[simp] theorem beginCopy_seq (s : State) : (beginCopy s).seq = s.seq := rfl
@[simp] theorem beginCopy_host (s : State) : (beginCopy s).host = s.host := rfl
@[simp] theorem beginCopy_readData (s : State) : (beginCopy s).readData = s.readData := rfl
@[simp] theorem beginCopy_draws (s : State) : (beginCopy s).draws = s.draws := rfl
@[simp] theorem beginCopy_buf (s : State) (b : BufName) : (beginCopy s).buf b = s.buf b := by cases b <;> rfl
@[simp] theorem beginCopy_rd (s : State) (b : BufName) (a : Nat) : (beginCopy s).rd b a = s.rd b a := by
  cases b <;> rfl
@[simp] theorem beginCopy_capacity (s : State) (b : BufName) : (beginCopy s).capacity b = s.capacity b := by
  cases b <;> rfl
@[simp] theorem beginCopy_rdScr (s : State) (i : Nat) : (beginCopy s).rdScr i = s.rdScr i := rfl

/-! `flagOverflow` -/

@[simp] theorem flagOverflow_params (f : DifFields) (s : State) : (flagOverflow f s).params = s.params := rfl
@[simp] theorem flagOverflow_cmd (f : DifFields) (s : State) : (flagOverflow f s).cmd = s.cmd := rfl
@[simp] theorem flagOverflow_status (f : DifFields) (s : State) : (flagOverflow f s).status = s.status.withDiffOvf (diffOverflow f) := rfl
@[simp] theorem flagOverflow_errCode (f : DifFields) (s : State) : (flagOverflow f s).errCode = s.errCode := rfl
@[simp] theorem flagOverflow_errInfo (f : DifFields) (s : State) : (flagOverflow f s).errInfo = s.errInfo := rfl
@[simp] theorem flagOverflow_ctrl (f : DifFields) (s : State) : (flagOverflow f s).ctrl = s.ctrl := rfl
@[simp] theorem flagOverflow_inLen (f : DifFields) (s : State) : (flagOverflow f s).inLen = s.inLen := rfl
@[simp] theorem flagOverflow_outLen (f : DifFields) (s : State) : (flagOverflow f s).outLen = s.outLen := rfl
@[simp] theorem flagOverflow_width (f : DifFields) (s : State) : (flagOverflow f s).width = s.width := rfl
@[simp] theorem flagOverflow_height (f : DifFields) (s : State) : (flagOverflow f s).height = s.height := rfl
@[simp] theorem flagOverflow_hasAlpha (f : DifFields) (s : State) : (flagOverflow f s).hasAlpha = s.hasAlpha := rfl
@[simp] theorem flagOverflow_scrLen (f : DifFields) (s : State) : (flagOverflow f s).scrLen = s.scrLen := rfl
@[simp] theorem flagOverflow_imgW (f : DifFields) (s : State) : (flagOverflow f s).imgW = s.imgW := rfl
@[simp] theorem flagOverflow_imgH (f : DifFields) (s : State) : (flagOverflow f s).imgH = s.imgH := rfl
@[simp] theorem flagOverflow_ti (f : DifFields) (s : State) : (flagOverflow f s).ti = s.ti := rfl
@[simp] theorem flagOverflow_lzd (f : DifFields) (s : State) : (flagOverflow f s).lzd = s.lzd := rfl
@[simp] theorem flagOverflow_etc (f : DifFields) (s : State) : (flagOverflow f s).etc = s.etc := rfl
@[simp] theorem flagOverflow_tsa (f : DifFields) (s : State) : (flagOverflow f s).tsa = s.tsa := rfl
@[simp] theorem flagOverflow_asm (f : DifFields) (s : State) : (flagOverflow f s).asm = s.asm := rfl
@[simp] theorem flagOverflow_inBuf (f : DifFields) (s : State) : (flagOverflow f s).inBuf = s.inBuf := rfl
@[simp] theorem flagOverflow_outBuf (f : DifFields) (s : State) : (flagOverflow f s).outBuf = s.outBuf := rfl
@[simp] theorem flagOverflow_cblk (f : DifFields) (s : State) : (flagOverflow f s).cblk = s.cblk := rfl
@[simp] theorem flagOverflow_ablk (f : DifFields) (s : State) : (flagOverflow f s).ablk = s.ablk := rfl
@[simp] theorem flagOverflow_tileout (f : DifFields) (s : State) : (flagOverflow f s).tileout = s.tileout := rfl
@[simp] theorem flagOverflow_img0 (f : DifFields) (s : State) : (flagOverflow f s).img0 = s.img0 := rfl
@[simp] theorem flagOverflow_img1 (f : DifFields) (s : State) : (flagOverflow f s).img1 = s.img1 := rfl
@[simp] theorem flagOverflow_scr (f : DifFields) (s : State) : (flagOverflow f s).scr = s.scr := rfl
@[simp] theorem flagOverflow_seq (f : DifFields) (s : State) : (flagOverflow f s).seq = s.seq := rfl
@[simp] theorem flagOverflow_host (f : DifFields) (s : State) : (flagOverflow f s).host = s.host := rfl
@[simp] theorem flagOverflow_readData (f : DifFields) (s : State) : (flagOverflow f s).readData = s.readData := rfl
@[simp] theorem flagOverflow_draws (f : DifFields) (s : State) : (flagOverflow f s).draws = s.draws := rfl
@[simp] theorem flagOverflow_buf (f : DifFields) (s : State) (b : BufName) : (flagOverflow f s).buf b = s.buf b := by cases b <;> rfl
@[simp] theorem flagOverflow_rd (f : DifFields) (s : State) (b : BufName) (a : Nat) : (flagOverflow f s).rd b a = s.rd b a := by
  cases b <;> rfl
@[simp] theorem flagOverflow_capacity (f : DifFields) (s : State) (b : BufName) : (flagOverflow f s).capacity b = s.capacity b := by
  cases b <;> rfl
@[simp] theorem flagOverflow_rdScr (f : DifFields) (s : State) (i : Nat) : (flagOverflow f s).rdScr i = s.rdScr i := rfl

/-! `tsaEnd` -/

@[simp] theorem tsaEnd_params (s : State) : (tsaEnd s).params = s.params := rfl
@[simp] theorem tsaEnd_cmd (s : State) : (tsaEnd s).cmd = s.cmd := rfl
@[simp] theorem tsaEnd_status (s : State) : (tsaEnd s).status = s.status := rfl
@[simp] theorem tsaEnd_errCode (s : State) : (tsaEnd s).errCode = s.errCode := rfl
@[simp] theorem tsaEnd_errInfo (s : State) : (tsaEnd s).errInfo = s.errInfo := rfl
@[simp] theorem tsaEnd_ctrl (s : State) : (tsaEnd s).ctrl = s.ctrl := rfl
@[simp] theorem tsaEnd_inLen (s : State) : (tsaEnd s).inLen = s.inLen := rfl
@[simp] theorem tsaEnd_outLen (s : State) : (tsaEnd s).outLen = s.outLen := rfl
@[simp] theorem tsaEnd_width (s : State) : (tsaEnd s).width = s.width := rfl
@[simp] theorem tsaEnd_height (s : State) : (tsaEnd s).height = s.height := rfl
@[simp] theorem tsaEnd_hasAlpha (s : State) : (tsaEnd s).hasAlpha = s.hasAlpha := rfl
@[simp] theorem tsaEnd_scrLen (s : State) : (tsaEnd s).scrLen = BitVec.ofNat 32 (tsaCount s) := rfl
@[simp] theorem tsaEnd_imgW (s : State) : (tsaEnd s).imgW = s.imgW := rfl
@[simp] theorem tsaEnd_imgH (s : State) : (tsaEnd s).imgH = s.imgH := rfl
@[simp] theorem tsaEnd_ti (s : State) : (tsaEnd s).ti = s.ti := rfl
@[simp] theorem tsaEnd_lzd (s : State) : (tsaEnd s).lzd = s.lzd := rfl
@[simp] theorem tsaEnd_etc (s : State) : (tsaEnd s).etc = s.etc := rfl
@[simp] theorem tsaEnd_tsa (s : State) : (tsaEnd s).tsa = s.tsa := rfl
@[simp] theorem tsaEnd_asm (s : State) : (tsaEnd s).asm = s.asm := rfl
@[simp] theorem tsaEnd_inBuf (s : State) : (tsaEnd s).inBuf = s.inBuf := rfl
@[simp] theorem tsaEnd_outBuf (s : State) : (tsaEnd s).outBuf = s.outBuf := rfl
@[simp] theorem tsaEnd_cblk (s : State) : (tsaEnd s).cblk = s.cblk := rfl
@[simp] theorem tsaEnd_ablk (s : State) : (tsaEnd s).ablk = s.ablk := rfl
@[simp] theorem tsaEnd_tileout (s : State) : (tsaEnd s).tileout = s.tileout := rfl
@[simp] theorem tsaEnd_img0 (s : State) : (tsaEnd s).img0 = s.img0 := rfl
@[simp] theorem tsaEnd_img1 (s : State) : (tsaEnd s).img1 = s.img1 := rfl
@[simp] theorem tsaEnd_scr (s : State) : (tsaEnd s).scr = s.scr := rfl
@[simp] theorem tsaEnd_seq (s : State) : (tsaEnd s).seq = s.seq := rfl
@[simp] theorem tsaEnd_host (s : State) : (tsaEnd s).host = s.host := rfl
@[simp] theorem tsaEnd_readData (s : State) : (tsaEnd s).readData = s.readData := rfl
@[simp] theorem tsaEnd_draws (s : State) : (tsaEnd s).draws = s.draws := rfl
@[simp] theorem tsaEnd_buf (s : State) (b : BufName) : (tsaEnd s).buf b = s.buf b := by cases b <;> rfl
@[simp] theorem tsaEnd_rd (s : State) (b : BufName) (a : Nat) : (tsaEnd s).rd b a = s.rd b a := by
  cases b <;> rfl
@[simp] theorem tsaEnd_capacity (s : State) (b : BufName) : (tsaEnd s).capacity b = s.capacity b := by
  cases b <;> rfl
@[simp] theorem tsaEnd_rdScr (s : State) (i : Nat) : (tsaEnd s).rdScr i = s.rdScr i := rfl

/-! `asmLatch` -/

@[simp] theorem asmLatch_params (p : AsmOperands) (s : State) : (asmLatch p s).params = s.params := rfl
@[simp] theorem asmLatch_cmd (p : AsmOperands) (s : State) : (asmLatch p s).cmd = s.cmd := rfl
@[simp] theorem asmLatch_status (p : AsmOperands) (s : State) : (asmLatch p s).status = s.status := rfl
@[simp] theorem asmLatch_errCode (p : AsmOperands) (s : State) : (asmLatch p s).errCode = s.errCode := rfl
@[simp] theorem asmLatch_errInfo (p : AsmOperands) (s : State) : (asmLatch p s).errInfo = s.errInfo := rfl
@[simp] theorem asmLatch_ctrl (p : AsmOperands) (s : State) : (asmLatch p s).ctrl = s.ctrl := rfl
@[simp] theorem asmLatch_inLen (p : AsmOperands) (s : State) : (asmLatch p s).inLen = s.inLen := rfl
@[simp] theorem asmLatch_outLen (p : AsmOperands) (s : State) : (asmLatch p s).outLen = s.outLen := rfl
@[simp] theorem asmLatch_width (p : AsmOperands) (s : State) : (asmLatch p s).width = s.width := rfl
@[simp] theorem asmLatch_height (p : AsmOperands) (s : State) : (asmLatch p s).height = s.height := rfl
@[simp] theorem asmLatch_hasAlpha (p : AsmOperands) (s : State) : (asmLatch p s).hasAlpha = s.hasAlpha := rfl
@[simp] theorem asmLatch_scrLen (p : AsmOperands) (s : State) : (asmLatch p s).scrLen = s.scrLen := rfl
@[simp] theorem asmLatch_imgW (p : AsmOperands) (s : State) : (asmLatch p s).imgW = s.imgW := rfl
@[simp] theorem asmLatch_imgH (p : AsmOperands) (s : State) : (asmLatch p s).imgH = s.imgH := rfl
@[simp] theorem asmLatch_ti (p : AsmOperands) (s : State) : (asmLatch p s).ti = s.ti := rfl
@[simp] theorem asmLatch_lzd (p : AsmOperands) (s : State) : (asmLatch p s).lzd = s.lzd := rfl
@[simp] theorem asmLatch_etc (p : AsmOperands) (s : State) : (asmLatch p s).etc = s.etc := rfl
@[simp] theorem asmLatch_tsa (p : AsmOperands) (s : State) : (asmLatch p s).tsa = s.tsa := rfl
@[simp] theorem asmLatch_inBuf (p : AsmOperands) (s : State) : (asmLatch p s).inBuf = s.inBuf := rfl
@[simp] theorem asmLatch_outBuf (p : AsmOperands) (s : State) : (asmLatch p s).outBuf = s.outBuf := rfl
@[simp] theorem asmLatch_cblk (p : AsmOperands) (s : State) : (asmLatch p s).cblk = s.cblk := rfl
@[simp] theorem asmLatch_ablk (p : AsmOperands) (s : State) : (asmLatch p s).ablk = s.ablk := rfl
@[simp] theorem asmLatch_tileout (p : AsmOperands) (s : State) : (asmLatch p s).tileout = s.tileout := rfl
@[simp] theorem asmLatch_img0 (p : AsmOperands) (s : State) : (asmLatch p s).img0 = s.img0 := rfl
@[simp] theorem asmLatch_img1 (p : AsmOperands) (s : State) : (asmLatch p s).img1 = s.img1 := rfl
@[simp] theorem asmLatch_scr (p : AsmOperands) (s : State) : (asmLatch p s).scr = s.scr := rfl
@[simp] theorem asmLatch_seq (p : AsmOperands) (s : State) : (asmLatch p s).seq = s.seq := rfl
@[simp] theorem asmLatch_host (p : AsmOperands) (s : State) : (asmLatch p s).host = s.host := rfl
@[simp] theorem asmLatch_readData (p : AsmOperands) (s : State) : (asmLatch p s).readData = s.readData := rfl
@[simp] theorem asmLatch_draws (p : AsmOperands) (s : State) : (asmLatch p s).draws = s.draws := rfl
@[simp] theorem asmLatch_buf (p : AsmOperands) (s : State) (b : BufName) : (asmLatch p s).buf b = s.buf b := by cases b <;> rfl
@[simp] theorem asmLatch_rd (p : AsmOperands) (s : State) (b : BufName) (a : Nat) : (asmLatch p s).rd b a = s.rd b a := by
  cases b <;> rfl
@[simp] theorem asmLatch_capacity (p : AsmOperands) (s : State) (b : BufName) : (asmLatch p s).capacity b = s.capacity b := by
  cases b <;> rfl
@[simp] theorem asmLatch_rdScr (p : AsmOperands) (s : State) (i : Nat) : (asmLatch p s).rdScr i = s.rdScr i := rfl

/-! `disturb` -/

@[simp] theorem disturb_params (old s : State) : (disturb old s).params = s.params := rfl
@[simp] theorem disturb_cmd (old s : State) : (disturb old s).cmd = s.cmd := rfl
@[simp] theorem disturb_status (old s : State) : (disturb old s).status = s.status := rfl
@[simp] theorem disturb_errCode (old s : State) : (disturb old s).errCode = s.errCode := rfl
@[simp] theorem disturb_errInfo (old s : State) : (disturb old s).errInfo = s.errInfo := rfl
@[simp] theorem disturb_ctrl (old s : State) : (disturb old s).ctrl = s.ctrl := rfl
@[simp] theorem disturb_inLen (old s : State) : (disturb old s).inLen = s.inLen := rfl
@[simp] theorem disturb_outLen (old s : State) : (disturb old s).outLen = s.outLen := rfl
@[simp] theorem disturb_width (old s : State) : (disturb old s).width = s.width := rfl
@[simp] theorem disturb_height (old s : State) : (disturb old s).height = s.height := rfl
@[simp] theorem disturb_hasAlpha (old s : State) : (disturb old s).hasAlpha = s.hasAlpha := rfl
@[simp] theorem disturb_scrLen (old s : State) : (disturb old s).scrLen = s.scrLen := rfl
@[simp] theorem disturb_imgW (old s : State) : (disturb old s).imgW = s.imgW := rfl
@[simp] theorem disturb_imgH (old s : State) : (disturb old s).imgH = s.imgH := rfl
@[simp] theorem disturb_ti (old s : State) : (disturb old s).ti = s.ti := rfl
@[simp] theorem disturb_lzd (old s : State) : (disturb old s).lzd = s.lzd := rfl
@[simp] theorem disturb_etc (old s : State) : (disturb old s).etc = s.etc := rfl
@[simp] theorem disturb_tsa (old s : State) : (disturb old s).tsa = s.tsa := rfl
@[simp] theorem disturb_asm (old s : State) : (disturb old s).asm = s.asm := rfl
@[simp] theorem disturb_inBuf (old s : State) : (disturb old s).inBuf = s.inBuf := rfl
@[simp] theorem disturb_outBuf (old s : State) : (disturb old s).outBuf = s.outBuf := rfl
@[simp] theorem disturb_cblk (old s : State) : (disturb old s).cblk = s.cblk := rfl
@[simp] theorem disturb_ablk (old s : State) : (disturb old s).ablk = s.ablk := rfl
@[simp] theorem disturb_tileout (old s : State) : (disturb old s).tileout = s.tileout := rfl
@[simp] theorem disturb_img0 (old s : State) : (disturb old s).img0 = s.img0 := rfl
@[simp] theorem disturb_img1 (old s : State) : (disturb old s).img1 = s.img1 := rfl
@[simp] theorem disturb_scr (old s : State) : (disturb old s).scr = s.scr := rfl
@[simp] theorem disturb_seq (old s : State) : (disturb old s).seq = Seq.disturbed (rawLzSeen old || s.ctrl.rawLz) := rfl
@[simp] theorem disturb_host (old s : State) : (disturb old s).host = s.host := rfl
@[simp] theorem disturb_readData (old s : State) : (disturb old s).readData = s.readData := rfl
@[simp] theorem disturb_draws (old s : State) : (disturb old s).draws = s.draws := rfl
@[simp] theorem disturb_buf (old s : State) (b : BufName) : (disturb old s).buf b = s.buf b := by cases b <;> rfl
@[simp] theorem disturb_rd (old s : State) (b : BufName) (a : Nat) : (disturb old s).rd b a = s.rd b a := by
  cases b <;> rfl
@[simp] theorem disturb_capacity (old s : State) (b : BufName) : (disturb old s).capacity b = s.capacity b := by
  cases b <;> rfl
@[simp] theorem disturb_rdScr (old s : State) (i : Nat) : (disturb old s).rdScr i = s.rdScr i := rfl

/-! `asmEnd` -/

@[simp] theorem asmEnd_params (s : State) : (asmEnd s).params = s.params := rfl
@[simp] theorem asmEnd_cmd (s : State) : (asmEnd s).cmd = s.cmd := rfl
@[simp] theorem asmEnd_status (s : State) : (asmEnd s).status = s.status := rfl
@[simp] theorem asmEnd_errCode (s : State) : (asmEnd s).errCode = s.errCode := rfl
@[simp] theorem asmEnd_errInfo (s : State) : (asmEnd s).errInfo = s.errInfo := rfl
@[simp] theorem asmEnd_ctrl (s : State) : (asmEnd s).ctrl = s.ctrl := rfl
@[simp] theorem asmEnd_inLen (s : State) : (asmEnd s).inLen = s.inLen := rfl
@[simp] theorem asmEnd_outLen (s : State) : (asmEnd s).outLen = s.outLen := rfl
@[simp] theorem asmEnd_width (s : State) : (asmEnd s).width = s.width := rfl
@[simp] theorem asmEnd_height (s : State) : (asmEnd s).height = s.height := rfl
@[simp] theorem asmEnd_hasAlpha (s : State) : (asmEnd s).hasAlpha = s.hasAlpha := rfl
@[simp] theorem asmEnd_scrLen (s : State) : (asmEnd s).scrLen = s.scrLen := rfl
@[simp] theorem asmEnd_imgW (s : State) : (asmEnd s).imgW = s.asm.w := rfl
@[simp] theorem asmEnd_imgH (s : State) : (asmEnd s).imgH = s.asm.h := rfl
@[simp] theorem asmEnd_ti (s : State) : (asmEnd s).ti = s.ti := rfl
@[simp] theorem asmEnd_lzd (s : State) : (asmEnd s).lzd = s.lzd := rfl
@[simp] theorem asmEnd_etc (s : State) : (asmEnd s).etc = s.etc := rfl
@[simp] theorem asmEnd_tsa (s : State) : (asmEnd s).tsa = s.tsa := rfl
@[simp] theorem asmEnd_asm (s : State) : (asmEnd s).asm = s.asm := rfl
@[simp] theorem asmEnd_inBuf (s : State) : (asmEnd s).inBuf = s.inBuf := rfl
@[simp] theorem asmEnd_outBuf (s : State) : (asmEnd s).outBuf = s.outBuf := rfl
@[simp] theorem asmEnd_cblk (s : State) : (asmEnd s).cblk = s.cblk := rfl
@[simp] theorem asmEnd_ablk (s : State) : (asmEnd s).ablk = s.ablk := rfl
@[simp] theorem asmEnd_tileout (s : State) : (asmEnd s).tileout = s.tileout := rfl
@[simp] theorem asmEnd_img0 (s : State) : (asmEnd s).img0 = s.img0 := rfl
@[simp] theorem asmEnd_img1 (s : State) : (asmEnd s).img1 = s.img1 := rfl
@[simp] theorem asmEnd_scr (s : State) : (asmEnd s).scr = s.scr := rfl
@[simp] theorem asmEnd_seq (s : State) : (asmEnd s).seq = s.seq := rfl
@[simp] theorem asmEnd_host (s : State) : (asmEnd s).host = s.host := rfl
@[simp] theorem asmEnd_readData (s : State) : (asmEnd s).readData = s.readData := rfl
@[simp] theorem asmEnd_draws (s : State) : (asmEnd s).draws = s.draws := rfl
@[simp] theorem asmEnd_buf (s : State) (b : BufName) : (asmEnd s).buf b = s.buf b := by cases b <;> rfl
@[simp] theorem asmEnd_rd (s : State) (b : BufName) (a : Nat) : (asmEnd s).rd b a = s.rd b a := by
  cases b <;> rfl
@[simp] theorem asmEnd_capacity (s : State) (b : BufName) : (asmEnd s).capacity b = s.capacity b := by
  cases b <;> rfl
@[simp] theorem asmEnd_rdScr (s : State) (i : Nat) : (asmEnd s).rdScr i = s.rdScr i := rfl

/-! `answer` -/

@[simp] theorem answer_params (v : Word) (s : State) : (answer v s).params = s.params := rfl
@[simp] theorem answer_cmd (v : Word) (s : State) : (answer v s).cmd = s.cmd := rfl
@[simp] theorem answer_status (v : Word) (s : State) : (answer v s).status = s.status := rfl
@[simp] theorem answer_errCode (v : Word) (s : State) : (answer v s).errCode = s.errCode := rfl
@[simp] theorem answer_errInfo (v : Word) (s : State) : (answer v s).errInfo = s.errInfo := rfl
@[simp] theorem answer_ctrl (v : Word) (s : State) : (answer v s).ctrl = s.ctrl := rfl
@[simp] theorem answer_inLen (v : Word) (s : State) : (answer v s).inLen = s.inLen := rfl
@[simp] theorem answer_outLen (v : Word) (s : State) : (answer v s).outLen = s.outLen := rfl
@[simp] theorem answer_width (v : Word) (s : State) : (answer v s).width = s.width := rfl
@[simp] theorem answer_height (v : Word) (s : State) : (answer v s).height = s.height := rfl
@[simp] theorem answer_hasAlpha (v : Word) (s : State) : (answer v s).hasAlpha = s.hasAlpha := rfl
@[simp] theorem answer_scrLen (v : Word) (s : State) : (answer v s).scrLen = s.scrLen := rfl
@[simp] theorem answer_imgW (v : Word) (s : State) : (answer v s).imgW = s.imgW := rfl
@[simp] theorem answer_imgH (v : Word) (s : State) : (answer v s).imgH = s.imgH := rfl
@[simp] theorem answer_ti (v : Word) (s : State) : (answer v s).ti = s.ti := rfl
@[simp] theorem answer_lzd (v : Word) (s : State) : (answer v s).lzd = s.lzd := rfl
@[simp] theorem answer_etc (v : Word) (s : State) : (answer v s).etc = s.etc := rfl
@[simp] theorem answer_tsa (v : Word) (s : State) : (answer v s).tsa = s.tsa := rfl
@[simp] theorem answer_asm (v : Word) (s : State) : (answer v s).asm = s.asm := rfl
@[simp] theorem answer_inBuf (v : Word) (s : State) : (answer v s).inBuf = s.inBuf := rfl
@[simp] theorem answer_outBuf (v : Word) (s : State) : (answer v s).outBuf = s.outBuf := rfl
@[simp] theorem answer_cblk (v : Word) (s : State) : (answer v s).cblk = s.cblk := rfl
@[simp] theorem answer_ablk (v : Word) (s : State) : (answer v s).ablk = s.ablk := rfl
@[simp] theorem answer_tileout (v : Word) (s : State) : (answer v s).tileout = s.tileout := rfl
@[simp] theorem answer_img0 (v : Word) (s : State) : (answer v s).img0 = s.img0 := rfl
@[simp] theorem answer_img1 (v : Word) (s : State) : (answer v s).img1 = s.img1 := rfl
@[simp] theorem answer_scr (v : Word) (s : State) : (answer v s).scr = s.scr := rfl
@[simp] theorem answer_seq (v : Word) (s : State) : (answer v s).seq = s.seq := rfl
@[simp] theorem answer_host (v : Word) (s : State) : (answer v s).host = s.host := rfl
@[simp] theorem answer_readData (v : Word) (s : State) : (answer v s).readData = v := rfl
@[simp] theorem answer_draws (v : Word) (s : State) : (answer v s).draws = s.draws := rfl
@[simp] theorem answer_buf (v : Word) (s : State) (b : BufName) : (answer v s).buf b = s.buf b := by cases b <;> rfl
@[simp] theorem answer_rd (v : Word) (s : State) (b : BufName) (a : Nat) : (answer v s).rd b a = s.rd b a := by
  cases b <;> rfl
@[simp] theorem answer_capacity (v : Word) (s : State) (b : BufName) : (answer v s).capacity b = s.capacity b := by
  cases b <;> rfl
@[simp] theorem answer_rdScr (v : Word) (s : State) (i : Nat) : (answer v s).rdScr i = s.rdScr i := rfl

/-! `answerUnspecified` -/

@[simp] theorem answerUnspecified_params (bits : Nat) (s : State) : (answerUnspecified bits s).params = s.params := rfl
@[simp] theorem answerUnspecified_cmd (bits : Nat) (s : State) : (answerUnspecified bits s).cmd = s.cmd := rfl
@[simp] theorem answerUnspecified_status (bits : Nat) (s : State) : (answerUnspecified bits s).status = s.status := rfl
@[simp] theorem answerUnspecified_errCode (bits : Nat) (s : State) : (answerUnspecified bits s).errCode = s.errCode := rfl
@[simp] theorem answerUnspecified_errInfo (bits : Nat) (s : State) : (answerUnspecified bits s).errInfo = s.errInfo := rfl
@[simp] theorem answerUnspecified_ctrl (bits : Nat) (s : State) : (answerUnspecified bits s).ctrl = s.ctrl := rfl
@[simp] theorem answerUnspecified_inLen (bits : Nat) (s : State) : (answerUnspecified bits s).inLen = s.inLen := rfl
@[simp] theorem answerUnspecified_outLen (bits : Nat) (s : State) : (answerUnspecified bits s).outLen = s.outLen := rfl
@[simp] theorem answerUnspecified_width (bits : Nat) (s : State) : (answerUnspecified bits s).width = s.width := rfl
@[simp] theorem answerUnspecified_height (bits : Nat) (s : State) : (answerUnspecified bits s).height = s.height := rfl
@[simp] theorem answerUnspecified_hasAlpha (bits : Nat) (s : State) : (answerUnspecified bits s).hasAlpha = s.hasAlpha := rfl
@[simp] theorem answerUnspecified_scrLen (bits : Nat) (s : State) : (answerUnspecified bits s).scrLen = s.scrLen := rfl
@[simp] theorem answerUnspecified_imgW (bits : Nat) (s : State) : (answerUnspecified bits s).imgW = s.imgW := rfl
@[simp] theorem answerUnspecified_imgH (bits : Nat) (s : State) : (answerUnspecified bits s).imgH = s.imgH := rfl
@[simp] theorem answerUnspecified_ti (bits : Nat) (s : State) : (answerUnspecified bits s).ti = s.ti := rfl
@[simp] theorem answerUnspecified_lzd (bits : Nat) (s : State) : (answerUnspecified bits s).lzd = s.lzd := rfl
@[simp] theorem answerUnspecified_etc (bits : Nat) (s : State) : (answerUnspecified bits s).etc = s.etc := rfl
@[simp] theorem answerUnspecified_tsa (bits : Nat) (s : State) : (answerUnspecified bits s).tsa = s.tsa := rfl
@[simp] theorem answerUnspecified_asm (bits : Nat) (s : State) : (answerUnspecified bits s).asm = s.asm := rfl
@[simp] theorem answerUnspecified_inBuf (bits : Nat) (s : State) : (answerUnspecified bits s).inBuf = s.inBuf := rfl
@[simp] theorem answerUnspecified_outBuf (bits : Nat) (s : State) : (answerUnspecified bits s).outBuf = s.outBuf := rfl
@[simp] theorem answerUnspecified_cblk (bits : Nat) (s : State) : (answerUnspecified bits s).cblk = s.cblk := rfl
@[simp] theorem answerUnspecified_ablk (bits : Nat) (s : State) : (answerUnspecified bits s).ablk = s.ablk := rfl
@[simp] theorem answerUnspecified_tileout (bits : Nat) (s : State) : (answerUnspecified bits s).tileout = s.tileout := rfl
@[simp] theorem answerUnspecified_img0 (bits : Nat) (s : State) : (answerUnspecified bits s).img0 = s.img0 := rfl
@[simp] theorem answerUnspecified_img1 (bits : Nat) (s : State) : (answerUnspecified bits s).img1 = s.img1 := rfl
@[simp] theorem answerUnspecified_scr (bits : Nat) (s : State) : (answerUnspecified bits s).scr = s.scr := rfl
@[simp] theorem answerUnspecified_seq (bits : Nat) (s : State) : (answerUnspecified bits s).seq = s.seq := rfl
@[simp] theorem answerUnspecified_host (bits : Nat) (s : State) : (answerUnspecified bits s).host = s.host := rfl
@[simp] theorem answerUnspecified_readData (bits : Nat) (s : State) : (answerUnspecified bits s).readData = ((Config.unspecRead s.draws).setWidth bits).setWidth 32 := rfl
@[simp] theorem answerUnspecified_draws (bits : Nat) (s : State) : (answerUnspecified bits s).draws = s.draws + 1 := rfl
@[simp] theorem answerUnspecified_buf (bits : Nat) (s : State) (b : BufName) : (answerUnspecified bits s).buf b = s.buf b := by cases b <;> rfl
@[simp] theorem answerUnspecified_rd (bits : Nat) (s : State) (b : BufName) (a : Nat) : (answerUnspecified bits s).rd b a = s.rd b a := by
  cases b <;> rfl
@[simp] theorem answerUnspecified_capacity (bits : Nat) (s : State) (b : BufName) : (answerUnspecified bits s).capacity b = s.capacity b := by
  cases b <;> rfl
@[simp] theorem answerUnspecified_rdScr (bits : Nat) (s : State) (i : Nat) : (answerUnspecified bits s).rdScr i = s.rdScr i := rfl

/-! `loseStatus` -/

@[simp] theorem loseStatus_params (s : State) : (loseStatus s).params = s.params := rfl
@[simp] theorem loseStatus_cmd (s : State) : (loseStatus s).cmd = s.cmd := rfl
@[simp] theorem loseStatus_ctrl (s : State) : (loseStatus s).ctrl = s.ctrl := rfl
@[simp] theorem loseStatus_inLen (s : State) : (loseStatus s).inLen = s.inLen := rfl
@[simp] theorem loseStatus_outLen (s : State) : (loseStatus s).outLen = s.outLen := rfl
@[simp] theorem loseStatus_width (s : State) : (loseStatus s).width = s.width := rfl
@[simp] theorem loseStatus_height (s : State) : (loseStatus s).height = s.height := rfl
@[simp] theorem loseStatus_hasAlpha (s : State) : (loseStatus s).hasAlpha = s.hasAlpha := rfl
@[simp] theorem loseStatus_scrLen (s : State) : (loseStatus s).scrLen = s.scrLen := rfl
@[simp] theorem loseStatus_imgW (s : State) : (loseStatus s).imgW = s.imgW := rfl
@[simp] theorem loseStatus_imgH (s : State) : (loseStatus s).imgH = s.imgH := rfl
@[simp] theorem loseStatus_ti (s : State) : (loseStatus s).ti = s.ti := rfl
@[simp] theorem loseStatus_lzd (s : State) : (loseStatus s).lzd = s.lzd := rfl
@[simp] theorem loseStatus_etc (s : State) : (loseStatus s).etc = s.etc := rfl
@[simp] theorem loseStatus_tsa (s : State) : (loseStatus s).tsa = s.tsa := rfl
@[simp] theorem loseStatus_asm (s : State) : (loseStatus s).asm = s.asm := rfl
@[simp] theorem loseStatus_inBuf (s : State) : (loseStatus s).inBuf = s.inBuf := rfl
@[simp] theorem loseStatus_outBuf (s : State) : (loseStatus s).outBuf = s.outBuf := rfl
@[simp] theorem loseStatus_cblk (s : State) : (loseStatus s).cblk = s.cblk := rfl
@[simp] theorem loseStatus_ablk (s : State) : (loseStatus s).ablk = s.ablk := rfl
@[simp] theorem loseStatus_tileout (s : State) : (loseStatus s).tileout = s.tileout := rfl
@[simp] theorem loseStatus_img0 (s : State) : (loseStatus s).img0 = s.img0 := rfl
@[simp] theorem loseStatus_img1 (s : State) : (loseStatus s).img1 = s.img1 := rfl
@[simp] theorem loseStatus_scr (s : State) : (loseStatus s).scr = s.scr := rfl
@[simp] theorem loseStatus_seq (s : State) : (loseStatus s).seq = Seq.idle := rfl
@[simp] theorem loseStatus_host (s : State) : (loseStatus s).host = s.host := rfl
@[simp] theorem loseStatus_readData (s : State) : (loseStatus s).readData = s.readData := rfl
@[simp] theorem loseStatus_draws (s : State) : (loseStatus s).draws = s.draws + 1 := rfl
@[simp] theorem loseStatus_buf (s : State) (b : BufName) : (loseStatus s).buf b = s.buf b := by cases b <;> rfl
@[simp] theorem loseStatus_rd (s : State) (b : BufName) (a : Nat) : (loseStatus s).rd b a = s.rd b a := by
  cases b <;> rfl
@[simp] theorem loseStatus_capacity (s : State) (b : BufName) : (loseStatus s).capacity b = s.capacity b := by
  cases b <;> rfl
@[simp] theorem loseStatus_rdScr (s : State) (i : Nat) : (loseStatus s).rdScr i = s.rdScr i := rfl

/-! `loseHeader` -/

@[simp] theorem loseHeader_params (s : State) : (loseHeader s).params = s.params := rfl
@[simp] theorem loseHeader_cmd (s : State) : (loseHeader s).cmd = s.cmd := rfl
@[simp] theorem loseHeader_status (s : State) : (loseHeader s).status = s.status := rfl
@[simp] theorem loseHeader_errCode (s : State) : (loseHeader s).errCode = s.errCode := rfl
@[simp] theorem loseHeader_errInfo (s : State) : (loseHeader s).errInfo = s.errInfo := rfl
@[simp] theorem loseHeader_ctrl (s : State) : (loseHeader s).ctrl = s.ctrl := rfl
@[simp] theorem loseHeader_inLen (s : State) : (loseHeader s).inLen = s.inLen := rfl
@[simp] theorem loseHeader_outLen (s : State) : (loseHeader s).outLen = s.outLen := rfl
@[simp] theorem loseHeader_width (s : State) : (loseHeader s).width = s.width := rfl
@[simp] theorem loseHeader_height (s : State) : (loseHeader s).height = s.height := rfl
@[simp] theorem loseHeader_hasAlpha (s : State) : (loseHeader s).hasAlpha = s.hasAlpha := rfl
@[simp] theorem loseHeader_scrLen (s : State) : (loseHeader s).scrLen = s.scrLen := rfl
@[simp] theorem loseHeader_imgW (s : State) : (loseHeader s).imgW = s.imgW := rfl
@[simp] theorem loseHeader_imgH (s : State) : (loseHeader s).imgH = s.imgH := rfl
@[simp] theorem loseHeader_lzd (s : State) : (loseHeader s).lzd = s.lzd := rfl
@[simp] theorem loseHeader_etc (s : State) : (loseHeader s).etc = s.etc := rfl
@[simp] theorem loseHeader_tsa (s : State) : (loseHeader s).tsa = s.tsa := rfl
@[simp] theorem loseHeader_asm (s : State) : (loseHeader s).asm = s.asm := rfl
@[simp] theorem loseHeader_inBuf (s : State) : (loseHeader s).inBuf = s.inBuf := rfl
@[simp] theorem loseHeader_outBuf (s : State) : (loseHeader s).outBuf = s.outBuf := rfl
@[simp] theorem loseHeader_cblk (s : State) : (loseHeader s).cblk = s.cblk := rfl
@[simp] theorem loseHeader_ablk (s : State) : (loseHeader s).ablk = s.ablk := rfl
@[simp] theorem loseHeader_tileout (s : State) : (loseHeader s).tileout = s.tileout := rfl
@[simp] theorem loseHeader_img0 (s : State) : (loseHeader s).img0 = s.img0 := rfl
@[simp] theorem loseHeader_img1 (s : State) : (loseHeader s).img1 = s.img1 := rfl
@[simp] theorem loseHeader_scr (s : State) : (loseHeader s).scr = s.scr := rfl
@[simp] theorem loseHeader_seq (s : State) : (loseHeader s).seq = s.seq := rfl
@[simp] theorem loseHeader_host (s : State) : (loseHeader s).host = s.host := rfl
@[simp] theorem loseHeader_readData (s : State) : (loseHeader s).readData = s.readData := rfl
@[simp] theorem loseHeader_draws (s : State) : (loseHeader s).draws = s.draws + 1 := rfl
@[simp] theorem loseHeader_buf (s : State) (b : BufName) : (loseHeader s).buf b = s.buf b := by cases b <;> rfl
@[simp] theorem loseHeader_rd (s : State) (b : BufName) (a : Nat) : (loseHeader s).rd b a = s.rd b a := by
  cases b <;> rfl
@[simp] theorem loseHeader_capacity (s : State) (b : BufName) : (loseHeader s).capacity b = s.capacity b := by
  cases b <;> rfl
@[simp] theorem loseHeader_rdScr (s : State) (i : Nat) : (loseHeader s).rdScr i = s.rdScr i := rfl

end Sys2Proof.Machine
end

