-- ==== Sys2Proof/Laws/Memory.lean ====
section
/-! SUPPORT. What the buffer operations do: read after write, every other cell unchanged, and the canonical form kept. -/

namespace Sys2Proof.Machine

open Sys2Proof.Config (BufName)

/-! ### Cells -/

theorem cellAt_putCell {w : Nat} (l : List (Nat × BitVec w)) (a c : Nat) (v : BitVec w) :
    cellAt (putCell l a v) c = if c = a then some v else cellAt l c := by
  induction l with
  | nil => simp [putCell, cellAt]
  | cons p rest ih =>
    obtain ⟨b, x⟩ := p
    unfold putCell
    by_cases h1 : a < b
    · simp [h1, cellAt]
    · by_cases h2 : a = b
      · subst h2
        by_cases hc : c = a <;> simp [cellAt, hc]
      · simp only [h1, h2, if_false, cellAt, ih]
        by_cases hc : c = b <;> by_cases hca : c = a <;> simp_all

/-- Every cell of `putCell l a v` is the new one or a cell of `l`. -/
theorem mem_putCell {w : Nat} {l : List (Nat × BitVec w)} {a : Nat} {v : BitVec w} {p : Nat × BitVec w}
    (h : p ∈ putCell l a v) : p = (a, v) ∨ p ∈ l := by
  induction l with
  | nil => simpa [putCell] using h
  | cons q rest ih =>
    obtain ⟨b, x⟩ := q
    unfold putCell at h
    split at h
    · simpa using h
    · split at h
      · rcases List.mem_cons.1 h with h | h <;> simp [h]
      · rcases List.mem_cons.1 h with h | h
        · simp [h]
        · rcases ih h with h | h <;> simp [h]

theorem putCell_pairwise {w : Nat} {l : List (Nat × BitVec w)} (a : Nat) (v : BitVec w)
    (h : l.Pairwise fun p q => p.1 < q.1) : (putCell l a v).Pairwise fun p q => p.1 < q.1 := by
  induction l with
  | nil => simp [putCell]
  | cons q rest ih =>
    obtain ⟨b, x⟩ := q
    have hb := (List.pairwise_cons.1 h).1
    have hr := (List.pairwise_cons.1 h).2
    unfold putCell
    split
    · rename_i hab
      refine List.pairwise_cons.2 ⟨?_, h⟩
      intro p hp
      rcases List.mem_cons.1 hp with rfl | hp
      · exact hab
      · exact Nat.lt_trans hab (hb p hp)
    · split
      · rename_i hab
        subst hab
        exact List.pairwise_cons.2 ⟨hb, hr⟩
      · refine List.pairwise_cons.2 ⟨?_, ih hr⟩
        intro p hp
        rcases mem_putCell hp with rfl | hp
        · show b < a
          omega
        · exact hb p hp

/-! ### Memories -/

@[simp] theorem Memory.get?_blank {w : Nat} (gen a : Nat) : (Memory.blank w gen).get? a = none := rfl

theorem Memory.get?_set {w : Nat} (m : Memory w) (a c : Nat) (v : BitVec w) :
    (m.set a v).get? c = if c = a then some v else m.get? c := cellAt_putCell m.cells a c v

@[simp] theorem Memory.set_gen {w : Nat} (m : Memory w) (a : Nat) (v : BitVec w) : (m.set a v).gen = m.gen := rfl

theorem Memory.wf_set {w : Nat} {m : Memory w} (a : Nat) (v : BitVec w) (h : m.wf) : (m.set a v).wf :=
  putCell_pairwise a v h

theorem Memory.wf_blank (w gen : Nat) : (Memory.blank w gen).wf := List.Pairwise.nil

/-! ### Buffers of the state -/

theorem State.buf_setBuf (s : State) (b c : BufName) (m : Memory 8) :
    (s.setBuf b m).buf c = if c = b then m else s.buf c := by
  cases b <;> cases c <;> rfl

theorem State.buf_wr (s : State) (b c : BufName) (a : Nat) (v : Byte) :
    (s.wr b a v).buf c = if c = b then (s.buf b).set a v else s.buf c := State.buf_setBuf s b c _

theorem State.buf_forget (s : State) (b c : BufName) :
    (s.forget b).buf c = if c = b then Memory.blank 8 s.draws else s.buf c := by
  cases b <;> cases c <;> rfl

/-- Reading one byte after a write (R74). -/
theorem State.rd_wr (s : State) (b c : BufName) (a d : Nat) (v : Byte) :
    (s.wr b a v).rd c d = if c = b ∧ d = a then v else s.rd c d := by
  unfold State.rd
  rw [State.buf_wr]
  by_cases hc : c = b
  · subst hc
    by_cases hd : d = a <;> simp [Memory.get?_set, hd]
  · simp [hc]

@[simp] theorem State.rd_wr_same (s : State) (b : BufName) (a : Nat) (v : Byte) : (s.wr b a v).rd b a = v := by
  simp [State.rd_wr]

theorem State.rd_wr_other (s : State) {b c : BufName} {a d : Nat} (v : Byte) (h : c ≠ b ∨ d ≠ a) :
    (s.wr b a v).rd c d = s.rd c d := by
  rw [State.rd_wr, if_neg]
  tauto

/-- Reading one byte after a run of writes. -/
theorem State.rd_fill (b c : BufName) (a d : Nat) (f : Nat → Byte) (n : Nat) (s : State) :
    (State.fill b a f n s).rd c d = if c = b ∧ a ≤ d ∧ d < a + n then f (d - a) else s.rd c d := by
  induction n with
  | zero =>
    rw [if_neg (by omega)]
    rfl
  | succ n ih =>
    rw [State.fill, State.rd_wr, ih]
    by_cases hc : c = b
    · by_cases hd : d = a + n
      · subst hd
        simp [hc]
      · have e1 : (a ≤ d ∧ d < a + n) ↔ (a ≤ d ∧ d < a + (n + 1)) := by omega
        simp [hc, hd, e1]
    · simp [hc]

theorem State.rd_fill_other (b c : BufName) (a d : Nat) (f : Nat → Byte) (n : Nat) (s : State)
    (h : c ≠ b ∨ d < a ∨ a + n ≤ d) : (State.fill b a f n s).rd c d = s.rd c d := by
  rw [State.rd_fill, if_neg]
  rcases h with h | h | h
  · exact fun k => h k.1
  · exact fun k => absurd h (by omega)
  · exact fun k => absurd h (by omega)

theorem State.rd_forget_other (s : State) {b c : BufName} (a : Nat) (h : c ≠ b) :
    (s.forget b).rd c a = s.rd c a := by
  unfold State.rd
  rw [State.buf_forget, if_neg h]

/-- Reading one entry of SCR after an assignment. -/
theorem State.rdScr_wrScr (s : State) (i j : Nat) (v : Word) :
    (s.wrScr i v).rdScr j = if j = i then v else s.rdScr j := by
  unfold State.rdScr State.wrScr
  by_cases h : j = i <;> simp [Memory.get?_set, h]

/-! ### A run of writes changes one buffer only -/

theorem State.setBuf_buf (s : State) (b : BufName) : s.setBuf b (s.buf b) = s := by cases b <;> rfl

theorem State.setBuf_setBuf (s : State) (b : BufName) (m m' : Memory 8) : (s.setBuf b m).setBuf b m' = s.setBuf b m' := by
  cases b <;> rfl

theorem State.fill_eq (b : BufName) (a : Nat) (f : Nat → Byte) (n : Nat) (s : State) :
    ∃ m, State.fill b a f n s = s.setBuf b m := by
  induction n with
  | zero => exact ⟨s.buf b, (s.setBuf_buf b).symm⟩
  | succ n ih =>
    obtain ⟨m, h⟩ := ih
    exact ⟨((s.setBuf b m).buf b).set (a + n) (f n), by rw [State.fill, h, State.wr, State.setBuf_setBuf]⟩

/-! ### The canonical form is kept by every buffer operation -/

theorem wf_setBuf {s : State} {b : BufName} {m : Memory 8} (hm : m.wf) (h : ∀ c, (s.buf c).wf) (c : BufName) :
    ((s.setBuf b m).buf c).wf := by
  rw [State.buf_setBuf]
  split
  · exact hm
  · exact h c

theorem wf_wr {s : State} (b : BufName) (a : Nat) (v : Byte) (h : ∀ c, (s.buf c).wf) (c : BufName) :
    ((s.wr b a v).buf c).wf := wf_setBuf (Memory.wf_set a v (h b)) h c

theorem wf_fill (b : BufName) (a : Nat) (f : Nat → Byte) (n : Nat) {s : State} (h : ∀ c, (s.buf c).wf) :
    ∀ c, ((State.fill b a f n s).buf c).wf := by
  induction n with
  | zero => exact h
  | succ n ih => exact wf_wr b (a + n) (f n) ih

theorem wf_forget {s : State} (b : BufName) (h : ∀ c, (s.buf c).wf) (c : BufName) : ((s.forget b).buf c).wf := by
  rw [State.buf_forget]
  split
  · exact Memory.wf_blank 8 _
  · exact h c

theorem wf_wrScr {s : State} (i : Nat) (v : Word) (h : s.scr.wf) : (s.wrScr i v).scr.wf := Memory.wf_set i v h

theorem wf_reset : Safety.memoryCanonical State.reset :=
  ⟨fun b => by cases b <;> exact List.Pairwise.nil, List.Pairwise.nil⟩

/-! ### Cells stay inside a bound -/

theorem bound_set {w : Nat} {m : Memory w} {a k : Nat} (v : BitVec w) (ha : a < k) (h : ∀ p ∈ m.cells, p.1 < k) :
    ∀ p ∈ (m.set a v).cells, p.1 < k := by
  intro p hp
  rcases mem_putCell hp with rfl | hp
  · exact ha
  · exact h p hp

theorem bound_blank {w gen : Nat} (k : Nat) : ∀ p ∈ (Memory.blank w gen).cells, p.1 < k := by
  intro p hp
  cases hp

theorem inBounds_wr {s : State} {b : BufName} {a : Nat} (v : Byte) (ha : a < s.capacity b)
    (h : Safety.cellsInBounds s) : Safety.cellsInBounds (s.wr b a v) := by
  refine ⟨fun c => ?_, by simpa using h.2⟩
  rw [State.buf_wr, State.wr_capacity]
  split
  · rename_i hc
    subst hc
    exact bound_set v ha (h.1 c)
  · exact h.1 c

theorem inBounds_fill {b : BufName} {a n : Nat} (f : Nat → Byte) {s : State} (ha : a + n ≤ s.capacity b)
    (h : Safety.cellsInBounds s) : Safety.cellsInBounds (State.fill b a f n s) := by
  induction n with
  | zero => exact h
  | succ n ih =>
    refine inBounds_wr _ ?_ (ih (by omega))
    rw [State.fill_capacity]
    omega

theorem inBounds_forget {s : State} (b : BufName) (h : Safety.cellsInBounds s) : Safety.cellsInBounds (s.forget b) := by
  refine ⟨fun c => ?_, by simpa using h.2⟩
  rw [State.buf_forget, State.forget_capacity]
  split
  · exact bound_blank _
  · exact h.1 c

theorem inBounds_wrScr {s : State} {i : Nat} (v : Word) (hi : i < s.params.scrCap) (h : Safety.cellsInBounds s) :
    Safety.cellsInBounds (s.wrScr i v) :=
  ⟨fun b => by simpa using h.1 b, bound_set v hi h.2⟩

end Sys2Proof.Machine
end

