-- ==== Sys2Proof/Laws/Ops.lean ====
section
/-! SUPPORT. What the shared operations over a command can do: the flow of a command, taking a fault, launch,
completion. -/

namespace Sys2Proof.Machine

/-! ### The flow of a command -/

@[simp] theorem Flow.go_andThen (s : State) (f : State → Flow) : (Flow.go s).andThen f = f s := rfl
@[simp] theorem Flow.ended_andThen (s : State) (f : State → Flow) : (Flow.ended s).andThen f = .ended s := rfl
@[simp] theorem Flow.go_state (s : State) : (Flow.go s).state = s := rfl
@[simp] theorem Flow.ended_state (s : State) : (Flow.ended s).state = s := rfl
@[simp] theorem Flow.times_zero (f : State → Flow) (s : State) : Flow.times f 0 s = .go s := rfl
@[simp] theorem finish_go (s : State) : finish (.go s) = complete s := rfl
@[simp] theorem finish_ended (s : State) : finish (.ended s) = s := rfl

theorem Flow.times_succ (f : State → Flow) (n : Nat) (s : State) :
    Flow.times f (n + 1) s = (f s).andThen (Flow.times f n) := rfl

theorem Flow.andThen_assoc (x : Flow) (f g : State → Flow) :
    (x.andThen f).andThen g = x.andThen fun s => (f s).andThen g := by cases x <;> rfl

/-- What two operations in a row can do: the first ends the command, or both run. -/
theorem Flow.andThen_cases (x : Flow) (f : State → Flow) :
    (∃ s, x = .ended s ∧ x.andThen f = .ended s) ∨ (∃ s, x = .go s ∧ x.andThen f = f s) := by
  cases x with
  | go s => exact .inr ⟨s, rfl, rfl⟩
  | ended s => exact .inl ⟨s, rfl, rfl⟩

/-- Both the states a flow goes on from and those it ends in satisfy `P`. -/
def Flow.both (P : State → Prop) (x : Flow) : Prop := P x.state

@[simp] theorem Flow.both_go (P : State → Prop) (s : State) : (Flow.go s).both P ↔ P s := Iff.rfl
@[simp] theorem Flow.both_ended (P : State → Prop) (s : State) : (Flow.ended s).both P ↔ P s := Iff.rfl

theorem Flow.both_andThen {P : State → Prop} {x : Flow} {f : State → Flow} (hx : x.both P)
    (hf : ∀ s, x = .go s → P s → (f s).both P) : (x.andThen f).both P := by
  cases x with
  | go s => exact hf s rfl hx
  | ended s => exact hx

theorem Flow.both_times {P : State → Prop} {f : State → Flow} (hf : ∀ s, P s → (f s).both P) :
    ∀ (n : Nat) (s : State), P s → (Flow.times f n s).both P
  | 0, _, h => h
  | n + 1, s, h => Flow.both_andThen (hf s h) fun t _ ht => Flow.both_times hf n t ht

theorem both_finish {P : State → Prop} {x : Flow} (hx : x.both P) (hc : ∀ s, P s → P (complete s)) : P (finish x) := by
  cases x with
  | go s => exact hc s hx
  | ended s => exact hx

/-- An iterated operation keeps what one application keeps. -/
theorem iterate_keeps {P : State → Prop} {f : State → State} (hf : ∀ s, P s → P (f s)) :
    ∀ (n : Nat) (s : State), P s → P (f^[n] s)
  | 0, _, h => h
  | n + 1, s, h => by
    rw [Function.iterate_succ_apply]
    exact iterate_keeps hf n (f s) (hf s h)

/-- A folded operation keeps what one application keeps. -/
theorem foldl_keeps {α : Type} {P : State → Prop} {f : State → α → State} (hf : ∀ s x, P s → P (f s x)) :
    ∀ (l : List α) (s : State), P s → P (l.foldl f s)
  | [], _, h => h
  | x :: l, s, h => by
    rw [List.foldl_cons]
    exact foldl_keeps hf l (f s x) (hf s x h)

/-! ### Launch -/

theorem runsHeader_iff (c : Byte) : runsHeader c = true ↔ c = 2#8 ∨ c = 6#8 := by simp [runsHeader]

theorem readsIn_iff (c : Byte) : readsIn c = true ↔ c = 1#8 ∨ c = 5#8 ∨ c = 6#8 ∨ c = 7#8 := by
  simp [readsIn, or_assoc]

theorem isReserved_iff (c : Byte) : isReserved c = true ↔ c = 0#8 ∨ 8 ≤ c.toNat := by simp [isReserved]

/-- The clears of a launch of `c` (R250). -/
def launchClears (c : Byte) (s : State) : State :=
  if runsHeader c then clearValid (acknowledge c s) else acknowledge c s

/-- A launch makes its clears, and then ends the command at once or goes on (R250). -/
theorem launch_cases (c : Byte) (s : State) :
    (∃ e n, launch c s = .ended (raise e n (launchClears c s))) ∨
    (launch c s = .go (launchClears c s) ∧ isReserved c = false) := by
  unfold launch stop launchClears
  cases hr : isReserved c
  · cases runsHeader c <;> simp only [if_false, if_true, Bool.false_eq_true] <;> (repeat' split) <;>
      first
      | exact .inl ⟨_, _, rfl⟩
      | exact .inr ⟨rfl, trivial⟩
  · have hh : runsHeader c = false := by
      rw [isReserved_iff] at hr
      rw [← Bool.not_eq_true, runsHeader_iff]
      rintro (rfl | rfl) <;> simp at hr
    simp only [if_true, hh, if_false, Bool.false_eq_true]
    exact .inl ⟨_, _, rfl⟩

/-- A launch of a command that neither runs HDR nor reads IN only makes the clears. -/
theorem launch_plain {c : Byte} (s : State) (hr : isReserved c = false) (hh : runsHeader c = false)
    (hi : readsIn c = false) : launch c s = .go (acknowledge c s) := by
  have h2 : c ≠ 2#8 := by
    rintro rfl
    simp [runsHeader] at hh
  simp [launch, hr, hh, hi, h2]

/-- A launch of a command that reads IN and does not run HDR. -/
theorem launch_reading {c : Byte} (s : State) (hr : isReserved c = false) (hh : runsHeader c = false)
    (hi : readsIn c = true) :
    launch c s = if s.params.inCap.toNat < s.inLen.toNat then stop .capacity 0 (acknowledge c s)
      else .go (acknowledge c s) := by
  have h2 : c ≠ 2#8 := by
    rintro rfl
    simp [runsHeader] at hh
  simp [launch, hr, hh, hi, h2]

/-- A command written to an idle block. -/
theorem command_idle {c : Byte} {body : State → Flow} {s : State} (h : s.status.busy = false) :
    command c body s = finish ((launch c s).andThen body) := by
  simp [command, h]

/-- A command written to a running block is dropped (R259). -/
theorem command_busy {c : Byte} {body : State → Flow} {s : State} (h : s.status.busy = true) :
    command c body s = s := by
  simp [command, h]

end Sys2Proof.Machine
end

