-- ==== Sys2Proof/Laws/Etc.lean ====
section
/-! SUPPORT. What ETC's operations do: one pixel, a whole tile, the alpha block, one block. -/

namespace Sys2Proof.Machine

open Sys2Proof.Config (BufName)

/-! ### Places in the tile -/

theorem pixelOffset_lt (x y : BitVec 2) : pixelOffset x y + 3 < 64 := by
  have := x.isLt
  have := y.isLt
  unfold pixelOffset
  omega

/-- Two pixels share no byte (R183). -/
theorem pixelOffset_inj {x y x' y' : BitVec 2} {c c' : Nat} (hc : c < 4) (hc' : c' < 4)
    (h : pixelOffset x y + c = pixelOffset x' y' + c') : x = x' ∧ y = y' ∧ c = c' := by
  have h1 := x.isLt
  have h2 := y.isLt
  have h3 := x'.isLt
  have h4 := y'.isLt
  unfold pixelOffset at h
  refine ⟨BitVec.toNat_inj.1 ?_, BitVec.toNat_inj.1 ?_, ?_⟩ <;> omega

/-- Every byte of the tile belongs to a pixel. -/
theorem exists_pixelOffset {a : Nat} (h : a < 64) : ∃ x y : BitVec 2, ∃ c < 4, a = pixelOffset x y + c := by
  refine ⟨BitVec.ofNat 2 (a / 4 % 4), BitVec.ofNat 2 (a / 16), a % 4, by omega, ?_⟩
  unfold pixelOffset
  simp only [BitVec.toNat_ofNat]
  omega

theorem mem_scanOrder (x y : BitVec 2) : (x, y) ∈ scanOrder := by
  revert x y
  decide

/-! ### One pixel -/

/-- Byte `c` of pixel `(x, y)` (R181 to R183). -/
def pixelValue (s : State) (flip : Bool) (p q : SubBlock) (x y : BitVec 2) (c : Nat) : Byte :=
  if c = 0 then modulate (chosen flip p q x y).r (pixelDelta s flip p q x y)
  else if c = 1 then modulate (chosen flip p q x y).g (pixelDelta s flip p q x y)
  else if c = 2 then modulate (chosen flip p q x y).b (pixelDelta s flip p q x y)
  else pixelAlpha s (pixelIndex x y)

/-- What a pixel is computed from: the selector word, `has_alpha` and ABLK. -/
structure SamePixelInputs (s t : State) : Prop where
  bottom : t.etc.bottom = s.etc.bottom
  hasAlpha : t.etc.hasAlpha = s.etc.hasAlpha
  ablk : t.ablk = s.ablk

theorem SamePixelInputs.trans {s t u : State} (h : SamePixelInputs s t) (h' : SamePixelInputs t u) :
    SamePixelInputs s u :=
  ⟨h'.bottom.trans h.bottom, h'.hasAlpha.trans h.hasAlpha, h'.ablk.trans h.ablk⟩

theorem SamePixelInputs.rd {s t : State} (h : SamePixelInputs s t) (a : Nat) : t.rd .ABLK a = s.rd .ABLK a := by
  simp only [State.rd, State.buf, h.ablk]

theorem SamePixelInputs.value {s t : State} (h : SamePixelInputs s t) (flip : Bool) (p q : SubBlock) (x y : BitVec 2)
    (c : Nat) : pixelValue t flip p q x y c = pixelValue s flip p q x y c := by
  simp only [pixelValue, pixelDelta, pixelAlpha, h.bottom, h.hasAlpha, h.rd]

/-- `t` is `s` but for TILEOUT and ETC's registers, of which `bottom` and `has_alpha` are kept. -/
def TileOnly (s t : State) : Prop :=
  ∃ m e, t = { s with tileout := m, etc := e } ∧ e.bottom = s.etc.bottom ∧ e.hasAlpha = s.etc.hasAlpha

theorem TileOnly.refl (s : State) : TileOnly s s := ⟨s.tileout, s.etc, rfl, rfl, rfl⟩

theorem TileOnly.trans {s t u : State} (h : TileOnly s t) (h' : TileOnly t u) : TileOnly s u := by
  obtain ⟨m, e, rfl, hb, ha⟩ := h
  obtain ⟨m', e', rfl, hb', ha'⟩ := h'
  exact ⟨m', e', rfl, hb'.trans hb, ha'.trans ha⟩

theorem TileOnly.foldl {f : State → BitVec 2 × BitVec 2 → State} (hf : ∀ s xy, TileOnly s (f s xy))
    (l : List (BitVec 2 × BitVec 2)) (s : State) : TileOnly s (l.foldl f s) := by
  induction l generalizing s with
  | nil => exact .refl s
  | cons xy l ih => exact (hf s xy).trans (ih _)

theorem TileOnly.inputs {s t : State} (h : TileOnly s t) : SamePixelInputs s t := by
  obtain ⟨m, e, rfl, hb, ha⟩ := h
  exact ⟨hb, ha, rfl⟩

/-- A pixel step writes TILEOUT and the per-pixel registers, and nothing else. -/
theorem decodePixel_only (flip : Bool) (p q : SubBlock) (s : State) (xy : BitVec 2 × BitVec 2) :
    TileOnly s (decodePixel flip p q s xy) := ⟨_, _, rfl, rfl, rfl⟩

theorem decodePixel_rd (flip : Bool) (p q : SubBlock) (s : State) (xy : BitVec 2 × BitVec 2) (d : BufName) (a : Nat) :
    (decodePixel flip p q s xy).rd d a =
      if d = .TILEOUT ∧ pixelOffset xy.1 xy.2 ≤ a ∧ a < pixelOffset xy.1 xy.2 + 4
      then pixelValue s flip p q xy.1 xy.2 (a - pixelOffset xy.1 xy.2) else s.rd d a := by
  have h0 : (latchPixel s flip p q xy.1 xy.2).rd d a = s.rd d a := by cases d <;> rfl
  unfold decodePixel putPixel
  simp only [State.rd_wr, h0]
  by_cases hd : d = .TILEOUT
  · generalize pixelOffset xy.1 xy.2 = o
    by_cases h3 : a = o + 3
    · subst h3
      simp [hd, pixelValue]
    · by_cases h2 : a = o + 2
      · subst h2
        simp [hd, pixelValue]
      · by_cases h1 : a = o + 1
        · subst h1
          simp [hd, pixelValue]
        · by_cases h4 : a = o
          · subst h4
            simp [hd, pixelValue]
          · have : ¬(o ≤ a ∧ a < o + 4) := by omega
            simp [hd, h1, h2, h3, h4, this]
  · simp [hd]

/-! ### A tile -/

theorem foldl_decodePixel_rd (flip : Bool) (p q : SubBlock) (l : List (BitVec 2 × BitVec 2)) (s t : State)
    (hst : SamePixelInputs s t) :
    (∀ x y, (x, y) ∈ l → ∀ c < 4,
      (l.foldl (decodePixel flip p q) t).rd .TILEOUT (pixelOffset x y + c) = pixelValue s flip p q x y c) ∧
    (∀ d a, (d ≠ .TILEOUT ∨ ∀ x y, (x, y) ∈ l → ∀ c < 4, a ≠ pixelOffset x y + c) →
      (l.foldl (decodePixel flip p q) t).rd d a = t.rd d a) := by
  induction l generalizing t with
  | nil => exact ⟨fun x y h => absurd h (by simp), fun _ _ _ => rfl⟩
  | cons xy l ih =>
    have hst' : SamePixelInputs s (decodePixel flip p q t xy) :=
      hst.trans (decodePixel_only flip p q t xy).inputs
    obtain ⟨h1, h2⟩ := ih _ hst'
    refine ⟨fun x y hm c hc => ?_, fun d a h => ?_⟩
    · by_cases hl : (x, y) ∈ l
      · rw [List.foldl_cons]
        exact h1 x y hl c hc
      · have hxy : xy = (x, y) := by
          rcases List.mem_cons.1 hm with h | h
          · exact h.symm
          · exact absurd h hl
        subst hxy
        rw [List.foldl_cons, h2, decodePixel_rd, if_pos ⟨rfl, by simp, by simpa using hc⟩, hst.value]
        · simp
        · refine .inr fun x' y' h' c' hc' e => hl ?_
          obtain ⟨rfl, rfl, _⟩ := pixelOffset_inj hc hc' e
          exact h'
    · rw [List.foldl_cons, h2, decodePixel_rd, if_neg]
      · rintro ⟨hd, ha, hb⟩
        rcases h with h | h
        · exact h hd
        · exact h xy.1 xy.2 (by simp) (a - pixelOffset xy.1 xy.2) (by omega) (by omega)
      · exact h.imp_right fun h x y hm => h x y (List.mem_cons_of_mem _ hm)

/-- The whole tile: every byte of TILEOUT is its pixel's, and no other byte changes (R183). -/
theorem decodePixels_rd (flip : Bool) (p q : SubBlock) (s : State) :
    (∀ x y, ∀ c < 4, (decodePixels flip p q s).rd .TILEOUT (pixelOffset x y + c) = pixelValue s flip p q x y c) ∧
    (∀ d a, d ≠ .TILEOUT ∨ 64 ≤ a → (decodePixels flip p q s).rd d a = s.rd d a) := by
  obtain ⟨h1, h2⟩ := foldl_decodePixel_rd flip p q scanOrder s s ⟨rfl, rfl, rfl⟩
  refine ⟨fun x y c hc => h1 x y (mem_scanOrder x y) c hc, fun d a h => h2 d a ?_⟩
  refine h.imp_right fun h x y _ c hc e => ?_
  have := pixelOffset_lt x y
  omega

/-- A tile is decoded into TILEOUT and the per-pixel registers only. -/
theorem decodePixels_only (flip : Bool) (p q : SubBlock) (s : State) : TileOnly s (decodePixels flip p q s) :=
  TileOnly.foldl (decodePixel_only flip p q) scanOrder s

/-! ### The alpha block -/

theorem alphaPixel_only (a : BitVec 64) (s : State) (xy : BitVec 2 × BitVec 2) : TileOnly s (alphaPixel a s xy) :=
  ⟨_, _, rfl, rfl, rfl⟩

theorem alphaPixel_rd (a : BitVec 64) (s : State) (xy : BitVec 2 × BitVec 2) (d : BufName) (i : Nat) :
    (alphaPixel a s xy).rd d i = if d = .TILEOUT ∧ i = pixelOffset xy.1 xy.2 + 3
      then expAlpha (alphaNibble a (pixelIndex xy.1 xy.2)) else s.rd d i := by
  unfold alphaPixel
  rw [State.rd_wr]
  cases d <;> rfl

theorem foldl_alphaPixel_rd (a : BitVec 64) (l : List (BitVec 2 × BitVec 2)) (s : State) :
    (∀ x y, (x, y) ∈ l →
      (l.foldl (alphaPixel a) s).rd .TILEOUT (pixelOffset x y + 3) = expAlpha (alphaNibble a (pixelIndex x y))) ∧
    (∀ d i, (d ≠ .TILEOUT ∨ ∀ x y, (x, y) ∈ l → i ≠ pixelOffset x y + 3) →
      (l.foldl (alphaPixel a) s).rd d i = s.rd d i) := by
  induction l generalizing s with
  | nil => exact ⟨fun x y h => absurd h (by simp), fun _ _ _ => rfl⟩
  | cons xy l ih =>
    obtain ⟨h1, h2⟩ := ih (alphaPixel a s xy)
    refine ⟨fun x y hm => ?_, fun d i h => ?_⟩
    · by_cases hl : (x, y) ∈ l
      · rw [List.foldl_cons]
        exact h1 x y hl
      · have hxy : xy = (x, y) := by
          rcases List.mem_cons.1 hm with h | h
          · exact h.symm
          · exact absurd h hl
        subst hxy
        rw [List.foldl_cons, h2, alphaPixel_rd, if_pos ⟨rfl, rfl⟩]
        refine .inr fun x' y' h' e => hl ?_
        obtain ⟨rfl, rfl, _⟩ := pixelOffset_inj (by omega) (by omega) e
        exact h'
    · rw [List.foldl_cons, h2, alphaPixel_rd, if_neg]
      · rintro ⟨hd, hi⟩
        rcases h with h | h
        · exact h hd
        · exact h xy.1 xy.2 (by simp) hi
      · exact h.imp_right fun h x y hm => h x y (List.mem_cons_of_mem _ hm)

/-- The alpha block: byte 3 of every pixel, and no other byte (R188). -/
theorem decodeAlpha_rd (a : BitVec 64) (s : State) :
    (∀ x y, (decodeAlpha a s).rd .TILEOUT (pixelOffset x y + 3) = expAlpha (alphaNibble a (pixelIndex x y))) ∧
    (∀ d i, d ≠ .TILEOUT ∨ 64 ≤ i ∨ i % 4 ≠ 3 → (decodeAlpha a s).rd d i = s.rd d i) := by
  obtain ⟨h1, h2⟩ := foldl_alphaPixel_rd a scanOrder s
  refine ⟨fun x y => h1 x y (mem_scanOrder x y), fun d i h => h2 d i (h.imp_right fun h x y _ e => ?_)⟩
  have := pixelOffset_lt x y
  unfold pixelOffset at *
  omega

theorem decodeAlpha_only (a : BitVec 64) (s : State) : TileOnly s (decodeAlpha a s) :=
  TileOnly.foldl (alphaPixel_only a) scanOrder s

/-! ### A block -/

/-- The alpha half is always decoded (R105). -/
theorem runBlock_alpha (s : State) :
    runBlock .alpha (alphaBytes s) s = decodeAlpha
      (le32 (s.rd .ABLK 4) (s.rd .ABLK 5) (s.rd .ABLK 6) (s.rd .ABLK 7) ++
        le32 (s.rd .ABLK 0) (s.rd .ABLK 1) (s.rd .ABLK 2) (s.rd .ABLK 3)) s := rfl

/-- The colour half is always decoded (R105). -/
theorem runBlock_colour (s : State) :
    runBlock .colour (colourBytes s) s = blockOp (colourInstr
      (le32 (s.rd .CBLK 0) (s.rd .CBLK 1) (s.rd .CBLK 2) (s.rd .CBLK 3))
      (le32 (s.rd .CBLK 4) (s.rd .CBLK 5) (s.rd .CBLK 6) (s.rd .CBLK 7))) s := rfl

/-- An individual-mode block changes TILEOUT and ETC's registers only (R184, R185). -/
theorem decodeInd_eq (flip : Bool) (f : IndFields) (s : State) :
    ∃ m e, decodeInd flip f s = { s with tileout := m, etc := e } ∧ e.hasAlpha = s.etc.hasAlpha := by
  obtain ⟨m, e, h, _, ha⟩ := decodePixels_only flip (indFirst f) (indSecond f)
    (latchBlock (indTop flip f) f.bottom flip false (indFirst f) (indSecond f) s)
  exact ⟨m, e, h, ha⟩

/-- A differential-mode block changes DIFF_OVF as well (R186, R187). -/
theorem decodeDif_eq (flip : Bool) (f : DifFields) (s : State) :
    ∃ m e, decodeDif flip f s =
      { s with tileout := m, etc := e, status := s.status.withDiffOvf (diffOverflow f) } ∧
      e.hasAlpha = s.etc.hasAlpha := by
  obtain ⟨m, e, h, _, ha⟩ := decodePixels_only flip (difFirst f) (difSecond f)
    (latchBlock (difTop flip f) f.bottom flip true (difFirst f) (difSecond f) (flagOverflow f s))
  exact ⟨m, e, h, ha⟩

/-- `t` is `s` but for TILEOUT, ETC's registers and DIFF_OVF; `has_alpha` is kept (R170). -/
def BlockOnly (s t : State) : Prop :=
  ∃ m e v, t = { s with tileout := m, etc := e, status := { s.status with diffOvf := v } } ∧
    e.hasAlpha = s.etc.hasAlpha

theorem BlockOnly.refl (s : State) : BlockOnly s s := ⟨s.tileout, s.etc, s.status.diffOvf, rfl, rfl⟩

theorem BlockOnly.trans {s t u : State} (h : BlockOnly s t) (h' : BlockOnly t u) : BlockOnly s u := by
  obtain ⟨m, e, v, rfl, ha⟩ := h
  obtain ⟨m', e', v', rfl, ha'⟩ := h'
  exact ⟨m', e', v', rfl, ha'.trans ha⟩

/-- A block operation changes TILEOUT, ETC's registers and DIFF_OVF only, and never `has_alpha`. -/
theorem blockOp_only (i : Instr) (s : State) : BlockOnly s (blockOp i s) := by
  cases i
  case etcIndNf f =>
    obtain ⟨m, e, h, ha⟩ := decodeInd_eq false f s
    exact ⟨m, e, s.status.diffOvf, h, ha⟩
  case etcIndFl f =>
    obtain ⟨m, e, h, ha⟩ := decodeInd_eq true f s
    exact ⟨m, e, s.status.diffOvf, h, ha⟩
  case etcDifNf f =>
    obtain ⟨m, e, h, ha⟩ := decodeDif_eq false f s
    exact ⟨m, e, _, h, ha⟩
  case etcDifFl f =>
    obtain ⟨m, e, h, ha⟩ := decodeDif_eq true f s
    exact ⟨m, e, _, h, ha⟩
  case etcA4 a =>
    obtain ⟨m, e, h, _, ha⟩ := decodeAlpha_only a s
    exact ⟨m, e, s.status.diffOvf, h, ha⟩
  all_goals exact .refl s

/-- ETC changes TILEOUT, its own registers and DIFF_OVF only (R170). -/
theorem etcRun_only (s : State) : BlockOnly s (etcRun s) := by
  unfold etcRun
  cases s.etc.hasAlpha
  · exact blockOp_only _ s
  · exact (blockOp_only (.etcA4 _) s).trans (blockOp_only _ _)

end Sys2Proof.Machine
end

