-- ==== Sys2Proof/Laws/Tsa.lean ====
section
/-! SUPPORT. What TSA's operations do: one position, a run of positions, the start of a build. -/

namespace Sys2Proof.Machine

open Sys2Proof.Config (BufName)

/-- TSA's registers after one position (R212). -/
def tsaNext (g : TsaRegs) : TsaRegs := nextPosition (baseStep (newRow g))

/-- The new-row action changes counters and toggle only (R213). -/
theorem newRow_kept (g : TsaRegs) :
    (newRow g).t = g.t ∧ (newRow g).tilesX = g.tilesX ∧ (newRow g).tilesY = g.tilesY ∧
      (newRow g).baseToggle = g.baseToggle := by
  unfold newRow
  split
  · split <;> exact ⟨rfl, rfl, rfl, rfl⟩
  · exact ⟨rfl, rfl, rfl, rfl⟩

/-- The base step changes the base counter and its toggle only (R215). -/
theorem baseStep_kept (g : TsaRegs) :
    (baseStep g).t = g.t ∧ (baseStep g).tilesX = g.tilesX ∧ (baseStep g).tilesY = g.tilesY ∧
      (baseStep g).rowToggle = g.rowToggle ∧ (baseStep g).rowNumber = g.rowNumber := by
  unfold baseStep
  split <;> exact ⟨rfl, rfl, rfl, rfl, rfl⟩

theorem tsaNext_kept (g : TsaRegs) :
    (tsaNext g).t = g.t + 1#32 ∧ (tsaNext g).tilesX = g.tilesX ∧ (tsaNext g).tilesY = g.tilesY := by
  obtain ⟨h1, h2, h3, _⟩ := newRow_kept g
  obtain ⟨h4, h5, h6, _⟩ := baseStep_kept (newRow g)
  refine ⟨?_, h5.trans h2, h6.trans h3⟩
  show (baseStep (newRow g)).t + 1#32 = _
  rw [h4, h1]

/-- One position writes one entry of SCR and TSA's registers (R212 to R215). -/
theorem tsaStep_eq (s : State) :
    tsaStep s = { s with scr := s.scr.set s.tsa.t.toNat (newRow s.tsa).baseNumber, tsa := tsaNext s.tsa } := by
  simp only [tsaStep, (newRow_kept s.tsa).1]
  rfl

theorem tsaStep_rdScr (s : State) (j : Nat) :
    (tsaStep s).rdScr j = if j = s.tsa.t.toNat then (newRow s.tsa).baseNumber else s.rdScr j := by
  rw [tsaStep_eq, ← State.rdScr_wrScr]
  rfl

theorem tsaNext_iterate_kept (n : Nat) (g : TsaRegs) :
    (tsaNext^[n] g).t = g.t + BitVec.ofNat 32 n ∧ (tsaNext^[n] g).tilesX = g.tilesX ∧
      (tsaNext^[n] g).tilesY = g.tilesY := by
  induction n with
  | zero => simp
  | succ n ih =>
    obtain ⟨h1, h2, h3⟩ := tsaNext_kept (tsaNext^[n] g)
    rw [Function.iterate_succ_apply']
    refine ⟨?_, h2.trans ih.2.1, h3.trans ih.2.2⟩
    rw [h1, ih.1, BitVec.add_assoc]
    congr 1
    rw [← BitVec.toNat_inj]
    simp

/-- A run of positions changes SCR and TSA's registers only. -/
theorem tsaStep_iterate_eq (n : Nat) (s : State) :
    ∃ m, tsaStep^[n] s = { s with scr := m, tsa := tsaNext^[n] s.tsa } := by
  induction n with
  | zero => exact ⟨s.scr, rfl⟩
  | succ n ih =>
    obtain ⟨m, h⟩ := ih
    refine ⟨m.set (tsaNext^[n] s.tsa).t.toNat (newRow (tsaNext^[n] s.tsa)).baseNumber, ?_⟩
    rw [Function.iterate_succ_apply', Function.iterate_succ_apply', h, tsaStep_eq]

/-- The entries a run of positions writes, and those it does not (R214). -/
theorem tsaStep_iterate_rdScr (n : Nat) (s : State) (h : s.tsa.t.toNat + n ≤ 2 ^ 32) (j : Nat) :
    (tsaStep^[n] s).rdScr j =
      if s.tsa.t.toNat ≤ j ∧ j < s.tsa.t.toNat + n
      then (newRow (tsaNext^[j - s.tsa.t.toNat] s.tsa)).baseNumber else s.rdScr j := by
  induction n with
  | zero =>
    rw [if_neg (by omega)]
    rfl
  | succ n ih =>
    obtain ⟨m, hm⟩ := tsaStep_iterate_eq n s
    have ht : (tsaStep^[n] s).tsa = tsaNext^[n] s.tsa := by rw [hm]
    have htn : (tsaNext^[n] s.tsa).t.toNat = s.tsa.t.toNat + n := by
      rw [(tsaNext_iterate_kept n s.tsa).1]
      simp only [BitVec.toNat_add, BitVec.toNat_ofNat]
      omega
    rw [Function.iterate_succ_apply', tsaStep_rdScr, ht, htn, ih (by omega)]
    by_cases hj : j = s.tsa.t.toNat + n
    · subst hj
      rw [if_pos rfl, if_pos (by omega), Nat.add_sub_cancel_left]
    · rw [if_neg hj]
      by_cases hj' : s.tsa.t.toNat ≤ j ∧ j < s.tsa.t.toNat + n
      · rw [if_pos hj', if_pos (by omega)]
      · rw [if_neg hj', if_neg (by omega)]

/-- A build starts, or CAPACITY(3) ends it (R210). -/
theorem tsaStart_cases (tilesX tilesY : Nat) (s : State) :
    (s.params.scrCap < tilesX * tilesY ∧ tsaStart tilesX tilesY s = stop .capacity 3 s) ∨
    (tilesX * tilesY ≤ s.params.scrCap ∧ tsaStart tilesX tilesY s = .go (tsaInit tilesX tilesY s)) := by
  unfold tsaStart
  by_cases h : s.params.scrCap < tilesX * tilesY
  · exact .inl ⟨h, if_pos h⟩
  · exact .inr ⟨by omega, if_neg h⟩

theorem tsaInit_eq (tilesX tilesY : Nat) (s : State) :
    tsaInit tilesX tilesY s = { s with
      scr := Memory.blank 32 s.draws, draws := s.draws + 1
      tsa := { baseNumber := 0#32, rowNumber := 0#32, baseToggle := false, rowToggle := false, t := 0#32
               tilesX := BitVec.ofNat 14 tilesX, tilesY := BitVec.ofNat 14 tilesY } } := rfl

/-- The grid of a started build, when the tile counts fit their registers (R33, R210). -/
theorem tsaCount_init {tilesX tilesY : Nat} (s : State) (hx : tilesX < 2 ^ 14) (hy : tilesY < 2 ^ 14) :
    tsaCount (tsaInit tilesX tilesY s) = tilesX * tilesY := by
  simp only [tsaCount, tsaInit_eq, BitVec.toNat_ofNat, Nat.mod_eq_of_lt hx, Nat.mod_eq_of_lt hy]

/-- The positions of a build leave its grid. -/
theorem tsaCount_step (s : State) : tsaCount (tsaStep s) = tsaCount s := by
  rw [tsaStep_eq]
  obtain ⟨_, h2, h3⟩ := tsaNext_kept s.tsa
  simp only [tsaCount, h2, h3]

theorem tsaCount_iterate (n : Nat) (s : State) : tsaCount (tsaStep^[n] s) = tsaCount s := by
  induction n generalizing s with
  | zero => rfl
  | succ n ih => rw [Function.iterate_succ_apply, ih, tsaCount_step]

end Sys2Proof.Machine
end

