-- ==== Sys2Proof/Laws/Asm.lean ====
section
/-! SUPPORT. What ASM's operations do: the checks, the fetch of a block, one tile copy, one block of stage 1, one tile
of stage 3. -/

namespace Sys2Proof.Machine

open Sys2Proof.Config (BufName)

/-! ### The checks -/

/-- ASM's registers are set (R34), then a check ends the run or all have passed (R231, R232). -/
theorem asmStart_cases (p : AsmOperands) (s : State) :
    (∃ e n, asmStart p s = stop e n (asmLatch p s)) ∨
    (p.w.toNat % 4 = 0 ∧ p.h.toNat % 4 = 0 ∧ p.w.toNat * p.h.toNat * 4 ≤ s.params.imgCap ∧
      (p.w.toNat / 4) * (p.h.toNat / 4) ≤ s.params.scrCap ∧
      (p.w.toNat / 4) * (p.h.toNat / 4) * blockSize p.alpha ≤ p.len ∧
      asmStart p s = .go (withAlpha p.alpha (asmLatch p s))) := by
  unfold asmStart
  by_cases h1 : p.w.toNat % 4 ≠ 0
  · exact .inl ⟨_, _, if_pos h1⟩
  · by_cases h2 : p.h.toNat % 4 ≠ 0
    · exact .inl ⟨_, _, (if_neg h1).trans (if_pos h2)⟩
    · by_cases h3 : s.params.imgCap < p.w.toNat * p.h.toNat * 4
      · exact .inl ⟨_, _, (if_neg h1).trans ((if_neg h2).trans (if_pos h3))⟩
      · by_cases h4 : s.params.scrCap < (p.w.toNat / 4) * (p.h.toNat / 4)
        · exact .inl ⟨_, _, (if_neg h1).trans ((if_neg h2).trans ((if_neg h3).trans (if_pos h4)))⟩
        · by_cases h5 : p.len < (p.w.toNat / 4) * (p.h.toNat / 4) * blockSize p.alpha
          · exact .inl ⟨_, _, (if_neg h1).trans ((if_neg h2).trans ((if_neg h3).trans ((if_neg h4).trans (if_pos h5))))⟩
          · exact .inr ⟨by omega, by omega, by omega, by omega, by omega,
              (if_neg h1).trans ((if_neg h2).trans ((if_neg h3).trans ((if_neg h4).trans (if_neg h5))))⟩

/-- A grid of 16-bit dimensions has fewer than 2^28 tiles (R34). -/
theorem tileCount_lt (w h : Half) : (w.toNat / 4) * (h.toNat / 4) < 2 ^ 28 := by
  have h1 : w.toNat / 4 ≤ 16383 := by omega
  have h2 : h.toNat / 4 ≤ 16383 := by omega
  have := Nat.mul_le_mul h1 h2
  omega

/-- The operands in ASM's registers after a start (R230, R34). -/
theorem asmLatch_regs (p : AsmOperands) (s : State) :
    (asmLatch p s).asm.n.toNat = (p.w.toNat / 4) * (p.h.toNat / 4) ∧
    (asmLatch p s).asm.tilesX.toNat = p.w.toNat / 4 ∧ (asmLatch p s).asm.tilesY.toNat = p.h.toNat / 4 := by
  have := tileCount_lt p.w p.h
  simp only [asmLatch, BitVec.toNat_ofNat]
  refine ⟨?_, ?_, ?_⟩ <;> omega

/-- A start that passed its checks has made those `Safety.asmChecked` asks for. -/
theorem asmStart_checked {p : AsmOperands} {s t : State} (h : asmStart p s = .go t) : Safety.asmChecked t := by
  rcases asmStart_cases p s with ⟨e, n, h'⟩ | ⟨h1, h2, h3, h4, _, h'⟩
  · rw [h'] at h
    cases h
  · rw [h'] at h
    cases h
    obtain ⟨r1, r2, r3⟩ := asmLatch_regs p s
    exact ⟨h1, h2, r2, r3, r1, h3, by rw [show (withAlpha p.alpha (asmLatch p s)).asm.n.toNat = _ from r1]; exact h4⟩

/-! ### The fetch -/

/-- Fetching a block writes CBLK and, for a block with alpha, ABLK (R233). -/
theorem asmFetch_eq (s : State) :
    ∃ c a, asmFetch s = { s with cblk := c, ablk := a } ∧ (s.asm.alpha = false → a = s.ablk) := by
  unfold asmFetch
  cases s.asm.alpha
  · obtain ⟨c, h⟩ := State.fill_eq .CBLK 0 (colourByte s) 8 s
    exact ⟨c, s.ablk, h, fun _ => rfl⟩
  · obtain ⟨a, h⟩ := State.fill_eq .ABLK 0 (fun j => tdByte s (blockBase s + j)) 8 s
    obtain ⟨c, h'⟩ := State.fill_eq .CBLK 0 (colourByte s) 8 (s.setBuf .ABLK a)
    refine ⟨c, a, ?_, fun h => by cases h⟩
    simp only [if_true]
    rw [h, h']
    rfl

theorem asmFetch_rd (s : State) :
    (∀ j < 8, (asmFetch s).rd .CBLK j = colourByte s j) ∧
    (s.asm.alpha = true → ∀ j < 8, (asmFetch s).rd .ABLK j = tdByte s (blockBase s + j)) ∧
    (∀ d a, d ≠ .CBLK → d ≠ .ABLK → (asmFetch s).rd d a = s.rd d a) := by
  unfold asmFetch
  refine ⟨fun j hj => ?_, fun ha j hj => ?_, fun d a h1 h2 => ?_⟩
  · rw [State.rd_fill, if_pos ⟨rfl, by omega, by omega⟩, Nat.sub_zero]
  · rw [State.rd_fill_other _ _ _ _ _ _ _ (.inl (by decide)), if_pos ha, State.rd_fill,
      if_pos ⟨rfl, by omega, by omega⟩, Nat.sub_zero]
  · rw [State.rd_fill_other _ _ _ _ _ _ _ (.inl h1)]
    split
    · rw [State.rd_fill_other _ _ _ _ _ _ _ (.inl h2)]
    · rfl

/-! ### Tile copies -/

/-- The rows of a tile lie `w*4` bytes apart (R71). -/
theorem rowOffset_eq (w tilesX k r : Nat) : rowOffset w tilesX k r = rowOffset w tilesX k 0 + r * (w * 4) := by
  unfold rowOffset
  ring

/-- A tile of the grid lies inside the image (R71). -/
theorem rowOffset_lt {w h k r : Nat} (hw : w % 4 = 0) (hh : h % 4 = 0) (hk : k < (w / 4) * (h / 4)) (hr : r < 4) :
    rowOffset w (w / 4) k r + 16 ≤ w * h * 4 := by
  obtain ⟨a, rfl⟩ : ∃ a, w = 4 * a := ⟨w / 4, by omega⟩
  obtain ⟨b, rfl⟩ : ∃ b, h = 4 * b := ⟨h / 4, by omega⟩
  have ha : 4 * a / 4 = a := by omega
  have hb : 4 * b / 4 = b := by omega
  rw [ha, hb] at hk
  rw [ha]
  have ha0 : 0 < a := Nat.pos_of_ne_zero fun h => by simp [h] at hk
  have h1 : k / a < b := Nat.div_lt_of_lt_mul hk
  have h2 : k % a < a := Nat.mod_lt _ ha0
  have h3 : (k / a + 1) * a ≤ b * a := Nat.mul_le_mul_right a h1
  unfold rowOffset
  have h4 : (4 * (k / a) + r) * (4 * a) + 4 * a ≤ 16 * (b * a) := by
    have : (4 * (k / a) + r + 1) * (4 * a) ≤ (4 * (k / a + 1)) * (4 * a) := Nat.mul_le_mul_right _ (by omega)
    calc (4 * (k / a) + r) * (4 * a) + 4 * a = (4 * (k / a) + r + 1) * (4 * a) := by ring
      _ ≤ (4 * (k / a + 1)) * (4 * a) := this
      _ = 16 * ((k / a + 1) * a) := by ring
      _ ≤ 16 * (b * a) := Nat.mul_le_mul_left 16 h3
  have h5 : 4 * a * (4 * b) = 16 * (b * a) := by ring
  rw [h5]
  omega

/-- A tile copy writes one image buffer and `r` (R234, R236). -/
theorem putTile_eq (dst : BufName) (k : Nat) (row : Nat → Nat → Byte) (s : State) :
    ∃ m, putTile dst k row s = { s.setBuf dst m with asm := { s.asm with r := 3#2 } } := by
  have h : ∀ (u : State) (m : Memory 8) (g : AsmRegs) (r : Nat), u = { s.setBuf dst m with asm := { s.asm with r := g.r } } →
      ∃ m', tileRow dst k row u r = { s.setBuf dst m' with asm := { s.asm with r := BitVec.ofNat 2 r } } := by
    rintro u m g r rfl
    obtain ⟨m', h⟩ := State.fill_eq dst (rowOffset s.asm.w.toNat s.asm.tilesX.toNat k r) (row r) 16
      { s.setBuf dst m with asm := { s.asm with r := BitVec.ofNat 2 r } }
    refine ⟨m', h.trans ?_⟩
    cases dst <;> rfl
  have h0 : s = { s.setBuf dst (s.buf dst) with asm := { s.asm with r := s.asm.r } } := by
    cases dst <;> rfl
  obtain ⟨m0, e0⟩ := h s (s.buf dst) s.asm 0 h0
  obtain ⟨m1, e1⟩ := h _ m0 { s.asm with r := BitVec.ofNat 2 0 } 1 e0
  obtain ⟨m2, e2⟩ := h _ m1 { s.asm with r := BitVec.ofNat 2 1 } 2 e1
  obtain ⟨m3, e3⟩ := h _ m2 { s.asm with r := BitVec.ofNat 2 2 } 3 e2
  exact ⟨m3, e3⟩

/-- A tile copy writes the 16 bytes of its four rows, and no other byte (R71). -/
theorem putTile_rd (dst : BufName) (k : Nat) (row : Nat → Nat → Byte) (s : State) (hw : 4 ≤ s.asm.w.toNat) :
    (∀ r < 4, ∀ j < 16,
      (putTile dst k row s).rd dst (rowOffset s.asm.w.toNat s.asm.tilesX.toNat k r + j) = row r j) ∧
    (∀ d a, (d ≠ dst ∨ ∀ r < 4, ∀ j < 16, a ≠ rowOffset s.asm.w.toNat s.asm.tilesX.toNat k r + j) →
      (putTile dst k row s).rd d a = s.rd d a) := by
  have key : ∀ d a, (putTile dst k row s).rd d a =
      if d = dst ∧ rowOffset s.asm.w.toNat s.asm.tilesX.toNat k 3 ≤ a ∧
          a < rowOffset s.asm.w.toNat s.asm.tilesX.toNat k 3 + 16
        then row 3 (a - rowOffset s.asm.w.toNat s.asm.tilesX.toNat k 3)
      else if d = dst ∧ rowOffset s.asm.w.toNat s.asm.tilesX.toNat k 2 ≤ a ∧
          a < rowOffset s.asm.w.toNat s.asm.tilesX.toNat k 2 + 16
        then row 2 (a - rowOffset s.asm.w.toNat s.asm.tilesX.toNat k 2)
      else if d = dst ∧ rowOffset s.asm.w.toNat s.asm.tilesX.toNat k 1 ≤ a ∧
          a < rowOffset s.asm.w.toNat s.asm.tilesX.toNat k 1 + 16
        then row 1 (a - rowOffset s.asm.w.toNat s.asm.tilesX.toNat k 1)
      else if d = dst ∧ rowOffset s.asm.w.toNat s.asm.tilesX.toNat k 0 ≤ a ∧
          a < rowOffset s.asm.w.toNat s.asm.tilesX.toNat k 0 + 16
        then row 0 (a - rowOffset s.asm.w.toNat s.asm.tilesX.toNat k 0)
      else s.rd d a := by
    intro d a
    have e : ∀ (u : State) (r : Nat) (g : AsmRegs), ({ u with asm := g }).rd d a = u.rd d a := by
      intro u r g
      cases d <;> rfl
    simp only [putTile, List.foldl_cons, List.foldl_nil, tileRow, State.rd_fill, State.fill_asm, e _ 0]
  have e1 := rowOffset_eq s.asm.w.toNat s.asm.tilesX.toNat k 1
  have e2 := rowOffset_eq s.asm.w.toNat s.asm.tilesX.toNat k 2
  have e3 := rowOffset_eq s.asm.w.toNat s.asm.tilesX.toNat k 3
  refine ⟨fun r hr j hj => ?_, fun d a h => ?_⟩
  · rw [key]
    have hr' : r = 0 ∨ r = 1 ∨ r = 2 ∨ r = 3 := by omega
    rcases hr' with rfl | rfl | rfl | rfl
    · rw [if_neg (by omega), if_neg (by omega), if_neg (by omega), if_pos ⟨rfl, by omega, by omega⟩,
        Nat.add_sub_cancel_left]
    · rw [if_neg (by omega), if_neg (by omega), if_pos ⟨rfl, by omega, by omega⟩, Nat.add_sub_cancel_left]
    · rw [if_neg (by omega), if_pos ⟨rfl, by omega, by omega⟩, Nat.add_sub_cancel_left]
    · rw [if_pos ⟨rfl, by omega, by omega⟩, Nat.add_sub_cancel_left]
  · have no : ∀ r < 4, ¬(d = dst ∧ rowOffset s.asm.w.toNat s.asm.tilesX.toNat k r ≤ a ∧
        a < rowOffset s.asm.w.toNat s.asm.tilesX.toNat k r + 16) := by
      rintro r hr ⟨hd, h1, h2⟩
      rcases h with h | h
      · exact h hd
      · exact h r hr (a - rowOffset s.asm.w.toNat s.asm.tilesX.toNat k r) (by omega) (by omega)
    rw [key, if_neg (no 3 (by omega)), if_neg (no 2 (by omega)), if_neg (no 1 (by omega)), if_neg (no 0 (by omega))]

/-- The copy to IMG0 changes IMG0 and ASM's counters only (R234). -/
theorem asmStore_eq (s : State) :
    ∃ m, asmStore s = { s with img0 := m, asm := { s.asm with r := 3#2, s := s.asm.s + 1#28 } } := by
  obtain ⟨m, h⟩ := putTile_eq .IMG0 s.asm.s.toNat (fun r j => s.rd .TILEOUT (r * 16 + j)) s
  refine ⟨m, ?_⟩
  unfold asmStore
  rw [h]
  rfl

/-- One block of stage 1 changes CBLK, ABLK, TILEOUT, IMG0, DIFF_OVF and the registers of ETC and ASM only (R234). -/
theorem asmBlock_eq (s : State) :
    ∃ c a m i e v, asmBlock s = { s with
      cblk := c, ablk := a, tileout := m, img0 := i, etc := e, status := { s.status with diffOvf := v }
      asm := { s.asm with r := 3#2, s := s.asm.s + 1#28 } } ∧ e.hasAlpha = s.etc.hasAlpha := by
  obtain ⟨c, a, hf, _⟩ := asmFetch_eq s
  unfold asmBlock
  rw [hf]
  generalize hu : ({ s with cblk := c, ablk := a } : State) = u
  obtain ⟨m, e, v, he, ha⟩ := etcRun_only u
  rw [he]
  obtain ⟨i, hi⟩ := asmStore_eq { u with tileout := m, etc := e, status := { u.status with diffOvf := v } }
  refine ⟨c, a, m, i, e, v, hi.trans ?_, ?_⟩ <;> subst hu
  · rfl
  · exact ha

/-- Stage 3, one tile: an entry outside the grid ends the command, else the tile is copied (R236, R237). -/
theorem asmGather_cases (s : State) :
    (s.asm.n.toNat ≤ (s.rdScr s.asm.i.toNat).toNat ∧ asmGather s = .ended (scrRange s)) ∨
    ((s.rdScr s.asm.i.toNat).toNat < s.asm.n.toNat ∧
      ∃ m, asmGather s = .go { s with img1 := m, asm := { s.asm with r := 3#2, i := s.asm.i + 1#28 } }) := by
  unfold asmGather
  by_cases h : s.asm.n.toNat ≤ (s.rdScr s.asm.i.toNat).toNat
  · exact .inl ⟨h, if_pos h⟩
  · obtain ⟨m, hm⟩ := putTile_eq .IMG1 s.asm.i.toNat
      (fun r j => s.rd .IMG0 (rowOffset s.asm.w.toNat s.asm.tilesX.toNat (s.rdScr s.asm.i.toNat).toNat r + j)) s
    refine .inr ⟨by omega, m, (if_neg h).trans ?_⟩
    rw [hm]
    rfl

/-- SCR_RANGE forgets IMG1, CBLK, ABLK and TILEOUT and ends the command (R237, R297). -/
theorem scrRange_eq (s : State) :
    ∃ m1 m2 m3 m4 d, scrRange s = raise .scrRange s.asm.i.toNat
      { s with img1 := m1, cblk := m2, ablk := m3, tileout := m4, draws := d } := by
  have h1 : ∀ u : State, ∃ m d, u.forget .IMG1 = { u with img1 := m, draws := d } := fun u => ⟨_, _, rfl⟩
  have h2 : ∀ u : State, ∃ m d, u.forget .CBLK = { u with cblk := m, draws := d } := fun u => ⟨_, _, rfl⟩
  have h3 : ∀ u : State, ∃ m d, u.forget .ABLK = { u with ablk := m, draws := d } := fun u => ⟨_, _, rfl⟩
  have h4 : ∀ u : State, ∃ m d, u.forget .TILEOUT = { u with tileout := m, draws := d } := fun u => ⟨_, _, rfl⟩
  unfold scrRange
  obtain ⟨m1, d1, e1⟩ := h1 s
  rw [e1]
  obtain ⟨m2, d2, e2⟩ := h2 { s with img1 := m1, draws := d1 }
  rw [e2]
  obtain ⟨m3, d3, e3⟩ := h3 { s with img1 := m1, cblk := m2, draws := d2 }
  rw [e3]
  obtain ⟨m4, d4, e4⟩ := h4 { s with img1 := m1, cblk := m2, ablk := m3, draws := d3 }
  rw [e4]
  exact ⟨m1, m2, m3, m4, d4, rfl⟩

/-- The checks that passed stay passed while the operands and the parameters stay (R231). -/
theorem asmChecked_congr {s t : State} (hp : t.params = s.params) (hw : t.asm.w = s.asm.w) (hh : t.asm.h = s.asm.h)
    (hx : t.asm.tilesX = s.asm.tilesX) (hy : t.asm.tilesY = s.asm.tilesY) (hn : t.asm.n = s.asm.n)
    (h : Safety.asmChecked s) : Safety.asmChecked t := by
  unfold Safety.asmChecked at *
  rw [hp, hw, hh, hx, hy, hn]
  exact h

end Sys2Proof.Machine
end

