-- ==== Sys2Proof/Laws/Decode.lean ====
section
/-! SUPPORT. The arithmetic of the encoding: what the packed words are as natural numbers, and that four bytes and a
word are the same thing (R63). -/

namespace Sys2Proof

theorem toNat_appended {a b : Nat} (x : BitVec a) (y : BitVec b) : (x ++ y).toNat = x.toNat * 2 ^ b + y.toNat := by
  rw [BitVec.toNat_append, ← Nat.shiftLeft_add_eq_or_of_lt y.isLt, Nat.shiftLeft_eq]

theorem getLsbD_eq_div (w : Word) (k : Nat) : w.getLsbD k = decide (w.toNat / 2 ^ k % 2 = 1) := by
  rw [BitVec.getLsbD, Nat.testBit_eq_decide_div_mod_eq]

theorem le32_toNat (a b c d : Byte) :
    (le32 a b c d).toNat = ((d.toNat * 256 + c.toNat) * 256 + b.toNat) * 256 + a.toNat := by
  unfold le32
  erw [toNat_appended, toNat_appended, toNat_appended]
  norm_num

theorem le32_leBytes (w : Word) :
    le32 (w.extractLsb' 0 8) (w.extractLsb' 8 8) (w.extractLsb' 16 8) (w.extractLsb' 24 8) = w := by
  rw [← BitVec.toNat_inj, le32_toNat]
  have := w.isLt
  simp only [BitVec.extractLsb'_toNat, Nat.shiftRight_eq_div_pow]
  omega

theorem leBytes_le32 (a b c d : Byte) : leBytes (le32 a b c d) = [a, b, c, d] := by
  simp only [leBytes, List.cons.injEq, ← BitVec.toNat_inj, BitVec.extractLsb'_toNat, Nat.shiftRight_eq_div_pow,
    le32_toNat]
  have := a.isLt; have := b.isLt; have := c.isLt; have := d.isLt
  refine ⟨?_, ?_, ?_, ?_, trivial⟩ <;> omega

theorem indTop_toNat (flip : Bool) (f : IndFields) : (indTop flip f).toNat =
    ((((((((f.table1.toNat * 8 + f.table2.toNat) * 2) * 2 + flip.toNat) * 16 + f.b1.toNat) * 16 + f.b2.toNat) * 16
      + f.g1.toNat) * 16 + f.g2.toNat) * 16 + f.r1.toNat) * 16 + f.r2.toNat := by
  unfold indTop
  erw [toNat_appended, toNat_appended, toNat_appended, toNat_appended, toNat_appended, toNat_appended,
    toNat_appended, toNat_appended, toNat_appended]
  simp

theorem difTop_toNat (flip : Bool) (f : DifFields) : (difTop flip f).toNat =
    ((((((((f.table1.toNat * 8 + f.table2.toNat) * 2 + 1) * 2 + flip.toNat) * 32 + f.b.toNat) * 8 + f.db.toNat) * 32
      + f.g.toNat) * 8 + f.dg.toNat) * 32 + f.r.toNat) * 8 + f.dr.toNat := by
  unfold difTop
  erw [toNat_appended, toNat_appended, toNat_appended, toNat_appended, toNat_appended, toNat_appended,
    toNat_appended, toNat_appended, toNat_appended]
  simp

/-- Everything the token decoder can answer (R92). -/
theorem decodeToken_ok {m : Byte} {l rest : List Byte} {i : Instr} (h : decodeToken m l = .ok (i, rest)) :
    (∃ b, b ≠ m ∧ i = .lit b ∧ l = b :: rest) ∨ (i = .esc ∧ l = m :: m :: rest) ∨
      ∃ o c, o ≠ m ∧ i = .bref o c ∧ l = m :: o :: c :: rest := by
  unfold decodeToken at h
  split at h
  · cases h
  split at h
  · cases h; exact .inl ⟨_, ‹_›, rfl, rfl⟩
  rename_i hm
  obtain rfl := Decidable.not_not.mp hm
  split at h
  · cases h
  split at h
  · cases h; exact .inr (.inl ⟨rfl, by simp_all⟩)
  split at h
  · cases h
  · cases h; exact .inr (.inr ⟨_, _, ‹_›, rfl, rfl⟩)

end Sys2Proof
end

