-- ==== Sys2Proof/Laws/Lzd.lean ====
section
/-! SUPPORT. What LZD's operations do: emitting one byte, the byte-serial copy, one token, and the loop. -/

namespace Sys2Proof.Machine

open Sys2Proof.Config (BufName)

/-! ### One byte -/

theorem emit_eq (v : Byte) (s : State) :
    emit v s = { s with
      outBuf := s.outBuf.set s.outLen.toNat v, outLen := BitVec.ofNat 32 (s.outLen.toNat + 1) } := rfl

/-- Reading any byte after one was emitted (R123). -/
theorem emit_rd (v : Byte) (s : State) (d : BufName) (a : Nat) :
    (emit v s).rd d a = if d = .OUT ∧ a = s.outLen.toNat then v else s.rd d a := by
  rw [← State.rd_wr]
  cases d <;> rfl

theorem emit_outLen {v : Byte} {s : State} (h : s.outLen.toNat + 1 < 2 ^ 32) :
    (emit v s).outLen.toNat = s.outLen.toNat + 1 := by
  simp only [emit_eq, BitVec.toNat_ofNat]
  exact Nat.mod_eq_of_lt h

theorem advance_eq (n : Nat) (s : State) :
    advance n s = { s with lzd := { s.lzd with ip := BitVec.ofNat 32 (s.lzd.ip.toNat + n) } } := rfl

/-- Appending one byte: it fits and is appended, or OUT_OVERFLOW is raised and nothing is written (R123, R124). -/
theorem emitOne_cases (v : Byte) (n : Nat) (s : State) :
    (s.outLen.toNat + 1 ≤ s.params.outCap.toNat ∧ emitOne v n s = .go (advance n (emit v s))) ∨
    (s.params.outCap.toNat < s.outLen.toNat + 1 ∧ emitOne v n s = stop .outOverflow s.lzd.ip.toNat s) := by
  unfold emitOne
  by_cases h : s.params.outCap.toNat < s.outLen.toNat + 1
  · exact .inr ⟨h, by rw [if_pos h]⟩
  · exact .inl ⟨by omega, by rw [if_neg h]⟩

/-! ### The copy -/

theorem copyByte_eq (s : State) :
    copyByte s = { s with
      outBuf := s.outBuf.set s.outLen.toNat (s.rd .OUT (s.lzd.src.toNat + s.lzd.k.toNat))
      outLen := BitVec.ofNat 32 (s.outLen.toNat + 1)
      lzd := { s.lzd with k := BitVec.ofNat 8 (s.lzd.k.toNat + 1) } } := rfl

theorem copyByte_rd (s : State) (d : BufName) (a : Nat) :
    (copyByte s).rd d a =
      if d = .OUT ∧ a = s.outLen.toNat then s.rd .OUT (s.lzd.src.toNat + s.lzd.k.toNat) else s.rd d a := by
  rw [← emit_rd]
  cases d <;> rfl

/-- The copy changes OUT, OUT_LEN and `k`, and nothing else (R125). -/
theorem copyBytes_eq (n : Nat) (s : State) :
    ∃ m, copyBytes n s = { s with
      outBuf := m
      outLen := BitVec.ofNat 32 (s.outLen.toNat + n)
      lzd := { s.lzd with k := BitVec.ofNat 8 (s.lzd.k.toNat + n) } } := by
  induction n generalizing s with
  | zero => exact ⟨s.outBuf, by simp [copyBytes]⟩
  | succ n ih =>
    obtain ⟨m, h⟩ := ih (copyByte s)
    refine ⟨m, ?_⟩
    rw [copyBytes, h, copyByte_eq]
    have e1 : BitVec.ofNat 32 ((BitVec.ofNat 32 (s.outLen.toNat + 1)).toNat + n) =
        BitVec.ofNat 32 (s.outLen.toNat + (n + 1)) := by
      rw [← BitVec.toNat_inj]
      simp
      omega
    have e2 : BitVec.ofNat 8 ((BitVec.ofNat 8 (s.lzd.k.toNat + 1)).toNat + n) =
        BitVec.ofNat 8 (s.lzd.k.toNat + (n + 1)) := by
      rw [← BitVec.toNat_inj]
      simp
      omega
    simp only [e1, e2]

/-- The copy leaves every byte but the appended ones as it was, and every appended byte is the byte read at its
place in the source, as it stands after the copy (R126). -/
theorem copyBytes_rd (n : Nat) (s : State) (hl : s.outLen.toNat + n < 2 ^ 32) (hk : s.lzd.k.toNat + n < 256)
    (hs : s.lzd.src.toNat + s.lzd.k.toNat < s.outLen.toNat) :
    (∀ d a, d ≠ .OUT ∨ a < s.outLen.toNat ∨ s.outLen.toNat + n ≤ a → (copyBytes n s).rd d a = s.rd d a) ∧
    (∀ j < n, (copyBytes n s).rd .OUT (s.outLen.toNat + j) =
      (copyBytes n s).rd .OUT (s.lzd.src.toNat + s.lzd.k.toNat + j)) := by
  induction n generalizing s with
  | zero => exact ⟨fun _ _ _ => rfl, fun j hj => absurd hj (by omega)⟩
  | succ n ih =>
    have e1 : (copyByte s).outLen.toNat = s.outLen.toNat + 1 := by
      simp only [copyByte_eq, BitVec.toNat_ofNat]
      omega
    have e2 : (copyByte s).lzd.k.toNat = s.lzd.k.toNat + 1 := by
      simp only [copyByte_eq, BitVec.toNat_ofNat]
      omega
    have e3 : (copyByte s).lzd.src = s.lzd.src := by simp [copyByte_eq]
    obtain ⟨h1, h2⟩ := ih (copyByte s) (by omega) (by omega) (by rw [e3]; omega)
    rw [e1] at h1 h2
    rw [e2, e3] at h2
    refine ⟨fun d a h => ?_, fun j hj => ?_⟩
    · rw [copyBytes, h1 d a (h.imp_right fun h => by omega), copyByte_rd, if_neg]
      rintro ⟨hd, ha⟩
      rcases h with h | h | h
      · exact h hd
      · omega
      · omega
    · cases j with
      | zero =>
        rw [copyBytes, Nat.add_zero, h1 _ _ (.inr (by omega)), copyByte_rd, if_pos ⟨rfl, rfl⟩, Nat.add_zero,
          h1 _ _ (.inr (by omega)), copyByte_rd, if_neg (by omega)]
      | succ j =>
        have := h2 j (by omega)
        rw [show s.outLen.toNat + 1 + j = s.outLen.toNat + (j + 1) by omega,
          show s.lzd.src.toNat + (s.lzd.k.toNat + 1) + j = s.lzd.src.toNat + s.lzd.k.toNat + (j + 1) by omega] at this
        exact this

/-! ### Tokens -/

/-- BREF ends in LZ_BOUNDS, in OUT_OVERFLOW, or makes the copy (R125). -/
theorem lzdBref_cases (o c : Byte) (s : State) :
    (((effectiveOffset s.lzd.m o).toNat = 0 ∨ s.outLen.toNat < (effectiveOffset s.lzd.m o).toNat) ∧
      lzdBref o c s = stop .lzBounds s.lzd.ip.toNat (latchBref o c s)) ∨
    (1 ≤ (effectiveOffset s.lzd.m o).toNat ∧ (effectiveOffset s.lzd.m o).toNat ≤ s.outLen.toNat ∧
      s.params.outCap.toNat < s.outLen.toNat + c.toNat ∧
      lzdBref o c s = stop .outOverflow s.lzd.ip.toNat (latchBref o c s)) ∨
    (1 ≤ (effectiveOffset s.lzd.m o).toNat ∧ (effectiveOffset s.lzd.m o).toNat ≤ s.outLen.toNat ∧
      s.outLen.toNat + c.toNat ≤ s.params.outCap.toNat ∧
      lzdBref o c s = .go (advance 3 (copyBytes c.toNat (beginCopy (latchBref o c s))))) := by
  unfold lzdBref
  by_cases h1 : (effectiveOffset s.lzd.m o).toNat = 0 ∨ s.outLen.toNat < (effectiveOffset s.lzd.m o).toNat
  · exact .inl ⟨h1, if_pos h1⟩
  · by_cases h2 : s.params.outCap.toNat < s.outLen.toNat + c.toNat
    · refine .inr (.inl ⟨by omega, by omega, h2, ?_⟩)
      exact (if_neg h1).trans (if_pos h2)
    · refine .inr (.inr ⟨by omega, by omega, by omega, ?_⟩)
      exact (if_neg h1).trans (if_neg h2)

theorem tokenBytes_length (s : State) : (tokenBytes s).length = min 3 (s.inLen.toNat - s.lzd.ip.toNat) := by
  simp [tokenBytes]

/-- One turn of the loop: the three tokens and the cut token, by the bytes at `ip` (R122). -/
theorem lzdStep_cases {s : State} (h : s.lzd.ip.toNat < s.inLen.toNat) :
    let b := fun j => s.rd .IN (s.lzd.ip.toNat + j)
    (b 0 ≠ s.lzd.m ∧ lzdStep s = lzdLit (b 0) { s with lzd := { s.lzd with b0 := b 0 } }) ∨
    (b 0 = s.lzd.m ∧ s.inLen.toNat = s.lzd.ip.toNat + 1 ∧
      lzdStep s = stop .lzTruncated s.lzd.ip.toNat { s with lzd := { s.lzd with b0 := s.lzd.m } }) ∨
    (b 0 = s.lzd.m ∧ s.lzd.ip.toNat + 1 < s.inLen.toNat ∧ b 1 = s.lzd.m ∧
      lzdStep s = lzdEsc { s with lzd := { s.lzd with b0 := s.lzd.m, b1 := s.lzd.m } }) ∨
    (b 0 = s.lzd.m ∧ s.inLen.toNat = s.lzd.ip.toNat + 2 ∧ b 1 ≠ s.lzd.m ∧
      lzdStep s = stop .lzTruncated s.lzd.ip.toNat { s with lzd := { s.lzd with b0 := s.lzd.m, b1 := b 1 } }) ∨
    (b 0 = s.lzd.m ∧ s.lzd.ip.toNat + 2 < s.inLen.toNat ∧ b 1 ≠ s.lzd.m ∧
      lzdStep s = lzdBref (b 1) (b 2)
        { s with lzd := { s.lzd with b0 := s.lzd.m, b1 := b 1, b2 := b 2 } }) := by
  intro b
  have h0 : ∃ n, n + 1 = min 3 (s.inLen.toNat - s.lzd.ip.toNat) := ⟨min 3 (s.inLen.toNat - s.lzd.ip.toNat) - 1, by omega⟩
  obtain ⟨n, hn⟩ := h0
  have hb : tokenBytes s = (List.range (n + 1)).map b := by rw [tokenBytes, ← hn]
  by_cases e0 : b 0 = s.lzd.m
  · by_cases e1 : b 1 = s.lzd.m
    · by_cases l1 : s.inLen.toNat = s.lzd.ip.toNat + 1
      · refine .inr (.inl ⟨e0, l1, ?_⟩)
        have : n = 0 := by omega
        subst this
        simp [lzdStep, lzdTruncated, stop, tokenAt, hb, decode, decodeToken, e0, latchBytes]
      · refine .inr (.inr (.inl ⟨e0, by omega, e1, ?_⟩))
        have : n = 1 ∨ n = 2 := by omega
        rcases this with rfl | rfl <;>
          simp [lzdStep, tokenAt, hb, decode, decodeToken, e0, e1, latchBytes, List.range_succ, encode, tokenFlow]
    · by_cases l1 : s.inLen.toNat = s.lzd.ip.toNat + 1
      · refine .inr (.inl ⟨e0, l1, ?_⟩)
        have : n = 0 := by omega
        subst this
        simp [lzdStep, lzdTruncated, stop, tokenAt, hb, decode, decodeToken, e0, latchBytes]
      · by_cases l2 : s.inLen.toNat = s.lzd.ip.toNat + 2
        · refine .inr (.inr (.inr (.inl ⟨e0, l2, e1, ?_⟩)))
          have : n = 1 := by omega
          subst this
          simp [lzdStep, lzdTruncated, stop, tokenAt, hb, decode, decodeToken, e0, e1, latchBytes, List.range_succ]
        · refine .inr (.inr (.inr (.inr ⟨e0, by omega, e1, ?_⟩)))
          have : n = 2 := by omega
          subst this
          simp [lzdStep, tokenAt, hb, decode, decodeToken, e0, e1, latchBytes, List.range_succ, encode, tokenFlow]
  · refine .inl ⟨e0, ?_⟩
    have : n = 0 ∨ n = 1 ∨ n = 2 := by omega
    rcases this with rfl | rfl | rfl <;>
      simp [lzdStep, tokenAt, hb, decode, decodeToken, e0, latchBytes, List.range_succ, encode, tokenFlow]

/-- The start step (R121). -/
theorem lzdStart_eq (s : State) : lzdStart s = lzdMark (s.rd .IN 0) s := by
  by_cases h : s.inLen.toNat = 0
  · have e : (clearOutput s).inLen.toNat = 0 := by simpa [clearOutput] using h
    simp [lzdStart, markerBytes, h, decode, lzdMark, e]
  · simp [lzdStart, markerBytes, h, decode]

/-- The loop's first turn (R122). -/
theorem lzdLoop_succ (n : Nat) (s : State) :
    lzdLoop (n + 1) s = if s.inLen.toNat ≤ s.lzd.ip.toNat then .go s else (lzdStep s).andThen (lzdLoop n) := rfl

/-- At the end of the stream the loop stops (R127). -/
theorem lzdLoop_end {s : State} (n : Nat) (h : s.inLen.toNat ≤ s.lzd.ip.toNat) : lzdLoop n s = .go s := by
  cases n with
  | zero => rfl
  | succ n => rw [lzdLoop_succ, if_pos h]

/-- What LZD's operations keep, the loop keeps. -/
theorem lzdLoop_keeps {P : State → Prop} (hstep : ∀ s, P s → s.lzd.ip.toNat < s.inLen.toNat → (lzdStep s).both P)
    (n : Nat) (s : State) (h : P s) : (lzdLoop n s).both P := by
  induction n generalizing s with
  | zero => exact h
  | succ n ih =>
    rw [lzdLoop_succ]
    split
    · exact h
    · exact Flow.both_andThen (hstep s h (by omega)) fun t _ ht => ih t ht

end Sys2Proof.Machine
end

