-- ==== Sys2Proof/Laws/Keeps.lean ====
section
/-! SUPPORT. A property of the buffers and parameters alone, kept by writes that stay inside the buffers and by
forgetting, is kept by every operation of every unit. -/

namespace Sys2Proof.Machine

open Sys2Proof.Config (BufName)

/-- A property of the buffers and the parameters that every access of R62 inside the bounds of R72 keeps. -/
structure BufferProp (P : State → Prop) : Prop where
  congr : ∀ {s t : State}, t.params = s.params → (∀ b, t.buf b = s.buf b) → t.scr = s.scr → P s → P t
  wr : ∀ {s : State} (b : BufName) (a : Nat) (v : Byte), a < s.capacity b → P s → P (s.wr b a v)
  forget : ∀ {s : State} (b : BufName), P s → P (s.forget b)
  wrScr : ∀ {s : State} (i : Nat) (v : Word), i < s.params.scrCap → P s → P (s.wrScr i v)
  forgetScr : ∀ {s : State}, P s → P s.forgetScr

namespace BufferProp

variable {P : State → Prop}

theorem fill (hP : BufferProp P) {b : BufName} {a : Nat} (f : Nat → Byte) {n : Nat} {s : State}
    (ha : a + n ≤ s.capacity b) (h : P s) : P (State.fill b a f n s) := by
  induction n with
  | zero => exact h
  | succ n ih =>
    refine hP.wr _ _ _ ?_ (ih (by omega))
    rw [State.fill_capacity]
    omega

/-- The registers outside the buffers do not matter. -/
theorem regs (hP : BufferProp P) {s t : State} (h : P s) (hp : t.params = s.params) (h1 : t.inBuf = s.inBuf)
    (h2 : t.outBuf = s.outBuf) (h3 : t.cblk = s.cblk) (h4 : t.ablk = s.ablk) (h5 : t.tileout = s.tileout)
    (h6 : t.img0 = s.img0) (h7 : t.img1 = s.img1) (h8 : t.scr = s.scr) : P t := by
  refine hP.congr hp (fun b => ?_) h8 h
  cases b <;> assumption

theorem raise (hP : BufferProp P) {s : State} (e : FaultName) (n : Nat) (h : P s) : P (raise e n s) :=
  hP.regs h rfl rfl rfl rfl rfl rfl rfl rfl rfl

theorem stop (hP : BufferProp P) {s : State} (e : FaultName) (n : Nat) (h : P s) : (stop e n s).both P :=
  hP.raise e n h

theorem complete (hP : BufferProp P) {s : State} (h : P s) : P (complete s) :=
  hP.regs h rfl rfl rfl rfl rfl rfl rfl rfl rfl

theorem goTo (hP : BufferProp P) {s : State} (q : Seq) (h : P s) : P (goTo q s) :=
  hP.regs h rfl rfl rfl rfl rfl rfl rfl rfl rfl

theorem acknowledge (hP : BufferProp P) {s : State} (c : Byte) (h : P s) : P (acknowledge c s) :=
  hP.regs h rfl rfl rfl rfl rfl rfl rfl rfl rfl

theorem clearValid (hP : BufferProp P) {s : State} (h : P s) : P (clearValid s) :=
  hP.regs h rfl rfl rfl rfl rfl rfl rfl rfl rfl

theorem withAlpha (hP : BufferProp P) {s : State} (v : Bool) (h : P s) : P (withAlpha v s) :=
  hP.regs h rfl rfl rfl rfl rfl rfl rfl rfl rfl

theorem launch (hP : BufferProp P) {s : State} (c : Byte) (h : P s) : (launch c s).both P := by
  have hl : P (launchClears c s) := by
    unfold launchClears
    split
    · exact hP.clearValid (hP.acknowledge c h)
    · exact hP.acknowledge c h
  rcases launch_cases c s with ⟨e, n, he⟩ | ⟨he, _⟩ <;> rw [he]
  · exact hP.raise e n hl
  · exact hl

/-! ### LZD -/

theorem emit (hP : BufferProp P) {s : State} (v : Byte) (ha : s.outLen.toNat < s.params.outCap.toNat) (h : P s) :
    P (emit v s) :=
  hP.regs (hP.wr .OUT s.outLen.toNat v ha h) rfl rfl rfl rfl rfl rfl rfl rfl rfl

theorem advance (hP : BufferProp P) {s : State} (n : Nat) (h : P s) : P (advance n s) :=
  hP.regs h rfl rfl rfl rfl rfl rfl rfl rfl rfl

theorem emitOne (hP : BufferProp P) {s : State} (v : Byte) (n : Nat) (h : P s) : (emitOne v n s).both P := by
  rcases emitOne_cases v n s with ⟨ha, he⟩ | ⟨_, he⟩ <;> rw [he]
  · exact hP.advance n (hP.emit v (by omega) h)
  · exact hP.stop _ _ h

theorem copyBytes (hP : BufferProp P) (n : Nat) {s : State} (ha : s.outLen.toNat + n ≤ s.params.outCap.toNat)
    (h : P s) : P (copyBytes n s) := by
  induction n generalizing s with
  | zero => exact h
  | succ n ih =>
    refine ih ?_ (hP.regs (hP.emit (s.rd .OUT (s.lzd.src.toNat + s.lzd.k.toNat)) (by omega) h)
      rfl rfl rfl rfl rfl rfl rfl rfl rfl)
    have := s.params.outCap.isLt
    simp only [copyByte_eq, BitVec.toNat_ofNat]
    omega

theorem lzdMark (hP : BufferProp P) {s : State} (m : Byte) (h : P s) : (lzdMark m s).both P := by
  have hc : P (clearOutput s) := hP.regs (hP.forget .OUT h) rfl rfl rfl rfl rfl rfl rfl rfl rfl
  unfold Machine.lzdMark
  dsimp only
  split
  · exact hP.stop _ _ hc
  · exact hP.regs hc rfl rfl rfl rfl rfl rfl rfl rfl rfl

theorem lzdBref (hP : BufferProp P) {s : State} (o c : Byte) (h : P s) : (lzdBref o c s).both P := by
  have hl : P (latchBref o c s) := hP.regs h rfl rfl rfl rfl rfl rfl rfl rfl rfl
  have hb : P (beginCopy (latchBref o c s)) := hP.regs h rfl rfl rfl rfl rfl rfl rfl rfl rfl
  rcases lzdBref_cases o c s with ⟨_, he⟩ | ⟨_, _, _, he⟩ | ⟨_, _, ha, he⟩ <;> rw [he]
  · exact hP.stop _ _ hl
  · exact hP.stop _ _ hl
  · exact hP.advance 3 (hP.copyBytes _ ha hb)

theorem lzdStep (hP : BufferProp P) {s : State} (hi : s.lzd.ip.toNat < s.inLen.toNat) (h : P s) :
    (lzdStep s).both P := by
  have hl : ∀ g : LzdRegs, P { s with lzd := g } := fun g => hP.regs h rfl rfl rfl rfl rfl rfl rfl rfl rfl
  rcases lzdStep_cases hi with ⟨_, he⟩ | ⟨_, _, he⟩ | ⟨_, _, _, he⟩ | ⟨_, _, _, he⟩ | ⟨_, _, _, he⟩ <;> rw [he]
  · exact hP.emitOne _ _ (hl _)
  · exact hP.stop _ _ (hl _)
  · exact hP.emitOne _ _ (hl _)
  · exact hP.stop _ _ (hl _)
  · exact hP.lzdBref _ _ (hl _)

theorem lzdRun (hP : BufferProp P) {s : State} (h : P s) : (lzdRun s).both P := by
  unfold Machine.lzdRun
  rw [lzdStart_eq]
  exact Flow.both_andThen (hP.lzdMark _ h) fun t _ ht => lzdLoop_keeps (fun u hu hi => hP.lzdStep hi hu) _ t ht

/-! ### HDR, ETC, TSA -/

theorem hdrRun (hP : BufferProp P) {s : State} (h : P s) : (hdrRun s).both P := by
  have hr : ∀ (i : TextureInfo) (w : Status), P { s with ti := i, status := w } :=
    fun i w => hP.regs h rfl rfl rfl rfl rfl rfl rfl rfl rfl
  unfold Machine.hdrRun
  split
  · exact hP.stop _ _ h
  · split
    · exact hP.stop _ _ h
    · dsimp only
      split
      · exact hr _ _
      · split
        · exact hP.stop _ _ (hr _ s.status)
        · exact hr _ _

theorem decodePixels (hP : BufferProp P) {s : State} (flip : Bool) (p q : SubBlock) (h : P s) :
    P (decodePixels flip p q s) := by
  refine foldl_keeps (fun u xy hu => ?_) scanOrder s h
  have := pixelOffset_lt xy.1 xy.2
  have hl : P (latchPixel u flip p q xy.1 xy.2) := hP.regs hu rfl rfl rfl rfl rfl rfl rfl rfl rfl
  unfold decodePixel putPixel
  refine hP.wr .TILEOUT _ _ ?_ (hP.wr .TILEOUT _ _ ?_ (hP.wr .TILEOUT _ _ ?_ (hP.wr .TILEOUT _ _ ?_ hl))) <;>
    · simp only [State.capacity]
      omega

theorem decodeAlpha (hP : BufferProp P) {s : State} (a : BitVec 64) (h : P s) : P (decodeAlpha a s) := by
  refine foldl_keeps (fun u xy hu => ?_) scanOrder s h
  have := pixelOffset_lt xy.1 xy.2
  unfold alphaPixel
  refine hP.wr .TILEOUT _ _ ?_ (hP.regs hu rfl rfl rfl rfl rfl rfl rfl rfl rfl)
  simp only [State.capacity]
  omega

theorem decodeInd (hP : BufferProp P) {s : State} (flip : Bool) (f : IndFields) (h : P s) : P (decodeInd flip f s) := by
  unfold Machine.decodeInd
  exact hP.decodePixels _ _ _ (hP.regs h rfl rfl rfl rfl rfl rfl rfl rfl rfl)

theorem decodeDif (hP : BufferProp P) {s : State} (flip : Bool) (f : DifFields) (h : P s) : P (decodeDif flip f s) := by
  unfold Machine.decodeDif
  exact hP.decodePixels _ _ _ (hP.regs h rfl rfl rfl rfl rfl rfl rfl rfl rfl)

theorem blockOp (hP : BufferProp P) {s : State} (i : Instr) (h : P s) : P (blockOp i s) := by
  cases i
  case etcIndNf f => exact hP.decodeInd false f h
  case etcIndFl f => exact hP.decodeInd true f h
  case etcDifNf f => exact hP.decodeDif false f h
  case etcDifFl f => exact hP.decodeDif true f h
  case etcA4 a => exact hP.decodeAlpha a h
  all_goals exact h

theorem etcRun (hP : BufferProp P) {s : State} (h : P s) : P (etcRun s) := by
  unfold Machine.etcRun
  cases s.etc.hasAlpha
  · exact hP.blockOp _ h
  · simp only [if_true]
    rw [runBlock_alpha, runBlock_colour]
    exact hP.blockOp _ (hP.decodeAlpha _ h)

theorem tsaStep (hP : BufferProp P) {s : State} (ht : s.tsa.t.toNat < s.params.scrCap) (h : P s) : P (tsaStep s) := by
  rw [tsaStep_eq]
  exact hP.regs (hP.wrScr s.tsa.t.toNat (newRow s.tsa).baseNumber ht h) rfl rfl rfl rfl rfl rfl rfl rfl rfl

theorem tsaStart (hP : BufferProp P) {s : State} (x y : Nat) (h : P s) : (tsaStart x y s).both P := by
  rcases tsaStart_cases x y s with ⟨_, he⟩ | ⟨_, he⟩ <;> rw [he]
  · exact hP.stop _ _ h
  · exact hP.regs (hP.forgetScr h) rfl rfl rfl rfl rfl rfl rfl rfl rfl

/-- A whole table, from its start (R210 to R216). -/
theorem tsaSteps (hP : BufferProp P) {s : State} (n : Nat) (ht : s.tsa.t.toNat + n ≤ s.params.scrCap)
    (hw : s.tsa.t.toNat + n < 2 ^ 32) (h : P s) : P (Machine.tsaStep^[n] s) := by
  induction n with
  | zero => exact h
  | succ n ih =>
    rw [Function.iterate_succ_apply']
    obtain ⟨m, hm⟩ := tsaStep_iterate_eq n s
    have hp : (Machine.tsaStep^[n] s).params = s.params := by rw [hm]
    have htn : (Machine.tsaStep^[n] s).tsa.t.toNat = s.tsa.t.toNat + n := by
      have : (Machine.tsaStep^[n] s).tsa = tsaNext^[n] s.tsa := by rw [hm]
      rw [this, (tsaNext_iterate_kept n s.tsa).1]
      simp only [BitVec.toNat_add, BitVec.toNat_ofNat]
      omega
    exact hP.tsaStep (by rw [htn, hp]; omega) (ih (by omega) (by omega))

/-! ### ASM -/

theorem asmStart (hP : BufferProp P) {s : State} (p : AsmOperands) (h : P s) : (asmStart p s).both P := by
  rcases asmStart_cases p s with ⟨e, n, he⟩ | ⟨_, _, _, _, _, he⟩ <;> rw [he]
  · exact hP.stop _ _ (hP.regs h rfl rfl rfl rfl rfl rfl rfl rfl rfl)
  · exact hP.regs h rfl rfl rfl rfl rfl rfl rfl rfl rfl

theorem asmFetch (hP : BufferProp P) {s : State} (h : P s) : P (asmFetch s) := by
  unfold Machine.asmFetch
  refine hP.fill _ (by simp [State.capacity]) ?_
  split
  · exact hP.fill _ (by simp [State.capacity]) h
  · exact h

/-- A tile copy, when the tile lies in the grid whose checks passed (R231, R72). -/
theorem putTile (hP : BufferProp P) {s : State} {dst : BufName} (hd : s.capacity dst = s.params.imgCap) {k : Nat}
    (row : Nat → Nat → Byte) (hc : Safety.asmChecked s) (hk : k < s.asm.n.toNat) (h : P s) :
    P (putTile dst k row s) := by
  obtain ⟨h1, h2, h3, h4, h5, h6, _⟩ := hc
  have step : ∀ (u : State) (r : Nat), r < 4 → u.capacity dst = s.params.imgCap → u.asm.w = s.asm.w →
      u.asm.tilesX = s.asm.tilesX → P u → P (tileRow dst k row u r) := by
    intro u r hr hcap hw hx hu
    refine hP.fill _ ?_ (hP.regs hu rfl rfl rfl rfl rfl rfl rfl rfl rfl)
    have := rowOffset_lt h1 h2 (h5 ▸ hk) hr
    have e : ({ u with asm := { u.asm with r := BitVec.ofNat 2 r } } : State).capacity dst = u.capacity dst := by
      cases dst <;> rfl
    rw [e, hcap, hw, hx, h3]
    omega
  have kept : ∀ (u : State) (r : Nat), (tileRow dst k row u r).capacity dst = u.capacity dst ∧
      (tileRow dst k row u r).asm.w = u.asm.w ∧ (tileRow dst k row u r).asm.tilesX = u.asm.tilesX := by
    intro u r
    simp only [tileRow, State.fill_capacity, State.fill_asm, and_self, and_true]
    cases dst <;> rfl
  have k0 := kept s 0
  have k1 := kept (tileRow dst k row s 0) 1
  have k2 := kept (tileRow dst k row (tileRow dst k row s 0) 1) 2
  have p0 := step s 0 (by omega) hd rfl rfl h
  have p1 := step _ 1 (by omega) (k0.1.trans hd) k0.2.1 k0.2.2 p0
  have p2 := step _ 2 (by omega) (k1.1.trans (k0.1.trans hd)) (k1.2.1.trans k0.2.1) (k1.2.2.trans k0.2.2) p1
  unfold Machine.putTile
  simp only [List.foldl_cons, List.foldl_nil]
  exact step _ 3 (by omega) (k2.1.trans (k1.1.trans (k0.1.trans hd))) (k2.2.1.trans (k1.2.1.trans k0.2.1))
    (k2.2.2.trans (k1.2.2.trans k0.2.2)) p2

theorem asmStore (hP : BufferProp P) {s : State} (hc : Safety.asmChecked s) (hk : s.asm.s.toNat < s.asm.n.toNat)
    (h : P s) : P (asmStore s) := by
  have hp := hP.putTile (dst := .IMG0) rfl (fun r j => s.rd .TILEOUT (r * 16 + j)) hc hk h
  unfold Machine.asmStore
  generalize Machine.putTile .IMG0 s.asm.s.toNat (fun r j => s.rd .TILEOUT (r * 16 + j)) s = u at hp ⊢
  exact hP.regs hp rfl rfl rfl rfl rfl rfl rfl rfl rfl

theorem scrRange (hP : BufferProp P) {s : State} (h : P s) : P (scrRange s) :=
  hP.raise _ _ (hP.forget .TILEOUT (hP.forget .ABLK (hP.forget .CBLK (hP.forget .IMG1 h))))

theorem asmGather (hP : BufferProp P) {s : State} (hc : Safety.asmChecked s) (hk : s.asm.i.toNat < s.asm.n.toNat)
    (h : P s) : (asmGather s).both P := by
  have hp := hP.putTile (dst := .IMG1) rfl (fun r j => s.rd .IMG0
    (rowOffset s.asm.w.toNat s.asm.tilesX.toNat (s.rdScr s.asm.i.toNat).toNat r + j)) hc hk h
  unfold Machine.asmGather
  dsimp only
  split
  · exact hP.scrRange h
  · generalize Machine.putTile .IMG1 s.asm.i.toNat (fun r j => s.rd .IMG0
      (rowOffset s.asm.w.toNat s.asm.tilesX.toNat (s.rdScr s.asm.i.toNat).toNat r + j)) s = u at hp ⊢
    exact hP.regs hp rfl rfl rfl rfl rfl rfl rfl rfl rfl

/-- One block of stage 1 keeps what ASM's checks established and counts one up (R234). -/
theorem asmBlock (hP : BufferProp P) {s : State} (hc : Safety.asmChecked s) (hk : s.asm.s.toNat < s.asm.n.toNat)
    (h : P s) : P (asmBlock s) := by
  obtain ⟨c, a, hf, _⟩ := asmFetch_eq s
  obtain ⟨m, e, v, he, _⟩ := etcRun_only (Machine.asmFetch s)
  have hb := hP.etcRun (hP.asmFetch h)
  unfold Machine.asmBlock
  have ha : (Machine.etcRun (Machine.asmFetch s)).asm = s.asm := by rw [he, hf]
  have hp : (Machine.etcRun (Machine.asmFetch s)).params = s.params := by rw [he, hf]
  refine hP.asmStore (asmChecked_congr hp ?_ ?_ ?_ ?_ ?_ hc) ?_ hb <;> rw [ha]
  exact hk

end BufferProp

/-- One block of stage 1 keeps ASM's operands and counts one up (R234). -/
theorem asmBlock_regs (s : State) :
    (asmBlock s).asm = { s.asm with r := 3#2, s := s.asm.s + 1#28 } ∧ (asmBlock s).params = s.params := by
  obtain ⟨c, a, m, i, e, v, he, _⟩ := asmBlock_eq s
  rw [he]
  exact ⟨rfl, rfl⟩

/-- `k` blocks of stage 1. -/
theorem asmBlock_iterate_regs (s : State) (k : Nat) :
    (asmBlock^[k] s).params = s.params ∧ (asmBlock^[k] s).asm.s = s.asm.s + BitVec.ofNat 28 k ∧
      (asmBlock^[k] s).asm = { s.asm with r := (asmBlock^[k] s).asm.r, s := (asmBlock^[k] s).asm.s } := by
  induction k with
  | zero => simp
  | succ k ih =>
    obtain ⟨h1, h2, h3⟩ := ih
    obtain ⟨h4, h5⟩ := asmBlock_regs (asmBlock^[k] s)
    rw [Function.iterate_succ_apply', h4]
    refine ⟨h5.trans h1, ?_, ?_⟩
    · show (asmBlock^[k] s).asm.s + 1#28 = _
      rw [h2, BitVec.add_assoc]
      congr 1
      rw [← BitVec.toNat_inj]
      simp
    · rw [h3]

/-- Stage 1, whole (R234). -/
theorem BufferProp.asmBlocks {P : State → Prop} (hP : BufferProp P) {s : State} (hc : Safety.asmChecked s)
    (h0 : s.asm.s = 0#28) (h : P s) (k : Nat) (hk : k ≤ s.asm.n.toNat) : P (Machine.asmBlock^[k] s) := by
  induction k with
  | zero => exact h
  | succ k ih =>
    obtain ⟨h1, h2, h3⟩ := asmBlock_iterate_regs s k
    rw [Function.iterate_succ_apply']
    have hn := s.asm.n.isLt
    refine hP.asmBlock (asmChecked_congr h1 ?_ ?_ ?_ ?_ ?_ hc) ?_ (ih (by omega)) <;> rw [h3]
    show (Machine.asmBlock^[k] s).asm.s.toNat < s.asm.n.toNat
    rw [h2, h0]
    simp
    omega

/-- A copied tile leaves ASM's operands and counts one up (R236). -/
theorem asmGather_regs {s t : State} (h : asmGather s = .go t) :
    t.asm = { s.asm with r := 3#2, i := s.asm.i + 1#28 } ∧ t.params = s.params ∧
      (s.rdScr s.asm.i.toNat).toNat < s.asm.n.toNat := by
  rcases asmGather_cases s with ⟨_, he⟩ | ⟨hk, m, he⟩ <;> rw [he] at h
  · cases h
  · cases h
    exact ⟨rfl, rfl, hk⟩

/-- Stage 3, whole (R236, R237). -/
theorem BufferProp.asmGathers {P : State → Prop} (hP : BufferProp P) (k : Nat) {s : State}
    (hc : Safety.asmChecked s) (hk : s.asm.i.toNat + k ≤ s.asm.n.toNat) (h : P s) :
    (Flow.times Machine.asmGather k s).both P := by
  induction k generalizing s with
  | zero => exact h
  | succ k ih =>
    rw [Flow.times_succ]
    refine Flow.both_andThen (hP.asmGather hc (by omega) h) fun t ht hPt => ?_
    obtain ⟨h1, h2, _⟩ := asmGather_regs ht
    have hn := s.asm.n.isLt
    refine ih (asmChecked_congr h2 ?_ ?_ ?_ ?_ ?_ hc) ?_ hPt <;> rw [h1]
    show (s.asm.i + 1#28).toNat + k ≤ s.asm.n.toNat
    simp only [BitVec.toNat_add, BitVec.toNat_ofNat]
    omega

/-- ASM's three stages from a start whose checks passed (R234 to R238). -/
theorem BufferProp.asmStages {P : State → Prop} (hP : BufferProp P) {s : State} (hc : Safety.asmChecked s)
    (hs : s.asm.s = 0#28) (hi : s.asm.i = 0#28) (h : P s) : (Machine.asmStages s).both P := by
  obtain ⟨b1, _, b3⟩ := asmBlock_iterate_regs s s.asm.n.toNat
  have hb := hP.asmBlocks hc hs h s.asm.n.toNat (Nat.le_refl _)
  unfold Machine.asmStages
  generalize Machine.asmBlock^[s.asm.n.toNat] s = u at b1 b3 hb
  have hcu : Safety.asmChecked u := by
    refine asmChecked_congr b1 ?_ ?_ ?_ ?_ ?_ hc <;> rw [b3]
  have hiu : u.asm.i = 0#28 := by
    rw [b3]
    exact hi
  have hxu : s.asm.tilesX = u.asm.tilesX := by rw [b3]
  have hyu : s.asm.tilesY = u.asm.tilesY := by rw [b3]
  rw [hxu, hyu]
  have hcap : tsaCount (tsaInit u.asm.tilesX.toNat u.asm.tilesY.toNat u) = u.asm.n.toNat := by
    rw [tsaCount_init u u.asm.tilesX.isLt u.asm.tilesY.isLt]
    obtain ⟨_, _, c3, c4, c5, _⟩ := hcu
    rw [c3, c4, c5]
  have hnl := u.asm.n.isLt
  obtain ⟨_, _, _, _, _, _, c7⟩ := hcu
  refine Flow.both_andThen (Flow.both_andThen (hP.tsaStart _ _ hb) fun v hv hPv => ?_) fun w hw hPw => ?_
  · rcases tsaStart_cases u.asm.tilesX.toNat u.asm.tilesY.toNat u with ⟨_, he⟩ | ⟨_, he⟩ <;> rw [he] at hv
    · cases hv
    · cases hv
      rw [hcap]
      have := hP.tsaSteps (s := tsaInit u.asm.tilesX.toNat u.asm.tilesY.toNat u) u.asm.n.toNat
        (by show (0#32).toNat + _ ≤ u.params.scrCap; simpa using c7) (by show (0#32).toNat + _ < _; simp; omega) hPv
      exact hP.regs this rfl rfl rfl rfl rfl rfl rfl rfl rfl
  · have hwa : w.asm = u.asm ∧ w.params = u.params := by
      unfold tsaRun at hw
      rcases tsaStart_cases u.asm.tilesX.toNat u.asm.tilesY.toNat u with ⟨_, he⟩ | ⟨_, he⟩ <;> rw [he] at hw
      · cases hw
      · simp only [Flow.go_andThen, Flow.go.injEq] at hw
        obtain ⟨m, hm⟩ := tsaStep_iterate_eq (tsaCount (tsaInit u.asm.tilesX.toNat u.asm.tilesY.toNat u))
          (tsaInit u.asm.tilesX.toNat u.asm.tilesY.toNat u)
        rw [← hw, hm]
        exact ⟨rfl, rfl⟩
    refine Flow.both_andThen (hP.asmGathers _ ?_ ?_ (hP.forget .IMG1 hPw)) fun t _ ht =>
      hP.regs ht rfl rfl rfl rfl rfl rfl rfl rfl rfl
    · refine asmChecked_congr (s := u) hwa.2 ?_ ?_ ?_ ?_ ?_ ⟨by assumption, by assumption, by assumption, by assumption, by assumption, by assumption, by assumption⟩ <;>
        · show _ = _
          rw [← hwa.1]
          rfl
    · show w.asm.i.toNat + _ ≤ w.asm.n.toNat
      rw [hwa.1, hiu]
      simp

theorem BufferProp.asmRun {P : State → Prop} (hP : BufferProp P) {s : State} (p : AsmOperands) (h : P s) :
    (Machine.asmRun p s).both P := by
  refine Flow.both_andThen (hP.asmStart p h) fun t ht hPt => ?_
  have hc := asmStart_checked ht
  rcases asmStart_cases p s with ⟨e, n, he⟩ | ⟨_, _, _, _, _, he⟩ <;> rw [he] at ht
  · cases ht
  · cases ht
    exact hP.asmStages hc rfl rfl hPt

end Sys2Proof.Machine
end

