-- ==== Sys2Proof/Laws/PerInstr.lean ====
section
/-! SUPPORT. Statements about every instruction as syntax, one lemma per constructor. -/

/-- The encoder writes exactly the bytes the opcode table gives the instruction's row (R90), whatever the marker. -/
def Sys2Proof.Laws.EncodedLength.Statement (i : Sys2Proof.Instr) : Prop :=
  ∀ m : Sys2Proof.Byte, (Sys2Proof.encode m i).length = i.size

namespace Sys2Proof.Laws

open Sys2Proof

theorem EncodedLength.mark (m : Byte) : EncodedLength.Statement (.mark m) := fun _ => rfl

theorem EncodedLength.lit (b : Byte) : EncodedLength.Statement (.lit b) := fun _ => rfl

theorem EncodedLength.esc : EncodedLength.Statement (.esc) := fun _ => rfl

theorem EncodedLength.bref (o c : Byte) : EncodedLength.Statement (.bref o c) := fun _ => rfl

theorem EncodedLength.etcIndNf (f : IndFields) : EncodedLength.Statement (.etcIndNf f) := fun _ => rfl

theorem EncodedLength.etcIndFl (f : IndFields) : EncodedLength.Statement (.etcIndFl f) := fun _ => rfl

theorem EncodedLength.etcDifNf (f : DifFields) : EncodedLength.Statement (.etcDifNf f) := fun _ => rfl

theorem EncodedLength.etcDifFl (f : DifFields) : EncodedLength.Statement (.etcDifFl f) := fun _ => rfl

theorem EncodedLength.etcA4 (a : BitVec 64) : EncodedLength.Statement (.etcA4 a) := fun _ => rfl

theorem EncodedLength.cmdDecompress : EncodedLength.Statement (.cmdDecompress) := fun _ => rfl

theorem EncodedLength.cmdParseHeader : EncodedLength.Statement (.cmdParseHeader) := fun _ => rfl

theorem EncodedLength.cmdDecodeBlock : EncodedLength.Statement (.cmdDecodeBlock) := fun _ => rfl

theorem EncodedLength.cmdBuildScramble : EncodedLength.Statement (.cmdBuildScramble) := fun _ => rfl

theorem EncodedLength.cmdDecodeTex : EncodedLength.Statement (.cmdDecodeTex) := fun _ => rfl

theorem EncodedLength.cmdDecodeEntry : EncodedLength.Statement (.cmdDecodeEntry) := fun _ => rfl

theorem EncodedLength.cmdDecodeRaw : EncodedLength.Statement (.cmdDecodeRaw) := fun _ => rfl

theorem EncodedLength.cmdReserved (c : Byte) : EncodedLength.Statement (.cmdReserved c) := fun _ => rfl

end Sys2Proof.Laws
end

