-- ==== Sys2Proof/Laws/Sequencer.lean ====
section
/-! SUPPORT. What a step is in each situation of the block. -/

namespace Sys2Proof.Machine

theorem step_waits {s : State} (hb : s.status.busy = false) (hh : s.host = []) : step s = .next s := by
  simp [step, nextStep, hb, hh]

theorem step_idle {s : State} {e : HostEvent} {rest : List HostEvent} (hb : s.status.busy = false)
    (hh : s.host = e :: rest) : step s = hostIdle e.op (withHost rest s) := by
  simp [step, nextStep, hb, hh]

theorem step_unit {s : State} (hb : s.status.busy = true) (hh : s.host = []) : step s = unitStep s := by
  simp [step, nextStep, hb, hh]

theorem step_lands {s : State} {e : HostEvent} {rest : List HostEvent} (hb : s.status.busy = true)
    (hh : s.host = e :: rest) (ha : e.after = 0) : step s = hostBusy e.op (withHost rest s) := by
  simp [step, nextStep, hb, hh, ha]

theorem step_delayed {s : State} {e : HostEvent} {rest : List HostEvent} (hb : s.status.busy = true)
    (hh : s.host = e :: rest) (ha : e.after ≠ 0) :
    step s = unitStep (withHost ({ e with after := e.after - 1 } :: rest) s) := by
  simp [step, nextStep, hb, hh, ha]

/-- A turn of the sequencer's token loop is a turn of LZD's loop. -/
theorem tokenStep_eq {s : State} (h : s.lzd.ip.toNat < s.inLen.toNat) : tokenStep s = .next (lzdStep s).state := by
  unfold tokenStep lzdStep
  rw [if_neg (by omega)]
  cases ht : tokenAt s with
  | error e => rfl
  | ok p =>
    obtain ⟨i, rest⟩ := p
    rcases decodeToken_ok ht with ⟨b, _, rfl, _⟩ | ⟨rfl, _⟩ | ⟨o, c, _, rfl, _⟩ <;> rfl

/-- LZD's start step in the sequencer (R121). -/
theorem markStep_eq (s : State) :
    markStep s = .next (if s.inLen.toNat = 0 then (lzdStart s).state
      else if (lzdMark (s.rd .IN 0) s).state.status.busy then goTo .token (lzdMark (s.rd .IN 0) s).state
      else (lzdMark (s.rd .IN 0) s).state) := by
  unfold markStep markerBytes
  by_cases h : s.inLen.toNat = 0
  · simp [h, decode]
  · simp [h, decode, exec, execMark, whileBusy]

/-! ### The end of a disturbed command -/

/-- A read of a running block answers no bit that does not exist (R21, R25). -/
theorem answerUnspecified_lt (bits : Nat) (s : State) : (answerUnspecified bits s).readData.toNat < 2 ^ bits := by
  simp only [answerUnspecified_readData, BitVec.toNat_setWidth]
  exact (Nat.mod_le _ _).trans_lt (Nat.mod_lt _ (Nat.two_pow_pos bits))

/-- A disturbance that leaves CTRL alone remembers of RAW_LZ what was known (R324). -/
theorem disturb_eq {old s : State} (h : s.ctrl = old.ctrl) :
    disturb old s = { s with seq := .disturbed (rawLzSeen old) } := by
  unfold disturb goTo rawLzSeen
  rw [h]
  cases old.ctrl.rawLz <;> simp

theorem FaultName.drawn_mem (n : Nat) : FaultName.drawn n ∈ FaultName.all := by
  have h : ∀ k < 11, FaultName.all.getD k .capacity ∈ FaultName.all := by decide
  exact h _ (Nat.mod_lt _ (by decide))

/-- Everything the end says of STATUS and the fault registers. -/
theorem loseStatus_outcome (s : State) :
    (loseStatus s).status.busy = false ∧ (loseStatus s).status.done = true ∧
      (((loseStatus s).status.err = false ∧ (loseStatus s).errCode = 0#8 ∧ (loseStatus s).errInfo = 0#32) ∨
        ((loseStatus s).status.err = true ∧ ∃ e ∈ FaultName.all, (loseStatus s).errCode = e.code)) := by
  refine ⟨rfl, rfl, ?_⟩
  by_cases h : (Config.unspecResult s.draws 0).getLsbD 0 = true
  · exact .inr ⟨h, _, FaultName.drawn_mem _, if_pos h⟩
  · exact .inl ⟨eq_false_of_ne_true h, if_neg h, if_neg h⟩

theorem loseOutput_eq (s : State) :
    loseOutput s = { s with
      outBuf := Memory.blank 8 s.draws, outLen := Config.unspecResult s.draws 0, draws := s.draws + 1 } := rfl

theorem loseTable_eq (s : State) :
    loseTable s = { s with
      scr := Memory.blank 32 s.draws, scrLen := Config.unspecResult s.draws 0, draws := s.draws + 1 } := rfl

theorem loseImage_eq (s : State) :
    loseImage s = { s with
      cblk := Memory.blank 8 s.draws, ablk := Memory.blank 8 (s.draws + 1), img0 := Memory.blank 8 (s.draws + 2)
      img1 := Memory.blank 8 (s.draws + 3), imgW := (Config.unspecResult s.draws 0).setWidth 16
      imgH := (Config.unspecResult s.draws 1).setWidth 16, draws := s.draws + 4 } := by
  simp only [loseImage, State.forget, State.setBuf]

theorem loseHeader_eq (s : State) : loseHeader s = { s with ti := (loseHeader s).ti, draws := s.draws + 1 } := rfl

theorem loseStatus_eq (s : State) :
    loseStatus s = { s with
      status := (loseStatus s).status, errCode := (loseStatus s).errCode, errInfo := (loseStatus s).errInfo
      seq := .idle, draws := s.draws + 1 } := rfl

/-- What every property kept by losing a result, each where its row marks it, says of the end. -/
theorem endDisturbed_keeps {P : State → Prop} {rawLz : Bool} {s : State}
    (ho : writesOutput rawLz s.cmd = true → ∀ s, P s → P (loseOutput s))
    (ht : writesTable s.cmd = true → ∀ s, P s → P (loseTable s))
    (hl : writesTile s.cmd = true → ∀ s, P s → P (s.forget .TILEOUT))
    (hi : writesImage s.cmd = true → ∀ s, P s → P (loseImage s))
    (hh : runsHeader s.cmd = true → ∀ s, P s → P (loseHeader s)) (hs : ∀ s, P s → P (loseStatus s)) (h : P s) :
    P (endDisturbed rawLz s) := by
  have key : ∀ {b : Bool} {f : State → State} {u : State}, (b = true → ∀ s, P s → P (f s)) → P u →
      P (loseIf b f u) := by
    intro b f u hf hu
    cases b
    · exact hu
    · exact hf rfl u hu
  exact hs _ (key hh (key hi (key hl (key ht (key ho h)))))

/-- The registers that no command writes are kept (R261). -/
theorem endDisturbed_operands (rawLz : Bool) (s : State) :
    let t := endDisturbed rawLz s
    t.cmd = s.cmd ∧ t.params = s.params ∧ t.inBuf = s.inBuf ∧ t.inLen = s.inLen ∧ t.width = s.width ∧
      t.height = s.height ∧ t.hasAlpha = s.hasAlpha ∧ t.ctrl = s.ctrl ∧ t.host = s.host ∧ t.readData = s.readData := by
  refine endDisturbed_keeps
    (P := fun t => t.cmd = s.cmd ∧ t.params = s.params ∧ t.inBuf = s.inBuf ∧ t.inLen = s.inLen ∧ t.width = s.width ∧
      t.height = s.height ∧ t.hasAlpha = s.hasAlpha ∧ t.ctrl = s.ctrl ∧ t.host = s.host ∧ t.readData = s.readData)
    ?_ ?_ ?_ ?_ ?_ ?_ ⟨rfl, rfl, rfl, rfl, rfl, rfl, rfl, rfl, rfl, rfl⟩
  · intro _ t h; rw [loseOutput_eq]; exact h
  · intro _ t h; rw [loseTable_eq]; exact h
  · exact fun _ t h => h
  · intro _ t h; rw [loseImage_eq]; exact h
  · intro _ t h; rw [loseHeader_eq]; exact h
  · intro t h; rw [loseStatus_eq]; exact h

namespace BufferProp

variable {P : State → Prop}

theorem disturb (hP : BufferProp P) (old : State) {s : State} (h : P s) : P (disturb old s) := hP.goTo _ h

theorem endDisturbed (hP : BufferProp P) (rawLz : Bool) {s : State} (h : P s) : P (endDisturbed rawLz s) := by
  refine endDisturbed_keeps ?_ ?_ ?_ ?_ ?_ ?_ h
  · exact fun _ _ h => hP.regs (hP.forget .OUT h) rfl rfl rfl rfl rfl rfl rfl rfl rfl
  · exact fun _ _ h => hP.regs (hP.forgetScr h) rfl rfl rfl rfl rfl rfl rfl rfl rfl
  · exact fun _ _ h => hP.forget .TILEOUT h
  · exact fun _ _ h => hP.regs (hP.forget .IMG1 (hP.forget .IMG0 (hP.forget .ABLK (hP.forget .CBLK h))))
      rfl rfl rfl rfl rfl rfl rfl rfl rfl
  · exact fun _ _ h => hP.regs h rfl rfl rfl rfl rfl rfl rfl rfl rfl
  · exact fun _ h => hP.regs h rfl rfl rfl rfl rfl rfl rfl rfl rfl

end BufferProp

end Sys2Proof.Machine
end

