-- ==== Sys2Proof/Tests/Slice0.lean ====
section
/-! SUPPORT. The model's own tests: well-formedness, decoding of words written out from the spec's encodings, one or two
steps per instruction with the results of spec/95_test_vectors.md, and for every statement with hypotheses a state
that meets them. -/

namespace Sys2Proof.Tests

open Sys2Proof Sys2Proof.Machine Sys2Proof.Reference
open Sys2Proof.Config (BufName)

set_option maxRecDepth 10000

/-! ### Helpers -/

/-- `l` in buffer `b` from byte 0 on. -/
def load (b : BufName) (l : List Byte) (s : State) : State := State.fill b 0 (fun j => l.getD j 0#8) l.length s

/-- The first `n` bytes of buffer `b`. -/
def bytes (b : BufName) (n : Nat) (s : State) : List Byte := (List.range n).map fun j => s.rd b j

/-- The state after an instruction. -/
def after (i : Instr) (s : State) : State := Safety.reached (exec i s) s

/-- After reset, with the stream `l` in IN. -/
def streamed (l : List Byte) : State := { load .IN l State.reset with inLen := BitVec.ofNat 32 l.length }

/-- After reset, with `l` in OUT. -/
def output (l : List Byte) : State := { load .OUT l State.reset with outLen := BitVec.ofNat 32 l.length }

/-- After reset, with a colour block and an alpha block. -/
def blocks (c a : List Byte) (alpha : Bool) : State := { load .ABLK a (load .CBLK c State.reset) with hasAlpha := alpha }

/-- `s` with the raw-mode operands. -/
def sized (w h : Half) (s : State) : State := { s with width := w, height := h }

/-- `s` with that OUT_CAP. -/
def outCap (n : Word) (s : State) : State := { s with params := { s.params with outCap := n } }

/-- `s` inside CMD.DECOMPRESS, `ip` and `M` given. -/
def running (q : Seq) (ip : Word) (m : Byte) (s : State) : State :=
  { acknowledge 1#8 s with seq := q, lzd := { s.lzd with ip := ip, m := m } }

/-- STATUS, ERR_CODE and ERR_INFO as the host reads them. -/
def record (s : State) : Nat × Nat × Nat := (s.status.word.toNat, s.errCode.toNat, s.errInfo.toNat)

/-- `SCR[0 .. n)`. -/
def table (n : Nat) (s : State) : List Nat := (List.range n).map fun j => (s.rdScr j).toNat

/-! ### Well-formedness: what each check refuses (R94, R96, R109) -/

theorem test_lit_of_marker_illFormed : (Instr.lit 0x04#8).wellFormed 0x04#8 = false := by decide
theorem test_bref_offset_marker_illFormed : (Instr.bref 0x04#8 0x01#8).wellFormed 0x04#8 = false := by decide
theorem test_reserved_of_used_code_illFormed : (Instr.cmdReserved 0x07#8).wellFormed 0x04#8 = false := by decide
theorem test_reserved_edges_wellFormed :
    (Instr.cmdReserved 0x00#8).wellFormed 0x04#8 = true ∧ (Instr.cmdReserved 0x08#8).wellFormed 0x04#8 = true := by
  decide

/-! ### Decoding of written-out words -/

/-- R93; P1 of 95_test_vectors.md. -/
theorem test_decode_mark : decode .marker [0x04#8] = .ok (.mark 0x04#8, []) := rfl
/-- R94. -/
theorem test_decode_lit : decode (.token 0x04#8) [0x43#8] = .ok (.lit 0x43#8, []) := rfl
/-- R95. -/
theorem test_decode_esc : decode (.token 0x04#8) [0x04#8, 0x04#8] = .ok (.esc, []) := rfl
/-- R96. -/
theorem test_decode_bref : decode (.token 0x04#8) [0x04#8, 0x01#8, 0x03#8] = .ok (.bref 0x01#8 0x03#8, []) := rfl
/-- R98. -/
theorem test_decode_cut_token : decode (.token 0xFF#8) [0xFF#8, 0x01#8] = .error .truncatedToken := rfl
/-- R100, R102; V-ETC-02. -/
theorem test_decode_indNf :
    decode .colour [0x14#8, 0x25#8, 0x36#8, 0x00#8, 0xCC#8, 0xCC#8, 0xAA#8, 0xAA#8] =
      .ok (.etcIndNf { table1 := 0#3, table2 := 0#3, r1 := 1#4, r2 := 4#4, g1 := 2#4, g2 := 5#4
                       b1 := 3#4, b2 := 6#4, bottom := 0xAAAACCCC#32 }, []) := by rfl
/-- R99, R100; V-ETC-03. -/
theorem test_decode_indFl :
    decode .colour [0xF0#8, 0x0F#8, 0xA5#8, 0x7D#8, 0x12#8, 0x34#8, 0x56#8, 0x78#8] =
      .ok (.etcIndFl { table1 := 3#3, table2 := 7#3, r1 := 15#4, r2 := 0#4, g1 := 0#4, g2 := 15#4
                       b1 := 10#4, b2 := 5#4, bottom := 0x78563412#32 }, []) := by rfl
/-- R101; V-ETC-04. -/
theorem test_decode_difNf :
    decode .colour [0x54#8, 0xA3#8, 0xF1#8, 0x3A#8, 0xFF#8, 0x00#8, 0x0F#8, 0xF0#8] =
      .ok (.etcDifNf { table1 := 1#3, table2 := 6#3, r := 10#5, dr := 4#3, g := 20#5, dg := 3#3
                       b := 30#5, db := 1#3, bottom := 0xF00F00FF#32 }, []) := by rfl
/-- R101; V-ETC-05. -/
theorem test_decode_difFl :
    decode .colour [0xFB#8, 0x04#8, 0x87#8, 0x03#8, 0x00#8, 0x00#8, 0x00#8, 0x00#8] =
      .ok (.etcDifFl { table1 := 0#3, table2 := 0#3, r := 31#5, dr := 3#3, g := 0#5, dg := 4#3
                       b := 16#5, db := 7#3, bottom := 0#32 }, []) := by rfl
/-- R103; V-ETC-10. -/
theorem test_decode_a4 :
    decode .alpha [0x08#8, 0x00#8, 0x00#8, 0x00#8, 0x00#8, 0x00#8, 0x00#8, 0xF0#8] =
      .ok (.etcA4 0xF000000000000008#64, []) := by rfl
/-- R109: the eight kinds of command code. -/
theorem test_decode_commands :
    [0x01#8, 0x02#8, 0x03#8, 0x04#8, 0x05#8, 0x06#8, 0x07#8, 0x08#8].map commandInstr =
      [.cmdDecompress, .cmdParseHeader, .cmdDecodeBlock, .cmdBuildScramble, .cmdDecodeTex, .cmdDecodeEntry,
        .cmdDecodeRaw, .cmdReserved 0x08#8] := by decide

/-- The opcode table's numbering: the token `04 05 02` as a 24-bit word, its first byte the lowest. -/
theorem test_table_word_bref : decodeTableWord 24 0x020504 = some (.bref 0x05#8 0x02#8) := by decide
/-- A command code as a table word. -/
theorem test_table_word_command : decodeTableWord 8 0x06 = some .cmdDecodeEntry := by decide
/-- The next step after `withFetchWord` runs the token that was placed. -/
theorem test_withFetchWord_esc : (Safety.reached (step (State.reset.withFetchWord 16 0x7E7E)) State.reset).rd .OUT 0 = 0x7E#8 := by
  decide
/-- The next step after `withFetchWord` runs the command that was placed (V-CMD-03). -/
theorem test_withFetchWord_reserved :
    record (Safety.reached (step (State.reset.withFetchWord 8 0x08)) State.reset) = (0x06, 0x15, 8) := by decide

/-! ### One step of each instruction, against 95_test_vectors.md -/

/-- R121; V-LZ-15. -/
theorem test_mark : (after (.mark 0xAA#8) (streamed [0xAA#8])).lzd.m = 0xAA#8 := by decide
/-- R121; V-LZ-02. -/
theorem test_mark_empty : record (after (.mark 0xAA#8) (streamed [])) = (0x06, 0x10, 0) := by decide
/-- R123: P1, the second literal. -/
theorem test_lit : bytes .OUT 2 (after (.lit 0x42#8) (output [0x41#8])) = [0x41#8, 0x42#8] := by decide
/-- R123; V-LZ-27. -/
theorem test_lit_overflow :
    record (after (.lit 0x42#8) (running .token 2#32 0xFF#8 (outCap 1#32 (output [0x41#8])))) = (0x06, 0x11, 2) := by
  decide
/-- R124; P1, `ip = 3`. -/
theorem test_esc : (bytes .OUT 3 (after .esc (running .token 3#32 0x04#8 (output [0x41#8, 0x42#8]))),
    (after .esc (running .token 3#32 0x04#8 (output [0x41#8, 0x42#8]))).lzd.ip.toNat) = ([0x41#8, 0x42#8, 0x04#8], 5) := by
  decide
/-- R125, R126: an overlapping copy with a corrected offset; V-LZ-05. -/
theorem test_bref_overlap :
    bytes .OUT 7 (after (.bref 0x03#8 0x05#8) (running .token 3#32 0x01#8 (output [0x41#8, 0x42#8]))) =
      [0x41#8, 0x42#8, 0x41#8, 0x42#8, 0x41#8, 0x42#8, 0x41#8] := by decide
/-- R97, R125: the effective offset is 0; V-LZ-07. -/
theorem test_bref_offset_zero :
    record (after (.bref 0x01#8 0x03#8) (running .token 2#32 0x00#8 (output [0x41#8]))) = (0x06, 0x04, 2) := by decide
/-- R179: the four selectors; V-ETC-02, column 0. -/
theorem test_indNf :
    ((after (.etcIndNf { table1 := 0#3, table2 := 0#3, r1 := 1#4, r2 := 4#4, g1 := 2#4, g2 := 5#4
                         b1 := 3#4, b2 := 6#4, bottom := 0xAAAACCCC#32 }) State.reset).rd .TILEOUT 48,
      (after (.etcIndNf { table1 := 0#3, table2 := 0#3, r1 := 1#4, r2 := 4#4, g1 := 2#4, g2 := 5#4
                          b1 := 3#4, b2 := 6#4, bottom := 0xAAAACCCC#32 }) State.reset).rd .TILEOUT 24) =
      (0x09#8, 0x4C#8) := by decide
/-- R178, R181: rows against columns, both clamps; V-ETC-03, rows 0 and 2. -/
theorem test_indFl :
    (let t := after (.etcIndFl { table1 := 3#3, table2 := 7#3, r1 := 15#4, r2 := 0#4, g1 := 0#4, g2 := 15#4
                                 b1 := 10#4, b2 := 5#4, bottom := 0x78563412#32 }) State.reset
     bytes .TILEOUT 8 t ++ [t.rd .TILEOUT 32, t.rd .TILEOUT 33, t.rd .TILEOUT 34]) =
      [0xFF#8, 0x0D#8, 0xB7#8, 0xFF#8, 0xD5#8, 0x00#8, 0x80#8, 0xFF#8, 0x00#8, 0xD0#8, 0x26#8] := by decide
/-- R175, R177; V-ETC-04, row 0. -/
theorem test_difNf :
    bytes .TILEOUT 16 (after (.etcDifNf { table1 := 1#3, table2 := 6#3, r := 10#5, dr := 4#3, g := 20#5, dg := 3#3
                                          b := 30#5, db := 1#3, bottom := 0xF00F00FF#32 }) State.reset) =
      [0x57#8, 0xAA#8, 0xFC#8, 0xFF#8, 0x63#8, 0xB6#8, 0xFF#8, 0xFF#8, 0x00#8, 0x53#8, 0x95#8, 0xFF#8,
        0x10#8, 0x9C#8, 0xDE#8, 0xFF#8] := by decide
/-- R177: wrapped sums and DIFF_OVF; V-ETC-05, row 3. -/
theorem test_difFl :
    (let t := after (.etcDifFl { table1 := 0#3, table2 := 0#3, r := 31#5, dr := 3#3, g := 0#5, dg := 4#3
                                 b := 16#5, db := 7#3, bottom := 0#32 }) State.reset
     (t.status.diffOvf, t.rd .TILEOUT 48, t.rd .TILEOUT 49, t.rd .TILEOUT 50)) = (true, 0x12#8, 0xE9#8, 0x7D#8) := by
  decide
/-- R182, R188; V-ETC-07: alpha runs down the columns. -/
theorem test_a4 :
    (let t := after (.etcA4 0xFEDCBA9876543210#64) State.reset
     (t.rd .TILEOUT 7, t.rd .TILEOUT 19, t.rd .TILEOUT 63)) = (0x44#8, 0x11#8, 0xFF#8) := by decide
/-- R251; program P1. -/
theorem test_decompress :
    (let t := after .cmdDecompress (streamed [0x04#8, 0x41#8, 0x42#8, 0x04#8, 0x04#8, 0x43#8, 0x04#8, 0x05#8, 0x02#8,
        0x04#8, 0x01#8, 0x03#8, 0x04#8, 0x03#8, 0x04#8, 0x05#8, 0x00#8])
     (record t, bytes .OUT t.outLen.toNat t)) =
      ((0x02, 0, 0), [0x41#8, 0x42#8, 0x04#8, 0x43#8, 0x41#8, 0x42#8, 0x42#8, 0x42#8, 0x42#8, 0x42#8, 0x42#8,
        0x42#8, 0x42#8, 0x05#8, 0x00#8]) := by decide
/-- R128; program P2. -/
theorem test_decompress_fault :
    (let t := after .cmdDecompress (streamed [0x00#8, 0x10#8, 0x20#8, 0x00#8, 0x03#8, 0x02#8, 0x00#8, 0x00#8, 0x00#8,
        0x07#8, 0x01#8, 0x30#8])
     (record t, t.outLen.toNat)) = ((0x06, 0x04, 8), 5) := by decide

/-- The header `H` of 95_test_vectors.md Part 3, its data size `size` and its format `format`. -/
def headerH (size format : Byte) : List Byte :=
  [0x54#8, 0x45#8, 0x58#8, 0x30#8, 0#8, 0#8, 0#8, 0#8, size, 0#8, 0#8, 0#8, 0x24#8, 0#8, 0#8, 0#8, format, 0#8, 0#8, 0#8,
    0x10#8, 0#8, 0x08#8, 0#8, 0x01#8, 0x02#8, 0#8, 0#8, 0#8, 0#8, 0#8, 0#8, 0x00#8, 0x10#8, 0x5E#8, 0x5F#8]

/-- R153; V-HDR-01, on a header with no data (V-HDR-08). -/
theorem test_parseHeader :
    (let t := after .cmdParseHeader (output (headerH 0#8 0x0C#8))
     (record t, t.ti.magic, t.ti.timestamp, t.ti.width, t.ti.height, t.ti.fmtClass, t.ti.sizeOk)) =
      ((0x02, 0, 0), 0x30584554#32, 0x5F5E1000#32, 16#16, 8#16, 0#2, true) := by decide
/-- R156; V-HDR-05. -/
theorem test_parseHeader_strict :
    record (after .cmdParseHeader
      { output (headerH 0x40#8 0x0C#8) with outLen := 101#32, ctrl := { strict := true, rawLz := false } }) =
      (0x06, 0x02, 65) := by decide
/-- R253; V-ETC-07, rows 0 and 3, last pixels. -/
theorem test_decodeBlock :
    (let t := after .cmdDecodeBlock (blocks [0x14#8, 0x25#8, 0x36#8, 0x00#8, 0x00#8, 0x00#8, 0x00#8, 0x00#8]
        [0x10#8, 0x32#8, 0x54#8, 0x76#8, 0x98#8, 0xBA#8, 0xDC#8, 0xFE#8] true)
     (record t, bytes .TILEOUT 16 t, t.rd .TILEOUT 63)) =
      ((0x02, 0, 0), [0x13#8, 0x24#8, 0x35#8, 0x00#8, 0x13#8, 0x24#8, 0x35#8, 0x44#8, 0x46#8, 0x57#8, 0x68#8, 0x88#8,
        0x46#8, 0x57#8, 0x68#8, 0xCC#8], 0xFF#8) := by decide
/-- R177, R253; V-CMD-17. -/
theorem test_decodeBlock_overflow :
    record (after .cmdDecodeBlock (blocks [0xFB#8, 0x04#8, 0x87#8, 0x03#8, 0x00#8, 0x00#8, 0x00#8, 0x00#8] [] false)) =
      (0x12, 0, 0) := by decide
/-- R254; V-TSA-19, an odd width. -/
theorem test_buildScramble_odd : table 6 (after .cmdBuildScramble (sized 12#16 8#16 State.reset)) = [0, 1, 4, 2, 5, 6] := by
  decide
/-- R254; V-TSA-05, both branches of the new-row action. -/
theorem test_buildScramble_rows : table 6 (after .cmdBuildScramble (sized 8#16 12#16 State.reset)) = [0, 1, 2, 3, 4, 5] := by
  decide
/-- R255; V-ASM-13. -/
theorem test_decodeTex :
    (let t := after .cmdDecodeTex (sized 4#16 4#16 (streamed [0x14#8, 0x25#8, 0x36#8, 0#8, 0#8, 0#8, 0#8, 0#8]))
     (record t, t.imgW, bytes .IMG1 9 t)) =
      ((0x02, 0, 0), 4#16, [0x13#8, 0x24#8, 0x35#8, 0xFF#8, 0x13#8, 0x24#8, 0x35#8, 0xFF#8, 0x46#8]) := by decide
/-- R237; V-ASM-09. -/
theorem test_decodeTex_scrRange :
    record (after .cmdDecodeTex (sized 4#16 8#16 (streamed (List.replicate 16 0#8)))) = (0x06, 0x14, 1) := by decide
/-- R256; V-CMD-11, on a header with no data. -/
theorem test_decodeEntry_format :
    record (after .cmdDecodeEntry (streamed (0xEE#8 :: headerH 0#8 0x0E#8))) = (0x06, 0x03, 14) := by decide
/-- R256; V-CMD-13. -/
theorem test_decodeEntry_bounds :
    record (after .cmdDecodeEntry (streamed [0xFF#8, 0x41#8, 0xFF#8, 0x02#8, 0x01#8])) = (0x06, 0x04, 2) := by decide
/-- R257; V-CMD-16. -/
theorem test_decodeRaw_lz :
    (let t := after .cmdDecodeRaw { sized 4#16 4#16 (streamed [0x7E#8, 0x14#8, 0x25#8, 0x36#8, 0#8, 0x7E#8, 0x01#8, 0x04#8])
        with ctrl := { strict := false, rawLz := true } }
     (record t, bytes .OUT 8 t, t.rd .IMG1 0)) =
      ((0x02, 0, 0), [0x14#8, 0x25#8, 0x36#8, 0#8, 0#8, 0#8, 0#8, 0#8], 0x13#8) := by decide
/-- R257; V-CMD-14. -/
theorem test_decodeRaw_fault :
    record (after .cmdDecodeRaw { sized 4#16 4#16 (streamed [0xFF#8, 0xFF#8, 0x01#8, 0x01#8])
      with ctrl := { strict := false, rawLz := true } }) = (0x06, 0x04, 1) := by decide
/-- R258; V-CMD-04. -/
theorem test_reserved : record (after (.cmdReserved 0xFF#8) State.reset) = (0x06, 0x15, 255) := by decide

/-! ### States that meet the hypotheses of the statements, clause by clause -/

/-- A pending write to CMD. -/
def cmdWrite (v : Word) (n : Nat) : HostEvent := { after := n, op := .writeReg .CMD v }

/-- A header of 36 bytes with the magic of `State.reset`, format, sides and data size given. -/
def headerWith (size format w h : Byte) : List Byte :=
  [0x54#8, 0x45#8, 0x58#8, 0x30#8, 0#8, 0#8, 0#8, 0#8, size, 0#8, 0#8, 0#8, 0x24#8, 0#8, 0#8, 0#8, format, 0#8, 0#8, 0#8,
    w, 0#8, h, 0#8] ++ List.replicate 12 0#8

/-- A header and one block: a 4 by 4 ETC1 image. -/
def entry4 : List Byte := headerWith 8#8 0x0C#8 4#8 4#8 ++ [0x14#8, 0x25#8, 0x36#8, 0#8, 0#8, 0#8, 0#8, 0#8]

/-- `s` with CTRL given. -/
def controlled (strict rawLz : Bool) (s : State) : State := { s with ctrl := { strict := strict, rawLz := rawLz } }

/-- `s` with the image and table capacities given. -/
def caps (img scr : Nat) (s : State) : State := { s with params := { s.params with imgCap := img, scrCap := scr } }

theorem witness_DecodeOfEncodeIsInstr :
    (Instr.lit 0x00#8).wellFormed 0xFF#8 = true ∧ (Instr.bref 0xFE#8 0xFF#8).wellFormed 0xFF#8 = true ∧
      (Instr.cmdReserved 0x08#8).wellFormed 0xFF#8 = true := by decide
theorem witness_EncodeOfDecodedIsBytes :
    (∀ m', Space.token 0x04#8 = .token m' → m' = 0x04#8) ∧
      decode (.token 0x04#8) [0x04#8, 0x05#8, 0x02#8, 0x00#8] = .ok (.bref 0x05#8 0x02#8, [0x00#8]) :=
  ⟨fun _ h => (Space.token.inj h).symm, rfl⟩
theorem witness_OffsetMapIsBijection :
    (0xFE#8 : Byte) ≠ 0xFF#8 ∧ (0xFF#8 : Byte) ≠ 0x00#8 ∧ (effectiveOffset 0x00#8 0xFF#8).toNat = 254 ∧
      (effectiveOffset 0xFF#8 0xFE#8).toNat = 254 ∧ (effectiveOffset 0x00#8 0x01#8).toNat = 0 := by decide
theorem witness_StepRunsPendingCommand :
    let s := { State.reset with host := [cmdWrite 0x107#32 3] }
    s.status.busy = false ∧ s.host = { after := 3, op := .writeReg .CMD 0x107#32 } :: [] ∧
      decode .command [(0x107#32 : Word).setWidth 8] = .ok (.cmdDecodeRaw, []) := ⟨rfl, rfl, rfl⟩
theorem witness_StepRunsToken_mark :
    let s := running .mark 0#32 0#8 (streamed [0xAA#8])
    s.status.busy = true ∧ s.host = [] ∧ s.seq = .mark ∧ s.inLen.toNat ≠ 0 := by decide
theorem witness_StepRunsToken_mark_empty :
    let s := running .mark 0#32 0#8 (streamed [])
    s.status.busy = true ∧ s.host = [] ∧ s.seq = .mark ∧ s.inLen.toNat = 0 := by decide
theorem witness_StepRunsToken_end :
    let s := running .token 1#32 0xAA#8 (streamed [0xAA#8])
    s.status.busy = true ∧ s.host = [] ∧ s.seq = .token ∧ s.inLen.toNat ≤ s.lzd.ip.toNat := by decide
theorem witness_StepRunsToken_lit :
    let s := running .token 1#32 0xAA#8 (streamed [0xAA#8, 0xAB#8])
    s.status.busy = true ∧ s.host = [] ∧ s.seq = .token ∧ s.lzd.ip.toNat < s.inLen.toNat ∧
      s.rd .IN s.lzd.ip.toNat ≠ s.lzd.m := by decide
theorem witness_StepRunsToken_lone_marker :
    let s := running .token 1#32 0xAA#8 (streamed [0xAA#8, 0xAA#8])
    s.status.busy = true ∧ s.host = [] ∧ s.seq = .token ∧ s.lzd.ip.toNat < s.inLen.toNat ∧
      s.rd .IN s.lzd.ip.toNat = s.lzd.m ∧ s.inLen.toNat = s.lzd.ip.toNat + 1 := by decide
theorem witness_StepRunsToken_esc :
    let s := running .token 1#32 0xAA#8 (streamed [0xAA#8, 0xAA#8, 0xAA#8])
    s.status.busy = true ∧ s.host = [] ∧ s.seq = .token ∧ s.lzd.ip.toNat < s.inLen.toNat ∧
      s.rd .IN s.lzd.ip.toNat = s.lzd.m ∧ s.lzd.ip.toNat + 1 < s.inLen.toNat ∧
      s.rd .IN (s.lzd.ip.toNat + 1) = s.lzd.m := by decide
theorem witness_StepRunsToken_cut_bref :
    let s := running .token 1#32 0xAA#8 (streamed [0xAA#8, 0xAA#8, 0x01#8])
    s.status.busy = true ∧ s.host = [] ∧ s.seq = .token ∧ s.lzd.ip.toNat < s.inLen.toNat ∧
      s.rd .IN s.lzd.ip.toNat = s.lzd.m ∧ s.rd .IN (s.lzd.ip.toNat + 1) ≠ s.lzd.m ∧
      s.inLen.toNat = s.lzd.ip.toNat + 2 := by decide
theorem witness_StepRunsToken_bref :
    let s := running .token 1#32 0xAA#8 (streamed [0xAA#8, 0xAA#8, 0x01#8, 0x02#8])
    s.status.busy = true ∧ s.host = [] ∧ s.seq = .token ∧ s.lzd.ip.toNat < s.inLen.toNat ∧
      s.rd .IN s.lzd.ip.toNat = s.lzd.m ∧ s.rd .IN (s.lzd.ip.toNat + 1) ≠ s.lzd.m ∧
      s.lzd.ip.toNat + 2 < s.inLen.toNat := by decide
theorem witness_StepRunsBlock_alpha :
    let s := running .alpha 0#32 0#8 (blocks [] (List.replicate 8 0x88#8) true)
    s.status.busy = true ∧ s.host = [] ∧ s.seq = .alpha ∧
      decode .alpha ((List.range 8).map fun j => s.rd .ABLK j) = .ok (.etcA4 0x8888888888888888#64, []) :=
  ⟨rfl, rfl, rfl, rfl⟩
theorem witness_StepRunsBlock_colour :
    let s := running .colour 0#32 0#8 (blocks [0xFB#8, 0x04#8, 0x87#8, 0x03#8, 0#8, 0#8, 0#8, 0#8] [] false)
    s.status.busy = true ∧ s.host = [] ∧ s.seq = .colour ∧
      decode .colour ((List.range 8).map fun j => s.rd .CBLK j) =
        .ok (.etcDifFl { table1 := 0#3, table2 := 0#3, r := 31#5, dr := 3#3, g := 0#5, dg := 4#3
                         b := 16#5, db := 7#3, bottom := 0#32 }, []) := ⟨rfl, rfl, rfl, rfl⟩
theorem witness_MarkStartsStream : (streamed [0x00#8]).inLen.toNat ≠ 0 ∧ State.reset.inLen.toNat = 0 := by decide
theorem witness_LitAppendsByte :
    (let s := outCap 2#32 (output [0x41#8]); s.outLen.toNat + 1 ≤ s.params.outCap.toNat) ∧
      (let s := outCap 1#32 (output [0x41#8]); s.params.outCap.toNat < s.outLen.toNat + 1) := by decide
theorem witness_EscAppendsMarker_fits :
    (let s := outCap 2#32 (output [0x41#8]); s.outLen.toNat + 1 ≤ s.params.outCap.toNat) ∧
      (let s := outCap 0#32 State.reset; s.params.outCap.toNat < s.outLen.toNat + 1) := by decide
theorem witness_EscAppendsMarker_lone :
    let s := running .token 1#32 0xAA#8 (streamed [0xAA#8, 0xAA#8])
    s.status.busy = true ∧ s.host = [] ∧ s.seq = .token ∧ s.inLen.toNat = s.lzd.ip.toNat + 1 ∧
      s.rd .IN s.lzd.ip.toNat = s.lzd.m := by decide
theorem witness_BrefCopiesForward_zero :
    let s := running .token 2#32 0x00#8 (output [0x41#8])
    (effectiveOffset s.lzd.m 0x01#8).toNat = 0 := by decide
theorem witness_BrefCopiesForward_beyond :
    let s := running .token 2#32 0xFF#8 (output [0x41#8])
    s.outLen.toNat < (effectiveOffset s.lzd.m 0x02#8).toNat := by decide
theorem witness_BrefCopiesForward_overflow :
    let s := outCap 5#32 (running .token 2#32 0xFF#8 (output [0x41#8]))
    1 ≤ (effectiveOffset s.lzd.m 0x01#8).toNat ∧ (effectiveOffset s.lzd.m 0x01#8).toNat ≤ s.outLen.toNat ∧
      s.params.outCap.toNat < s.outLen.toNat + (0x05#8 : Byte).toNat := by decide
theorem witness_BrefCopiesForward_copy :
    let s := outCap 5#32 (running .token 2#32 0xFF#8 (output [0x41#8]))
    1 ≤ (effectiveOffset s.lzd.m 0x01#8).toNat ∧ (effectiveOffset s.lzd.m 0x01#8).toNat ≤ s.outLen.toNat ∧
      s.outLen.toNat + (0x04#8 : Byte).toNat ≤ s.params.outCap.toNat := by decide
theorem witness_BrefRepeatsWithPeriod :
    let s := running .token 2#32 0x10#8 (output (List.replicate 254 0x41#8))
    1 ≤ (effectiveOffset s.lzd.m 0xFF#8).toNat ∧ (effectiveOffset s.lzd.m 0xFF#8).toNat ≤ s.outLen.toNat ∧
      s.outLen.toNat + (0xFF#8 : Byte).toNat ≤ s.params.outCap.toNat := by decide
theorem witness_DecompressComputesLz_done :
    let s := streamed [0x02#8, 0x41#8, 0x02#8, 0x01#8, 0x04#8]
    s.status.busy = false ∧ s.inLen.toNat ≤ s.params.inCap.toNat ∧
      lz s.params.outCap.toNat (stream s) = .done (List.replicate 5 0x41#8) := by decide
theorem witness_DecompressComputesLz_fault :
    let s := streamed [0xFF#8, 0x41#8, 0xFF#8]
    s.status.busy = false ∧ s.inLen.toNat ≤ s.params.inCap.toNat ∧
      lz s.params.outCap.toNat (stream s) = .fault 0x10#8 2 [0x41#8] := by decide
theorem witness_DecompressGrowthBound :
    let s := streamed [0x7E#8]
    s.status.busy = false ∧ 1 ≤ s.inLen.toNat ∧ s.inLen.toNat ≤ s.params.inCap.toNat ∧
      exec .cmdDecompress s = .next (after .cmdDecompress s) := ⟨rfl, by decide, by decide, rfl⟩
theorem witness_ParseHeaderOutcome_capacity :
    let s := outCap 35#32 (output (headerWith 0#8 0x0C#8 4#8 4#8))
    s.status.busy = false ∧ s.params.outCap.toNat < s.outLen.toNat := by decide
theorem witness_ParseHeaderOutcome_short :
    let s := { output (headerWith 0#8 0x0C#8 4#8 4#8) with outLen := 35#32 }
    s.status.busy = false ∧ s.outLen.toNat ≤ s.params.outCap.toNat ∧ s.outLen.toNat < 36 := by decide
theorem witness_ParseHeaderOutcome_magic :
    let s := outCap 36#32 (output (List.replicate 36 0#8))
    s.status.busy = false ∧ s.outLen.toNat ≤ s.params.outCap.toNat ∧ 36 ≤ s.outLen.toNat ∧
      ¬ magicOk s (fun j => s.rd .OUT j) := by decide
theorem witness_ParseHeaderOutcome_match :
    let s := outCap 36#32 (output (headerWith 0#8 0x0C#8 4#8 4#8))
    s.status.busy = false ∧ s.outLen.toNat ≤ s.params.outCap.toNat ∧ 36 ≤ s.outLen.toNat ∧
      magicOk s (fun j => s.rd .OUT j) ∧ (header (fun j => s.rd .OUT j) s.outLen.toNat).sizeOk = true := by decide
theorem witness_ParseHeaderOutcome_warn :
    let s := controlled false false (output (headerWith 1#8 0x0C#8 4#8 4#8))
    s.status.busy = false ∧ s.outLen.toNat ≤ s.params.outCap.toNat ∧ 36 ≤ s.outLen.toNat ∧
      magicOk s (fun j => s.rd .OUT j) ∧ (header (fun j => s.rd .OUT j) s.outLen.toNat).sizeOk = false ∧
      s.ctrl.strict = false := by decide
theorem witness_ParseHeaderOutcome_strict :
    let s := controlled true false (output (headerWith 1#8 0x0C#8 4#8 4#8))
    s.status.busy = false ∧ s.outLen.toNat ≤ s.params.outCap.toNat ∧ 36 ≤ s.outLen.toNat ∧
      magicOk s (fun j => s.rd .OUT j) ∧ (header (fun j => s.rd .OUT j) s.outLen.toNat).sizeOk = false ∧
      s.ctrl.strict = true := by decide
theorem witness_SelectorPlanes : (0 : Nat) < 16 ∧ (7 : Nat) < 16 ∧ (8 : Nat) < 16 ∧ (15 : Nat) < 16 := by decide
theorem witness_DecodeBlockTile : State.reset.status.busy = false := rfl
theorem witness_DecodeBlockReadsOnlyItsInputs :
    let s := blocks (List.replicate 8 0x11#8) (List.replicate 8 0x22#8) true
    let s' := output [0x41#8]
    let s' := { load .ABLK (List.replicate 8 0x22#8) (load .CBLK (List.replicate 8 0x11#8) s') with hasAlpha := true }
    s.status.busy = false ∧ s'.status.busy = false ∧ (∀ j < 8, s.rd .CBLK j = s'.rd .CBLK j) ∧
      s.hasAlpha = s'.hasAlpha ∧ (s.hasAlpha = true → ∀ j < 8, s.rd .ABLK j = s'.rd .ABLK j) ∧
      exec .cmdDecodeBlock s = .next (after .cmdDecodeBlock s) ∧
      exec .cmdDecodeBlock s' = .next (after .cmdDecodeBlock s') :=
  ⟨rfl, rfl, by decide, rfl, by decide, rfl, rfl⟩
theorem witness_BuildScrambleTable_width :
    (sized 6#16 8#16 State.reset).status.busy = false ∧ (sized 6#16 8#16 State.reset).width.toNat % 4 ≠ 0 := by decide
theorem witness_BuildScrambleTable_height :
    let s := sized 8#16 7#16 State.reset
    s.status.busy = false ∧ s.width.toNat % 4 = 0 ∧ s.height.toNat % 4 ≠ 0 := by decide
theorem witness_BuildScrambleTable_capacity :
    let s := caps 256 3 (sized 8#16 8#16 State.reset)
    s.status.busy = false ∧ s.width.toNat % 4 = 0 ∧ s.height.toNat % 4 = 0 ∧
      s.params.scrCap < tiles s.width s.height := by decide
theorem witness_BuildScrambleTable_table :
    let s := caps 256 6 (sized 12#16 8#16 State.reset)
    s.status.busy = false ∧ s.width.toNat % 4 = 0 ∧ s.height.toNat % 4 = 0 ∧
      tiles s.width s.height ≤ s.params.scrCap ∧
      exec .cmdBuildScramble s = .next (after .cmdBuildScramble s) := ⟨rfl, rfl, rfl, by decide, rfl⟩
theorem witness_ScrambleEntryBound :
    let s := caps 256 9 (sized 12#16 12#16 State.reset)
    s.status.busy = false ∧ s.width.toNat % 4 = 0 ∧ s.height.toNat % 4 = 0 ∧
      tiles s.width s.height ≤ s.params.scrCap ∧ 8 < tiles s.width s.height ∧
      exec .cmdBuildScramble s = .next (after .cmdBuildScramble s) := ⟨rfl, rfl, rfl, by decide, by decide, rfl⟩
theorem witness_ScrambleClosedFormEven :
    let s := caps 256 6 (sized 8#16 12#16 State.reset)
    s.status.busy = false ∧ s.width.toNat % 8 = 0 ∧ s.height.toNat % 4 = 0 ∧
      tiles s.width s.height ≤ s.params.scrCap ∧ 5 < tiles s.width s.height ∧
      exec .cmdBuildScramble s = .next (after .cmdBuildScramble s) := ⟨rfl, rfl, rfl, by decide, by decide, rfl⟩
theorem witness_ScrambleEvenGridPermutes :
    let s := caps 256 8 (sized 16#16 8#16 State.reset)
    s.status.busy = false ∧ s.width.toNat % 8 = 0 ∧ s.height.toNat % 8 = 0 ∧
      tiles s.width s.height ≤ s.params.scrCap ∧ 7 < tiles s.width s.height ∧
      exec .cmdBuildScramble s = .next (after .cmdBuildScramble s) := ⟨rfl, rfl, rfl, by decide, by decide, rfl⟩
theorem witness_DecodeTexChecks_input :
    let s := { State.reset with inLen := 5#32, params := { State.reset.params with inCap := 4#32 } }
    s.status.busy = false ∧ s.params.inCap.toNat < s.inLen.toNat := by decide
theorem witness_DecodeTexChecks_width :
    let s := sized 6#16 6#16 State.reset
    s.status.busy = false ∧ s.inLen.toNat ≤ s.params.inCap.toNat ∧ s.width.toNat % 4 ≠ 0 := by decide
theorem witness_DecodeTexChecks_height :
    let s := sized 8#16 6#16 State.reset
    s.status.busy = false ∧ s.inLen.toNat ≤ s.params.inCap.toNat ∧ s.width.toNat % 4 = 0 ∧
      s.height.toNat % 4 ≠ 0 := by decide
theorem witness_DecodeTexChecks_image :
    let s := caps 255 4 (sized 8#16 8#16 State.reset)
    s.status.busy = false ∧ s.inLen.toNat ≤ s.params.inCap.toNat ∧ s.width.toNat % 4 = 0 ∧ s.height.toNat % 4 = 0 ∧
      s.params.imgCap < s.width.toNat * s.height.toNat * 4 := by decide
theorem witness_DecodeTexChecks_table :
    let s := caps 256 3 (sized 8#16 8#16 State.reset)
    s.status.busy = false ∧ s.inLen.toNat ≤ s.params.inCap.toNat ∧ s.width.toNat % 4 = 0 ∧ s.height.toNat % 4 = 0 ∧
      s.width.toNat * s.height.toNat * 4 ≤ s.params.imgCap ∧ s.params.scrCap < tiles s.width s.height := by decide
theorem witness_DecodeTexChecks_data :
    let s := caps 256 4 { sized 8#16 8#16 State.reset with hasAlpha := true, inLen := 63#32 }
    s.status.busy = false ∧ s.inLen.toNat ≤ s.params.inCap.toNat ∧ s.width.toNat % 4 = 0 ∧ s.height.toNat % 4 = 0 ∧
      s.width.toNat * s.height.toNat * 4 ≤ s.params.imgCap ∧ tiles s.width s.height ≤ s.params.scrCap ∧
      s.inLen.toNat < tiles s.width s.height * perBlock s.hasAlpha := by decide
theorem witness_DecodeTexImage :
    let s := caps 512 8 (sized 16#16 8#16 (streamed (List.replicate 64 0x11#8)))
    s.status.busy = false ∧ s.inLen.toNat ≤ s.params.inCap.toNat ∧
      fits s s.width s.height s.hasAlpha s.inLen.toNat ∧ tableInGrid s.width s.height := by decide
theorem witness_DecodeTexScrRange :
    let s := caps 384 6 (sized 12#16 8#16 (streamed (List.replicate 48 0x11#8)))
    s.status.busy = false ∧ s.inLen.toNat ≤ s.params.inCap.toNat ∧
      fits s s.width s.height s.hasAlpha s.inLen.toNat ∧ leastOutside s.width s.height 5 := by decide
theorem witness_DecodeTexEvenGridCompletes :
    let s := caps 256 4 (sized 8#16 8#16 (streamed (List.replicate 32 0x11#8)))
    s.status.busy = false ∧ s.inLen.toNat ≤ s.params.inCap.toNat ∧ s.width.toNat % 8 = 0 ∧ s.height.toNat % 8 = 0 ∧
      fits s s.width s.height s.hasAlpha s.inLen.toNat := by decide
theorem witness_RawWithoutLzIsDecodeTex :
    State.reset.status.busy = false ∧ State.reset.ctrl.rawLz = false := by decide
theorem witness_RawWithLzImage :
    let s := caps 64 1 (controlled false true
      (sized 4#16 4#16 (streamed [0x7E#8, 0x14#8, 0x25#8, 0x36#8, 0#8, 0x7E#8, 0x01#8, 0x04#8])))
    s.status.busy = false ∧ s.inLen.toNat ≤ s.params.inCap.toNat ∧ s.ctrl.rawLz = true ∧
      lz s.params.outCap.toNat (stream s) = .done [0x14#8, 0x25#8, 0x36#8, 0#8, 0#8, 0#8, 0#8, 0#8] ∧
      fits s s.width s.height s.hasAlpha 8 ∧ tableInGrid s.width s.height := by decide
theorem witness_RawWithLzFaults_stream :
    let s := controlled false true (streamed [0xFF#8, 0xFF#8, 0x01#8, 0x01#8])
    s.status.busy = false ∧ s.inLen.toNat ≤ s.params.inCap.toNat ∧ s.ctrl.rawLz = true ∧
      lz s.params.outCap.toNat (stream s) = .fault 0x04#8 1 [] := by decide
/-- One byte short of a block. -/
theorem witness_RawWithLzFaults_check :
    let s := caps 64 1 (controlled false true (sized 4#16 4#16 (streamed (0x7E#8 :: List.replicate 7 0x11#8))))
    s.status.busy = false ∧ s.inLen.toNat ≤ s.params.inCap.toNat ∧ s.ctrl.rawLz = true ∧
      lz s.params.outCap.toNat (stream s) = .done (List.replicate 7 0x11#8) ∧
      checkFault s s.width s.height s.hasAlpha 7 = some (0x12#8, 7) := by decide
theorem witness_RawWithLzFaults_scrRange :
    let s := caps 128 2 (controlled false true (sized 4#16 8#16 (streamed (0x7E#8 :: List.replicate 16 0x11#8))))
    s.status.busy = false ∧ s.inLen.toNat ≤ s.params.inCap.toNat ∧ s.ctrl.rawLz = true ∧
      lz s.params.outCap.toNat (stream s) = .done (List.replicate 16 0x11#8) ∧
      fits s s.width s.height s.hasAlpha 16 ∧ leastOutside s.width s.height 1 := by decide
theorem witness_EntryDecodesPayload :
    let s := caps 64 1 (streamed (0xEE#8 :: entry4))
    let d := fun j => entry4.getD j 0#8
    let ti := header d entry4.length
    s.status.busy = false ∧ s.inLen.toNat ≤ s.params.inCap.toNat ∧
      lz s.params.outCap.toNat (stream s) = .done entry4 ∧ 36 ≤ entry4.length ∧ magicOk s d ∧
      (ti.sizeOk = true ∨ s.ctrl.strict = false) ∧ ti.fmtClass ≠ 2#2 ∧
      fits s ti.width ti.height (ti.fmtClass == 1#2) (entry4.length - 36) ∧ tableInGrid ti.width ti.height := by decide
/-- A header whose data, if any, pass the header's checks but not ASM's: 4 by 6 pixels. -/
theorem witness_EntryAssemblyFaults_height :
    let out := headerWith 0#8 0x0D#8 4#8 6#8
    let s := caps 96 1 (streamed (0xEE#8 :: out))
    let d := fun j => out.getD j 0#8
    let ti := header d out.length
    s.status.busy = false ∧ s.inLen.toNat ≤ s.params.inCap.toNat ∧
      lz s.params.outCap.toNat (stream s) = .done out ∧ 36 ≤ out.length ∧ magicOk s d ∧
      (ti.sizeOk = true ∨ s.ctrl.strict = false) ∧ ti.fmtClass ≠ 2#2 ∧
      checkFault s ti.width ti.height (ti.fmtClass == 1#2) (out.length - 36) = some (0x13#8, 1) := by decide
theorem witness_EntryAssemblyFaults_truncated :
    let out := headerWith 0#8 0x0C#8 4#8 4#8
    let s := caps 64 1 (streamed (0xEE#8 :: out))
    let d := fun j => out.getD j 0#8
    let ti := header d out.length
    s.status.busy = false ∧ s.inLen.toNat ≤ s.params.inCap.toNat ∧
      lz s.params.outCap.toNat (stream s) = .done out ∧ 36 ≤ out.length ∧ magicOk s d ∧
      (ti.sizeOk = true ∨ s.ctrl.strict = false) ∧ ti.fmtClass ≠ 2#2 ∧
      checkFault s ti.width ti.height (ti.fmtClass == 1#2) (out.length - 36) = some (0x12#8, 0) := by decide
theorem witness_EntryAssemblyFaults_scrRange :
    let out := headerWith 16#8 0x0C#8 4#8 8#8 ++ List.replicate 16 0x11#8
    let s := caps 128 2 (streamed (0xEE#8 :: out))
    let d := fun j => out.getD j 0#8
    let ti := header d out.length
    s.status.busy = false ∧ s.inLen.toNat ≤ s.params.inCap.toNat ∧
      lz s.params.outCap.toNat (stream s) = .done out ∧ 36 ≤ out.length ∧ magicOk s d ∧
      (ti.sizeOk = true ∨ s.ctrl.strict = false) ∧ ti.fmtClass ≠ 2#2 ∧
      fits s ti.width ti.height (ti.fmtClass == 1#2) (out.length - 36) ∧ leastOutside ti.width ti.height 1 := by decide
theorem witness_EntryFaultsInOrder_stream :
    let s := streamed [0xFF#8, 0x41#8, 0xFF#8, 0x02#8, 0x01#8]
    s.status.busy = false ∧ s.inLen.toNat ≤ s.params.inCap.toNat ∧
      lz s.params.outCap.toNat (stream s) = .fault 0x04#8 2 [0x41#8] := by decide
theorem witness_EntryFaultsInOrder_short :
    let out := (headerWith 0#8 0x0C#8 4#8 4#8).take 35
    let s := streamed (0xEE#8 :: out)
    s.status.busy = false ∧ s.inLen.toNat ≤ s.params.inCap.toNat ∧
      lz s.params.outCap.toNat (stream s) = .done out ∧ out.length < 36 := by decide
theorem witness_EntryFaultsInOrder_magic :
    let out := List.replicate 36 0#8
    let s := streamed (0xEE#8 :: out)
    s.status.busy = false ∧ s.inLen.toNat ≤ s.params.inCap.toNat ∧
      lz s.params.outCap.toNat (stream s) = .done out ∧ ¬ magicOk s (fun j => out.getD j 0#8) := by decide
theorem witness_EntryFaultsInOrder_strict :
    let out := headerWith 1#8 0x0E#8 4#8 4#8
    let s := controlled true false (streamed (0xEE#8 :: out))
    let d := fun j => out.getD j 0#8
    s.status.busy = false ∧ s.inLen.toNat ≤ s.params.inCap.toNat ∧
      lz s.params.outCap.toNat (stream s) = .done out ∧ 36 ≤ out.length ∧ magicOk s d ∧
      (header d out.length).sizeOk = false ∧ s.ctrl.strict = true := by decide
theorem witness_EntryFaultsInOrder_format :
    let out := headerWith 1#8 0x0E#8 4#8 4#8
    let s := controlled false false (streamed (0xEE#8 :: out))
    let d := fun j => out.getD j 0#8
    s.status.busy = false ∧ s.inLen.toNat ≤ s.params.inCap.toNat ∧
      lz s.params.outCap.toNat (stream s) = .done out ∧ 36 ≤ out.length ∧ magicOk s d ∧
      ((header d out.length).sizeOk = true ∨ s.ctrl.strict = false) ∧ (header d out.length).fmtClass = 2#2 := by decide
theorem witness_ReservedCodeFaults :
    (0x08#8 : Byte) = 0#8 ∨ 8 ≤ (0x08#8 : Byte).toNat := by decide
theorem witness_ReservedCodeFaults_idle :
    ((0x00#8 : Byte) = 0#8 ∨ 8 ≤ (0x00#8 : Byte).toNat) ∧ State.reset.status.busy = false := by decide
theorem witness_CommandWhileBusyIsDropped : (running .token 1#32 0#8 State.reset).status.busy = true := rfl
theorem witness_InputCapacityAtLaunch :
    let s := { State.reset with inLen := 1#32, params := { State.reset.params with inCap := 0#32 } }
    s.status.busy = false ∧ s.params.inCap.toNat < s.inLen.toNat := by decide
theorem witness_EveryCommandEnds : (sized 8#16 6#16 State.reset).status.busy = false := rfl
theorem witness_CommandsWriteOnlyTheirRow :
    exec (commandInstr 0x01#8) (streamed [0x7E#8]) = .next (after .cmdDecompress (streamed [0x7E#8])) ∧
      exec .cmdDecodeRaw State.reset = .next (after .cmdDecodeRaw State.reset) ∧ State.reset.ctrl.rawLz = false :=
  ⟨rfl, rfl, rfl⟩
/-- A running state that meets the three invariants, and its step. -/
theorem witness_StepKeeps :
    let s := running .token 1#32 0xAA#8 (streamed [0xAA#8, 0x41#8])
    Safety.statusLegal s ∧ (∀ b, (s.buf b).wf) ∧ s.scr.wf ∧ (s.status.busy = true → Safety.placeChecked s) ∧
      step s = .next (Safety.reached (step s) s) := by
  refine ⟨by decide, fun b => by cases b <;> decide, by decide, fun _ => trivial, rfl⟩
theorem witness_StepStaysInBounds :
    let s := running .token 1#32 0xAA#8 (streamed [0xAA#8, 0x41#8])
    Safety.cellsInBounds s := ⟨fun b => by cases b <;> decide, by decide⟩
theorem witness_ResetClearsHostRegisters :
    let s := { running .token 1#32 0xAA#8 (streamed [0xAA#8]) with host := [{ after := 0, op := .reset }] }
    s.host = { after := 0, op := .reset } :: [] := rfl
theorem witness_HostWritesOperandRegisters :
    let s := { State.reset with host := [{ after := 0, op := .writeReg .CTRL 0xFFFFFFFF#32 }] }
    s.status.busy = false ∧ s.host = { after := 0, op := .writeReg .CTRL 0xFFFFFFFF#32 } :: [] ∧
      HostReg.CTRL ≠ .CMD ∧ HostReg.STATUS ≠ .IN_LEN ∧ HostReg.STATUS ≠ .OUT_LEN ∧ HostReg.STATUS ≠ .WIDTH ∧
      HostReg.STATUS ≠ .HEIGHT ∧ HostReg.STATUS ≠ .HAS_ALPHA ∧ HostReg.STATUS ≠ .CTRL := by decide
/-- `s` with `op` the next host action. -/
def pending (op : HostOp) (s : State) : State := { s with host := [{ after := 0, op := op }] }

theorem witness_HostBufferAccesses :
    let meets := fun op => (pending op State.reset).status.busy = false ∧
      (pending op State.reset).host = { after := 0, op := op } :: []
    (meets (.writeBuf .CBLK 7 0xA5#8) ∧ 7 < State.reset.capacity .CBLK) ∧
      (meets (.writeBuf .ABLK 8 0xA5#8) ∧ State.reset.capacity .ABLK ≤ 8) ∧
      meets (.writeBuf .TILEOUT 0 0xA5#8) ∧ (meets (.readBuf .TILEOUT 63) ∧ 63 < State.reset.capacity .TILEOUT) ∧
      (meets (.readBuf .TILEOUT 64) ∧ State.reset.capacity .TILEOUT ≤ 64) ∧
      (meets (.readScr 268402688) ∧ 268402688 < State.reset.params.scrCap) ∧
      (meets (.readScr 268402689) ∧ State.reset.params.scrCap ≤ 268402689) ∧ meets (.readReg .STATUS) := by decide
theorem witness_DisturbedCommandEnds_lands :
    let meets := fun op => (pending op (running .token 1#32 0xAA#8 State.reset)).status.busy = true ∧
      (pending op (running .token 1#32 0xAA#8 State.reset)).host = { after := 0, op := op } :: []
    meets (.writeReg .IN_LEN 5#32) ∧ (meets (.writeBuf .ABLK 7 0xA5#8) ∧ 7 < State.reset.capacity .ABLK) ∧
      (meets (.readBuf .TILEOUT 63) ∧ 63 < State.reset.capacity .TILEOUT) ∧
      (meets (.readScr 0) ∧ 0 < State.reset.params.scrCap) := by decide
/-- Every code of the end's clauses is some running command's. -/
theorem witness_DisturbedCommandEnds_end :
    ∀ c ∈ [1#8, 2#8, 3#8, 4#8, 5#8, 6#8, 7#8],
      (goTo (.disturbed false) (acknowledge c State.reset)).status.busy = true ∧
        (goTo (.disturbed false) (acknowledge c State.reset)).seq = .disturbed false ∧
        (goTo (.disturbed false) (acknowledge c State.reset)).host = [] ∧
        (goTo (.disturbed false) (acknowledge c State.reset)).cmd = c := by decide
theorem witness_HostWhileBusy_command :
    let s := { running .token 1#32 0xAA#8 State.reset with host := [cmdWrite 1#32 0] }
    Safety.statusLegal s ∧ s.status.busy = true ∧
      s.host = { after := 0, op := .writeReg .CMD 1#32 } :: [] := by decide
theorem witness_HostWhileBusy_status :
    let s := { running .token 1#32 0xAA#8 State.reset with host := [{ after := 0, op := .readReg .STATUS }] }
    Safety.statusLegal s ∧ s.status.busy = true ∧ s.host = { after := 0, op := .readReg .STATUS } :: [] := by decide
theorem witness_HostWhileBusy_other :
    let s := running .token 1#32 0xAA#8 State.reset
    let w := { s with host := [{ after := 0, op := .writeReg .IMG_W 1#32 }] }
    let r := { s with host := [{ after := 0, op := .readReg .CTRL }] }
    (Safety.statusLegal w ∧ w.status.busy = true ∧ w.host = { after := 0, op := .writeReg .IMG_W 1#32 } :: [] ∧
      ¬ written .IMG_W) ∧
    Safety.statusLegal r ∧ r.status.busy = true ∧ r.host = { after := 0, op := .readReg .CTRL } :: [] ∧
      HostReg.CTRL ≠ .STATUS := by decide
theorem witness_StepwiseEqualsAtomic :
    (streamed [0xAA#8, 0x41#8]).status.busy = false ∧ (streamed [0xAA#8, 0x41#8]).host = [] := ⟨rfl, rfl⟩
theorem witness_DecompressEndsWithinBound : (streamed []).status.busy = false ∧ (streamed []).host = [] := ⟨rfl, rfl⟩
theorem witness_StepKeepsParameters :
    step (streamed [0xAA#8]) = .next (Safety.reached (step (streamed [0xAA#8])) (streamed [0xAA#8])) := rfl
/-- R329 on one stream: three unit steps after the launch give the state of the atomic command. -/
theorem test_stepwise :
    Host.Core.run Sys2Proof.core 3 (startCommand 1#8 (streamed [0xAA#8, 0x41#8])) =
      exec .cmdDecompress (streamed [0xAA#8, 0x41#8]) := by rfl

/-- R323: a host read of a buffer disturbs the running command, which still ends. -/
theorem test_busy_buffer_read :
    (let t := Safety.reached (step (pending (.readBuf .OUT 0) (running .token 1#32 0xAA#8 (streamed [0xAA#8, 0x41#8]))))
        State.reset
     (t.status.busy, t.seq, (Safety.reached (step t) t).status.busy, (Safety.reached (step t) t).status.done)) =
      (true, .disturbed false, false, true) := by rfl
/-- R21, R25: the reserved bits of CTRL and the bits above HAS_ALPHA read as 0 on a running block too. -/
theorem test_busy_read_reserved_bits :
    let read := fun r => (Safety.reached (step (pending (.readReg r) (running .token 1#32 0xAA#8 State.reset)))
      State.reset).readData
    (read .CTRL).toNat < 4 ∧ (read .HAS_ALPHA).toNat < 2 := by
  exact ⟨answerUnspecified_lt 2 _, answerUnspecified_lt 1 _⟩
/-- R261, R324: a disturbed CMD.DECODE_RAW keeps OUT_LEN while RAW_LZ has been 0, and a CTRL write is remembered. -/
theorem test_disturbed_raw :
    let s := goTo .assemble (acknowledge 7#8 (output [0x41#8]))
    let t := Safety.reached (step (pending (.readBuf .IN 0) s)) s
    let u := Safety.reached (step (pending (.writeReg .CTRL 2#32) s)) s
    (Safety.reached (step t) t).outLen = 1#32 ∧ u.seq = .disturbed true := ⟨rfl, rfl⟩
/-- R34: a run that a check ends has set ASM's registers. -/
theorem test_asm_registers_set :
    (let t := after .cmdDecodeTex (sized 8#16 6#16 State.reset)
     (record t, t.asm.w, t.asm.h, t.asm.tilesX)) = ((0x06, 0x13, 1), 8#16, 6#16, 2#14) := by decide
/-- R323: a host write to a buffer of a running block lands. -/
theorem test_busy_buffer_write :
    (Safety.reached (step (pending (.writeBuf .CBLK 7 0xA5#8) (running .token 1#32 0xAA#8 (streamed [0xAA#8]))))
      State.reset).rd .CBLK 7 = 0xA5#8 := by decide
/-- R62: a host write to a buffer of an idle block. -/
theorem test_idle_buffer_write :
    (Safety.reached (step (pending (.writeBuf .IN 3 0xA5#8) State.reset)) State.reset).rd .IN 3 = 0xA5#8 := by decide

end Sys2Proof.Tests
end

section
/-! SUPPORT. LZD's appending of one byte, which LIT and ESC share: the state it leaves where the byte fits, the bytes
read from that state, and the fault record where OUT is full. Then the statement about LIT. -/

namespace Sys2Proof.Machine

open Sys2Proof.Config (BufName)
open Sys2Proof.Reference (faulted)

/-- Taking a fault leaves the record of R296, as the statements write it. -/
theorem raise_eq_faulted (e : FaultName) (n : Nat) (s : State) :
    raise e n s = faulted e.code (BitVec.ofNat 32 n) s := rfl

/-- The registers after an append, its sums written over words as R123 and R124 write them. -/
theorem advance_emit_eq (v : Byte) (n : Nat) (s : State) :
    advance n (emit v s) = { s with
      lzd := { s.lzd with ip := s.lzd.ip + BitVec.ofNat 32 n }
      outLen := s.outLen + 1#32
      outBuf := (advance n (emit v s)).outBuf } := by
  have ofNat_toNat_add (x : Word) (k : Nat) : BitVec.ofNat 32 (x.toNat + k) = x + BitVec.ofNat 32 k := by
    rw [BitVec.ofNat_add, BitVec.ofNat_toNat, BitVec.setWidth_eq]
  rw [advance_eq, emit_eq, ofNat_toNat_add, ofNat_toNat_add]

/-- The appended byte stands where OUT ended. -/
theorem advance_emit_rd_end (v : Byte) (n : Nat) (s : State) :
    (advance n (emit v s)).rd .OUT s.outLen.toNat = v := by
  rw [advance_rd, emit_rd, if_pos ⟨rfl, rfl⟩]

/-- The frame of an append: every byte but the one where OUT ended. -/
theorem advance_emit_rd_other (v : Byte) (n : Nat) (s : State) {d : BufName} {a : Nat}
    (h : d ≠ .OUT ∨ a ≠ s.outLen.toNat) : (advance n (emit v s)).rd d a = s.rd d a := by
  rw [advance_rd, emit_rd, if_neg (not_and_or.mpr h)]

theorem emitOne_of_fits (v : Byte) (n : Nat) {s : State} (h : s.outLen.toNat + 1 ≤ s.params.outCap.toNat) :
    emitOne v n s = .go (advance n (emit v s)) := by
  obtain ⟨-, happend⟩ | ⟨hfull, -⟩ := emitOne_cases v n s
  · exact happend
  · omega

theorem emitOne_of_full (v : Byte) (n : Nat) {s : State} (h : s.params.outCap.toNat < s.outLen.toNat + 1) :
    emitOne v n s = .ended (faulted 0x11#8 s.lzd.ip s) := by
  obtain ⟨hfits, -⟩ | ⟨-, hstop⟩ := emitOne_cases v n s
  · omega
  · rw [hstop, stop, raise_eq_faulted, BitVec.ofNat_toNat, BitVec.setWidth_eq, FaultName.code]

/-- LIT is the shared append of its own byte, `ip` moving by 1 (R123). -/
theorem exec_lit (b : Byte) (s : State) : exec (.lit b) s = .next (emitOne b 1 s).state := rfl

/-- Settles O9: the append's two outcomes, one for each side of OUT's capacity. -/
theorem litAppendsByte : Obligations.LitAppendsByte := by
  unfold Obligations.LitAppendsByte
  intro b s
  refine ⟨fun hfits => ⟨advance 1 (emit b s), ?runs, advance_emit_rd_end b 1 s,
    fun _ _ h => advance_emit_rd_other b 1 s h, advance_emit_eq b 1 s⟩, fun hfull => ?faults⟩
  case runs => rw [exec_lit, emitOne_of_fits b 1 hfits, Flow.go_state]
  case faults => rw [exec_lit, emitOne_of_full b 1 hfull, Flow.ended_state]

end Sys2Proof.Machine
end

section
/-! SUPPORT. The channel expansions of R176 as arithmetic on the field's value, from which the table follows. -/

namespace Sys2Proof.Machine

/-- Nibble replication: the 8 bits hold the whole product. -/
theorem exp4_toNat (c : BitVec 4) : (exp4 c).toNat = 17 * c.toNat := by
  have hfits : c.toNat * 16 + c.toNat < 2 ^ 8 := by have := c.isLt; omega
  rw [exp4, BitVec.toNat_ofNat, Nat.mod_eq_of_lt hfits]
  omega

/-- The field's top 3 bits stand below its 5: nothing of the sum is cut off. -/
theorem exp5_toNat (c : BitVec 5) : (exp5 c).toNat = 8 * c.toNat + c.toNat / 4 := by
  have hfits : c.toNat * 8 + c.toNat / 4 < 2 ^ 8 := by have := c.isLt; omega
  rw [exp5, BitVec.toNat_ofNat, Nat.mod_eq_of_lt hfits, Nat.mul_comm]

theorem exp5_ofNat_toNat {c : Nat} (h : c < 32) : (exp5 (BitVec.ofNat 5 c)).toNat = 8 * c + c / 4 := by
  rw [exp5_toNat, BitVec.toNat_ofNat, Nat.mod_eq_of_lt h]

/-- Settles O19: each expansion by its arithmetic form; what is left to evaluate is the table of `8c + c / 4`. -/
theorem channelExpansionTable : Obligations.ChannelExpansionTable := by
  unfold Obligations.ChannelExpansionTable
  refine ⟨exp4_toNat, ?table⟩
  case table =>
    rw [List.map_congr_left fun c hc => exp5_ofNat_toNat (List.mem_range.mp hc)]
    decide

end Sys2Proof.Machine
end

section
/-! SUPPORT. Every code written to CMD as one call of `command`, the launch of a reserved code, and the two statements
that need nothing of a command's run: a reserved code (R258) and a write to a running block (R259). -/

namespace Sys2Proof.Machine

open Sys2Proof.Reference (faulted launched)

/-- Whatever the code (R109), what it decodes to is that code's command: only what runs after the launch differs. -/
theorem exec_commandInstr (c : Byte) :
    ∃ body : State → Flow, ∀ s, exec (commandInstr c) s = .next (command c body s) := by
  unfold commandInstr
  split_ifs with h1 h2 h3 h4 h5 h6 h7
  · exact ⟨lzdRun, fun _ => h1 ▸ rfl⟩
  · exact ⟨hdrRun, fun _ => h2 ▸ rfl⟩
  · exact ⟨fun s => .go (etcRun (withAlpha s.hasAlpha s)), fun _ => h3 ▸ rfl⟩
  · exact ⟨scrambleRun, fun _ => h4 ▸ rfl⟩
  · exact ⟨fun s => asmRun (operandsOfIn s) s, fun _ => h5 ▸ rfl⟩
  · exact ⟨entryRun, fun _ => h6 ▸ rfl⟩
  · exact ⟨rawRun, fun _ => h7 ▸ rfl⟩
  · exact ⟨stop .badCmd c.toNat, fun _ => rfl⟩

/-- CMD.RESERVED is the command of its own code (R258). -/
theorem exec_cmdReserved (c : Byte) (s : State) :
    exec (.cmdReserved c) s = .next (command c (stop .badCmd c.toNat) s) := rfl

/-- The clears of R250 as the statements write them. -/
theorem acknowledge_eq_launched (c : Byte) (s : State) : acknowledge c s = launched c s := rfl

/-- The launch of a reserved code is its fault: BAD_CMD stands first among the launch's checks (R250). -/
theorem launch_reserved {c : Byte} (s : State) (h : isReserved c = true) :
    launch c s = .ended (faulted 0x15#8 (c.setWidth 32) (launched c s)) := by
  have hinfo : BitVec.ofNat 32 c.toNat = c.setWidth 32 := BitVec.ofNat_toNat 32 c
  rw [launch, if_pos h, stop, raise_eq_faulted, acknowledge_eq_launched, hinfo, FaultName.code]

/-- Settles O37: the launch has ended the command, so nothing runs after its fault. -/
theorem reservedCodeFaults : Obligations.ReservedCodeFaults := by
  unfold Obligations.ReservedCodeFaults
  intro c s hcode hidle
  have hlaunch := launch_reserved s ((isReserved_iff c).mpr hcode)
  rw [exec_cmdReserved, command_idle hidle, hlaunch, Flow.ended_andThen, finish_ended]

/-- Settles O38: every code is a command, and a running block drops each of them. -/
theorem commandWhileBusyIsDropped : Obligations.CommandWhileBusyIsDropped := by
  unfold Obligations.CommandWhileBusyIsDropped
  intro c s hbusy
  obtain ⟨body, hexec⟩ := exec_commandInstr c
  rw [hexec, command_busy hbusy]

end Sys2Proof.Machine
end

section
/-! SUPPORT. The words of a colour block and its fields are the same thing (R99 to R102, R112), and from that the two
round trips between the decoder and the encoder, in every space. -/

namespace Sys2Proof

/-! ### Fields of a colour word -/

/-- A field of a word as a number: what is left above its place, cut to its width. -/
theorem extract_toNat (w : Word) (k n : Nat) : (w.extractLsb' k n).toNat = w.toNat / 2 ^ k % 2 ^ n := by
  rw [BitVec.extractLsb'_toNat, Nat.shiftRight_eq_div_pow]

theorem topFlip_iff (w : Word) : topFlip w = decide (w.toNat / 2 ^ 24 % 2 = 1) := getLsbD_eq_div w 24

theorem topDifferential_iff (w : Word) : topDifferential w = decide (w.toNat / 2 ^ 25 % 2 = 1) := getLsbD_eq_div w 25

theorem indFields_indTop (flip : Bool) (f : IndFields) : indFields (indTop flip f) f.bottom = f := by
  obtain ⟨t1, t2, r1, r2, g1, g2, b1, b2, bottom⟩ := f
  have hw := indTop_toNat flip ⟨t1, t2, r1, r2, g1, g2, b1, b2, bottom⟩
  have := t1.isLt; have := t2.isLt; have := r1.isLt; have := r2.isLt; have := g1.isLt; have := g2.isLt
  have := b1.isLt; have := b2.isLt; have := flip.toNat_lt
  simp only [indFields, IndFields.mk.injEq, ← BitVec.toNat_inj, extract_toNat, hw, and_true]
  refine ⟨?_, ?_, ?_, ?_, ?_, ?_, ?_, ?_⟩ <;> omega

theorem indTop_mode (flip : Bool) (f : IndFields) :
    topDifferential (indTop flip f) = false ∧ topFlip (indTop flip f) = flip := by
  have hw := indTop_toNat flip f
  have := f.r1.isLt; have := f.r2.isLt; have := f.g1.isLt; have := f.g2.isLt
  have := f.b1.isLt; have := f.b2.isLt
  rw [topDifferential_iff, topFlip_iff, hw]
  cases flip <;> simp only [decide_eq_false_iff_not, decide_eq_true_eq, Bool.toNat_true, Bool.toNat_false] <;> omega

theorem difFields_difTop (flip : Bool) (f : DifFields) : difFields (difTop flip f) f.bottom = f := by
  obtain ⟨t1, t2, r, dr, g, dg, b, db, bottom⟩ := f
  have hw := difTop_toNat flip ⟨t1, t2, r, dr, g, dg, b, db, bottom⟩
  have := t1.isLt; have := t2.isLt; have := r.isLt; have := dr.isLt; have := g.isLt; have := dg.isLt
  have := b.isLt; have := db.isLt; have := flip.toNat_lt
  simp only [difFields, DifFields.mk.injEq, ← BitVec.toNat_inj, extract_toNat, hw, and_true]
  refine ⟨?_, ?_, ?_, ?_, ?_, ?_, ?_, ?_⟩ <;> omega

theorem difTop_mode (flip : Bool) (f : DifFields) :
    topDifferential (difTop flip f) = true ∧ topFlip (difTop flip f) = flip := by
  have hw := difTop_toNat flip f
  have := f.r.isLt; have := f.dr.isLt; have := f.g.isLt; have := f.dg.isLt
  have := f.b.isLt; have := f.db.isLt
  rw [topDifferential_iff, topFlip_iff, hw]
  cases flip <;> simp only [decide_eq_false_iff_not, decide_eq_true_eq, Bool.toNat_true, Bool.toNat_false] <;> omega

/-- A word whose mode bit is clear is the individual-mode word of its fields: none of its bits is outside them. -/
theorem indTop_indFields {top : Word} (bottom : Word) (h : topDifferential top = false) :
    indTop (topFlip top) (indFields top bottom) = top := by
  have hw := indTop_toNat (topFlip top) (indFields top bottom)
  have hflip : (topFlip top).toNat = top.toNat / 2 ^ 24 % 2 := by
    rw [topFlip_iff]
    rcases Nat.mod_two_eq_zero_or_one (top.toNat / 2 ^ 24) with e | e <;> rw [e] <;> rfl
  rw [topDifferential_iff, decide_eq_false_iff_not] at h
  simp only [indFields, extract_toNat, hflip] at hw
  rw [← BitVec.toNat_inj, indFields, hw]
  have := top.isLt
  omega

/-- A word whose mode bit is set is the differential-mode word of its fields. -/
theorem difTop_difFields {top : Word} (bottom : Word) (h : topDifferential top = true) :
    difTop (topFlip top) (difFields top bottom) = top := by
  have hw := difTop_toNat (topFlip top) (difFields top bottom)
  have hflip : (topFlip top).toNat = top.toNat / 2 ^ 24 % 2 := by
    rw [topFlip_iff]
    rcases Nat.mod_two_eq_zero_or_one (top.toNat / 2 ^ 24) with e | e <;> rw [e] <;> rfl
  rw [topDifferential_iff, decide_eq_true_eq] at h
  simp only [difFields, extract_toNat, hflip] at hw
  rw [← BitVec.toNat_inj, difFields, hw]
  have := top.isLt
  omega

/-! ### Decoding what was encoded -/

theorem colourInstr_indTop (flip : Bool) (f : IndFields) :
    colourInstr (indTop flip f) f.bottom = if flip then .etcIndFl f else .etcIndNf f := by
  obtain ⟨hmode, hflip⟩ := indTop_mode flip f
  simp only [colourInstr, hmode, hflip, indFields_indTop, Bool.false_eq_true, if_false]

theorem colourInstr_difTop (flip : Bool) (f : DifFields) :
    colourInstr (difTop flip f) f.bottom = if flip then .etcDifFl f else .etcDifNf f := by
  obtain ⟨hmode, hflip⟩ := difTop_mode flip f
  simp only [colourInstr, hmode, hflip, difFields_difTop, if_true]

/-- The colour decoder reads the two words the encoder writes (R63). -/
theorem decode_colour_leBytes (top bottom : Word) (rest : List Byte) :
    decode .colour (leBytes top ++ leBytes bottom ++ rest) = .ok (colourInstr top bottom, rest) := by
  simp only [leBytes, List.cons_append, List.nil_append, decode, le32_leBytes]

/-- The alpha decoder reads the two halves the encoder writes, low half first (R63, R103). -/
theorem decode_alpha_leBytes (a : BitVec 64) (rest : List Byte) :
    decode .alpha (leBytes (a.extractLsb' 0 32) ++ leBytes (a.extractLsb' 32 32) ++ rest) = .ok (.etcA4 a, rest) := by
  have hjoin : (a.extractLsb' 32 32 ++ a.extractLsb' 0 32 : BitVec 64) = a := by
    rw [← BitVec.toNat_inj, toNat_appended, BitVec.extractLsb'_toNat, BitVec.extractLsb'_toNat,
      Nat.shiftRight_eq_div_pow, Nat.shiftRight_eq_div_pow]
    have := a.isLt
    omega
  simp only [leBytes, List.cons_append, List.nil_append, decode, le32_leBytes, hjoin]

/-- A reserved code is none of the seven that have a command (R109). -/
theorem commandInstr_reserved {c : Byte} (h : c = 0#8 ∨ 8 ≤ c.toNat) : commandInstr c = .cmdReserved c := by
  have hne : ∀ k < 8, k ≠ 0 → c ≠ BitVec.ofNat 8 k := by
    rintro k hk h0 rfl
    rw [← BitVec.toNat_inj, BitVec.toNat_ofNat] at h
    simp only [BitVec.toNat_ofNat] at h
    omega
  unfold commandInstr
  rw [if_neg (hne 1 (by omega) (by omega)), if_neg (hne 2 (by omega) (by omega)),
    if_neg (hne 3 (by omega) (by omega)), if_neg (hne 4 (by omega) (by omega)),
    if_neg (hne 5 (by omega) (by omega)), if_neg (hne 6 (by omega) (by omega)),
    if_neg (hne 7 (by omega) (by omega))]

/-- Settles O1: in each space the decoder undoes the encoder; the colour words by their fields. -/
theorem decodeOfEncodeIsInstr : Obligations.DecodeOfEncodeIsInstr := by
  unfold Obligations.DecodeOfEncodeIsInstr
  intro m i rest hwf
  cases i with
  | mark x => rfl
  | lit b => simp_all [Instr.wellFormed, Instr.space, encode, decode, decodeToken]
  | esc => simp [Instr.space, encode, decode, decodeToken]
  | bref o c => simp_all [Instr.wellFormed, Instr.space, encode, decode, decodeToken]
  | etcIndNf f => exact (decode_colour_leBytes _ _ rest).trans (by rw [colourInstr_indTop]; rfl)
  | etcIndFl f => exact (decode_colour_leBytes _ _ rest).trans (by rw [colourInstr_indTop]; rfl)
  | etcDifNf f => exact (decode_colour_leBytes _ _ rest).trans (by rw [colourInstr_difTop]; rfl)
  | etcDifFl f => exact (decode_colour_leBytes _ _ rest).trans (by rw [colourInstr_difTop]; rfl)
  | etcA4 a => exact decode_alpha_leBytes a rest
  | cmdReserved c =>
    have hcode : c = 0#8 ∨ 8 ≤ c.toNat := by simpa [Instr.wellFormed] using hwf
    exact congrArg (fun i => Except.ok (i, rest)) (commandInstr_reserved hcode)
  | _ => rfl

/-! ### Encoding what was decoded -/

theorem encode_colourInstr (m : Byte) (top bottom : Word) :
    encode m (colourInstr top bottom) = leBytes top ++ leBytes bottom := by
  unfold colourInstr
  cases hmode : topDifferential top
  · have hword := indTop_indFields bottom hmode
    cases hflip : topFlip top <;> rw [hflip] at hword <;> exact congrArg (leBytes · ++ leBytes bottom) hword
  · have hword := difTop_difFields bottom hmode
    cases hflip : topFlip top <;> rw [hflip] at hword <;> exact congrArg (leBytes · ++ leBytes bottom) hword

theorem colourInstr_wellFormed (m : Byte) (top bottom : Word) :
    (colourInstr top bottom).space m = .colour ∧ (colourInstr top bottom).wellFormed m = true := by
  unfold colourInstr
  split_ifs <;> exact ⟨rfl, rfl⟩

/-- Whatever the code, its instruction is a command and is written as the code itself (R109). -/
theorem commandInstr_encoding (m c : Byte) :
    (commandInstr c).space m = .command ∧ (commandInstr c).wellFormed m = true ∧
      encode m (commandInstr c) = [c] := by
  unfold commandInstr
  split_ifs with h1 h2 h3 h4 h5 h6 h7
  case neg =>
    refine ⟨rfl, ?_, rfl⟩
    have hcode : c = 0#8 ∨ 8 ≤ c.toNat := by
      simp only [← BitVec.toNat_inj, BitVec.toNat_ofNat] at *
      omega
    simpa [Instr.wellFormed] using hcode
  all_goals subst c; exact ⟨rfl, rfl, rfl⟩

/-- The alpha instruction of eight bytes is written as those bytes (R103). -/
theorem encode_etcA4_le32 (m a0 a1 a2 a3 a4 a5 a6 a7 : Byte) :
    encode m (.etcA4 (le32 a4 a5 a6 a7 ++ le32 a0 a1 a2 a3)) = [a0, a1, a2, a3, a4, a5, a6, a7] := by
  have hlow : (le32 a4 a5 a6 a7 ++ le32 a0 a1 a2 a3 : BitVec 64).extractLsb' 0 32 = le32 a0 a1 a2 a3 := by
    rw [← BitVec.toNat_inj, BitVec.extractLsb'_toNat, Nat.shiftRight_eq_div_pow, toNat_appended]
    have := (le32 a0 a1 a2 a3).isLt
    omega
  have hhigh : (le32 a4 a5 a6 a7 ++ le32 a0 a1 a2 a3 : BitVec 64).extractLsb' 32 32 = le32 a4 a5 a6 a7 := by
    rw [← BitVec.toNat_inj, BitVec.extractLsb'_toNat, Nat.shiftRight_eq_div_pow, toNat_appended]
    have := (le32 a0 a1 a2 a3).isLt
    have := (le32 a4 a5 a6 a7).isLt
    omega
  simp only [encode, hlow, hhigh, leBytes_le32, List.cons_append, List.nil_append]

/-- Settles O2: by the space, each of whose decoders answers one kind of instruction. -/
theorem encodeOfDecodedIsBytes : Obligations.EncodeOfDecodedIsBytes := by
  unfold Obligations.EncodeOfDecodedIsBytes
  intro m sp bytes rest i hm h
  cases sp with
  | marker =>
    cases bytes with
    | nil => cases h
    | cons x bytes => cases h; exact ⟨rfl, rfl, rfl⟩
  | token m' =>
    obtain rfl := hm m' rfl
    obtain ⟨b, hb, rfl, rfl⟩ | ⟨rfl, rfl⟩ | ⟨o, c, ho, rfl, rfl⟩ := decodeToken_ok h
    · exact ⟨rfl, bne_iff_ne.mpr hb, rfl⟩
    · exact ⟨rfl, rfl, rfl⟩
    · exact ⟨rfl, bne_iff_ne.mpr ho, rfl⟩
  | colour =>
    rcases bytes with _ | ⟨c0, _ | ⟨c1, _ | ⟨c2, _ | ⟨c3, _ | ⟨c4, _ | ⟨c5, _ | ⟨c6, _ | ⟨c7, bytes⟩⟩⟩⟩⟩⟩⟩⟩ <;> cases h
    obtain ⟨hspace, hwf⟩ := colourInstr_wellFormed m (le32 _ _ _ _) (le32 _ _ _ _)
    refine ⟨hspace, hwf, ?_⟩
    rw [encode_colourInstr, leBytes_le32, leBytes_le32]
    rfl
  | alpha =>
    rcases bytes with _ | ⟨a0, _ | ⟨a1, _ | ⟨a2, _ | ⟨a3, _ | ⟨a4, _ | ⟨a5, _ | ⟨a6, _ | ⟨a7, bytes⟩⟩⟩⟩⟩⟩⟩⟩ <;> cases h
    refine ⟨rfl, rfl, ?_⟩
    rw [encode_etcA4_le32]
    rfl
  | command =>
    cases bytes with
    | nil => cases h
    | cons c bytes =>
      cases h
      obtain ⟨hspace, hwf, hcode⟩ := commandInstr_encoding m c
      exact ⟨hspace, hwf, by rw [hcode]; rfl⟩

/-! ### Fixed words and offsets -/

/-- Settles O3: ten evaluations of the decoder. -/
theorem specWordsDecode : Obligations.SpecWordsDecode := by
  unfold Obligations.SpecWordsDecode
  exact ⟨rfl, rfl, rfl, rfl, rfl, rfl, rfl, rfl, rfl, rfl⟩

end Sys2Proof

namespace Sys2Proof.Machine

/-- R97 as arithmetic: the raw byte, less one above the marker. -/
theorem effectiveOffset_toNat (m o : Byte) :
    (effectiveOffset m o).toNat = if m.toNat < o.toNat then o.toNat - 1 else o.toNat := by
  have := o.isLt
  unfold effectiveOffset
  split_ifs with h
  · rw [BitVec.toNat_sub, BitVec.toNat_ofNat]
    omega
  · rfl

/-- The only raw byte of an offset: the offset itself below the marker, one more from the marker on. -/
def rawOffset (m : Byte) (n : Nat) : Byte := BitVec.ofNat 8 (if n < m.toNat then n else n + 1)

theorem rawOffset_iff {m o : Byte} {n : Nat} (hn : n ≤ 254) :
    (o ≠ m ∧ (effectiveOffset m o).toNat = n) ↔ o = rawOffset m n := by
  have := o.isLt
  have := m.isLt
  rw [effectiveOffset_toNat, rawOffset, ne_eq, ← BitVec.toNat_inj, ← BitVec.toNat_inj, BitVec.toNat_ofNat]
  split_ifs <;> omega

/-- Settles O4: the offset map's inverse is `rawOffset`. -/
theorem offsetMapIsBijection : Obligations.OffsetMapIsBijection := by
  unfold Obligations.OffsetMapIsBijection
  refine fun m => ⟨effectiveOffset_toNat m, fun o ho => ?bound, fun n hn => ⟨rawOffset m n, ?_, fun o ho => ?_⟩⟩
  case bound =>
    have := o.isLt
    have := m.isLt
    rw [ne_eq, ← BitVec.toNat_inj] at ho
    rw [effectiveOffset_toNat]
    split_ifs <;> omega
  · exact (rawOffset_iff hn).mpr rfl
  · exact (rawOffset_iff hn).mp ho

end Sys2Proof.Machine
end

section
/-! SUPPORT. One step, said once: the body every command runs after its launch, the one state a unit step of a running
block reaches, and what a step of the whole machine can be. -/

namespace Sys2Proof.Machine

open Sys2Proof.Config (BufName)

/-! ### Commands -/

/-- What the command with the code `c` runs after its launch (R251 to R258). -/
def commandBody (c : Byte) : State → Flow :=
  if c = 1#8 then lzdRun
  else if c = 2#8 then hdrRun
  else if c = 3#8 then fun s => .go (etcRun (withAlpha s.hasAlpha s))
  else if c = 4#8 then scrambleRun
  else if c = 5#8 then fun s => asmRun (operandsOfIn s) s
  else if c = 6#8 then entryRun
  else if c = 7#8 then rawRun
  else stop .badCmd c.toNat

theorem exec_command (c : Byte) (s : State) : exec (commandInstr c) s = .next (command c (commandBody c) s) := by
  unfold commandInstr commandBody
  split_ifs with h1 h2 h3 h4 h5 h6 h7 <;> subst_vars <;> rfl

/-- A property of every body is one of the seven units' runs and of the reserved codes' fault. -/
theorem commandBody_cases {P : (State → Flow) → Prop} (hlzd : P lzdRun) (hhdr : P hdrRun)
    (hetc : P fun s => .go (etcRun (withAlpha s.hasAlpha s))) (htsa : P scrambleRun)
    (hasm : P fun s => asmRun (operandsOfIn s) s) (hentry : P entryRun) (hraw : P rawRun)
    (hbad : ∀ n, P (stop .badCmd n)) (c : Byte) : P (commandBody c) := by
  unfold commandBody
  split_ifs
  all_goals first | assumption | exact hbad _

/-! ### Unit steps -/

/-- Every colour block has an operation, and executing its instruction is that operation (R105, R172). -/
theorem exec_colourInstr (top bottom : Word) (s : State) :
    exec (colourInstr top bottom) s = .next (blockOp (colourInstr top bottom) s) := by
  unfold colourInstr
  split_ifs <;> rfl

theorem blockOp_busy (i : Instr) (s : State) : (blockOp i s).status.busy = s.status.busy := by
  obtain ⟨m, e, v, he, -⟩ := blockOp_only i s
  rw [he]

/-- The alpha half of a running block (R188). -/
theorem alphaStep_eq {s : State} (hb : s.status.busy = true) :
    alphaStep s = .next (goTo .colour (runBlock .alpha (alphaBytes s) s)) := by
  have hrun : (runBlock .alpha (alphaBytes s) s).status.busy = true := (blockOp_busy (.etcA4 _) s).trans hb
  rw [← if_pos (t := goTo .colour _) (e := runBlock .alpha (alphaBytes s) s) hrun]
  rfl

/-- The colour half of a running block (R172). -/
theorem colourStep_eq {s : State} (hb : s.status.busy = true) :
    colourStep s = .next (afterColour (runBlock .colour (colourBytes s) s)) := by
  have hrun : (runBlock .colour (colourBytes s) s).status.busy = true := by
    rw [runBlock_colour]
    exact (blockOp_busy _ s).trans hb
  have hdec : decode .colour (colourBytes s) = .ok (colourInstr
      (le32 (s.rd .CBLK 0) (s.rd .CBLK 1) (s.rd .CBLK 2) (s.rd .CBLK 3))
      (le32 (s.rd .CBLK 4) (s.rd .CBLK 5) (s.rd .CBLK 6) (s.rd .CBLK 7)), []) := rfl
  rw [runBlock_colour] at hrun ⊢
  simp only [colourStep, hdec, exec_colourInstr, whileBusy, hrun, if_true]

/-- The start step: MARK, then the token loop, or the empty stream's fault (R121). -/
theorem lzdMark_cases (m : Byte) (s : State) :
    (s.inLen.toNat = 0 ∧ lzdMark m s = stop .lzTruncated 0 (clearOutput s)) ∨
    (s.inLen.toNat ≠ 0 ∧
      lzdMark m s = .go { clearOutput s with lzd := { s.lzd with m := m, ip := 1#32 } }) := by
  have hlen : (clearOutput s).inLen = s.inLen := rfl
  unfold lzdMark
  simp only [hlen]
  by_cases h : s.inLen.toNat = 0
  · exact .inl ⟨h, if_pos h⟩
  · exact .inr ⟨h, if_neg h⟩

theorem markStep_running {s : State} (hb : s.status.busy = true) :
    markStep s = .next ((lzdStart s).thenGo .token) := by
  rw [markStep_eq, lzdStart_eq]
  rcases lzdMark_cases (s.rd .IN 0) s with ⟨h, he⟩ | ⟨h, he⟩ <;> rw [he]
  · rw [if_pos h]
    rfl
  · rw [if_neg h]
    exact congrArg Host.Outcome.next (if_pos hb)

/-- The state a unit step of a running block reaches, place by place. -/
def unitNext (s : State) : State :=
  match s.seq with
  | .idle => s
  | .mark => (lzdStart s).thenGo .token
  | .token => if s.inLen.toNat ≤ s.lzd.ip.toNat then afterLzd s else (lzdStep s).state
  | .header => afterHeader (hdrRun s)
  | .scramble => (scrambleStart s).thenGo .table
  | .assemble => (assembleStart s).thenGo .block
  | .block => blockStep s
  | .alpha => goTo .colour (runBlock .alpha (alphaBytes s) s)
  | .colour => afterColour (runBlock .colour (colourBytes s) s)
  | .store => goTo .block (asmStore s)
  | .table => tableStep s
  | .gather => gatherStep s
  | .disturbed rawLz => endDisturbed rawLz s

/-- A unit step of a running block never stops the model. -/
theorem unitStep_eq {s : State} (hb : s.status.busy = true) : unitStep s = .next (unitNext s) := by
  unfold unitStep unitNext
  cases hq : s.seq with
  | mark => exact markStep_running hb
  | token =>
    by_cases h : s.inLen.toNat ≤ s.lzd.ip.toNat
    · simp only [tokenStep, if_pos h]
    · simp only [tokenStep_eq (Nat.lt_of_not_le h), if_neg h]
  | alpha => exact alphaStep_eq hb
  | colour => exact colourStep_eq hb
  | _ => rfl

/-! ### Steps of the whole machine -/

/-- What a step can be: an idle block waits or takes a host action, a running block makes a unit step or takes one. -/
theorem step_cases {s t : State} (h : step s = .next t) :
    (s.status.busy = false ∧ t = s) ∨
    (s.status.busy = false ∧ ∃ e rest, s.host = e :: rest ∧ hostIdle e.op (withHost rest s) = .next t) ∨
    (s.status.busy = true ∧ ∃ rest, t = unitNext (withHost rest s)) ∨
    (s.status.busy = true ∧ ∃ e rest, s.host = e :: rest ∧ hostBusy e.op (withHost rest s) = .next t) := by
  cases hb : s.status.busy with
  | false =>
    cases hh : s.host with
    | nil =>
      rw [step_waits hb hh] at h
      cases h
      exact .inl ⟨rfl, rfl⟩
    | cons e rest =>
      rw [step_idle hb hh] at h
      exact .inr (.inl ⟨rfl, e, rest, rfl, h⟩)
  | true =>
    cases hh : s.host with
    | nil =>
      rw [step_unit hb hh, unitStep_eq hb] at h
      cases h
      exact .inr (.inr (.inl ⟨rfl, s.host, rfl⟩))
    | cons e rest =>
      by_cases ha : e.after = 0
      · rw [step_lands hb hh ha] at h
        exact .inr (.inr (.inr ⟨rfl, e, rest, rfl, h⟩))
      · rw [step_delayed hb hh ha, unitStep_eq (s := withHost ({ e with after := e.after - 1 } :: rest) s) hb] at h
        cases h
        exact .inr (.inr (.inl ⟨rfl, _, rfl⟩))

/-- A write of an operand register touches none but the six of them. -/
theorem writeOperand_eq (r : HostReg) (v : Word) (s : State) :
    writeOperand r v s = { s with
      ctrl := (writeOperand r v s).ctrl, inLen := (writeOperand r v s).inLen, outLen := (writeOperand r v s).outLen
      width := (writeOperand r v s).width, height := (writeOperand r v s).height
      hasAlpha := (writeOperand r v s).hasAlpha } := by
  cases r <;> rfl

/-! The actions on a buffer, on an idle and on a running block, each as its own equation. -/

theorem hostIdle_writeBuf (b : BufName) (a : Nat) (v : Byte) (s : State) :
    hostIdle (.writeBuf b a v) s = if hostWritable b = false then .refused .bufferNotHostWritable
      else if s.capacity b ≤ a then .fault .outsideBuffer else .next (s.wr b a v) := rfl

theorem hostIdle_readBuf (b : BufName) (a : Nat) (s : State) :
    hostIdle (.readBuf b a) s =
      if s.capacity b ≤ a then .fault .outsideBuffer else .next (answer ((s.rd b a).setWidth 32) s) := rfl

theorem hostIdle_readScr (i : Nat) (s : State) :
    hostIdle (.readScr i) s =
      if s.params.scrCap ≤ i then .fault .outsideBuffer else .next (answer (s.rdScr i) s) := rfl

theorem hostIdle_writeCmd (v : Word) (s : State) :
    hostIdle (.writeReg .CMD v) s = exec (commandInstr (v.setWidth 8)) s := rfl

theorem hostIdle_writeReg {r : HostReg} (hr : r ≠ .CMD) (v : Word) (s : State) :
    hostIdle (.writeReg r v) s = .next (writeOperand r v s) := by
  cases r
  case CMD => exact absurd rfl hr
  all_goals rfl

theorem hostBusy_writeReg (r : HostReg) (v : Word) (s : State) :
    hostBusy (.writeReg r v) s = .next (if isOperandReg r then disturb s (writeOperand r v s) else s) := rfl

theorem hostBusy_readReg {r : HostReg} (hr : r ≠ .STATUS) (s : State) :
    hostBusy (.readReg r) s = .next (answerUnspecified r.bits s) := by
  cases r
  case STATUS => exact absurd rfl hr
  all_goals rfl

theorem hostBusy_writeBuf (b : BufName) (a : Nat) (v : Byte) (s : State) :
    hostBusy (.writeBuf b a v) s = if hostWritable b = false then .refused .bufferNotHostWritable
      else if s.capacity b ≤ a then .fault .outsideBuffer else .next (disturb s (s.wr b a v)) := rfl

theorem hostBusy_readBuf (b : BufName) (a : Nat) (s : State) :
    hostBusy (.readBuf b a) s =
      if s.capacity b ≤ a then .fault .outsideBuffer else .next (disturb s (answerUnspecified 8 s)) := rfl

theorem hostBusy_readScr (i : Nat) (s : State) :
    hostBusy (.readScr i) s =
      if s.params.scrCap ≤ i then .fault .outsideBuffer else .next (disturb s (answerUnspecified 32 s)) := rfl

/-- Whatever every action on an idle block leaves true, the action that lands does. -/
theorem hostIdle_keeps {P : State → Prop} {op : HostOp} {s t : State}
    (hcommand : ∀ c, P (command c (commandBody c) s)) (hstart : ∀ c, P (startCommand c s))
    (hoperand : ∀ r v, P (writeOperand r v s)) (hanswer : ∀ v, P (answer v s))
    (hwrite : ∀ b a v, a < s.capacity b → P (s.wr b a v)) (hreset : P (resetNow s))
    (h : hostIdle op s = .next t) : P t := by
  cases op with
  | writeReg r v =>
    by_cases hr : r = .CMD
    · rw [hr, hostIdle_writeCmd, exec_command] at h
      cases h
      exact hcommand _
    · rw [hostIdle_writeReg hr] at h
      cases h
      exact hoperand r v
  | start c => cases h; exact hstart c
  | readReg r => cases h; exact hanswer _
  | writeBuf b a v =>
    rw [hostIdle_writeBuf] at h
    split_ifs at h
    cases h
    exact hwrite b a v (by omega)
  | readBuf b a =>
    rw [hostIdle_readBuf] at h
    split_ifs at h
    cases h
    exact hanswer _
  | readScr i =>
    rw [hostIdle_readScr] at h
    split_ifs at h
    cases h
    exact hanswer _
  | reset => cases h; exact hreset

/-- Whatever every action on a running block leaves true, the action that lands does. -/
theorem hostBusy_keeps {P : State → Prop} {op : HostOp} {s t : State} (hdropped : P s) (hanswer : ∀ v, P (answer v s))
    (hfree : ∀ n, P (answerUnspecified n s)) (hoperand : ∀ r v, P (disturb s (writeOperand r v s)))
    (hread : ∀ n, P (disturb s (answerUnspecified n s)))
    (hwrite : ∀ b a v, a < s.capacity b → P (disturb s (s.wr b a v))) (hreset : P (resetNow s))
    (h : hostBusy op s = .next t) : P t := by
  cases op with
  | writeReg r v =>
    rw [hostBusy_writeReg] at h
    split_ifs at h <;> cases h
    · exact hoperand r v
    · exact hdropped
  | start c => cases h; exact hdropped
  | readReg r =>
    by_cases hr : r = .STATUS
    · subst hr
      cases h
      exact hanswer _
    · rw [hostBusy_readReg hr] at h
      cases h
      exact hfree _
  | writeBuf b a v =>
    rw [hostBusy_writeBuf] at h
    split_ifs at h
    cases h
    exact hwrite b a v (by omega)
  | readBuf b a =>
    rw [hostBusy_readBuf] at h
    split_ifs at h
    cases h
    exact hread _
  | readScr i =>
    rw [hostBusy_readScr] at h
    split_ifs at h
    cases h
    exact hread _
  | reset => cases h; exact hreset

end Sys2Proof.Machine
end

section
/-! SUPPORT. What a step keeps of the buffers and parameters: a property of them alone that every access inside a
buffer keeps is kept by every step. From it the statements about the parameters, the canonical form and the bounds. -/

namespace Sys2Proof.Machine

open Sys2Proof.Config (BufName)

namespace BufferProp

variable {P : State → Prop}

theorem thenGo (hP : BufferProp P) (q : Seq) {x : Flow} (h : x.both P) : P (x.thenGo q) := by
  cases x with
  | go s => exact hP.goTo q h
  | ended s => exact h

theorem tsaEnd (hP : BufferProp P) {s : State} (h : P s) : P (tsaEnd s) :=
  hP.regs h rfl rfl rfl rfl rfl rfl rfl rfl rfl

/-! ### Whole commands -/

theorem scrambleStart (hP : BufferProp P) {s : State} (h : P s) : (scrambleStart s).both P := by
  unfold Machine.scrambleStart
  split_ifs
  · exact hP.stop _ _ h
  · exact hP.stop _ _ h
  · exact hP.tsaStart _ _ h

theorem checkFormat (hP : BufferProp P) {s : State} (h : P s) : (checkFormat s).both P := by
  unfold Machine.checkFormat
  split_ifs
  · exact hP.stop _ _ h
  · exact h

theorem scrambleRun (hP : BufferProp P) {s : State} (h : P s) : (scrambleRun s).both P := by
  refine Flow.both_andThen (hP.scrambleStart h) fun t ht hPt => ?_
  have hw := s.width.isLt
  have hh := s.height.isLt
  unfold Machine.scrambleStart at ht
  split_ifs at ht
  · cases ht
  · cases ht
  · obtain ⟨-, he⟩ | ⟨hcap, he⟩ := tsaStart_cases (s.width.toNat / 4) (s.height.toNat / 4) s <;> rw [he] at ht <;> cases ht
    have hcount := tsaCount_init s (tilesX := s.width.toNat / 4) (tilesY := s.height.toNat / 4) (by omega) (by omega)
    have hfew := tileCount_lt s.width s.height
    rw [hcount]
    refine hP.tsaEnd (hP.tsaSteps _ ?_ ?_ hPt)
    · show (0#32).toNat + _ ≤ s.params.scrCap
      simpa using hcap
    · show (0#32).toNat + _ < _
      simp only [BitVec.toNat_ofNat]
      omega

theorem entryRun (hP : BufferProp P) {s : State} (h : P s) : (entryRun s).both P :=
  Flow.both_andThen (Flow.both_andThen (Flow.both_andThen (hP.lzdRun h) fun _ _ ht => hP.hdrRun ht)
    fun _ _ ht => hP.checkFormat ht) fun _ _ ht => hP.asmRun _ ht

theorem rawRun (hP : BufferProp P) {s : State} (h : P s) : (rawRun s).both P := by
  unfold Machine.rawRun
  split_ifs
  · exact Flow.both_andThen (hP.lzdRun h) fun _ _ ht => hP.asmRun _ ht
  · exact hP.asmRun _ h

theorem commandBody (hP : BufferProp P) (c : Byte) {s : State} (h : P s) : (commandBody c s).both P :=
  commandBody_cases (P := fun body => (body s).both P) (hP.lzdRun h) (hP.hdrRun h) (hP.etcRun (hP.withAlpha _ h))
    (hP.scrambleRun h) (hP.asmRun _ h) (hP.entryRun h) (hP.rawRun h) (fun n => hP.stop .badCmd n h) c

theorem command (hP : BufferProp P) (c : Byte) {s : State} (h : P s) :
    P (command c (Machine.commandBody c) s) := by
  unfold Machine.command
  split_ifs
  · exact h
  · exact both_finish (Flow.both_andThen (hP.launch c h) fun _ _ ht => hP.commandBody c ht) fun _ ht => hP.complete ht

theorem enter (hP : BufferProp P) (c : Byte) {s : State} (h : P s) : P (enter c s) := by
  unfold Machine.enter
  split_ifs
  case pos => exact hP.goTo _ h
  case pos => exact hP.goTo _ h
  case pos => exact hP.goTo _ (hP.withAlpha _ h)
  all_goals exact hP.goTo _ h

theorem startCommand (hP : BufferProp P) (c : Byte) {s : State} (h : P s) : P (startCommand c s) := by
  have hl := hP.launch c h
  unfold Machine.startCommand
  split_ifs
  · exact h
  · cases hlaunch : Machine.launch c s <;> rw [hlaunch] at hl
    · exact hP.enter c hl
    · exact hl

/-! ### Unit steps -/

theorem afterLzd (hP : BufferProp P) {s : State} (h : P s) : P (afterLzd s) := by
  unfold Machine.afterLzd
  split_ifs
  · exact hP.goTo _ h
  · exact hP.goTo _ h
  · exact hP.complete h

theorem afterHeader (hP : BufferProp P) {x : Flow} (h : x.both P) : P (afterHeader x) := by
  cases x with
  | go s =>
    unfold Machine.afterHeader
    dsimp only
    split_ifs
    · exact hP.goTo _ h
    · exact hP.complete h
  | ended s => exact h

theorem assembleStart (hP : BufferProp P) {s : State} (h : P s) : (assembleStart s).both P := by
  unfold Machine.assembleStart
  split_ifs
  · exact Flow.both_andThen (hP.checkFormat h) fun _ _ ht => hP.asmStart _ ht
  · exact hP.asmStart _ h
  · exact hP.asmStart _ h

theorem blockStep (hP : BufferProp P) {s : State} (h : P s) : P (blockStep s) := by
  unfold Machine.blockStep
  split_ifs
  · exact hP.goTo _ (hP.asmFetch h)
  · exact hP.thenGo _ (hP.tsaStart _ _ h)

/-- One unit step, where the three places that copy or count have kept the property. -/
theorem unitNext (hP : BufferProp P) {s : State} (hstore : s.seq = .store → P (Machine.asmStore s))
    (htable : s.seq = .table → s.tsa.t.toNat < tsaCount s → P (Machine.tsaStep s))
    (hgather : s.seq = .gather → s.asm.i.toNat < s.asm.n.toNat → (Machine.asmGather s).both P) (h : P s) :
    P (unitNext s) := by
  unfold Machine.unitNext
  cases hq : s.seq with
  | idle => exact h
  | mark =>
    refine hP.thenGo _ ?_
    rw [lzdStart_eq]
    exact hP.lzdMark _ h
  | token =>
    dsimp only
    split_ifs with hi
    · exact hP.afterLzd h
    · exact hP.lzdStep (by omega) h
  | header => exact hP.afterHeader (hP.hdrRun h)
  | scramble => exact hP.thenGo _ (hP.scrambleStart h)
  | assemble => exact hP.thenGo _ (hP.assembleStart h)
  | block => exact hP.blockStep h
  | alpha =>
    dsimp only
    rw [runBlock_alpha]
    exact hP.goTo _ (hP.decodeAlpha _ h)
  | colour =>
    have hrun : P (runBlock .colour (colourBytes s) s) := by
      rw [runBlock_colour]
      exact hP.blockOp _ h
    dsimp only [afterColour]
    split_ifs
    · exact hP.complete hrun
    · exact hP.goTo _ hrun
  | store => exact hP.goTo _ (hstore hq)
  | table =>
    dsimp only [tableStep]
    split_ifs with ht
    · exact htable hq ht
    · exact hP.complete (hP.tsaEnd h)
    · exact hP.goTo _ (hP.forget .IMG1 (hP.tsaEnd h))
  | gather =>
    dsimp only [gatherStep]
    split_ifs with hi
    · exact hgather hq hi
    · exact hP.complete (hP.regs h rfl rfl rfl rfl rfl rfl rfl rfl rfl)
  | disturbed rawLz => exact hP.endDisturbed rawLz h

/-! ### Steps -/

theorem withHost (hP : BufferProp P) (l : List HostEvent) {s : State} (h : P s) : P (withHost l s) :=
  hP.regs h rfl rfl rfl rfl rfl rfl rfl rfl rfl

theorem writeOperand (hP : BufferProp P) (r : HostReg) (v : Word) {s : State} (h : P s) : P (writeOperand r v s) := by
  rw [writeOperand_eq]
  exact hP.regs h rfl rfl rfl rfl rfl rfl rfl rfl rfl

/-- A step that is no unit step: the host's actions stay inside the buffers. -/
theorem step (hP : BufferProp P) {s t : State} (hreset : ∀ u, P u → P (resetNow u))
    (hunit : s.status.busy = true → ∀ l, P (Machine.withHost l s) → P (Machine.unitNext (Machine.withHost l s)))
    (h : P s) (hstep : step s = .next t) : P t := by
  obtain ⟨-, rfl⟩ | ⟨-, e, rest, -, hidle⟩ | ⟨hb, rest, rfl⟩ | ⟨-, e, rest, -, hbusy⟩ := step_cases hstep
  · exact h
  · have hs := hP.withHost rest h
    exact hostIdle_keeps (fun c => hP.command c hs) (fun c => hP.startCommand c hs) (fun r v => hP.writeOperand r v hs)
      (fun v => hP.regs hs rfl rfl rfl rfl rfl rfl rfl rfl rfl) (fun b a v ha => hP.wr b a v ha hs) (hreset _ hs) hidle
  · exact hunit hb rest (hP.withHost rest h)
  · have hs := hP.withHost rest h
    exact hostBusy_keeps hs (fun v => hP.regs hs rfl rfl rfl rfl rfl rfl rfl rfl rfl)
      (fun n => hP.regs hs rfl rfl rfl rfl rfl rfl rfl rfl rfl) (fun r v => hP.disturb _ (hP.writeOperand r v hs))
      (fun n => hP.disturb _ (hP.regs hs rfl rfl rfl rfl rfl rfl rfl rfl rfl))
      (fun b a v ha => hP.disturb _ (hP.wr b a v ha hs)) (hreset _ hs) hbusy

end BufferProp

/-! ### The parameters -/

theorem bufferProp_params (p : Config.Params) : BufferProp fun s => s.params = p where
  congr := fun hp _ _ h => hp.trans h
  wr := fun b a v _ h => (State.wr_params _ b a v).trans h
  forget := fun b h => (State.forget_params _ b).trans h
  wrScr := fun _ _ _ h => h
  forgetScr := fun h => h

/-- Settles O45: the parameters are a property of the kind every step keeps. -/
theorem stepKeepsParameters : Obligations.StepKeepsParameters := by
  unfold Obligations.StepKeepsParameters
  intro s t hstep
  refine (bufferProp_params s.params).step (fun _ hu => hu) (fun _ l hl => ?_) rfl hstep
  refine (bufferProp_params s.params).unitNext (fun _ => ?_) (fun _ _ => ?_) (fun _ _ => ?_) hl
  · obtain ⟨m, he⟩ := asmStore_eq (withHost l s)
    rw [he]
    exact hl
  · rw [tsaStep_eq]
    exact hl
  · obtain ⟨-, he⟩ | ⟨-, m, he⟩ := asmGather_cases (withHost l s) <;> rw [he]
    · obtain ⟨m1, m2, m3, m4, d, he'⟩ := scrRange_eq (withHost l s)
      rw [Flow.both_ended, he']
      exact hl
    · exact hl

/-! ### The canonical form -/

theorem bufferProp_canonical : BufferProp Safety.memoryCanonical where
  congr := fun _ hb hs h => ⟨fun b => hb b ▸ h.1 b, hs ▸ h.2⟩
  wr := fun b a v _ h => ⟨wf_wr b a v h.1, by simpa using h.2⟩
  forget := fun b h => ⟨wf_forget b h.1, by simpa using h.2⟩
  wrScr := fun i v _ h => ⟨fun b => by simpa using h.1 b, wf_wrScr i v h.2⟩
  forgetScr := fun h => ⟨fun b => by simpa using h.1 b, Memory.wf_blank 32 _⟩

/-- A tile copy keeps the canonical form wherever it writes. -/
theorem canonical_putTile (dst : BufName) (k : Nat) (row : Nat → Nat → Byte) {s : State}
    (h : Safety.memoryCanonical s) : Safety.memoryCanonical (putTile dst k row s) := by
  have hrow : ∀ u r, Safety.memoryCanonical u → Safety.memoryCanonical (tileRow dst k row u r) := fun u r hu =>
    ⟨wf_fill dst _ _ _ (s := { u with asm := { u.asm with r := BitVec.ofNat 2 r } })
      hu.1, by simpa [tileRow] using hu.2⟩
  exact hrow _ 3 (hrow _ 2 (hrow _ 1 (hrow _ 0 h)))

theorem canonical_resetNow (s : State) : Safety.memoryCanonical (resetNow s) :=
  ⟨fun b => by cases b <;> exact Memory.wf_blank 8 _, Memory.wf_blank 32 _⟩

/-- Settles O43: writes keep the canonical form inside and outside a buffer's bounds alike. -/
theorem stepKeepsMemoryCanonical : Obligations.StepKeepsMemoryCanonical := by
  unfold Obligations.StepKeepsMemoryCanonical
  intro s t h hstep
  have hP := bufferProp_canonical
  refine hP.step (fun u _ => canonical_resetNow u) (fun _ l hl => ?_) h hstep
  refine hP.unitNext (fun _ => ?_) (fun _ _ => ?_) (fun _ _ => ?_) hl
  · have hcopy := canonical_putTile .IMG0 (withHost l s).asm.s.toNat
      (fun r j => (withHost l s).rd .TILEOUT (r * 16 + j)) hl
    unfold asmStore
    generalize putTile .IMG0 _ _ (withHost l s) = u at hcopy ⊢
    exact hP.regs hcopy rfl rfl rfl rfl rfl rfl rfl rfl rfl
  · rw [tsaStep_eq]
    exact ⟨hl.1, Memory.wf_set _ _ hl.2⟩
  · unfold asmGather
    dsimp only
    split_ifs
    · exact hP.scrRange hl
    · have hcopy := canonical_putTile .IMG1 (withHost l s).asm.i.toNat (fun r j => (withHost l s).rd .IMG0
        (rowOffset (withHost l s).asm.w.toNat (withHost l s).asm.tilesX.toNat
          ((withHost l s).rdScr (withHost l s).asm.i.toNat).toNat r + j)) hl
      generalize putTile .IMG1 _ _ (withHost l s) = u at hcopy ⊢
      exact hP.regs hcopy rfl rfl rfl rfl rfl rfl rfl rfl rfl

/-! ### The bounds -/

theorem bufferProp_inBounds : BufferProp Safety.cellsInBounds where
  congr := fun {s t} hp hb hs h => by
    have hcap : ∀ b, t.capacity b = s.capacity b := fun b => by cases b <;> simp [State.capacity, hp]
    exact ⟨fun b => by rw [hb, hcap]; exact h.1 b, by rw [hs, hp]; exact h.2⟩
  wr := fun b a v ha h => inBounds_wr v ha h
  forget := fun b h => inBounds_forget b h
  wrScr := fun i v hi h => inBounds_wrScr v hi h
  forgetScr := fun h => ⟨fun b => by simpa using h.1 b, bound_blank _⟩

theorem inBounds_resetNow (s : State) : Safety.cellsInBounds (resetNow s) :=
  ⟨fun b => by cases b <;> exact bound_blank _, bound_blank _⟩

/-- The cells half of the invariant: where the running command's checks hold, its unit step stays inside. -/
theorem cellsInBounds_unitNext {s : State} (hplace : Safety.placeChecked s) (h : Safety.cellsInBounds s) :
    Safety.cellsInBounds (unitNext s) := by
  have hP := bufferProp_inBounds
  unfold Safety.placeChecked at hplace
  refine hP.unitNext (fun hq => ?_) (fun hq ht => ?_) (fun hq hi => ?_) h <;> rw [hq] at hplace
  · exact hP.asmStore hplace.1 hplace.2 h
  · exact hP.tsaStep (lt_of_lt_of_le ht hplace.1) h
  · exact hP.asmGather hplace hi h

end Sys2Proof.Machine
end

section
/-! SUPPORT. STATUS over a command: while it runs it is BUSY with nothing recorded, a fault ends it with its record, and
so every command ends and every step keeps STATUS legal. -/

namespace Sys2Proof.Machine

/-- A running command: BUSY, nothing recorded (R250). -/
structure Live (s : State) : Prop where
  busy : s.status.busy = true
  done : s.status.done = false
  err : s.status.err = false
  code : s.errCode = 0#8
  info : s.errInfo = 0#32

/-- A command that a fault has ended (R296). -/
structure Over (s : State) : Prop where
  busy : s.status.busy = false
  done : s.status.done = true
  err : s.status.err = true
  code : s.errCode ≠ 0#8
  seq : s.seq = .idle

/-- A command that has completed (R260). -/
structure Completed (s : State) : Prop where
  busy : s.status.busy = false
  done : s.status.done = true
  err : s.status.err = false
  code : s.errCode = 0#8
  info : s.errInfo = 0#32
  seq : s.seq = .idle

/-- `s` stands where `u` does: its phase, its fault registers and its place are those of `u`. -/
structure StandsAt (u s : State) : Prop where
  busy : s.status.busy = u.status.busy
  done : s.status.done = u.status.done
  err : s.status.err = u.status.err
  code : s.errCode = u.errCode
  info : s.errInfo = u.errInfo
  seq : s.seq = u.seq

theorem StandsAt.refl (s : State) : StandsAt s s := ⟨rfl, rfl, rfl, rfl, rfl, rfl⟩

theorem StandsAt.trans {s t u : State} (h : StandsAt s t) (h' : StandsAt t u) : StandsAt s u :=
  ⟨h'.busy.trans h.busy, h'.done.trans h.done, h'.err.trans h.err, h'.code.trans h.code, h'.info.trans h.info,
    h'.seq.trans h.seq⟩

theorem StandsAt.live {u s : State} (h : StandsAt u s) (hu : Live u) : Live s :=
  ⟨h.busy.trans hu.busy, h.done.trans hu.done, h.err.trans hu.err, h.code.trans hu.code, h.info.trans hu.info⟩

theorem FaultName.code_ne_zero (e : FaultName) : e.code ≠ 0#8 := by cases e <;> decide

theorem over_raise (e : FaultName) (n : Nat) (s : State) : Over (raise e n s) :=
  ⟨rfl, rfl, rfl, e.code_ne_zero, rfl⟩

/-- A launch clears what the command before has left (R250). -/
theorem live_acknowledge (c : Byte) (s : State) : Live (acknowledge c s) := ⟨rfl, rfl, rfl, rfl, rfl⟩

theorem Live.goTo {s : State} (h : Live s) (q : Seq) : Live (goTo q s) := ⟨h.busy, h.done, h.err, h.code, h.info⟩

theorem Live.complete {s : State} (h : Live s) : Completed (complete s) := ⟨rfl, rfl, h.err, h.code, h.info, rfl⟩

/-! ### The flow of a command -/

/-- A flow of a command that stands at `u`: it goes on there, or a fault has ended it. -/
def Flow.Sound (u : State) : Flow → Prop
  | .go s => StandsAt u s
  | .ended s => Over s

theorem Flow.sound_stop (u : State) (e : FaultName) (n : Nat) (s : State) : (stop e n s).Sound u := over_raise e n s

theorem Flow.sound_andThen {u : State} {x : Flow} {f : State → Flow} (hx : x.Sound u)
    (hf : ∀ s, StandsAt u s → (f s).Sound u) : (x.andThen f).Sound u := by
  cases x with
  | go s => exact hf s hx
  | ended s => exact hx

theorem Flow.sound_times {u : State} {f : State → Flow} (hf : ∀ s, StandsAt u s → (f s).Sound u) :
    ∀ (n : Nat) (s : State), StandsAt u s → (Flow.times f n s).Sound u
  | 0, _, h => h
  | n + 1, s, h => Flow.sound_andThen (hf s h) fun t ht => Flow.sound_times hf n t ht

/-! ### The units -/

section Units

variable {u s : State}

theorem sound_launch (c : Byte) (s : State) : (launch c s).Sound (acknowledge c s) := by
  obtain ⟨e, n, he⟩ | ⟨he, -⟩ := launch_cases c s <;> rw [he]
  · exact over_raise e n _
  · unfold launchClears
    split_ifs <;> exact ⟨rfl, rfl, rfl, rfl, rfl, rfl⟩

theorem sound_emitOne (v : Byte) (n : Nat) (h : StandsAt u s) : (emitOne v n s).Sound u := by
  obtain ⟨-, he⟩ | ⟨-, he⟩ := emitOne_cases v n s <;> rw [he]
  · exact h.trans ⟨rfl, rfl, rfl, rfl, rfl, rfl⟩
  · exact Flow.sound_stop ..

theorem sound_lzdMark (m : Byte) (h : StandsAt u s) : (lzdMark m s).Sound u := by
  obtain ⟨-, he⟩ | ⟨-, he⟩ := lzdMark_cases m s <;> rw [he]
  · exact Flow.sound_stop ..
  · exact h.trans ⟨rfl, rfl, rfl, rfl, rfl, rfl⟩

theorem sound_lzdBref (o c : Byte) (h : StandsAt u s) : (lzdBref o c s).Sound u := by
  obtain ⟨-, he⟩ | ⟨-, -, -, he⟩ | ⟨-, -, -, he⟩ := lzdBref_cases o c s <;> rw [he]
  · exact Flow.sound_stop ..
  · exact Flow.sound_stop ..
  · obtain ⟨m, hm⟩ := copyBytes_eq c.toNat (beginCopy (latchBref o c s))
    rw [hm]
    exact h.trans ⟨rfl, rfl, rfl, rfl, rfl, rfl⟩

theorem sound_lzdStep (hi : s.lzd.ip.toNat < s.inLen.toNat) (h : StandsAt u s) : (lzdStep s).Sound u := by
  have hlatched : ∀ g : LzdRegs, StandsAt u { s with lzd := g } := fun g => h.trans ⟨rfl, rfl, rfl, rfl, rfl, rfl⟩
  obtain ⟨-, he⟩ | ⟨-, -, he⟩ | ⟨-, -, -, he⟩ | ⟨-, -, -, he⟩ | ⟨-, -, -, he⟩ := lzdStep_cases hi <;> rw [he]
  · exact sound_emitOne _ _ (hlatched _)
  · exact Flow.sound_stop ..
  · exact sound_emitOne _ _ (hlatched _)
  · exact Flow.sound_stop ..
  · exact sound_lzdBref _ _ (hlatched _)

theorem sound_lzdLoop (n : Nat) (h : StandsAt u s) : (lzdLoop n s).Sound u := by
  induction n generalizing s with
  | zero => exact h
  | succ n ih =>
    rw [lzdLoop_succ]
    split_ifs with hi
    · exact h
    · exact Flow.sound_andThen (sound_lzdStep (by omega) h) fun t ht => ih ht

theorem sound_lzdRun (h : StandsAt u s) : (lzdRun s).Sound u := by
  unfold lzdRun
  rw [lzdStart_eq]
  exact Flow.sound_andThen (sound_lzdMark _ h) fun t ht => sound_lzdLoop _ ht

theorem sound_hdrRun (h : StandsAt u s) : (hdrRun s).Sound u := by
  unfold hdrRun
  dsimp only
  split_ifs
  · exact Flow.sound_stop ..
  · exact Flow.sound_stop ..
  · exact h.trans ⟨rfl, rfl, rfl, rfl, rfl, rfl⟩
  · exact Flow.sound_stop ..
  · exact h.trans ⟨rfl, rfl, rfl, rfl, rfl, rfl⟩

theorem sound_checkFormat (h : StandsAt u s) : (checkFormat s).Sound u := by
  unfold checkFormat
  split_ifs
  · exact Flow.sound_stop ..
  · exact h

theorem standsAt_blockOp (i : Instr) (h : StandsAt u s) : StandsAt u (blockOp i s) := by
  obtain ⟨m, e, v, he, -⟩ := blockOp_only i s
  rw [he]
  exact h.trans ⟨rfl, rfl, rfl, rfl, rfl, rfl⟩

theorem standsAt_etcRun (h : StandsAt u s) : StandsAt u (etcRun s) := by
  obtain ⟨m, e, v, he, -⟩ := etcRun_only s
  rw [he]
  exact h.trans ⟨rfl, rfl, rfl, rfl, rfl, rfl⟩

theorem sound_tsaStart (x y : Nat) (h : StandsAt u s) : (tsaStart x y s).Sound u := by
  obtain ⟨-, he⟩ | ⟨-, he⟩ := tsaStart_cases x y s <;> rw [he]
  · exact Flow.sound_stop ..
  · exact h.trans ⟨rfl, rfl, rfl, rfl, rfl, rfl⟩

theorem standsAt_tsaSteps (n : Nat) (h : StandsAt u s) : StandsAt u (tsaStep^[n] s) := by
  obtain ⟨m, hm⟩ := tsaStep_iterate_eq n s
  rw [hm]
  exact h.trans ⟨rfl, rfl, rfl, rfl, rfl, rfl⟩

theorem sound_tsaRun (x y : Nat) (h : StandsAt u s) : (tsaRun x y s).Sound u :=
  Flow.sound_andThen (sound_tsaStart x y h) fun _ ht => (standsAt_tsaSteps _ ht).trans ⟨rfl, rfl, rfl, rfl, rfl, rfl⟩

theorem sound_scrambleStart (h : StandsAt u s) : (scrambleStart s).Sound u := by
  unfold scrambleStart
  split_ifs
  · exact Flow.sound_stop ..
  · exact Flow.sound_stop ..
  · exact sound_tsaStart _ _ h

theorem sound_scrambleRun (h : StandsAt u s) : (scrambleRun s).Sound u :=
  Flow.sound_andThen (sound_scrambleStart h) fun _ ht => (standsAt_tsaSteps _ ht).trans ⟨rfl, rfl, rfl, rfl, rfl, rfl⟩

theorem sound_asmStart (p : AsmOperands) (h : StandsAt u s) : (asmStart p s).Sound u := by
  obtain ⟨e, n, he⟩ | ⟨-, -, -, -, -, he⟩ := asmStart_cases p s <;> rw [he]
  · exact Flow.sound_stop ..
  · exact h.trans ⟨rfl, rfl, rfl, rfl, rfl, rfl⟩

theorem standsAt_asmBlocks (n : Nat) (h : StandsAt u s) : StandsAt u (asmBlock^[n] s) := by
  refine iterate_keeps (fun u hu => ?_) n s h
  obtain ⟨c, a, m, i, e, v, he, -⟩ := asmBlock_eq u
  rw [he]
  exact hu.trans ⟨rfl, rfl, rfl, rfl, rfl, rfl⟩

theorem sound_asmGather (h : StandsAt u s) : (asmGather s).Sound u := by
  obtain ⟨-, he⟩ | ⟨-, m, he⟩ := asmGather_cases s <;> rw [he]
  · obtain ⟨m1, m2, m3, m4, d, hr⟩ := scrRange_eq s
    rw [hr]
    exact over_raise ..
  · exact h.trans ⟨rfl, rfl, rfl, rfl, rfl, rfl⟩

theorem sound_asmStages (h : StandsAt u s) : (asmStages s).Sound u := by
  refine Flow.sound_andThen (sound_tsaRun _ _ (standsAt_asmBlocks _ h)) fun t ht => ?_
  refine Flow.sound_andThen (Flow.sound_times (fun _ hu => sound_asmGather hu) _ _
    (ht.trans ⟨rfl, rfl, rfl, rfl, rfl, rfl⟩)) fun u hu => ?_
  exact hu.trans ⟨rfl, rfl, rfl, rfl, rfl, rfl⟩

theorem sound_asmRun (p : AsmOperands) (h : StandsAt u s) : (asmRun p s).Sound u :=
  Flow.sound_andThen (sound_asmStart p h) fun _ ht => sound_asmStages ht

theorem sound_entryRun (h : StandsAt u s) : (entryRun s).Sound u :=
  Flow.sound_andThen (Flow.sound_andThen (Flow.sound_andThen (sound_lzdRun h) fun _ ht => sound_hdrRun ht)
    fun _ ht => sound_checkFormat ht) fun _ ht => sound_asmRun _ ht

theorem sound_rawRun (h : StandsAt u s) : (rawRun s).Sound u := by
  unfold rawRun
  split_ifs
  · exact Flow.sound_andThen (sound_lzdRun h) fun _ ht => sound_asmRun _ ht
  · exact sound_asmRun _ h

theorem sound_commandBody (c : Byte) (h : StandsAt u s) : (commandBody c s).Sound u :=
  commandBody_cases (P := fun body => (body s).Sound u) (sound_lzdRun h) (sound_hdrRun h)
    (standsAt_etcRun (h.trans ⟨rfl, rfl, rfl, rfl, rfl, rfl⟩)) (sound_scrambleRun h) (sound_asmRun _ h) (sound_entryRun h)
    (sound_rawRun h) (fun _ => Flow.sound_stop ..) c

end Units

/-! ### Commands end -/

/-- A command written to an idle block completes or ends with a fault (R11, R260). -/
theorem command_ends (c : Byte) {s : State} (hidle : s.status.busy = false) :
    Completed (command c (commandBody c) s) ∨ Over (command c (commandBody c) s) := by
  have hsound : ((launch c s).andThen (commandBody c)).Sound (acknowledge c s) :=
    Flow.sound_andThen (sound_launch c s) fun _ ht => sound_commandBody c ht
  rw [command_idle hidle]
  cases hflow : (launch c s).andThen (commandBody c) with
  | go t =>
    rw [hflow] at hsound
    exact .inl (StandsAt.live hsound (live_acknowledge c s)).complete
  | ended t =>
    rw [hflow] at hsound
    exact .inr hsound

/-! ### Unit steps -/

/-- What a block is after a step of a command: running at some place, completed, or ended by a fault. -/
def Phase (s : State) : Prop := (s.seq ≠ .idle ∧ Live s) ∨ Completed s ∨ Over s

theorem Phase.statusLegal {s : State} (h : Phase s) : Safety.statusLegal s := by
  obtain ⟨hq, h⟩ | h | h := h
  · simp [Safety.statusLegal, h.busy, h.done, h.err, h.code, h.info, hq]
  · simp [Safety.statusLegal, h.busy, h.done, h.err, h.code, h.info, h.seq]
  · simp [Safety.statusLegal, h.busy, h.done, h.err, h.seq]

/-- A running block with legal STATUS is a running command. -/
theorem live_of_statusLegal {s : State} (h : Safety.statusLegal s) (hb : s.status.busy = true) :
    s.seq ≠ .idle ∧ Live s := by
  obtain ⟨hbd, hed, hrec, hseq⟩ := h
  have hdone : s.status.done = false := eq_false_of_ne_true fun hd => hbd ⟨hb, hd⟩
  have herr : s.status.err = false := eq_false_of_ne_true fun he => by simp [hed he] at hdone
  exact ⟨hseq.mp hb, hb, hdone, herr, (hrec herr).1, (hrec herr).2⟩

theorem Live.phase_goTo {s : State} (h : Live s) {q : Seq} (hq : q ≠ .idle) : Phase (Machine.goTo q s) :=
  .inl ⟨hq, h.goTo q⟩

theorem Live.phase_complete {s : State} (h : Live s) : Phase (Machine.complete s) := .inr (.inl h.complete)

theorem Flow.Sound.phase_thenGo {u : State} {x : Flow} (h : x.Sound u) (hu : Live u) {q : Seq} (hq : q ≠ .idle) :
    Phase (x.thenGo q) := by
  cases x with
  | go s => exact (StandsAt.live h hu).phase_goTo hq
  | ended s => exact .inr (.inr h)

theorem StandsAt.phase {u s : State} (h : StandsAt u s) (hu : Live u) (hq : u.seq ≠ .idle) : Phase s :=
  .inl ⟨by rw [h.seq]; exact hq, h.live hu⟩

theorem Flow.Sound.phase_state {u : State} {x : Flow} (h : x.Sound u) (hu : Live u) (hq : u.seq ≠ .idle) :
    Phase x.state := by
  cases x with
  | go s => exact StandsAt.phase h hu hq
  | ended s => exact .inr (.inr h)

theorem blockSeq_cases (s : State) : blockSeq s = .alpha ∨ blockSeq s = .colour := by
  unfold blockSeq
  split_ifs
  · exact .inl rfl
  · exact .inr rfl

theorem blockSeq_ne_idle (s : State) : blockSeq s ≠ .idle := by
  obtain h | h := blockSeq_cases s <;> rw [h] <;> nofun

theorem sound_assembleStart (s : State) : (assembleStart s).Sound s := by
  have h := StandsAt.refl s
  unfold assembleStart
  split_ifs
  · exact Flow.sound_andThen (sound_checkFormat h) fun _ ht => sound_asmStart _ ht
  · exact sound_asmStart _ h
  · exact sound_asmStart _ h

theorem standsAt_asmFetch (s : State) : StandsAt s (asmFetch s) := by
  obtain ⟨c, a, hf, -⟩ := asmFetch_eq s
  rw [hf]
  exact ⟨rfl, rfl, rfl, rfl, rfl, rfl⟩

theorem standsAt_asmStore (s : State) : StandsAt s (asmStore s) := by
  obtain ⟨m, hm⟩ := asmStore_eq s
  rw [hm]
  exact ⟨rfl, rfl, rfl, rfl, rfl, rfl⟩

/-- A unit step of a running command leaves it running, completed or ended by a fault. -/
theorem phase_unitNext {s : State} (hq : s.seq ≠ .idle) (hl : Live s) : Phase (unitNext s) := by
  have h := StandsAt.refl s
  unfold unitNext
  cases hseq : s.seq with
  | idle => exact absurd hseq hq
  | mark =>
    dsimp only
    rw [lzdStart_eq]
    exact (sound_lzdMark _ h).phase_thenGo hl nofun
  | token =>
    dsimp only [afterLzd]
    split_ifs with hi
    · exact hl.phase_goTo nofun
    · exact hl.phase_goTo nofun
    · exact hl.phase_complete
    · exact (sound_lzdStep (by omega) h).phase_state hl hq
  | header =>
    have hx := sound_hdrRun h
    cases hflow : hdrRun s with
    | go t =>
      rw [hflow] at hx
      have ht : Live t := StandsAt.live hx hl
      dsimp only [afterHeader]
      split_ifs
      · exact ht.phase_goTo nofun
      · exact ht.phase_complete
    | ended t =>
      rw [hflow] at hx
      exact .inr (.inr hx)
  | scramble => exact (sound_scrambleStart h).phase_thenGo hl nofun
  | assemble => exact (sound_assembleStart s).phase_thenGo hl nofun
  | block =>
    dsimp only [blockStep]
    split_ifs
    · exact ((standsAt_asmFetch s).live hl).phase_goTo (blockSeq_ne_idle _)
    · exact (sound_tsaStart _ _ h).phase_thenGo hl nofun
  | alpha => exact ((standsAt_blockOp (.etcA4 _) h).live hl).phase_goTo nofun
  | colour =>
    have hrun : Live (runBlock .colour (colourBytes s) s) := (standsAt_blockOp _ h).live hl
    dsimp only [afterColour]
    split_ifs
    · exact hrun.phase_complete
    · exact hrun.phase_goTo nofun
  | store => exact ((standsAt_asmStore s).live hl).phase_goTo nofun
  | table =>
    have hended : Live (tsaEnd s) := ⟨hl.busy, hl.done, hl.err, hl.code, hl.info⟩
    have hbegun : Live (beginGather (tsaEnd s)) := ⟨hl.busy, hl.done, hl.err, hl.code, hl.info⟩
    dsimp only [tableStep]
    split_ifs
    · exact (standsAt_tsaSteps 1 h).phase hl hq
    · exact hended.phase_complete
    · exact hbegun.phase_goTo nofun
  | gather =>
    have hended : Live (asmEnd s) := ⟨hl.busy, hl.done, hl.err, hl.code, hl.info⟩
    dsimp only [gatherStep]
    split_ifs
    · exact (sound_asmGather h).phase_state hl hq
    · exact hended.phase_complete
  | disturbed rawLz =>
    have hend : ∀ u : State, Phase (loseStatus u) := fun u => by
      obtain ⟨hb, hd, ⟨he, hc, hi⟩ | ⟨he, e, -, hc⟩⟩ := loseStatus_outcome u
      · exact .inr (.inl ⟨hb, hd, he, hc, hi, rfl⟩)
      · exact .inr (.inr ⟨hb, hd, he, by rw [hc]; exact e.code_ne_zero, rfl⟩)
    exact hend _

/-! ### Steps -/

/-- The start of a command that is run step by step: at its first place, or ended at its launch. -/
theorem phase_startCommand (c : Byte) {s : State} (hidle : s.status.busy = false) : Phase (startCommand c s) := by
  have hl := sound_launch c s
  simp only [startCommand, hidle, Bool.false_eq_true, if_false]
  cases hlaunch : launch c s with
  | go t =>
    rw [hlaunch] at hl
    have ht : Live t := StandsAt.live hl (live_acknowledge c s)
    have halpha : Live (withAlpha t.hasAlpha t) := ⟨ht.busy, ht.done, ht.err, ht.code, ht.info⟩
    dsimp only [enter]
    split_ifs
    case pos => exact ht.phase_goTo nofun
    case pos => exact ht.phase_goTo nofun
    case pos => exact halpha.phase_goTo (blockSeq_ne_idle _)
    all_goals exact ht.phase_goTo nofun
  | ended t =>
    rw [hlaunch] at hl
    exact .inr (.inr hl)

/-- What stands where a legal state does, with the same DONE and fault record, is legal. -/
theorem StandsAt.statusLegal {s t : State} (h : StandsAt s t) (hs : Safety.statusLegal s) : Safety.statusLegal t := by
  unfold Safety.statusLegal
  rw [h.busy, h.done, h.err, h.code, h.info, h.seq]
  exact hs

/-- A disturbance keeps STATUS legal: the command still runs (R323). -/
theorem statusLegal_disturb {old s t : State} (h : Safety.statusLegal s) (hb : s.status.busy = true)
    (ht : StandsAt s t) : Safety.statusLegal (disturb old t) := by
  have hl : Live t := ht.live (live_of_statusLegal h hb).2
  unfold disturb
  exact (hl.phase_goTo (q := .disturbed (rawLzSeen old || t.ctrl.rawLz)) nofun).statusLegal

theorem standsAt_writeOperand (r : HostReg) (v : Word) (s : State) : StandsAt s (writeOperand r v s) := by
  rw [writeOperand_eq]
  exact ⟨rfl, rfl, rfl, rfl, rfl, rfl⟩

theorem standsAt_wr (s : State) (b : Config.BufName) (a : Nat) (v : Byte) : StandsAt s (s.wr b a v) := by
  constructor <;> simp

/-- Settles O42: by the kind of step; a running block's unit steps by `phase_unitNext`. -/
theorem stepKeepsStatusLegal : Obligations.StepKeepsStatusLegal := by
  unfold Obligations.StepKeepsStatusLegal
  intro s t h hstep
  have hhost : ∀ l, Safety.statusLegal (withHost l s) := fun l => h
  have hreset : ∀ u, Safety.statusLegal (resetNow u) := fun u => by simp [Safety.statusLegal, resetNow, State.reset]
  have hregs : ∀ u t : State, t.status = u.status → t.errCode = u.errCode → t.errInfo = u.errInfo → t.seq = u.seq →
      StandsAt u t := fun u t hst hc hi hq => ⟨by rw [hst], by rw [hst], by rw [hst], hc, hi, hq⟩
  obtain ⟨-, rfl⟩ | ⟨hb, e, rest, -, hidle⟩ | ⟨hb, rest, rfl⟩ | ⟨hb, e, rest, -, hbusy⟩ := step_cases hstep
  · exact h
  · refine hostIdle_keeps (fun c => ?_) (fun c => (phase_startCommand c (s := withHost rest s) hb).statusLegal)
      (fun r v => (standsAt_writeOperand r v _).statusLegal (hhost rest))
      (fun v => (hregs _ _ rfl rfl rfl rfl).statusLegal (hhost rest))
      (fun b a v _ => (standsAt_wr _ b a v).statusLegal (hhost rest)) (hreset _) hidle
    exact Phase.statusLegal (.inr (command_ends c (s := withHost rest s) hb))
  · obtain ⟨hq, hl⟩ := live_of_statusLegal (hhost rest) hb
    exact (phase_unitNext hq hl).statusLegal
  · exact hostBusy_keeps (hhost rest) (fun v => (hregs _ _ rfl rfl rfl rfl).statusLegal (hhost rest))
      (fun n => (hregs _ _ rfl rfl rfl rfl).statusLegal (hhost rest))
      (fun r v => statusLegal_disturb (hhost rest) hb (standsAt_writeOperand r v _))
      (fun n => statusLegal_disturb (hhost rest) hb (hregs _ _ rfl rfl rfl rfl))
      (fun b a v _ => statusLegal_disturb (hhost rest) hb (standsAt_wr _ b a v)) (hreset _) hbusy

/-! ### The bounds -/

/-- The places outside stage 1 to 3 and the table rest on no check. -/
def placeFree (q : Seq) : Bool :=
  q == .idle || q == .mark || q == .token || q == .header || q == .assemble ||
    q == .disturbed true || q == .disturbed false

theorem placeChecked_of_free {s : State} (h : placeFree s.seq = true) : Safety.placeChecked s := by
  unfold Safety.placeChecked
  cases hq : s.seq <;> first | trivial | simp [hq, placeFree] at h

/-- A running flow that goes on at a place without checks, or has been ended. -/
theorem Flow.Sound.placeChecked_thenGo {u : State} {x : Flow} (h : x.Sound u) {q : Seq}
    (hgo : ∀ t, x = .go t → Safety.placeChecked (goTo q t)) :
    (x.thenGo q).status.busy = true → Safety.placeChecked (x.thenGo q) := by
  cases x with
  | go t => exact fun _ => hgo t rfl
  | ended t => exact fun hb => absurd hb (by rw [show (Flow.ended t).thenGo q = t from rfl, Over.busy h]; nofun)

theorem Flow.Sound.placeChecked_state {u : State} {x : Flow} (h : x.Sound u)
    (hgo : ∀ t, x = .go t → Safety.placeChecked t) : x.state.status.busy = true → Safety.placeChecked x.state := by
  cases x with
  | go t => exact fun _ => hgo t rfl
  | ended t => exact fun hb => absurd hb (by rw [Flow.ended_state, Over.busy h]; nofun)

/-- A started table fits SCR (R210). -/
theorem tsaStart_go {x y : BitVec 14} {s t : State} (h : tsaStart x.toNat y.toNat s = .go t) :
    tsaCount t ≤ t.params.scrCap ∧ t.asm = s.asm ∧ t.params = s.params ∧ t.cmd = s.cmd := by
  obtain ⟨-, he⟩ | ⟨hcap, he⟩ := tsaStart_cases x.toNat y.toNat s <;> rw [he] at h <;> cases h
  rw [tsaCount_init s x.isLt y.isLt]
  exact ⟨hcap, rfl, rfl, rfl⟩

theorem placeChecked_blockSeq {s : State} (q : Seq) (hq : q = .alpha ∨ q = .colour)
    (h : s.cmd = 3#8 ∨ (Safety.asmChecked s ∧ s.asm.s.toNat < s.asm.n.toNat)) : Safety.placeChecked (goTo q s) := by
  obtain rfl | rfl := hq <;> exact h

/-- A unit step leaves its command where the checks of its place have been made (R72). -/
theorem placeChecked_unitNext {s : State} (h : Safety.placeChecked s) :
    (unitNext s).status.busy = true → Safety.placeChecked (unitNext s) := by
  unfold Safety.placeChecked at h
  unfold unitNext
  cases hseq : s.seq with
  | idle => exact fun _ => placeChecked_of_free (by rw [hseq]; rfl)
  | mark =>
    dsimp only
    rw [lzdStart_eq]
    exact (sound_lzdMark _ (.refl s)).placeChecked_thenGo fun t _ => trivial
  | token =>
    dsimp only [afterLzd]
    split_ifs with hi
    · exact fun _ => trivial
    · exact fun _ => trivial
    · nofun
    · have hsound := sound_lzdStep (by omega) (.refl s)
      refine hsound.placeChecked_state fun t ht => ?_
      rw [ht] at hsound
      exact placeChecked_of_free (by rw [StandsAt.seq hsound, hseq]; rfl)
  | header =>
    have hsound := sound_hdrRun (.refl s)
    cases hflow : hdrRun s with
    | go t =>
      dsimp only [afterHeader]
      split_ifs
      · exact fun _ => trivial
      · nofun
    | ended t =>
      rw [hflow] at hsound
      exact fun hb => absurd hb (by rw [show afterHeader (.ended t) = t from rfl, Over.busy hsound]; nofun)
  | scramble =>
    rw [hseq] at h
    refine (sound_scrambleStart (.refl s)).placeChecked_thenGo fun t ht => ?_
    unfold scrambleStart at ht
    split_ifs at ht
    · cases ht
    · cases ht
    · have hw := s.width.isLt
      have hh := s.height.isLt
      obtain ⟨-, he⟩ | ⟨hcap, he⟩ := tsaStart_cases (s.width.toNat / 4) (s.height.toNat / 4) s <;> rw [he] at ht <;>
        cases ht
      have hcount := tsaCount_init s (tilesX := s.width.toNat / 4) (tilesY := s.height.toNat / 4)
        (by omega) (by omega)
      exact ⟨hcount.trans_le hcap, .inl h⟩
  | assemble =>
    refine (sound_assembleStart s).placeChecked_thenGo fun t ht => ?_
    have hchecked : Safety.asmChecked t := by
      unfold assembleStart at ht
      split_ifs at ht
      · cases hfmt : checkFormat s <;> rw [hfmt] at ht
        · exact asmStart_checked ht
        · cases ht
      · exact asmStart_checked ht
      · exact asmStart_checked ht
    exact hchecked
  | block =>
    rw [hseq] at h
    dsimp only [blockStep]
    split_ifs with hs
    · obtain ⟨c, a, hf, -⟩ := asmFetch_eq s
      refine fun _ => placeChecked_blockSeq _ (blockSeq_cases _) (.inr ?_)
      rw [hf]
      exact ⟨h, hs⟩
    · refine (sound_tsaStart _ _ (.refl s)).placeChecked_thenGo fun t ht => ?_
      obtain ⟨hcap, ha, hp, -⟩ := tsaStart_go ht
      exact ⟨hcap, .inr (by unfold Safety.asmChecked; simp only [goTo, ha, hp]; exact h)⟩
  | alpha =>
    rw [hseq] at h
    dsimp only
    rw [runBlock_alpha]
    obtain ⟨m, e, he, -⟩ := decodeAlpha_only _ s
    rw [he]
    exact fun _ => h
  | colour =>
    rw [hseq] at h
    dsimp only [afterColour]
    rw [runBlock_colour]
    obtain ⟨m, e, v, he, -⟩ := blockOp_only _ s
    rw [he]
    split_ifs with hc
    · nofun
    · exact fun _ => h.resolve_left hc
  | store =>
    rw [hseq] at h
    obtain ⟨m, hm⟩ := asmStore_eq s
    dsimp only
    rw [hm]
    exact fun _ => h.1
  | table =>
    rw [hseq] at h
    dsimp only [tableStep]
    split_ifs with ht hc
    · intro _
      have hplace : Safety.placeChecked (goTo .table (tsaStep s)) := by
        refine ⟨(tsaCount_step s).trans_le ?_, ?_⟩ <;> rw [tsaStep_eq]
        · exact h.1
        · exact h.2
      have hsame : goTo .table (tsaStep s) = tsaStep s := by
        rw [tsaStep_eq, goTo, ← hseq]
      rwa [hsame] at hplace
    · nofun
    · exact fun _ => h.2.resolve_left hc
  | gather =>
    rw [hseq] at h
    dsimp only [gatherStep]
    split_ifs with hi
    · have hsound := sound_asmGather (.refl s)
      refine hsound.placeChecked_state fun t ht => ?_
      obtain ⟨ha, hp, -⟩ := asmGather_regs ht
      rw [ht] at hsound
      unfold Safety.placeChecked
      rw [StandsAt.seq hsound, hseq]
      unfold Safety.asmChecked
      rw [ha, hp]
      exact h
    · nofun
  | disturbed rawLz => exact fun hb => absurd ((loseStatus_outcome _).1.symm.trans hb) nofun

theorem launchClears_cmd (c : Byte) (s : State) : (launchClears c s).cmd = c := by
  unfold launchClears
  split_ifs <;> rfl

/-- A command starts where no check is needed, or at a place its own code vouches for. -/
theorem placeChecked_startCommand (c : Byte) {s : State} (hidle : s.status.busy = false) :
    (startCommand c s).status.busy = true → Safety.placeChecked (startCommand c s) := by
  simp only [startCommand, hidle, Bool.false_eq_true, if_false]
  obtain ⟨e, n, he⟩ | ⟨he, -⟩ := launch_cases c s <;> rw [he]
  · nofun
  · have hcmd := launchClears_cmd c s
    generalize launchClears c s = t at hcmd
    intro _
    dsimp only [enter]
    split_ifs with h1 h2 h3 h4 h5
    case pos => trivial
    case pos => trivial
    case pos => exact placeChecked_blockSeq _ (blockSeq_cases _) (.inl (hcmd.trans h3))
    case pos => exact hcmd.trans h4
    all_goals trivial

/-- Settles O44: the cells by what each place has checked, the checks by `placeChecked_unitNext`. -/
theorem stepStaysInBounds : Obligations.StepStaysInBounds := by
  unfold Obligations.StepStaysInBounds
  intro s t ⟨hcells, hplace⟩ hstep
  have hP := bufferProp_inBounds
  refine ⟨hP.step (fun u _ => inBounds_resetNow u) (fun hb l hl => cellsInBounds_unitNext (s := withHost l s)
    (hplace hb) hl) hcells hstep, ?_⟩
  obtain ⟨-, rfl⟩ | ⟨hb, e, rest, -, hidle⟩ | ⟨hb, rest, rfl⟩ | ⟨hb, e, rest, -, hbusy⟩ := step_cases hstep
  · exact hplace
  · have hquiet : ∀ u : State, u.status.busy = false → u.status.busy = true → Safety.placeChecked u :=
      fun u hu hu' => absurd hu' (by rw [hu]; nofun)
    refine hostIdle_keeps (P := fun u => u.status.busy = true → Safety.placeChecked u) (s := withHost rest s) (fun c => hquiet _ ?_)
      (fun c => ?_) (fun r v => hquiet _ ?_) (fun v => hquiet _ hb) (fun b a v _ => hquiet _ ?_) (hquiet _ rfl) hidle
    · exact (command_ends c (s := withHost rest s) hb).elim Completed.busy Over.busy
    · exact placeChecked_startCommand c (s := withHost rest s) hb
    · exact (standsAt_writeOperand r v (withHost rest s)).busy.trans hb
    · exact (standsAt_wr (withHost rest s) b a v).busy.trans hb
  · exact placeChecked_unitNext (s := withHost rest s) (hplace hb)
  · exact hostBusy_keeps (P := fun u => u.status.busy = true → Safety.placeChecked u) (s := withHost rest s) hplace (fun v => hplace)
      (fun n => hplace) (fun r v _ => trivial) (fun n _ => trivial) (fun b a v _ _ => trivial) nofun hbusy

theorem statusLegal_reset : Safety.statusLegal State.reset := by decide

theorem inBounds_reset : Safety.inBounds State.reset :=
  ⟨⟨fun b => by cases b <;> exact bound_blank _, bound_blank _⟩, nofun⟩

/-- Settles O46: after reset nothing is listed in any buffer and nothing runs. -/
theorem resetMeetsInvariants : Obligations.ResetMeetsInvariants := by
  unfold Obligations.ResetMeetsInvariants
  exact ⟨statusLegal_reset, wf_reset, inBounds_reset⟩

end Sys2Proof.Machine
end

section
/-! SUPPORT. What each unit may write, as a state with those fields blanked: two states agree outside the unit when the
blanked states are equal. From it what every command leaves unchanged (R261). -/

namespace Sys2Proof.Machine

open Sys2Proof.Config (BufName)
open Sys2Proof.Reference (operandsKept imageSideKept onlyImageSide onlyPayloadSide)

/-! ### The parts of the state a unit may write -/

/-- `s` without STATUS, the fault registers and the sequencer's place. -/
def sansRecord (s : State) : State :=
  { s with status := Status.launched, errCode := 0#8, errInfo := 0#32, seq := .idle }

/-- `s` without the record and what LZD writes (R120): OUT, OUT_LEN and its registers. -/
def sansLzd (s : State) : State :=
  { sansRecord s with outLen := 0#32, outBuf := Memory.blank 8 0, lzd := State.reset.lzd, draws := 0 }

/-- `s` without the record and what HDR writes (R150): TI_*. -/
def sansHdr (s : State) : State := { sansRecord s with ti := State.reset.ti }

/-- `s` without the record and what ETC writes (R170): TILEOUT and its registers. -/
def sansEtc (s : State) : State := { sansRecord s with etc := State.reset.etc, tileout := Memory.blank 8 0 }

/-- `s` without the record and what TSA writes (R210): SCR, SCR_LEN and its registers. -/
def sansTsa (s : State) : State :=
  { sansRecord s with scrLen := 0#32, tsa := State.reset.tsa, scr := Memory.blank 32 0, draws := 0 }

/-- `s` without the record and what ASM writes (R230): the image side and the registers of ETC, TSA and ASM. -/
def sansAsm (s : State) : State :=
  { sansRecord s with
    scrLen := 0#32, imgW := 0#16, imgH := 0#16, etc := State.reset.etc, tsa := State.reset.tsa
    asm := State.reset.asm, cblk := Memory.blank 8 0, ablk := Memory.blank 8 0, tileout := Memory.blank 8 0
    img0 := Memory.blank 8 0, img1 := Memory.blank 8 0, scr := Memory.blank 32 0, draws := 0 }

/-- `s` without what any command may write (R261): the host's operands, CMD and the parameters are left. -/
def sansResults (s : State) : State :=
  { State.reset with
    params := s.params, cmd := s.cmd, ctrl := s.ctrl, inLen := s.inLen, width := s.width, height := s.height
    hasAlpha := s.hasAlpha, inBuf := s.inBuf, host := s.host, readData := s.readData }

/-! ### Each unit stays within its part -/

theorem sansLzd_lzdMark (m : Byte) (s : State) : (lzdMark m s).both fun t => sansLzd t = sansLzd s := by
  obtain ⟨-, he⟩ | ⟨-, he⟩ := lzdMark_cases m s <;> rw [he] <;> unfold sansLzd sansRecord <;> rfl

theorem sansLzd_emitOne (v : Byte) (n : Nat) (s : State) : (emitOne v n s).both fun t => sansLzd t = sansLzd s := by
  obtain ⟨-, he⟩ | ⟨-, he⟩ := emitOne_cases v n s <;> rw [he] <;> rfl

theorem sansLzd_lzdBref (o c : Byte) (s : State) : (lzdBref o c s).both fun t => sansLzd t = sansLzd s := by
  obtain ⟨-, he⟩ | ⟨-, -, -, he⟩ | ⟨-, -, -, he⟩ := lzdBref_cases o c s <;> rw [he]
  · rfl
  · rfl
  · obtain ⟨m, hm⟩ := copyBytes_eq c.toNat (beginCopy (latchBref o c s))
    rw [hm]
    unfold sansLzd sansRecord
    rfl

theorem sansLzd_lzdStep {s : State} (hi : s.lzd.ip.toNat < s.inLen.toNat) :
    (lzdStep s).both fun t => sansLzd t = sansLzd s := by
  obtain ⟨-, he⟩ | ⟨-, -, he⟩ | ⟨-, -, -, he⟩ | ⟨-, -, -, he⟩ | ⟨-, -, -, he⟩ := lzdStep_cases hi <;> rw [he]
  · exact sansLzd_emitOne ..
  · rfl
  · exact sansLzd_emitOne ..
  · rfl
  · exact sansLzd_lzdBref ..

theorem sansLzd_lzdLoop (n : Nat) (s : State) : (lzdLoop n s).both fun t => sansLzd t = sansLzd s := by
  refine lzdLoop_keeps (fun u hu hi => ?_) n s rfl
  rw [← hu]
  exact sansLzd_lzdStep hi

/-- LZD changes OUT, OUT_LEN and its registers only (R120). -/
theorem sansLzd_lzdRun (s : State) : (lzdRun s).both fun t => sansLzd t = sansLzd s := by
  unfold lzdRun
  rw [lzdStart_eq]
  refine Flow.both_andThen (sansLzd_lzdMark _ s) fun t _ ht => ?_
  rw [← ht]
  exact sansLzd_lzdLoop _ t

/-- HDR changes TI_* only (R150). -/
theorem sansHdr_hdrRun (s : State) : (hdrRun s).both fun t => sansHdr t = sansHdr s := by
  unfold hdrRun
  dsimp only
  split_ifs <;> rfl

theorem sansEtc_etcRun (s : State) : sansEtc (etcRun s) = sansEtc s := by
  obtain ⟨m, e, v, he, -⟩ := etcRun_only s
  rw [he]
  rfl

theorem sansTsa_tsaStart (x y : Nat) (s : State) : (tsaStart x y s).both fun t => sansTsa t = sansTsa s := by
  obtain ⟨-, he⟩ | ⟨-, he⟩ := tsaStart_cases x y s <;> rw [he] <;> rfl

theorem sansTsa_tsaSteps (n : Nat) (s : State) : sansTsa (tsaEnd (tsaStep^[n] s)) = sansTsa s := by
  obtain ⟨m, hm⟩ := tsaStep_iterate_eq n s
  rw [hm]
  rfl

/-- TSA changes SCR, SCR_LEN and its registers only (R210). -/
theorem sansTsa_tsaRun (x y : Nat) (s : State) : (tsaRun x y s).both fun t => sansTsa t = sansTsa s :=
  Flow.both_andThen (sansTsa_tsaStart x y s) fun t _ ht => (sansTsa_tsaSteps _ t).trans ht

theorem sansTsa_scrambleRun (s : State) : (scrambleRun s).both fun t => sansTsa t = sansTsa s := by
  refine Flow.both_andThen ?_ fun t _ ht => (sansTsa_tsaSteps _ t).trans ht
  unfold scrambleStart
  split_ifs
  · rfl
  · rfl
  · exact sansTsa_tsaStart ..

theorem sansAsm_asmStart (p : AsmOperands) (s : State) : (asmStart p s).both fun t => sansAsm t = sansAsm s := by
  obtain ⟨e, n, he⟩ | ⟨-, -, -, -, -, he⟩ := asmStart_cases p s <;> rw [he] <;> rfl

theorem sansAsm_asmBlocks (n : Nat) (s : State) : sansAsm (asmBlock^[n] s) = sansAsm s := by
  refine iterate_keeps (P := fun t => sansAsm t = sansAsm s) (fun u hu => ?_) n s rfl
  obtain ⟨c, a, m, i, e, v, he, -⟩ := asmBlock_eq u
  rw [he]
  exact hu

theorem sansAsm_asmGather (s : State) : (asmGather s).both fun t => sansAsm t = sansAsm s := by
  obtain ⟨-, he⟩ | ⟨-, m, he⟩ := asmGather_cases s <;> rw [he]
  · obtain ⟨m1, m2, m3, m4, d, hr⟩ := scrRange_eq s
    rw [hr]
    rfl
  · rfl

/-- What TSA leaves alone, ASM's part leaves alone. -/
theorem sansAsm_of_sansTsa {s t : State} (h : sansTsa t = sansTsa s) : sansAsm t = sansAsm s := by
  have hblank : ∀ u, sansAsm (sansTsa u) = sansAsm u := fun _ => rfl
  rw [← hblank t, h, hblank]

/-- What ETC leaves alone, ASM's part leaves alone. -/
theorem sansAsm_of_sansEtc {s t : State} (h : sansEtc t = sansEtc s) : sansAsm t = sansAsm s := by
  have hblank : ∀ u, sansAsm (sansEtc u) = sansAsm u := fun _ => rfl
  rw [← hblank t, h, hblank]

theorem sansAsm_asmStages (s : State) : (asmStages s).both fun t => sansAsm t = sansAsm s := by
  refine Flow.both_andThen (x := tsaRun _ _ _) ?_ fun t _ ht => ?_
  · have hrun := sansTsa_tsaRun s.asm.tilesX.toNat s.asm.tilesY.toNat (asmBlock^[s.asm.n.toNat] s)
    exact (sansAsm_of_sansTsa hrun).trans (sansAsm_asmBlocks _ s)
  · refine Flow.both_andThen (Flow.both_times (fun u hu => ?_) _ _ ht) fun u _ hu => hu
    rw [← hu]
    exact sansAsm_asmGather u

/-- ASM changes the image side and the registers of ETC, TSA and ASM only (R230). -/
theorem sansAsm_asmRun (p : AsmOperands) (s : State) : (asmRun p s).both fun t => sansAsm t = sansAsm s := by
  refine Flow.both_andThen (sansAsm_asmStart p s) fun t _ ht => ?_
  rw [← ht]
  exact sansAsm_asmStages t

/-! ### Whole commands -/

theorem sansResults_of_sansLzd {s t : State} (h : sansLzd t = sansLzd s) : sansResults t = sansResults s := by
  have hblank : ∀ u, sansResults (sansLzd u) = sansResults u := fun _ => rfl
  rw [← hblank t, h, hblank]

theorem sansResults_of_sansHdr {s t : State} (h : sansHdr t = sansHdr s) : sansResults t = sansResults s := by
  have hblank : ∀ u, sansResults (sansHdr u) = sansResults u := fun _ => rfl
  rw [← hblank t, h, hblank]

theorem sansResults_of_sansAsm {s t : State} (h : sansAsm t = sansAsm s) : sansResults t = sansResults s := by
  have hblank : ∀ u, sansResults (sansAsm u) = sansResults u := fun _ => rfl
  rw [← hblank t, h, hblank]

theorem sansHdr_checkFormat (s : State) : (checkFormat s).both fun t => sansHdr t = sansHdr s := by
  unfold checkFormat
  split_ifs <;> rfl

/-- One part after another: what both leave alone, the two in a row do. -/
theorem Flow.both_andThen_eq {α : Type} {F : State → α} {x : Flow} {f : State → Flow} {s : State}
    (hx : x.both fun t => F t = F s) (hf : ∀ t, (f t).both fun u => F u = F t) :
    (x.andThen f).both fun u => F u = F s :=
  Flow.both_andThen hx fun t _ ht => ht ▸ hf t

theorem sansResults_commandBody (c : Byte) (s : State) :
    (commandBody c s).both fun t => sansResults t = sansResults s := by
  have hlzd : ∀ u, (lzdRun u).both fun t => sansResults t = sansResults u :=
    fun u => sansResults_of_sansLzd (sansLzd_lzdRun u)
  have hhdr : ∀ u, (hdrRun u).both fun t => sansResults t = sansResults u :=
    fun u => sansResults_of_sansHdr (sansHdr_hdrRun u)
  have hfmt : ∀ u, (checkFormat u).both fun t => sansResults t = sansResults u :=
    fun u => sansResults_of_sansHdr (sansHdr_checkFormat u)
  have hasm : ∀ p u, (asmRun p u).both fun t => sansResults t = sansResults u :=
    fun p u => sansResults_of_sansAsm (sansAsm_asmRun p u)
  refine commandBody_cases (P := fun body => (body s).both fun t => sansResults t = sansResults s) (hlzd s) (hhdr s)
    ?etc ?tsa (hasm _ s) ?entry ?raw (fun _ => rfl) c
  case etc =>
    exact sansResults_of_sansAsm (sansAsm_of_sansEtc (sansEtc_etcRun (withAlpha s.hasAlpha s)))
  case tsa => exact sansResults_of_sansAsm (sansAsm_of_sansTsa (sansTsa_scrambleRun s))
  case entry =>
    exact Flow.both_andThen_eq (Flow.both_andThen_eq (Flow.both_andThen_eq (hlzd s) hhdr) hfmt) fun t => hasm _ t
  case raw =>
    unfold rawRun
    split_ifs
    · exact Flow.both_andThen_eq (hlzd s) fun t => hasm _ t
    · exact hasm _ s

/-- A command written to an idle block: what its launch, a fault, its body and its completion leave alone. -/
theorem command_keeps {α : Type} (F : State → α) {c : Byte} {body : State → Flow} {s : State}
    (hidle : s.status.busy = false) (hraise : ∀ e n u, F (raise e n u) = F u) (hcomplete : ∀ u, F (complete u) = F u)
    (hbody : (body (launchClears c s)).both fun t => F t = F (launchClears c s)) :
    F (command c body s) = F (launchClears c s) := by
  rw [command_idle hidle]
  obtain ⟨e, n, he⟩ | ⟨he, -⟩ := launch_cases c s <;> rw [he]
  · exact hraise e n _
  · exact both_finish (P := fun t => F t = F (launchClears c s)) hbody fun u hu => (hcomplete u).trans hu

/-- No command writes the host's operands or the parameters (R261), and CMD holds its code. -/
theorem command_sansResults (c : Byte) {s : State} (hidle : s.status.busy = false) :
    sansResults (command c (commandBody c) s) = sansResults (acknowledge c s) := by
  have hclears : sansResults (launchClears c s) = sansResults (acknowledge c s) := by
    unfold launchClears
    split_ifs <;> rfl
  exact (command_keeps sansResults hidle (fun _ _ _ => rfl) (fun _ => rfl) (sansResults_commandBody c _)).trans hclears

/-- Settles O40: every code is a command, and a command ends in one of two ways, its code in CMD. -/
theorem everyCommandEnds : Obligations.EveryCommandEnds := by
  unfold Obligations.EveryCommandEnds
  intro c s hidle
  have hcmd : (command c (commandBody c) s).cmd = c := (congrArg State.cmd (command_sansResults c hidle) :)
  refine ⟨command c (commandBody c) s, exec_command c s, hcmd, ?_⟩
  obtain h | h := command_ends c hidle
  · exact ⟨h.seq, h.busy, h.done, .inl ⟨h.err, h.code, h.info⟩⟩
  · exact ⟨h.seq, h.busy, h.done, .inr ⟨h.err, h.code⟩⟩

/-! ### The rows of R261 -/

theorem operandsKept_of_sansResults {c : Byte} {s t : State} (h : sansResults t = sansResults (acknowledge c s)) :
    operandsKept s t :=
  ⟨(congrArg State.inBuf h :), (congrArg State.inLen h :), (congrArg State.width h :), (congrArg State.height h :),
    (congrArg State.hasAlpha h :), (congrArg State.ctrl h :), (congrArg State.params h :), (congrArg State.host h :),
    (congrArg State.readData h :)⟩

/-- What LZD and HDR leave alone includes the image side. -/
theorem imageSideKept_of_sansPayload {s t : State} (h : sansHdr (sansLzd t) = sansHdr (sansLzd s)) :
    imageSideKept s t :=
  ⟨(congrArg State.img0 h :), (congrArg State.img1 h :), (congrArg State.scr h :), (congrArg State.scrLen h :), (congrArg State.imgW h :),
    (congrArg State.imgH h :), (congrArg State.cblk h :), (congrArg State.ablk h :), (congrArg State.tileout h :)⟩

/-- The command whose state is the given one, on an idle block; a running block drops it (R259). -/
theorem exec_command_cases {c : Byte} {body : State → Flow} {s t : State} {i : Instr}
    (hexec : exec i s = .next (command c body s)) (h : exec i s = .next t) :
    (s.status.busy = true ∧ t = s) ∨ (s.status.busy = false ∧ t = command c body s) := by
  rw [hexec] at h
  cases h
  cases hb : s.status.busy
  · exact .inr ⟨rfl, rfl⟩
  · exact .inl ⟨rfl, command_busy hb⟩

/-- CMD.DECOMPRESS leaves everything but LZD's part alone (R251). -/
theorem decompress_sansLzd {s : State} (hidle : s.status.busy = false) :
    sansLzd (command 1#8 lzdRun s) = sansLzd (acknowledge 1#8 s) :=
  command_keeps sansLzd hidle (fun _ _ _ => rfl) (fun _ => rfl) (sansLzd_lzdRun _)

/-- CMD.PARSE_HEADER leaves everything but HDR's part alone (R252). -/
theorem parseHeader_sansHdr {s : State} (hidle : s.status.busy = false) :
    sansHdr (command 2#8 hdrRun s) = sansHdr (acknowledge 2#8 s) :=
  command_keeps sansHdr hidle (fun _ _ _ => rfl) (fun _ => rfl) (sansHdr_hdrRun _)

/-- CMD.DECODE_BLOCK leaves everything but ETC's part alone (R253). -/
theorem decodeBlock_sansEtc {s : State} (hidle : s.status.busy = false) :
    sansEtc (command 3#8 (fun s => .go (etcRun (withAlpha s.hasAlpha s))) s) = sansEtc (acknowledge 3#8 s) :=
  command_keeps sansEtc hidle (fun _ _ _ => rfl) (fun _ => rfl) (sansEtc_etcRun (withAlpha _ _))

/-- CMD.BUILD_SCRAMBLE leaves everything but TSA's part alone (R254). -/
theorem buildScramble_sansTsa {s : State} (hidle : s.status.busy = false) :
    sansTsa (command 4#8 scrambleRun s) = sansTsa (acknowledge 4#8 s) :=
  command_keeps sansTsa hidle (fun _ _ _ => rfl) (fun _ => rfl) (sansTsa_scrambleRun _)

/-- CMD.DECODE_TEX leaves everything but ASM's part alone (R255). -/
theorem decodeTex_sansAsm {s : State} (hidle : s.status.busy = false) :
    sansAsm (command 5#8 (fun s => asmRun (operandsOfIn s) s) s) = sansAsm (acknowledge 5#8 s) :=
  command_keeps sansAsm hidle (fun _ _ _ => rfl) (fun _ => rfl) (sansAsm_asmRun _ _)

/-- CMD.DECODE_RAW with RAW_LZ = 0 leaves everything but ASM's part alone (R257). -/
theorem decodeRaw_sansAsm {s : State} (hidle : s.status.busy = false) (hraw : s.ctrl.rawLz = false) :
    sansAsm (command 7#8 rawRun s) = sansAsm (acknowledge 7#8 s) := by
  refine command_keeps sansAsm hidle (fun _ _ _ => rfl) (fun _ => rfl) ?_
  have hbody : rawRun (launchClears 7#8 s) = asmRun (operandsOfIn (launchClears 7#8 s)) (launchClears 7#8 s) :=
    if_neg (by rw [show (launchClears 7#8 s).ctrl.rawLz = false from hraw]; nofun)
  rw [hbody]
  exact sansAsm_asmRun _ _

/-- CMD.DECODE_RAW leaves everything but LZD's and ASM's parts alone (R257). -/
theorem decodeRaw_sansLzdAsm {s : State} (hidle : s.status.busy = false) :
    sansAsm (sansLzd (command 7#8 rawRun s)) = sansAsm (sansLzd (acknowledge 7#8 s)) := by
  have hasm : ∀ p u, (asmRun p u).both fun t => sansAsm (sansLzd t) = sansAsm (sansLzd u) := fun p u => by
    have hswap : ∀ v, sansAsm (sansLzd v) = sansLzd (sansAsm v) := fun _ => rfl
    have hrun : sansAsm (asmRun p u).state = sansAsm u := sansAsm_asmRun p u
    show sansAsm (sansLzd (asmRun p u).state) = _
    rw [hswap, hrun, hswap]
  have hlzd : ∀ u, (lzdRun u).both fun t => sansAsm (sansLzd t) = sansAsm (sansLzd u) := fun u =>
    congrArg sansAsm (sansLzd_lzdRun u)
  refine command_keeps (fun t => sansAsm (sansLzd t)) hidle (fun _ _ _ => rfl) (fun _ => rfl) ?_
  unfold rawRun
  split_ifs
  · exact Flow.both_andThen_eq (F := fun t => sansAsm (sansLzd t)) (hlzd _) fun t => hasm _ t
  · exact hasm _ _

/-- Settles O41: each command by the part of the state its unit leaves alone. -/
theorem commandsWriteOnlyTheirRow : Obligations.CommandsWriteOnlyTheirRow := by
  unfold Obligations.CommandsWriteOnlyTheirRow
  intro s
  have hself : imageSideKept s s := ⟨rfl, rfl, rfl, rfl, rfl, rfl, rfl, rfl, rfl⟩
  refine ⟨fun c t h => ?any, fun t h => ?decompress, fun t h => ?parse, fun t h => ?block, fun t h => ?scramble,
    fun t h => ?tex, fun t h => ?raw⟩
  case any =>
    obtain ⟨-, rfl⟩ | ⟨hidle, rfl⟩ := exec_command_cases (exec_command c s) h
    · exact ⟨rfl, rfl, rfl, rfl, rfl, rfl, rfl, rfl, rfl⟩
    · exact operandsKept_of_sansResults (command_sansResults c hidle)
  case decompress =>
    obtain ⟨-, rfl⟩ | ⟨hidle, rfl⟩ := exec_command_cases rfl h
    · exact ⟨hself, rfl⟩
    · have hk := decompress_sansLzd hidle
      exact ⟨imageSideKept_of_sansPayload (s := acknowledge 1#8 s) (congrArg sansHdr hk), (congrArg State.ti hk :)⟩
  case parse =>
    obtain ⟨-, rfl⟩ | ⟨hidle, rfl⟩ := exec_command_cases rfl h
    · exact ⟨hself, rfl, rfl⟩
    · have hk := parseHeader_sansHdr hidle
      exact ⟨imageSideKept_of_sansPayload (s := acknowledge 2#8 s) (congrArg sansLzd hk), (congrArg State.outBuf hk :),
        (congrArg State.outLen hk :)⟩
  case block =>
    obtain ⟨-, rfl⟩ | ⟨hidle, rfl⟩ := exec_command_cases rfl h
    · exact ⟨hself, rfl, rfl, rfl⟩
    · have hk := decodeBlock_sansEtc hidle
      exact ⟨⟨(congrArg State.img0 hk :), (congrArg State.img1 hk :), (congrArg State.scr hk :), (congrArg State.scrLen hk :),
        (congrArg State.imgW hk :), (congrArg State.imgH hk :), (congrArg State.cblk hk :), (congrArg State.ablk hk :), rfl⟩,
        (congrArg State.outBuf hk :), (congrArg State.outLen hk :), (congrArg State.ti hk :)⟩
  case scramble =>
    obtain ⟨-, rfl⟩ | ⟨hidle, rfl⟩ := exec_command_cases rfl h
    · exact ⟨hself, rfl, rfl, rfl⟩
    · have hk := buildScramble_sansTsa hidle
      exact ⟨⟨(congrArg State.img0 hk :), (congrArg State.img1 hk :), rfl, rfl, (congrArg State.imgW hk :),
        (congrArg State.imgH hk :), (congrArg State.cblk hk :), (congrArg State.ablk hk :), (congrArg State.tileout hk :)⟩,
        (congrArg State.outBuf hk :), (congrArg State.outLen hk :), (congrArg State.ti hk :)⟩
  case tex =>
    obtain ⟨-, rfl⟩ | ⟨hidle, rfl⟩ := exec_command_cases rfl h
    · exact ⟨rfl, rfl, rfl⟩
    · have hk := decodeTex_sansAsm hidle
      exact ⟨(congrArg State.outBuf hk :), (congrArg State.outLen hk :), (congrArg State.ti hk :)⟩
  case raw =>
    obtain ⟨-, rfl⟩ | ⟨hidle, rfl⟩ := exec_command_cases rfl h
    · exact ⟨rfl, fun _ => ⟨rfl, rfl⟩⟩
    · refine ⟨(congrArg State.ti (decodeRaw_sansLzdAsm hidle) :), fun hraw => ?_⟩
      have hk := decodeRaw_sansAsm hidle hraw
      exact ⟨(congrArg State.outBuf hk :), (congrArg State.outLen hk :)⟩

end Sys2Proof.Machine
end

section
/-! SUPPORT. Steps of the machine against `exec`: a pending command, LZD's steps, ETC's steps; and the meanings of MARK,
ESC and BREF. -/

namespace Sys2Proof.Machine

open Sys2Proof.Config (BufName)
open Sys2Proof.Reference (faulted)

/-- Settles O5: the action lands and is the command its code decodes to. -/
theorem stepRunsPendingCommand : Obligations.StepRunsPendingCommand := by
  unfold Obligations.StepRunsPendingCommand
  intro s v n rest i hidle hhost hdecode
  cases hdecode
  rw [step_idle hidle hhost, hostIdle_writeCmd]
  rfl

/-! ### MARK -/

theorem exec_mark (m : Byte) (s : State) : exec (.mark m) s = .next (lzdMark m s).state := rfl

/-- Taking a fault with a register's value as its information word. -/
theorem stop_eq_faulted (e : FaultName) (w : Word) (s : State) : stop e w.toNat s = .ended (faulted e.code w s) := by
  rw [stop, raise_eq_faulted, BitVec.ofNat_toNat, BitVec.setWidth_eq]

/-- MARK on a stream (R121). -/
theorem lzdMark_stream (m : Byte) {s : State} (h : s.inLen.toNat ≠ 0) :
    lzdMark m s = .go { clearOutput s with lzd := { s.lzd with m := m, ip := 1#32 } } := by
  obtain ⟨h0, -⟩ | ⟨-, he⟩ := lzdMark_cases m s
  · exact absurd h0 h
  · exact he

/-- MARK on the empty stream (R121). -/
theorem lzdMark_empty (m : Byte) {s : State} (h : s.inLen.toNat = 0) :
    lzdMark m s = .ended (faulted 0x10#8 0#32 (clearOutput s)) := by
  obtain ⟨-, he⟩ | ⟨h0, -⟩ := lzdMark_cases m s
  · exact he
  · exact absurd h h0

/-- Settles O8: the two outcomes of the start step; OUT is the only buffer it touches. -/
theorem markStartsStream : Obligations.MarkStartsStream := by
  unfold Obligations.MarkStartsStream
  refine fun m s => ⟨fun h => ⟨_, by rw [exec_mark, lzdMark_stream m h, Flow.go_state]; rfl, rfl, rfl, rfl,
    fun b a hb => ?_, rfl⟩, fun h => by rw [exec_mark, lzdMark_empty m h]; rfl⟩
  cases b
  case OUT => exact absurd rfl hb
  all_goals rfl

/-! ### Steps of LZD -/

/-- A running block with no action pending makes the unit step of its place. -/
theorem step_running {s : State} (hb : s.status.busy = true) (hh : s.host = []) : step s = .next (unitNext s) := by
  rw [step_unit hb hh, unitStep_eq hb]

theorem step_mark {s : State} (hb : s.status.busy = true) (hh : s.host = []) (hq : s.seq = .mark) :
    step s = .next ((lzdMark (s.rd .IN 0) s).thenGo .token) := by
  rw [step_running hb hh, unitNext, hq, ← lzdStart_eq]

theorem step_token {s : State} (hb : s.status.busy = true) (hh : s.host = []) (hq : s.seq = .token)
    (hi : s.lzd.ip.toNat < s.inLen.toNat) : step s = .next (lzdStep s).state := by
  rw [step_running hb hh, unitNext, hq]
  exact congrArg _ (if_neg (by omega))

theorem step_tokenEnd {s : State} (hb : s.status.busy = true) (hh : s.host = []) (hq : s.seq = .token)
    (hi : s.inLen.toNat ≤ s.lzd.ip.toNat) : step s = .next (afterLzd s) := by
  rw [step_running hb hh, unitNext, hq]
  exact congrArg _ (if_pos hi)

section Token

variable {s : State}

theorem lzdStep_lit (hi : s.lzd.ip.toNat < s.inLen.toNat) (h0 : s.rd .IN s.lzd.ip.toNat ≠ s.lzd.m) :
    lzdStep s = lzdLit (s.rd .IN s.lzd.ip.toNat) { s with lzd := { s.lzd with b0 := s.rd .IN s.lzd.ip.toNat } } := by
  obtain ⟨-, he⟩ | ⟨h, -⟩ | ⟨h, -⟩ | ⟨h, -⟩ | ⟨h, -⟩ := lzdStep_cases hi
  · exact he
  all_goals exact absurd h h0

theorem lzdStep_cutOne (h0 : s.rd .IN s.lzd.ip.toNat = s.lzd.m) (hl : s.inLen.toNat = s.lzd.ip.toNat + 1) :
    lzdStep s = .ended (faulted 0x10#8 s.lzd.ip { s with lzd := { s.lzd with b0 := s.lzd.m } }) := by
  obtain ⟨h, -⟩ | ⟨-, -, he⟩ | ⟨-, h, -⟩ | ⟨-, h, -⟩ | ⟨-, h, -⟩ := lzdStep_cases (s := s) (by omega)
  · exact absurd h0 h
  · exact he.trans (stop_eq_faulted ..)
  all_goals omega

theorem lzdStep_esc (h0 : s.rd .IN s.lzd.ip.toNat = s.lzd.m) (hl : s.lzd.ip.toNat + 1 < s.inLen.toNat)
    (h1 : s.rd .IN (s.lzd.ip.toNat + 1) = s.lzd.m) :
    lzdStep s = lzdEsc { s with lzd := { s.lzd with b0 := s.lzd.m, b1 := s.lzd.m } } := by
  obtain ⟨h, -⟩ | ⟨-, h, -⟩ | ⟨-, -, -, he⟩ | ⟨-, -, h, -⟩ | ⟨-, -, h, -⟩ := lzdStep_cases (s := s) (by omega)
  · exact absurd h0 h
  · omega
  · exact he
  all_goals exact absurd h1 h

theorem lzdStep_cutTwo (h0 : s.rd .IN s.lzd.ip.toNat = s.lzd.m) (hl : s.inLen.toNat = s.lzd.ip.toNat + 2)
    (h1 : s.rd .IN (s.lzd.ip.toNat + 1) ≠ s.lzd.m) :
    lzdStep s = .ended (faulted 0x10#8 s.lzd.ip
      { s with lzd := { s.lzd with b0 := s.lzd.m, b1 := s.rd .IN (s.lzd.ip.toNat + 1) } }) := by
  obtain ⟨h, -⟩ | ⟨-, h, -⟩ | ⟨-, -, h, -⟩ | ⟨-, -, -, he⟩ | ⟨-, h, -, -⟩ := lzdStep_cases (s := s) (by omega)
  · exact absurd h0 h
  · omega
  · exact absurd h h1
  · exact he.trans (stop_eq_faulted ..)
  · omega

theorem lzdStep_bref (h0 : s.rd .IN s.lzd.ip.toNat = s.lzd.m) (hl : s.lzd.ip.toNat + 2 < s.inLen.toNat)
    (h1 : s.rd .IN (s.lzd.ip.toNat + 1) ≠ s.lzd.m) :
    lzdStep s = lzdBref (s.rd .IN (s.lzd.ip.toNat + 1)) (s.rd .IN (s.lzd.ip.toNat + 2))
      { s with lzd := { s.lzd with
          b0 := s.lzd.m, b1 := s.rd .IN (s.lzd.ip.toNat + 1), b2 := s.rd .IN (s.lzd.ip.toNat + 2) } } := by
  obtain ⟨h, -⟩ | ⟨-, h, -⟩ | ⟨-, -, h, -⟩ | ⟨-, h, -, -⟩ | ⟨-, -, -, he⟩ := lzdStep_cases (s := s) (by omega)
  · exact absurd h0 h
  · omega
  · exact absurd h h1
  · omega
  · exact he

end Token

/-- Settles O6: the start step and the loop's turns, each by the bytes that stand at `ip`. -/
theorem stepRunsToken : Obligations.StepRunsToken := by
  unfold Obligations.StepRunsToken
  intro s hb hh
  refine ⟨fun hq hl => ?_, fun hq hl => ?_, fun hq hi => ?_, fun hq hi h0 => ?_, fun hq hi h0 =>
    ⟨fun hl => ?_, fun hl h1 => ?_, fun h1 => ⟨fun hl => ?_, fun hl => ?_⟩⟩⟩
  · rw [step_mark hb hh hq, exec_mark, lzdMark_stream _ hl]
    rfl
  · rw [step_mark hb hh hq, lzdMark_empty _ hl]
    rfl
  · rw [step_tokenEnd hb hh hq hi]
    rfl
  · rw [step_token hb hh hq hi, lzdStep_lit hi h0]
    rfl
  · rw [step_token hb hh hq hi, lzdStep_cutOne h0 hl]
    rfl
  · rw [step_token hb hh hq hi, lzdStep_esc h0 hl h1]
    rfl
  · rw [step_token hb hh hq hi, lzdStep_cutTwo h0 hl h1]
    rfl
  · rw [step_token hb hh hq hi, lzdStep_bref h0 hl h1]
    rfl

/-! ### Steps of ETC -/

theorem blockOp_cmd (i : Instr) (s : State) : (blockOp i s).cmd = s.cmd := by
  obtain ⟨m, e, v, he, -⟩ := blockOp_only i s
  rw [he]

/-- Settles O7: both halves are decoded from their eight bytes and are block operations. -/
theorem stepRunsBlock : Obligations.StepRunsBlock := by
  unfold Obligations.StepRunsBlock
  refine fun s i hb hh => ⟨fun hq hdecode => ?_, fun hq hdecode => ?_⟩
  · cases hdecode
    rw [step_running hb hh, unitNext, hq]
    rfl
  · have hbytes : (List.range 8).map (fun j => s.rd .CBLK j) = colourBytes s := rfl
    rw [hbytes] at hdecode
    cases hdecode
    rw [step_running hb hh, unitNext, hq, exec_colourInstr]
    dsimp only
    rw [runBlock_colour, afterColour, blockOp_cmd]
    rfl

/-! ### ESC and BREF -/

theorem exec_esc (s : State) : exec .esc s = .next (emitOne s.lzd.m 2 s).state := rfl

/-- Settles O10: the append LIT shares, `ip` moving by 2; the lone marker is the first cut token. -/
theorem escAppendsMarker : Obligations.EscAppendsMarker := by
  unfold Obligations.EscAppendsMarker
  intro s
  refine ⟨fun hfits => ⟨advance 2 (emit s.lzd.m s), ?_, advance_emit_rd_end _ 2 s,
    fun _ _ h => advance_emit_rd_other _ 2 s h, advance_emit_eq _ 2 s⟩, fun hfull => ?_, fun hb hh hq hl h0 => ?_⟩
  · rw [exec_esc, emitOne_of_fits _ 2 hfits, Flow.go_state]
  · rw [exec_esc, emitOne_of_full _ 2 hfull, Flow.ended_state]
  · rw [step_token hb hh hq (by omega), lzdStep_cutOne h0 hl, Flow.ended_state]

theorem exec_bref (o c : Byte) (s : State) : exec (.bref o c) s = .next (lzdBref o c s).state := rfl

/-- BREF whose offset reaches no output (R125). -/
theorem lzdBref_bounds {o c : Byte} {s : State}
    (h : (effectiveOffset s.lzd.m o).toNat = 0 ∨ s.outLen.toNat < (effectiveOffset s.lzd.m o).toNat) :
    lzdBref o c s = .ended (faulted 0x04#8 s.lzd.ip (latchBref o c s)) := by
  obtain ⟨-, he⟩ | ⟨h1, h2, -⟩ | ⟨h1, h2, -⟩ := lzdBref_cases o c s
  · exact he.trans (stop_eq_faulted ..)
  all_goals omega

/-- BREF whose bytes do not fit (R125). -/
theorem lzdBref_overflow {o c : Byte} {s : State} (h1 : 1 ≤ (effectiveOffset s.lzd.m o).toNat)
    (h2 : (effectiveOffset s.lzd.m o).toNat ≤ s.outLen.toNat)
    (h3 : s.params.outCap.toNat < s.outLen.toNat + c.toNat) :
    lzdBref o c s = .ended (faulted 0x11#8 s.lzd.ip (latchBref o c s)) := by
  obtain ⟨h, -⟩ | ⟨-, -, -, he⟩ | ⟨-, -, h, -⟩ := lzdBref_cases o c s
  · omega
  · exact he.trans (stop_eq_faulted ..)
  · omega

/-- BREF that copies (R125, R126). -/
theorem lzdBref_copies {o c : Byte} {s : State} (h1 : 1 ≤ (effectiveOffset s.lzd.m o).toNat)
    (h2 : (effectiveOffset s.lzd.m o).toNat ≤ s.outLen.toNat)
    (h3 : s.outLen.toNat + c.toNat ≤ s.params.outCap.toNat) :
    lzdBref o c s = .go (advance 3 (copyBytes c.toNat (beginCopy (latchBref o c s)))) := by
  obtain ⟨h, -⟩ | ⟨-, -, h, -⟩ | ⟨-, -, -, he⟩ := lzdBref_cases o c s
  · omega
  · omega
  · exact he

/-- What the copy of a BREF does to the bytes: those outside the appended ones stay, each appended one is the byte `O`
places before it, as it stands after the copy (R126). -/
theorem bref_copy_rd {o c : Byte} {s : State} (h1 : 1 ≤ (effectiveOffset s.lzd.m o).toNat)
    (h2 : (effectiveOffset s.lzd.m o).toNat ≤ s.outLen.toNat)
    (h3 : s.outLen.toNat + c.toNat ≤ s.params.outCap.toNat) :
    let t := advance 3 (copyBytes c.toNat (beginCopy (latchBref o c s)))
    (∀ d a, d ≠ .OUT ∨ a < s.outLen.toNat ∨ s.outLen.toNat + c.toNat ≤ a → t.rd d a = s.rd d a) ∧
    (∀ k < c.toNat, t.rd .OUT (s.outLen.toNat + k) =
      t.rd .OUT (s.outLen.toNat - (effectiveOffset s.lzd.m o).toNat + k)) := by
  have hcap := s.params.outCap.isLt
  have hlen := s.outLen.isLt
  have hc := c.isLt
  have hsrc : (beginCopy (latchBref o c s)).lzd.src.toNat =
      s.outLen.toNat - (effectiveOffset s.lzd.m o).toNat := by
    show (BitVec.ofNat 32 (s.outLen.toNat - (effectiveOffset s.lzd.m o).toNat)).toNat = _
    rw [BitVec.toNat_ofNat]
    omega
  obtain ⟨hframe, hcopied⟩ := copyBytes_rd c.toNat (beginCopy (latchBref o c s))
    (by show s.outLen.toNat + _ < _; omega) (by show (0#8).toNat + _ < _; simpa using hc)
    (by rw [hsrc]; show _ + (0#8).toNat < s.outLen.toNat; simp only [BitVec.toNat_ofNat]; omega)
  refine ⟨fun d a h => ?_, fun k hk => ?_⟩
  · rw [advance_rd, hframe d a h]
    simp
  · have := hcopied k hk
    rw [hsrc] at this
    simpa using this

/-- Settles O11: BREF's three branches. -/
theorem brefCopiesForward : Obligations.BrefCopiesForward := by
  unfold Obligations.BrefCopiesForward
  intro o c s
  dsimp only
  refine ⟨fun h => ?_, fun h1 h2 h3 => ?_, fun h1 h2 h3 => ?_⟩
  · rw [exec_bref, lzdBref_bounds h]
    rfl
  · rw [exec_bref, lzdBref_overflow h1 h2 h3]
    rfl
  · obtain ⟨hframe, hcopied⟩ := bref_copy_rd h1 h2 h3
    have hcap := s.params.outCap.isLt
    obtain ⟨m, hm⟩ := copyBytes_eq c.toNat (beginCopy (latchBref o c s))
    refine ⟨_, by rw [exec_bref, lzdBref_copies h1 h2 h3, Flow.go_state], ?_, hcopied, hframe, ?_⟩
    · rw [hm]
      show (BitVec.ofNat 32 (s.outLen.toNat + c.toNat)).toNat = _
      rw [BitVec.toNat_ofNat]
      omega
    · have hip : BitVec.ofNat 32 (s.lzd.ip.toNat + 3) = s.lzd.ip + 3#32 := by
        rw [BitVec.ofNat_add, BitVec.ofNat_toNat, BitVec.setWidth_eq]
      rw [hm, advance_eq]
      simp [beginCopy, latchBref, hip]

/-- Settles O12: by strong induction on the place; past the first period the source is itself an appended byte. -/
theorem brefRepeatsWithPeriod : Obligations.BrefRepeatsWithPeriod := by
  unfold Obligations.BrefRepeatsWithPeriod
  intro o c s off l h1 h2 h3
  obtain ⟨hframe, hcopied⟩ := bref_copy_rd h1 h2 h3
  refine ⟨_, by rw [exec_bref, lzdBref_copies h1 h2 h3, Flow.go_state], fun k hk => ?_⟩
  induction k using Nat.strong_induction_on with
  | _ k ih =>
    rw [hcopied k hk]
    by_cases hfirst : k < off
    · rw [Nat.mod_eq_of_lt hfirst]
      exact hframe .OUT _ (.inr (.inl (by omega)))
    · have hplace : s.outLen.toNat - (effectiveOffset s.lzd.m o).toNat + k = l + (k - off) := by omega
      rw [hplace, ih (k - off) (by omega) (by omega), Nat.mod_eq_sub_mod (by omega : off ≤ k)]

end Sys2Proof.Machine
end

section
/-! SUPPORT. LZD computes the list function `lz` (R130): the reference's equations, what each token does to the output
as a list, and the loop by induction on the number of turns left. -/

namespace Sys2Proof.Reference

/-! ### The reference's equations, one per kind of token -/

theorem lzTokens_nil (cap : Nat) (m : Byte) (ip : Nat) (out : List Byte) : lzTokens cap m ip [] out = .done out := by
  unfold lzTokens
  rfl

theorem lzTokens_lit {m b : Byte} (h : b ≠ m) (cap ip : Nat) (rest out : List Byte) :
    lzTokens cap m ip (b :: rest) out =
      if cap < out.length + 1 then .fault 0x11#8 ip out else lzTokens cap m (ip + 1) rest (out ++ [b]) := by
  exact (lzTokens.eq_def cap m ip (b :: rest) out).trans (if_pos h)

theorem lzTokens_cutOne (cap : Nat) (m : Byte) (ip : Nat) (out : List Byte) :
    lzTokens cap m ip [m] out = .fault 0x10#8 ip out := by
  unfold lzTokens
  exact if_neg (by simp)

theorem lzTokens_esc (cap : Nat) (m : Byte) (ip : Nat) (rest out : List Byte) :
    lzTokens cap m ip (m :: m :: rest) out =
      if cap < out.length + 1 then .fault 0x11#8 ip out else lzTokens cap m (ip + 2) rest (out ++ [m]) := by
  exact (lzTokens.eq_def cap m ip (m :: m :: rest) out).trans ((if_neg (by simp)).trans (if_pos rfl))

theorem lzTokens_cutTwo {m o : Byte} (h : o ≠ m) (cap ip : Nat) (out : List Byte) :
    lzTokens cap m ip [m, o] out = .fault 0x10#8 ip out := by
  rw [lzTokens, if_neg (by simp)]
  exact if_neg h

theorem lzTokens_bref {m o : Byte} (h : o ≠ m) (c : Byte) (cap ip : Nat) (rest out : List Byte) :
    lzTokens cap m ip (m :: o :: c :: rest) out =
      if (Machine.effectiveOffset m o).toNat = 0 ∨ out.length < (Machine.effectiveOffset m o).toNat then
        .fault 0x04#8 ip out
      else if cap < out.length + c.toNat then .fault 0x11#8 ip out
      else lzTokens cap m (ip + 3) rest (extend (Machine.effectiveOffset m o).toNat c.toNat out) := by
  rw [lzTokens, if_neg (by simp), Machine.effectiveOffset_toNat]
  exact if_neg h

/-- A stream of tokens is empty, begins with a token, or is one cut short. -/
theorem tokens_cases (m : Byte) (l : List Byte) :
    l = [] ∨ (∃ b rest, b ≠ m ∧ l = b :: rest) ∨ l = [m] ∨ (∃ rest, l = m :: m :: rest) ∨
      (∃ o, o ≠ m ∧ l = [m, o]) ∨ ∃ o c rest, o ≠ m ∧ l = m :: o :: c :: rest := by
  match l with
  | [] => simp
  | [b] => by_cases h : b = m <;> simp [h]
  | [b, o] => by_cases h : b = m <;> by_cases h' : o = m <;> simp [h, h']
  | b :: o :: c :: rest => by_cases h : b = m <;> by_cases h' : o = m <;> simp [h, h']

theorem extend_length (o n : Nat) (out : List Byte) : (extend o n out).length = out.length + n := by
  induction n generalizing out with
  | zero => rfl
  | succ n ih =>
    rw [extend, ih, List.length_append, List.length_singleton]
    omega

/-- The output with which a decompression ends. -/
def LzEnd.output : LzEnd → List Byte
  | .done out => out
  | .fault _ _ out => out

/-- Each token appends at most 85 bytes per byte it takes: a BREF 255 for 3 (R129 item 4). -/
theorem lzTokens_output_length (cap : Nat) (m : Byte) (ip : Nat) (l out : List Byte) :
    (lzTokens cap m ip l out).output.length ≤ out.length + 85 * l.length := by
  induction hn : l.length using Nat.strong_induction_on generalizing l ip out with
  | _ n ih =>
    subst hn
    obtain rfl | ⟨b, rest, hb, rfl⟩ | rfl | ⟨rest, rfl⟩ | ⟨o, ho, rfl⟩ | ⟨o, c, rest, ho, rfl⟩ := tokens_cases m l
    · rw [lzTokens_nil]
      simp [LzEnd.output]
    · rw [lzTokens_lit hb]
      split_ifs
      · simp [LzEnd.output]
      · have := ih rest.length (by simp) (ip + 1) rest (out ++ [b]) rfl
        simp only [List.length_append, List.length_cons, List.length_nil] at this ⊢
        omega
    · rw [lzTokens_cutOne]
      simp [LzEnd.output]
    · rw [lzTokens_esc]
      split_ifs
      · simp [LzEnd.output]
      · have := ih rest.length (by simp only [List.length_cons]; omega) (ip + 2) rest (out ++ [m]) rfl
        simp only [List.length_append, List.length_cons, List.length_nil] at this ⊢
        omega
    · rw [lzTokens_cutTwo ho]
      simp [LzEnd.output]
    · have hc := c.isLt
      rw [lzTokens_bref ho]
      split_ifs
      · simp [LzEnd.output]
      · simp [LzEnd.output]
      · have := ih rest.length (by simp only [List.length_cons]; omega) (ip + 3) rest
          (extend (Machine.effectiveOffset m o).toNat c.toNat out) rfl
        rw [extend_length] at this
        simp only [List.length_cons]
        omega

theorem lz_output_length (cap : Nat) (l : List Byte) : (lz cap l).output.length ≤ 85 * (l.length - 1) := by
  cases l with
  | nil => simp [lz, LzEnd.output]
  | cons m rest => simpa [lz] using lzTokens_output_length cap m 1 rest []

end Sys2Proof.Reference

namespace Sys2Proof.Machine

open Sys2Proof.Config (BufName)
open Sys2Proof.Reference

/-! ### The output as a list -/

theorem outputIs_emit {s : State} {out : List Byte} (v : Byte) (h : outputIs s out) (hl : out.length + 1 < 2 ^ 32) :
    outputIs (emit v s) (out ++ [v]) := by
  obtain ⟨hlen, hbytes⟩ := h
  refine ⟨by rw [emit_outLen (by omega), hlen, List.length_append, List.length_singleton], fun j hj => ?_⟩
  rw [List.length_append, List.length_singleton] at hj
  rw [emit_rd, hlen]
  by_cases hj' : j = out.length
  · rw [if_pos ⟨rfl, hj'⟩, hj', List.getD_append_right _ _ _ _ (Nat.le_refl _), Nat.sub_self]
    rfl
  · rw [if_neg fun k => hj' k.2, hbytes j (by omega), List.getD_append _ _ _ _ (by omega)]

/-- Only the bytes of OUT and OUT_LEN matter for the output. -/
theorem outputIs_congr {s t : State} {out : List Byte} (h : outputIs s out) (hl : t.outLen = s.outLen)
    (hb : t.outBuf = s.outBuf) : outputIs t out := by
  have hrd : ∀ j, t.rd .OUT j = s.rd .OUT j := fun j => by simp only [State.rd, State.buf, hb]
  exact ⟨by rw [hl]; exact h.1, fun j hj => by rw [hrd]; exact h.2 j hj⟩

/-- The byte-serial copy is the list function `extend` (R126). -/
theorem outputIs_copyBytes (o n : Nat) {s : State} {out : List Byte} (h : outputIs s out) (ho : 1 ≤ o)
    (hsrc : s.lzd.src.toNat + s.lzd.k.toNat + o = out.length) (hk : s.lzd.k.toNat + n < 256)
    (hl : out.length + n < 2 ^ 32) : outputIs (copyBytes n s) (extend o n out) := by
  induction n generalizing s out with
  | zero => exact h
  | succ n ih =>
    have hread : s.rd .OUT (s.lzd.src.toNat + s.lzd.k.toNat) = out.getD (out.length - o) 0#8 := by
      rw [h.2 _ (by omega)]
      congr 1
      omega
    have hstep : outputIs (copyByte s) (out ++ [out.getD (out.length - o) 0#8]) := by
      rw [← hread]
      exact outputIs_congr (outputIs_emit _ h (by omega)) rfl rfl
    have hk' : (copyByte s).lzd.k.toNat = s.lzd.k.toNat + 1 := by
      simp only [copyByte_eq, BitVec.toNat_ofNat]
      omega
    have hsrc' : (copyByte s).lzd.src = s.lzd.src := rfl
    refine ih hstep ?_ ?_ ?_
    all_goals
      simp only [hsrc', hk', List.length_append, List.length_singleton]
      omega

/-! ### The loop -/

theorem stream_length (s : State) : (stream s).length = s.inLen.toNat := by simp [stream]

/-- The rest of the stream from a byte inside it (R72). -/
theorem stream_drop {s : State} {i : Nat} (h : i < s.inLen.toNat) :
    (stream s).drop i = s.rd .IN i :: (stream s).drop (i + 1) := by
  rw [List.drop_eq_getElem_cons (by rwa [stream_length])]
  simp [stream]

theorem stream_drop_end {s : State} {i : Nat} (h : s.inLen.toNat ≤ i) : (stream s).drop i = [] :=
  List.drop_eq_nil_of_le (by rwa [stream_length])

/-- LZD, started from `s0` under the marker `m`, stands before the byte `ip` with the output `out`: nothing but its own
part has changed. -/
structure LzAt (s0 : State) (m : Byte) (ip : Nat) (out : List Byte) (s : State) : Prop where
  frame : sansLzd s = sansLzd s0
  status : s.status = s0.status
  code : s.errCode = s0.errCode
  info : s.errInfo = s0.errInfo
  seq : s.seq = s0.seq
  marker : s.lzd.m = m
  place : s.lzd.ip.toNat = ip
  within : ip ≤ s0.inLen.toNat
  output : outputIs s out
  fits : out.length ≤ s0.params.outCap.toNat

/-- `t` is `s` but for OUT, OUT_LEN and LZD's registers other than `M`. -/
structure LzKeeps (s t : State) : Prop where
  frame : sansLzd t = sansLzd s
  status : t.status = s.status
  code : t.errCode = s.errCode
  info : t.errInfo = s.errInfo
  seq : t.seq = s.seq
  marker : t.lzd.m = s.lzd.m

theorem LzKeeps.trans {s t u : State} (h : LzKeeps s t) (h' : LzKeeps t u) : LzKeeps s u :=
  ⟨h'.frame.trans h.frame, h'.status.trans h.status, h'.code.trans h.code, h'.info.trans h.info, h'.seq.trans h.seq,
    h'.marker.trans h.marker⟩

theorem lzKeeps_emit (v : Byte) (s : State) : LzKeeps s (emit v s) := ⟨rfl, rfl, rfl, rfl, rfl, rfl⟩

theorem lzKeeps_advance (n : Nat) (s : State) : LzKeeps s (advance n s) := ⟨rfl, rfl, rfl, rfl, rfl, rfl⟩

theorem lzKeeps_beginCopy (o c : Byte) (s : State) : LzKeeps s (beginCopy (latchBref o c s)) :=
  ⟨rfl, rfl, rfl, rfl, rfl, rfl⟩

theorem lzKeeps_copyBytes (n : Nat) (s : State) : LzKeeps s (copyBytes n s) := by
  obtain ⟨b, hb⟩ := copyBytes_eq n s
  rw [hb]
  exact ⟨rfl, rfl, rfl, rfl, rfl, rfl⟩

/-- How a run of LZD from `s0` ends, against the reference's end. -/
def LzEnds (s0 : State) : Flow → LzEnd → Prop
  | .go t, .done out =>
    outputIs t out ∧ t.lzd.ip = s0.inLen ∧ t.status = s0.status ∧ t.errCode = s0.errCode ∧
      t.errInfo = s0.errInfo ∧ t.seq = s0.seq
  | .ended t, .fault code info out =>
    outputIs t out ∧ t.status = s0.status.faulted ∧ t.errCode = code ∧ t.errInfo = BitVec.ofNat 32 info ∧ t.seq = .idle
  | .go _, .fault _ _ _ => False
  | .ended _, .done _ => False

section Loop

variable {s0 s : State} {m : Byte} {ip : Nat} {out : List Byte}

theorem LzAt.inLen (h : LzAt s0 m ip out s) : s.inLen = s0.inLen := (congrArg State.inLen h.frame :)

theorem LzAt.params (h : LzAt s0 m ip out s) : s.params = s0.params := (congrArg State.params h.frame :)

theorem LzAt.rd (h : LzAt s0 m ip out s) (j : Nat) : s.rd .IN j = s0.rd .IN j :=
  (congrArg (fun u => u.rd .IN j) h.frame :)

/-- The latches of a fetch do not matter. -/
theorem LzAt.latch (h : LzAt s0 m ip out s) {g : LzdRegs} (hm : g.m = s.lzd.m) (hip : g.ip = s.lzd.ip) :
    LzAt s0 m ip out { s with lzd := g } :=
  ⟨h.frame, h.status, h.code, h.info, h.seq, hm.trans h.marker, (congrArg BitVec.toNat hip).trans h.place, h.within,
    h.output, h.fits⟩

/-- A fault keeps the output of the tokens before it (R128). -/
theorem LzAt.ends (h : LzAt s0 m ip out s) (e : FaultName) (w : Word) (hw : w.toNat = ip) :
    LzEnds s0 (.ended (faulted e.code w s)) (.fault e.code ip out) :=
  ⟨h.output, congrArg Status.faulted h.status, rfl, by rw [← hw, BitVec.ofNat_toNat, BitVec.setWidth_eq]; rfl, rfl⟩

/-- An operation that keeps all but the output and the place. -/
theorem LzAt.move (h : LzAt s0 m ip out s) {t : State} (hk : LzKeeps s t) {ip' : Nat} {out' : List Byte}
    (hplace : t.lzd.ip.toNat = ip') (hwithin : ip' ≤ s0.inLen.toNat) (hout : outputIs t out')
    (hfits : out'.length ≤ s0.params.outCap.toNat) : LzAt s0 m ip' out' t :=
  ⟨hk.frame.trans h.frame, hk.status.trans h.status, hk.code.trans h.code, hk.info.trans h.info, hk.seq.trans h.seq,
    hk.marker.trans h.marker, hplace, hwithin, hout, hfits⟩

theorem LzAt.append (h : LzAt s0 m ip out s) (v : Byte) (n : Nat) (hfits : out.length + 1 ≤ s0.params.outCap.toNat)
    (hip : ip + n ≤ s0.inLen.toNat) : LzAt s0 m (ip + n) (out ++ [v]) (advance n (emit v s)) := by
  have hcap := s0.params.outCap.isLt
  have hlen := s0.inLen.isLt
  refine h.move ((lzKeeps_emit v s).trans (lzKeeps_advance n _)) ?_ hip
    (outputIs_congr (outputIs_emit v h.output (by omega)) rfl rfl) (by simpa using hfits)
  rw [advance_eq]
  show (BitVec.ofNat 32 (s.lzd.ip.toNat + n)).toNat = _
  rw [h.place, BitVec.toNat_ofNat]
  omega

theorem LzAt.copy (h : LzAt s0 m ip out s) {o c : Byte} (h1 : 1 ≤ (effectiveOffset m o).toNat)
    (h2 : (effectiveOffset m o).toNat ≤ out.length) (h3 : out.length + c.toNat ≤ s0.params.outCap.toNat)
    (hip : ip + 3 ≤ s0.inLen.toNat) :
    LzAt s0 m (ip + 3) (extend (effectiveOffset m o).toNat c.toNat out)
      (advance 3 (copyBytes c.toNat (beginCopy (latchBref o c s)))) := by
  have hcap := s0.params.outCap.isLt
  have hlen := s0.inLen.isLt
  have hc := c.isLt
  have hsrc : (beginCopy (latchBref o c s)).lzd.src.toNat = out.length - (effectiveOffset m o).toNat := by
    show (BitVec.ofNat 32 (s.outLen.toNat - (effectiveOffset s.lzd.m o).toNat)).toNat = _
    rw [h.output.1, h.marker, BitVec.toNat_ofNat]
    omega
  have hk : (beginCopy (latchBref o c s)).lzd.k.toNat = 0 := rfl
  have hcopied : outputIs (copyBytes c.toNat (beginCopy (latchBref o c s)))
      (extend (effectiveOffset m o).toNat c.toNat out) :=
    outputIs_copyBytes _ _ (outputIs_congr h.output rfl rfl) h1 (by rw [hsrc, hk]; omega) (by rw [hk]; omega)
      (by omega)
  have hplace : (copyBytes c.toNat (beginCopy (latchBref o c s))).lzd.ip = s.lzd.ip := by
    obtain ⟨b, hb⟩ := copyBytes_eq c.toNat (beginCopy (latchBref o c s))
    rw [hb]
    rfl
  refine h.move (((lzKeeps_beginCopy o c s).trans (lzKeeps_copyBytes _ _)).trans (lzKeeps_advance 3 _)) ?_ hip
    (outputIs_congr hcopied rfl rfl) (by rw [extend_length]; exact h3)
  rw [advance_eq, hplace]
  show (BitVec.ofNat 32 (s.lzd.ip.toNat + 3)).toNat = _
  rw [h.place, BitVec.toNat_ofNat]
  omega

/-- One byte appended, or OUT_OVERFLOW, against the reference's test of the same length (R123, R124). -/
theorem LzAt.emitOne_ends (h : LzAt s0 m ip out s) (v : Byte) (n : Nat) (hip : ip + n ≤ s0.inLen.toNat)
    {f : State → Flow} {next : LzEnd}
    (hf : ∀ t, LzAt s0 m (ip + n) (out ++ [v]) t → LzEnds s0 (f t) next) :
    LzEnds s0 ((emitOne v n s).andThen f)
      (if s0.params.outCap.toNat < out.length + 1 then .fault 0x11#8 ip out else next) := by
  have hlen : s.outLen.toNat = out.length := h.output.1
  split_ifs with hfull
  · rw [emitOne_of_full v n (by rw [h.params, hlen]; exact hfull)]
    exact h.ends .outOverflow s.lzd.ip h.place
  · rw [emitOne_of_fits v n (by rw [h.params, hlen]; omega)]
    exact hf _ (h.append v n (by omega) hip)

/-- A back-reference against the reference's two tests and its list function (R125). -/
theorem LzAt.bref_ends (h : LzAt s0 m ip out s) {o c : Byte} (hip : ip + 3 ≤ s0.inLen.toNat) {f : State → Flow}
    {next : LzEnd}
    (hf : ∀ t, LzAt s0 m (ip + 3) (extend (effectiveOffset m o).toNat c.toNat out) t → LzEnds s0 (f t) next) :
    LzEnds s0 ((lzdBref o c s).andThen f)
      (if (effectiveOffset m o).toNat = 0 ∨ out.length < (effectiveOffset m o).toNat then .fault 0x04#8 ip out
      else if s0.params.outCap.toNat < out.length + c.toNat then .fault 0x11#8 ip out else next) := by
  have hlen : s.outLen.toNat = out.length := h.output.1
  have hlatched : LzAt s0 m ip out (latchBref o c s) :=
    h.latch (g := { s.lzd with o := effectiveOffset s.lzd.m o, c := c }) rfl rfl
  split_ifs with h1 h2
  · rw [lzdBref_bounds (by rw [h.marker, hlen]; exact h1)]
    exact hlatched.ends .lzBounds s.lzd.ip h.place
  · rw [lzdBref_overflow (by rw [h.marker]; omega) (by rw [h.marker]; omega) (by rw [h.params, hlen]; exact h2)]
    exact hlatched.ends .outOverflow s.lzd.ip h.place
  · rw [lzdBref_copies (by rw [h.marker]; omega) (by rw [h.marker]; omega) (by rw [h.params, hlen]; omega)]
    exact hf _ (h.copy (by omega) (by omega) (by omega) hip)

/-- The loop of R122 is `lzTokens` on the rest of the stream, when it has turns enough for its bytes. -/
theorem LzAt.loop_ends (n : Nat) (hn : s0.inLen.toNat ≤ ip + n) (h : LzAt s0 m ip out s) :
    LzEnds s0 (lzdLoop n s) (lzTokens s0.params.outCap.toNat m ip ((stream s0).drop ip) out) := by
  induction n generalizing s ip out with
  | zero =>
    rw [stream_drop_end (i := ip) hn, lzTokens_nil]
    refine ⟨h.output, BitVec.eq_of_toNat_eq ?_, h.status, h.code, h.info, h.seq⟩
    rw [h.place]
    have := h.within
    omega
  | succ n ih =>
    have hwithin := h.within
    rw [lzdLoop_succ, h.inLen, h.place]
    by_cases hend : s0.inLen.toNat ≤ ip
    · rw [if_pos hend, stream_drop_end hend, lzTokens_nil]
      exact ⟨h.output, BitVec.eq_of_toNat_eq (by rw [h.place]; omega), h.status, h.code, h.info, h.seq⟩
    · rw [if_neg hend]
      have hlen : s.inLen.toNat = s0.inLen.toNat := congrArg BitVec.toNat h.inLen
      have hplace := h.place
      have hout : s.outLen.toNat = out.length := h.output.1
      have hb : ∀ j, s.rd .IN (s.lzd.ip.toNat + j) = s0.rd .IN (ip + j) := fun j => by rw [h.place, h.rd]
      have hb0 : s.rd .IN s.lzd.ip.toNat = s0.rd .IN ip := hb 0
      have hcut : ∀ g : LzdRegs, g.m = s.lzd.m → g.ip = s.lzd.ip →
          LzEnds s0 (.ended (faulted 0x10#8 s.lzd.ip { s with lzd := g })) (.fault 0x10#8 ip out) :=
        fun g hm hip => (h.latch hm hip).ends .lzTruncated s.lzd.ip hplace
      rw [stream_drop (by omega)]
      by_cases h0 : s.rd .IN s.lzd.ip.toNat = s.lzd.m
      · have hm0 : s0.rd .IN ip = m := (hb0.symm.trans h0).trans h.marker
        rw [hm0]
        by_cases hl1 : s.inLen.toNat = s.lzd.ip.toNat + 1
        · rw [lzdStep_cutOne h0 hl1, stream_drop_end (by omega), lzTokens_cutOne]
          exact hcut _ rfl rfl
        · rw [stream_drop (by omega)]
          by_cases h1 : s.rd .IN (s.lzd.ip.toNat + 1) = s.lzd.m
          · have hm1 : s0.rd .IN (ip + 1) = m := ((hb 1).symm.trans h1).trans h.marker
            rw [lzdStep_esc h0 (by omega) h1, hm1, lzTokens_esc, ← h.marker]
            exact (h.latch (g := { s.lzd with b0 := s.lzd.m, b1 := s.lzd.m }) rfl rfl).emitOne_ends s.lzd.m 2 (by omega)
              fun t ht => h.marker.symm ▸ ih (by omega) (h.marker ▸ ht)
          · have hm1 : s0.rd .IN (ip + 1) ≠ m := by rw [← hb 1, ← h.marker]; exact h1
            by_cases hl2 : s.inLen.toNat = s.lzd.ip.toNat + 2
            · rw [lzdStep_cutTwo h0 hl2 h1, stream_drop_end (by omega), lzTokens_cutTwo hm1]
              exact hcut _ rfl rfl
            · rw [lzdStep_bref h0 (by omega) h1, stream_drop (by omega), lzTokens_bref hm1, hb 1, hb 2]
              exact (h.latch (g := { s.lzd with b0 := s.lzd.m, b1 := s0.rd .IN (ip + 1), b2 := s0.rd .IN (ip + 2) })
                rfl rfl).bref_ends (by omega) fun t ht => ih (by omega) ht
      · have hm0 : s0.rd .IN ip ≠ m := by rw [← hb0, ← h.marker]; exact h0
        rw [lzdStep_lit (by omega) h0, lzTokens_lit hm0, hb0]
        exact (h.latch (g := { s.lzd with b0 := s0.rd .IN ip }) rfl rfl).emitOne_ends (s0.rd .IN ip) 1 (by omega)
          fun t ht => ih (by omega) ht

end Loop

theorem lz_cons (cap : Nat) (m : Byte) (rest : List Byte) :
    lz cap (m :: rest) = lzTokens cap m 1 rest [] := rfl

/-- After MARK the loop stands at its first token (R121). -/
theorem lzAt_mark {s : State} (m : Byte) (h : s.inLen.toNat ≠ 0) :
    LzAt s m 1 [] { clearOutput s with lzd := { s.lzd with m := m, ip := 1#32 } } :=
  ⟨by unfold sansLzd sansRecord; rfl, rfl, rfl, rfl, rfl, rfl, rfl, Nat.pos_of_ne_zero h, ⟨rfl, nofun⟩, Nat.zero_le _⟩

/-- LZD from its start: MARK, then the loop (R120, R130). -/
theorem lzdRun_ends (s : State) : LzEnds s (lzdRun s) (lz s.params.outCap.toNat (stream s)) := by
  unfold lzdRun
  rw [lzdStart_eq]
  have hstream : (stream s).drop 0 = stream s := List.drop_zero
  by_cases h : s.inLen.toNat = 0
  · rw [lzdMark_empty _ h, ← hstream, stream_drop_end (by omega)]
    exact ⟨⟨rfl, nofun⟩, rfl, rfl, rfl, rfl⟩
  · rw [lzdMark_stream _ h, ← hstream, stream_drop (by omega), Flow.go_andThen, lz_cons]
    have hstart := lzAt_mark (s.rd .IN 0) h
    generalize ({ clearOutput s with lzd := { s.lzd with m := s.rd .IN 0, ip := 1#32 } } : State) = u at hstart ⊢
    rw [hstart.inLen]
    exact hstart.loop_ends s.inLen.toNat (by omega)

/-! ### CMD.DECOMPRESS -/

/-- States that agree outside LZD's state agree on every buffer but OUT. -/
theorem rd_of_sansLzd {s t : State} (h : sansLzd t = sansLzd s) {b : BufName} (hb : b ≠ .OUT)
    (a : Nat) : t.rd b a = s.rd b a := by
  have hrd : ∀ u : State, (sansLzd u).rd b a = u.rd b a := fun u => by
    cases b
    case OUT => exact absurd rfl hb
    all_goals rfl
  rw [← hrd t, h, hrd]

/-- States that agree outside LZD's part differ in that part only. -/
theorem eq_of_sansLzd {s t : State} (h : sansLzd t = sansLzd s) :
    t = { s with
      status := t.status, errCode := t.errCode, errInfo := t.errInfo, outLen := t.outLen, outBuf := t.outBuf
      lzd := t.lzd, seq := t.seq, draws := t.draws } :=
  (congrArg (fun u : State => { u with
      status := t.status, errCode := t.errCode, errInfo := t.errInfo, outLen := t.outLen, outBuf := t.outBuf
      lzd := t.lzd, seq := t.seq, draws := t.draws }) h :)

/-- A command whose launch goes on is its body and its completion. -/
theorem command_of_launch {c : Byte} {body : State → Flow} {s u : State} (hidle : s.status.busy = false)
    (hl : launch c s = .go u) : command c body s = finish (body u) := by
  rw [command_idle hidle, hl, Flow.go_andThen]

/-- The launch of a command that reads a stream IN can hold. -/
theorem launch_decompress {s : State} (hcap : s.inLen.toNat ≤ s.params.inCap.toNat) :
    launch 1#8 s = .go (acknowledge 1#8 s) :=
  (launch_reading s rfl rfl rfl).trans (if_neg (by omega))

theorem exec_cmdDecompress (s : State) : exec .cmdDecompress s = .next (command 1#8 lzdRun s) := rfl

/-- CMD.DECOMPRESS ends as the reference does (R130, R251). -/
theorem decompress_ends {s : State} (hidle : s.status.busy = false) (hcap : s.inLen.toNat ≤ s.params.inCap.toNat) :
    LzEnds (acknowledge 1#8 s) (lzdRun (acknowledge 1#8 s)) (lz s.params.outCap.toNat (stream s)) ∧
      command 1#8 lzdRun s = finish (lzdRun (acknowledge 1#8 s)) :=
  ⟨lzdRun_ends (acknowledge 1#8 s), command_of_launch hidle (launch_decompress hcap)⟩

/-- Settles O13: the run of LZD on the launched state, by the reference's two ends. -/
theorem decompressComputesLz : Obligations.DecompressComputesLz := by
  unfold Obligations.DecompressComputesLz
  intro s hidle hcap
  obtain ⟨hends, hcommand⟩ := decompress_ends hidle hcap
  have hframe := decompress_sansLzd hidle
  refine ⟨_, exec_cmdDecompress s, fun out hlz => ?done, fun code info out hlz => ?fault, fun b a hb => ?bytes, ?frame⟩
  case done =>
    rw [hlz] at hends
    rw [hcommand]
    cases hrun : lzdRun (acknowledge 1#8 s) with
    | go t =>
      rw [hrun] at hends
      obtain ⟨hout, hip, hst, hc, hi, -⟩ := hends
      refine ⟨outputIs_congr hout rfl rfl, hip, ?_, hc, hi⟩
      rw [finish_go, complete, hst]
      rfl
    | ended t => rw [hrun] at hends; exact hends.elim
  case fault =>
    rw [hlz] at hends
    rw [hcommand]
    cases hrun : lzdRun (acknowledge 1#8 s) with
    | go t => rw [hrun] at hends; exact hends.elim
    | ended t =>
      rw [hrun] at hends
      obtain ⟨hout, hst, hc, hi, -⟩ := hends
      exact ⟨hout, hst, hc, hi⟩
  case bytes =>
    exact rd_of_sansLzd (s := acknowledge 1#8 s) hframe hb a
  case frame =>
    have hseq : (command 1#8 lzdRun s).seq = .idle := by
      obtain h | h := command_ends 1#8 hidle
      · exact h.seq
      · exact h.seq
    rw [← hseq]
    exact eq_of_sansLzd (s := acknowledge 1#8 s) hframe

/-- Settles O14: whatever the end, OUT_LEN is the length of the reference's output. -/
theorem decompressGrowthBound : Obligations.DecompressGrowthBound := by
  unfold Obligations.DecompressGrowthBound
  intro s t hidle _ hcap hexec
  obtain ⟨hends, hcommand⟩ := decompress_ends hidle hcap
  have hlength := lz_output_length s.params.outCap.toNat (stream s)
  rw [stream_length] at hlength
  rw [exec_cmdDecompress] at hexec
  cases hexec
  rw [hcommand]
  cases hrun : lzdRun (acknowledge 1#8 s) <;> cases hlz : lz s.params.outCap.toNat (stream s) <;>
    rw [hrun, hlz] at hends <;> rw [hlz] at hlength
  case go.done t out => exact hends.1.1.trans_le hlength
  case ended.fault t code info out => exact hends.1.1.trans_le hlength
  all_goals exact hends.elim

/-! ### The capacity of IN -/

/-- A launch that reads IN beyond its capacity ends with CAPACITY(0) (R250). -/
theorem launch_inCapacity {c : Byte} {s : State} (hr : isReserved c = false) (hi : readsIn c = true)
    (hcap : s.params.inCap.toNat < s.inLen.toNat) :
    launch c s = .ended (faulted 0x16#8 0#32 (launchClears c s)) := by
  unfold launch launchClears
  cases runsHeader c <;> simp [hr, hi, hcap, stop, raise_eq_faulted, FaultName.code]

/-- Settles O39: the launch ends the four commands; only CMD.DECODE_ENTRY runs HDR and so clears `TI_VALID`. -/
theorem inputCapacityAtLaunch : Obligations.InputCapacityAtLaunch := by
  unfold Obligations.InputCapacityAtLaunch
  intro s hidle hcap
  have hend : ∀ (c : Byte) (body : State → Flow), isReserved c = false → readsIn c = true →
      command c body s = faulted 0x16#8 0#32 (launchClears c s) := fun c body hr hi => by
    rw [command_idle hidle, launch_inCapacity hr hi hcap, Flow.ended_andThen, finish_ended]
  exact ⟨congrArg _ (hend 1#8 lzdRun rfl rfl), congrArg _ (hend 5#8 _ rfl rfl), congrArg _ (hend 6#8 entryRun rfl rfl),
    congrArg _ (hend 7#8 rawRun rfl rfl)⟩

end Sys2Proof.Machine
end

section
/-! SUPPORT. What the block decoder and the header parser compute, against the reference functions. -/

namespace Sys2Proof.Machine

open Sys2Proof Sys2Proof.Reference
open Sys2Proof.Config (BufName)

/-! ### HDR -/

theorem magicMatches_iff (s : State) : magicMatches s = true ↔ magicOk s fun j => s.rd .OUT j := by
  simp only [magicMatches, Bool.and_eq_true, beq_iff_eq, and_assoc]

theorem parsedHeader_eq (s : State) : parsedHeader s = header (fun j => s.rd .OUT j) s.outLen.toNat := rfl

section Hdr

variable {s : State}

/-- R151. -/
theorem hdrRun_short (h : s.outLen.toNat < 36) : hdrRun s = .ended (faulted 0x01#8 0#32 s) := if_pos h

/-- R152. -/
theorem hdrRun_badMagic (h : 36 ≤ s.outLen.toNat) (hm : ¬ magicOk s fun j => s.rd .OUT j) :
    hdrRun s = .ended (faulted 0x01#8 1#32 s) := by
  have hfalse : magicMatches s = false := by rwa [← magicMatches_iff, Bool.not_eq_true] at hm
  exact (if_neg (by omega)).trans (if_pos hfalse)

/-- R153 to R156: the record is written, then the size decides. -/
theorem hdrRun_parsed (h : 36 ≤ s.outLen.toNat) (hm : magicOk s fun j => s.rd .OUT j) :
    hdrRun s =
      if (parsedHeader s).sizeOk then .go { s with ti := parsedHeader s }
      else if s.ctrl.strict then stop .sizeMismatch (s.outLen.toNat - 36) { s with ti := parsedHeader s }
      else .go { s with ti := parsedHeader s, status := s.status.withWarnSize } := by
  have htrue : ¬ magicMatches s = false := by rw [(magicMatches_iff s).2 hm]; nofun
  exact (if_neg (by omega)).trans (if_neg htrue)

/-- R155. -/
theorem hdrRun_sizeOk (h : 36 ≤ s.outLen.toNat) (hm : magicOk s fun j => s.rd .OUT j)
    (hs : (parsedHeader s).sizeOk = true) : hdrRun s = .go { s with ti := parsedHeader s } :=
  (hdrRun_parsed h hm).trans (if_pos hs)

/-- R156 with STRICT = 0. -/
theorem hdrRun_warns (h : 36 ≤ s.outLen.toNat) (hm : magicOk s fun j => s.rd .OUT j)
    (hs : (parsedHeader s).sizeOk = false) (hstrict : s.ctrl.strict = false) :
    hdrRun s = .go { s with ti := parsedHeader s, status := s.status.withWarnSize } :=
  (hdrRun_parsed h hm).trans ((if_neg (by rw [hs]; nofun)).trans (if_neg (by rw [hstrict]; nofun)))

/-- R156 with STRICT = 1. -/
theorem hdrRun_strict (h : 36 ≤ s.outLen.toNat) (hm : magicOk s fun j => s.rd .OUT j)
    (hs : (parsedHeader s).sizeOk = false) (hstrict : s.ctrl.strict = true) :
    hdrRun s = .ended (faulted 0x02#8 (BitVec.ofNat 32 (s.outLen.toNat - 36)) { s with ti := parsedHeader s }) :=
  (hdrRun_parsed h hm).trans ((if_neg (by rw [hs]; nofun)).trans (if_pos hstrict))

end Hdr

/-- The launch of CMD.PARSE_HEADER (R250). -/
theorem launch_parseHeader (s : State) :
    launch 2#8 s = if s.params.outCap.toNat < s.outLen.toNat then stop .capacity 1 (launchedHeader 2#8 s)
      else .go (launchedHeader 2#8 s) := by
  have hreads : ¬ (readsIn 2#8 = true ∧ s.params.inCap.toNat < s.inLen.toNat) := fun h => nomatch h.1
  have hclears : launch 2#8 s = if readsIn 2#8 = true ∧ s.params.inCap.toNat < s.inLen.toNat then
      stop .capacity 0 (launchedHeader 2#8 s)
    else if 2#8 = 2#8 ∧ s.params.outCap.toNat < s.outLen.toNat then stop .capacity 1 (launchedHeader 2#8 s)
    else .go (launchedHeader 2#8 s) := rfl
  rw [hclears, if_neg hreads]
  simp only [true_and]

theorem exec_cmdParseHeader (s : State) : exec .cmdParseHeader s = .next (command 2#8 hdrRun s) := rfl

/-- Settles O15: the launch's capacity check, then HDR's branches on the launched state. -/
theorem parseHeaderOutcome : Obligations.ParseHeaderOutcome := by
  unfold Obligations.ParseHeaderOutcome
  intro s hidle s1 d s2
  have hgo : s.outLen.toNat ≤ s.params.outCap.toNat →
      exec .cmdParseHeader s = .next (finish (hdrRun s1)) := fun hcap => by
    rw [exec_cmdParseHeader, command_of_launch hidle ((launch_parseHeader s).trans (if_neg (by omega)))]
  refine ⟨fun hcap => ?_, fun hcap hshort => ?_, fun hcap hlong => ⟨fun hm => ?_, fun hm hs => ?_, fun hm hs hc => ?_,
    fun hm hs hc => ?_⟩⟩
  · rw [exec_cmdParseHeader, command_idle hidle, launch_parseHeader, if_pos hcap]
    rfl
  · rw [hgo hcap, hdrRun_short (s := s1) hshort, finish_ended]
  · rw [hgo hcap, hdrRun_badMagic (s := s1) hlong hm, finish_ended]
  · rw [hgo hcap, hdrRun_sizeOk (s := s1) hlong hm hs]
    rfl
  · rw [hgo hcap, hdrRun_warns (s := s1) hlong hm hs hc]
    rfl
  · rw [hgo hcap, hdrRun_strict (s := s1) hlong hm hs hc]
    rfl

/-! ### Tables and expansions of ETC -/

/-- Settles O20. -/
theorem modulationTableValues : Obligations.ModulationTableValues := by
  unfold Obligations.ModulationTableValues
  decide

/-- Settles O21: the two bits by number. -/
theorem selectorPlanes : Obligations.SelectorPlanes := by
  unfold Obligations.SelectorPlanes
  intro bottom idx hidx
  have hbit : ∀ k, (bottom.getLsbD k).toNat = bottom.toNat / 2 ^ k % 2 := fun k => by
    rw [getLsbD_eq_div]
    obtain h | h : bottom.toNat / 2 ^ k % 2 = 0 ∨ bottom.toNat / 2 ^ k % 2 = 1 := by omega
    · rw [h]
      rfl
    · rw [h]
      rfl
  have hsel : (selector bottom idx).toNat = 2 * (selMsb bottom idx).toNat + (selLsb bottom idx).toNat := by
    rw [selector, toNat_appended, BitVec.toNat_ofBool, BitVec.toNat_ofBool, pow_one, Nat.mul_comm]
  rw [hsel, selMsb, selLsb]
  split_ifs <;> rw [hbit, hbit]

/-- Settles O22, over the 256 pairs of a base and a delta. -/
theorem differentialSumWraps : Obligations.DifferentialSumWraps := by
  unfold Obligations.DifferentialSumWraps
  intro c d
  refine ⟨?_, decide_eq_true_iff⟩
  rw [add5, BitVec.toNat_ofInt, Int.toNat_of_nonneg (Int.emod_nonneg _ (by norm_num))]
  rfl

theorem sat8_eq_clamp (v : Int) : sat8 v = clamp v := by
  unfold sat8 clamp
  split_ifs with hneg hbig
  · rw [max_eq_left (by omega)]
    rfl
  · rw [min_eq_left (by omega)]
    rfl
  · rw [min_eq_right (by omega), max_eq_right (by omega)]
    obtain ⟨n, rfl⟩ := Int.eq_ofNat_of_zero_le (not_lt.1 hneg)
    rfl

theorem modulate_eq_clamp (channel : Byte) (delta : Int) : modulate channel delta = clamp (channel.toNat + delta) :=
  sat8_eq_clamp _

theorem expAlpha_toNat (nib : BitVec 4) : (expAlpha nib).toNat = 17 * nib.toNat := by
  have := nib.isLt
  rw [expAlpha, BitVec.toNat_ofNat]
  omega

/-- R182: the alpha of a scan position, by number. -/
theorem expAlpha_nibbleOf (a : Nat → Byte) (p : Nat) : expAlpha (nibbleOf (a (p / 2)) p) = alphaByte a p := by
  have hlow : ∀ n, n < 16 → 17 * n = n * 17 % 256 := fun n hn => by omega
  have hhigh : (a (p / 2)).toNat / 16 < 16 := by have := (a (p / 2)).isLt; omega
  unfold nibbleOf alphaByte
  split_ifs <;> apply BitVec.eq_of_toNat_eq <;>
    rw [expAlpha_toNat, BitVec.extractLsb'_toNat, BitVec.toNat_ofNat, Nat.shiftRight_eq_div_pow]
  · rw [pow_zero, Nat.div_one]
    exact hlow _ (Nat.mod_lt _ (by norm_num))
  · rw [Nat.mod_eq_of_lt (b := 2 ^ 4) hhigh]
    exact hlow _ hhigh

theorem pixelAlpha_eq (s : State) (p : Nat) :
    pixelAlpha s p = if s.etc.hasAlpha then alphaByte (fun j => s.rd .ABLK j) p else 255#8 := by
  rw [pixelAlpha, expAlpha_nibbleOf fun j => s.rd .ABLK j]

/-! ### Pixels -/

/-- The four bytes of pixel `(x, y)` of TILEOUT. -/
def PixelIs (t : State) (x y : BitVec 2) (r g b a : Byte) : Prop :=
  t.rd .TILEOUT (pixelOffset x y) = r ∧ t.rd .TILEOUT (pixelOffset x y + 1) = g ∧
    t.rd .TILEOUT (pixelOffset x y + 2) = b ∧ t.rd .TILEOUT (pixelOffset x y + 3) = a

theorem PixelIs.byte {t : State} {x y : BitVec 2} {f : Nat → Byte} (h : PixelIs t x y (f 0) (f 1) (f 2) (f 3)) {c : Nat}
    (hc : c < 4) : t.rd .TILEOUT (pixelOffset x y + c) = f c := by
  obtain ⟨h0, h1, h2, h3⟩ := h
  obtain rfl | rfl | rfl | rfl : c = 0 ∨ c = 1 ∨ c = 2 ∨ c = 3 := by omega
  · exact h0
  · exact h1
  · exact h2
  · exact h3

/-- A decoded tile, pixel by pixel (R181 to R183). -/
theorem pixelIs_decodePixels (flip : Bool) (p q : SubBlock) (s : State) (x y : BitVec 2) :
    PixelIs (decodePixels flip p q s) x y
      (clamp ((chosen flip p q x y).r.toNat + pixelDelta s flip p q x y))
      (clamp ((chosen flip p q x y).g.toNat + pixelDelta s flip p q x y))
      (clamp ((chosen flip p q x y).b.toNat + pixelDelta s flip p q x y))
      (if s.etc.hasAlpha then alphaByte (fun j => s.rd .ABLK j) (pixelIndex x y) else 255#8) := by
  obtain ⟨hpixel, -⟩ := decodePixels_rd flip p q s
  refine ⟨(hpixel x y 0 (by omega)).trans (modulate_eq_clamp _ _), (hpixel x y 1 (by omega)).trans (modulate_eq_clamp _ _),
    (hpixel x y 2 (by omega)).trans (modulate_eq_clamp _ _), (hpixel x y 3 (by omega)).trans (pixelAlpha_eq s _)⟩

theorem chosen_ind (flip : Bool) (f : IndFields) (x y : BitVec 2) :
    chosen flip (indFirst f) (indSecond f) x y =
      { r := exp4 (if Reference.inFirst flip x.toNat y.toNat then f.r1 else f.r2)
        g := exp4 (if Reference.inFirst flip x.toNat y.toNat then f.g1 else f.g2)
        b := exp4 (if Reference.inFirst flip x.toNat y.toNat then f.b1 else f.b2)
        table := if Reference.inFirst flip x.toNat y.toNat then f.table1 else f.table2 } := by
  have hplace : inFirst flip x y = Reference.inFirst flip x.toNat y.toNat := rfl
  rw [chosen, hplace]
  cases Reference.inFirst flip x.toNat y.toNat <;> rfl

theorem chosen_dif (flip : Bool) (f : DifFields) (x y : BitVec 2) :
    chosen flip (difFirst f) (difSecond f) x y =
      { r := exp5 (if Reference.inFirst flip x.toNat y.toNat then f.r else add5 f.r f.dr)
        g := exp5 (if Reference.inFirst flip x.toNat y.toNat then f.g else add5 f.g f.dg)
        b := exp5 (if Reference.inFirst flip x.toNat y.toNat then f.b else add5 f.b f.db)
        table := if Reference.inFirst flip x.toNat y.toNat then f.table1 else f.table2 } := by
  have hplace : inFirst flip x y = Reference.inFirst flip x.toNat y.toNat := rfl
  rw [chosen, hplace]
  cases Reference.inFirst flip x.toNat y.toNat <;> rfl

/-- The modulation of a pixel in the sub-block it lies in (R178 to R180). -/
def deltaOf (first : Bool) (table1 table2 : BitVec 3) (bottom : Word) (p : Nat) : Int :=
  MOD_TABLE (if first then table1 else table2) (selector bottom p)

/-- The alpha byte of a pixel with the operand `has_alpha` and the bytes of ABLK (R182). -/
def alphaOf (s : State) (p : Nat) : Byte :=
  if s.etc.hasAlpha then alphaByte (fun j => s.rd .ABLK j) p else 255#8

theorem pixelIs_decodeInd (flip : Bool) (f : IndFields) (s : State) (x y : BitVec 2) :
    let first := Reference.inFirst flip x.toNat y.toNat
    let delta := deltaOf first f.table1 f.table2 f.bottom (pixelIndex x y)
    PixelIs (decodeInd flip f s) x y
      (clamp ((exp4 (if first then f.r1 else f.r2)).toNat + delta))
      (clamp ((exp4 (if first then f.g1 else f.g2)).toNat + delta))
      (clamp ((exp4 (if first then f.b1 else f.b2)).toNat + delta))
      (alphaOf s (pixelIndex x y)) := by
  have h := pixelIs_decodePixels flip (indFirst f) (indSecond f)
    (latchBlock (indTop flip f) f.bottom flip false (indFirst f) (indSecond f) s) x y
  unfold pixelDelta at h
  rw [chosen_ind] at h
  exact h

theorem pixelIs_decodeDif (flip : Bool) (f : DifFields) (s : State) (x y : BitVec 2) :
    let first := Reference.inFirst flip x.toNat y.toNat
    let delta := deltaOf first f.table1 f.table2 f.bottom (pixelIndex x y)
    PixelIs (decodeDif flip f s) x y
      (clamp ((exp5 (if first then f.r else add5 f.r f.dr)).toNat + delta))
      (clamp ((exp5 (if first then f.g else add5 f.g f.dg)).toNat + delta))
      (clamp ((exp5 (if first then f.b else add5 f.b f.db)).toNat + delta))
      (alphaOf s (pixelIndex x y)) := by
  have h := pixelIs_decodePixels flip (difFirst f) (difSecond f)
    (latchBlock (difTop flip f) f.bottom flip true (difFirst f) (difSecond f) (flagOverflow f s)) x y
  unfold pixelDelta at h
  rw [chosen_dif] at h
  exact h

/-- A block writes TILEOUT only (R183). -/
theorem decodeInd_rd (flip : Bool) (f : IndFields) (s : State) {d : BufName} {a : Nat} (h : d ≠ .TILEOUT ∨ 64 ≤ a) :
    (decodeInd flip f s).rd d a = s.rd d a :=
  ((decodePixels_rd flip _ _ _).2 d a h).trans (by cases d <;> rfl)

theorem decodeDif_rd (flip : Bool) (f : DifFields) (s : State) {d : BufName} {a : Nat} (h : d ≠ .TILEOUT ∨ 64 ≤ a) :
    (decodeDif flip f s).rd d a = s.rd d a :=
  ((decodePixels_rd flip _ _ _).2 d a h).trans (by cases d <;> rfl)

/-- Settles O16. -/
theorem individualBlockPixels : Obligations.IndividualBlockPixels := by
  unfold Obligations.IndividualBlockPixels
  intro flip f s
  refine ⟨decodeInd flip f s, by cases flip <;> rfl, fun x y => pixelIs_decodeInd flip f s x y,
    fun b a h => decodeInd_rd flip f s h, ?_⟩
  obtain ⟨m, e, h, -⟩ := decodeInd_eq flip f s
  rw [h]

/-- Settles O17. -/
theorem differentialBlockPixels : Obligations.DifferentialBlockPixels := by
  unfold Obligations.DifferentialBlockPixels
  intro flip f s
  obtain ⟨m, e, h, -⟩ := decodeDif_eq flip f s
  refine ⟨decodeDif flip f s, by cases flip <;> rfl, fun x y => pixelIs_decodeDif flip f s x y, ?_,
    fun b a h => decodeDif_rd flip f s h, ?_⟩
  · rw [h]
    rfl
  · rw [h]

/-- Settles O18. -/
theorem alphaBlockPixels : Obligations.AlphaBlockPixels := by
  unfold Obligations.AlphaBlockPixels
  intro a s
  obtain ⟨hpixel, hother⟩ := decodeAlpha_rd a s
  refine ⟨decodeAlpha a s, rfl, fun x y => ?_, hother, ?_⟩
  · rw [← expAlpha_toNat]
    exact congrArg BitVec.toNat (hpixel x y)
  · obtain ⟨m, e, h, -⟩ := decodeAlpha_only a s
    rw [h]

/-! ### A block of CBLK and ABLK -/

/-- The word `top` of the block in CBLK (R98). -/
def blockTop (s : State) : Word := le32 (s.rd .CBLK 0) (s.rd .CBLK 1) (s.rd .CBLK 2) (s.rd .CBLK 3)

/-- The word `bottom` of the block in CBLK (R98). -/
def blockBottom (s : State) : Word := le32 (s.rd .CBLK 4) (s.rd .CBLK 5) (s.rd .CBLK 6) (s.rd .CBLK 7)

theorem baseChannel_individual {top : Word} (h : topDifferential top = false) (first : Bool) (c : Nat) :
    baseChannel top first c = exp4 (if first then top.extractLsb' (8 * c + 4) 4 else top.extractLsb' (8 * c) 4) := by
  rw [baseChannel, if_neg (by rw [h]; nofun)]
  cases first <;> rfl

theorem baseChannel_differential {top : Word} (h : topDifferential top = true) (first : Bool) (c : Nat) :
    baseChannel top first c = exp5 (if first then top.extractLsb' (8 * c + 3) 5
      else add5 (top.extractLsb' (8 * c + 3) 5) (top.extractLsb' (8 * c) 3)) := by
  rw [baseChannel, if_pos h]
  cases first <;> rfl

/-- A colour byte of a pixel (R181). -/
theorem pixelByte_colour (top bottom : Word) (a : Nat → Byte) (hasAlpha : Bool) (x y : Nat) {c : Nat} (hc : c ≠ 3) :
    pixelByte top bottom a hasAlpha x y c =
      clamp ((baseChannel top (Reference.inFirst (topFlip top) x y) c).toNat +
        deltaOf (Reference.inFirst (topFlip top) x y) (top.extractLsb' 29 3) (top.extractLsb' 26 3) bottom (x * 4 + y)) :=
  if_neg hc

/-- The colour operation of a block, pixel by pixel (R171 to R183). -/
theorem pixelIs_colour (top bottom : Word) (s : State) (x y : BitVec 2) :
    let f := pixelByte top bottom (fun j => s.rd .ABLK j) s.etc.hasAlpha x.toNat y.toNat
    PixelIs (blockOp (colourInstr top bottom) s) x y (f 0) (f 1) (f 2) (f 3) := by
  intro f
  have hflip : (blockOp (colourInstr top bottom) s) =
      if topDifferential top then decodeDif (topFlip top) (difFields top bottom) s
      else decodeInd (topFlip top) (indFields top bottom) s := by
    unfold colourInstr
    cases topDifferential top <;> cases topFlip top <;> rfl
  have hcolour : ∀ c ≠ 3, f c = _ := fun c hc => pixelByte_colour top bottom _ _ _ _ hc
  rw [hflip, hcolour 0 (by omega), hcolour 1 (by omega), hcolour 2 (by omega)]
  cases hmode : topDifferential top
  · simp only [baseChannel_individual hmode]
    exact pixelIs_decodeInd (topFlip top) (indFields top bottom) s x y
  · simp only [baseChannel_differential hmode]
    exact pixelIs_decodeDif (topFlip top) (difFields top bottom) s x y

/-- The colour operation writes TILEOUT only. -/
theorem colour_rd (top bottom : Word) (s : State) {d : BufName} {a : Nat} (h : d ≠ .TILEOUT ∨ 64 ≤ a) :
    (blockOp (colourInstr top bottom) s).rd d a = s.rd d a := by
  unfold colourInstr
  split_ifs
  · exact decodeDif_rd true _ s h
  · exact decodeDif_rd false _ s h
  · exact decodeInd_rd true _ s h
  · exact decodeInd_rd false _ s h

/-- The colour operation sets DIFF_OVF when the word `top` overflows (R177). -/
theorem colour_status (top bottom : Word) (s : State) :
    (blockOp (colourInstr top bottom) s).status = s.status.withDiffOvf (overflows top) := by
  have hdif : ∀ flip f, (decodeDif flip f s).status = s.status.withDiffOvf (diffOverflow f) := fun flip f => by
    obtain ⟨m, e, h, -⟩ := decodeDif_eq flip f s
    rw [h]
  have hind : ∀ flip f, (decodeInd flip f s).status = s.status.withDiffOvf false := fun flip f => by
    obtain ⟨m, e, h, -⟩ := decodeInd_eq flip f s
    rw [h, Status.withDiffOvf, Bool.or_false]
  unfold colourInstr overflows
  cases topDifferential top <;> cases topFlip top
  · exact hind false _
  · exact hind true _
  · exact hdif false _
  · exact hdif true _

/-- ETC is the colour operation, after the alpha half on a tile that the colour operation overwrites (R170, R188). -/
theorem etcRun_eq (s : State) :
    ∃ u, TileOnly s u ∧ (∀ d a, d ≠ .TILEOUT ∨ 64 ≤ a → u.rd d a = s.rd d a) ∧
      etcRun s = blockOp (colourInstr (blockTop s) (blockBottom s)) u := by
  cases h : s.etc.hasAlpha
  · refine ⟨s, .refl s, fun _ _ _ => rfl, ?_⟩
    unfold etcRun
    rw [h]
    rfl
  · obtain ⟨a, ha⟩ : ∃ a : BitVec 64, runBlock .alpha (alphaBytes s) s = decodeAlpha a s := ⟨_, runBlock_alpha s⟩
    have hother : ∀ d i, d ≠ .TILEOUT ∨ 64 ≤ i → (decodeAlpha a s).rd d i = s.rd d i :=
      fun d i hd => (decodeAlpha_rd a s).2 d i (hd.imp_right .inl)
    have hcblk : ∀ j, (decodeAlpha a s).rd .CBLK j = s.rd .CBLK j := fun j => hother .CBLK j (.inl nofun)
    refine ⟨decodeAlpha a s, decodeAlpha_only a s, hother, ?_⟩
    unfold etcRun
    rw [h]
    dsimp only
    rw [ha, if_pos rfl, runBlock_colour]
    simp only [hcblk, blockTop, blockBottom]

/-- The tile ETC leaves (R178 to R183): each byte is the reference's. -/
theorem etcRun_tile (s : State) {x y c : Nat} (hx : x < 4) (hy : y < 4) (hc : c < 4) :
    (etcRun s).rd .TILEOUT ((y * 4 + x) * 4 + c) =
      pixelByte (blockTop s) (blockBottom s) (fun j => s.rd .ABLK j) s.etc.hasAlpha x y c := by
  obtain ⟨u, hu, hrd, he⟩ := etcRun_eq s
  have hpixel := (pixelIs_colour (blockTop s) (blockBottom s) u (BitVec.ofNat 2 x) (BitVec.ofNat 2 y)).byte hc
  have hX : (BitVec.ofNat 2 x).toNat = x := Nat.mod_eq_of_lt hx
  have hY : (BitVec.ofNat 2 y).toNat = y := Nat.mod_eq_of_lt hy
  rw [pixelOffset, hX, hY, hu.inputs.hasAlpha] at hpixel
  rw [he, hpixel]
  simp only [fun j => hrd .ABLK j (.inl nofun)]

/-- ETC writes TILEOUT only (R170). -/
theorem etcRun_rd (s : State) {d : BufName} {a : Nat} (h : d ≠ .TILEOUT ∨ 64 ≤ a) : (etcRun s).rd d a = s.rd d a := by
  obtain ⟨u, -, hrd, he⟩ := etcRun_eq s
  rw [he, colour_rd _ _ _ h, hrd d a h]

/-- DIFF_OVF is sticky (R177). -/
theorem etcRun_status (s : State) : (etcRun s).status = s.status.withDiffOvf (overflows (blockTop s)) := by
  obtain ⟨u, ⟨m, e, rfl, -⟩, -, he⟩ := etcRun_eq s
  rw [he, colour_status]

theorem exec_cmdDecodeBlock (s : State) (hidle : s.status.busy = false) :
    exec .cmdDecodeBlock s = .next (complete (etcRun (withAlpha s.hasAlpha (acknowledge 3#8 s)))) :=
  congrArg Host.Outcome.next (command_of_launch hidle (launch_plain s rfl rfl rfl))

/-- Settles O23: ETC on the launched state. -/
theorem decodeBlockTile : Obligations.DecodeBlockTile := by
  unfold Obligations.DecodeBlockTile
  intro s hidle top bottom
  have htop : blockTop (withAlpha s.hasAlpha (acknowledge 3#8 s)) = top := rfl
  refine ⟨_, exec_cmdDecodeBlock s hidle, fun x hx y hy c hc => etcRun_tile (withAlpha _ (acknowledge 3#8 s)) hx hy hc, ?_,
    fun b a h => ?_, ?_⟩
  · rw [complete, etcRun_status, htop]
    rfl
  · exact (etcRun_rd (withAlpha _ (acknowledge 3#8 s)) h).trans (by cases b <;> rfl)
  · obtain ⟨m, e, v, h, -⟩ := etcRun_only (withAlpha s.hasAlpha (acknowledge 3#8 s))
    rw [h]
    rfl

/-- A pixel depends on the alpha bytes only through its own, and only with alpha (R189). -/
theorem pixelByte_congr (top bottom : Word) {a a' : Nat → Byte} {hasAlpha : Bool}
    (h : hasAlpha = true → ∀ j < 8, a j = a' j) {x y : Nat} (hx : x < 4) (hy : y < 4) (c : Nat) :
    pixelByte top bottom a hasAlpha x y c = pixelByte top bottom a' hasAlpha x y c := by
  unfold pixelByte
  cases hasAlpha
  · rfl
  · unfold alphaByte
    rw [h rfl _ (by omega)]

/-- Settles O24: both tiles and both STATUS are the reference's, of the same inputs. -/
theorem decodeBlockReadsOnlyItsInputs : Obligations.DecodeBlockReadsOnlyItsInputs := by
  unfold Obligations.DecodeBlockReadsOnlyItsInputs
  intro s s' t t' hidle hidle' hcblk halpha hablk ht ht'
  obtain ⟨u, hu, htile, hstatus, -⟩ := decodeBlockTile s hidle
  obtain ⟨u', hu', htile', hstatus', -⟩ := decodeBlockTile s' hidle'
  obtain rfl : u = t := Host.Outcome.next.inj (hu.symm.trans ht)
  obtain rfl : u' = t' := Host.Outcome.next.inj (hu'.symm.trans ht')
  simp only [← hcblk 0 (by omega), ← hcblk 1 (by omega), ← hcblk 2 (by omega), ← hcblk 3 (by omega),
    ← hcblk 4 (by omega), ← hcblk 5 (by omega), ← hcblk 6 (by omega), ← hcblk 7 (by omega), ← halpha]
    at htile' hstatus'
  refine ⟨hstatus.trans hstatus'.symm, fun a ha => ?_⟩
  have hplace : a = (a / 16 * 4 + a / 4 % 4) * 4 + a % 4 := by omega
  rw [hplace, htile _ (by omega) _ (by omega) _ (by omega), htile' _ (by omega) _ (by omega) _ (by omega)]
  exact pixelByte_congr _ _ hablk (by omega) (by omega) _

end Sys2Proof.Machine
end

section
/-! SUPPORT. The scramble table: the counting procedure over natural numbers, its bounds and its closed form, and that
TSA's words follow it. -/

namespace Sys2Proof.Machine

open Sys2Proof Sys2Proof.Reference
open Sys2Proof.Config (BufName)

/-! ### The counting procedure -/

/-- What the counters keep at position `t`: the base toggle is the parity of the position, the row number is never above
the base number, and the base number is at most `2*t`, less 1 at odd positions, and 2 more in a row with its toggle set. -/
structure ScrBound (t : Nat) (g : Scr) : Prop where
  parity : g.baseToggle = decide (t % 2 = 1)
  row_le : g.row ≤ g.base
  even : g.rowToggle = false → g.base + t % 2 ≤ 2 * t
  odd : g.rowToggle = true → g.base + t % 2 ≤ 2 * t + 2 ∧ 2 ≤ g.row ∧ 2 ≤ t

/-- The new-row action at position `t`: nothing, or from an even to an odd row, or back (R213). -/
theorem scrNewRow_cases (tilesX t : Nat) (g : Scr) :
    scrNewRow tilesX t g = g ∨
    (0 < t ∧ g.rowToggle = false ∧
      scrNewRow tilesX t g = { g with rowToggle := true, row := g.row + 2, base := g.row + 2 }) ∨
    (0 < t ∧ g.rowToggle = true ∧
      scrNewRow tilesX t g = { g with rowToggle := false, base := g.base - 2, row := g.base - 2 }) := by
  unfold scrNewRow
  split_ifs with hnew hrow
  · exact .inr (.inl ⟨hnew.2, hrow, rfl⟩)
  · exact .inr (.inr ⟨hnew.2, by simpa using hrow, rfl⟩)
  · exact .inl rfl

/-- What the counters keep between the new-row action and the base step of position `t`. -/
structure ScrMid (t : Nat) (g : Scr) : Prop where
  parity : g.baseToggle = decide (t % 2 = 1)
  row_le : g.row ≤ g.base
  base_le : g.base ≤ 3 * t
  even : g.rowToggle = false → g.base + t % 2 ≤ 2 * t
  odd : g.rowToggle = true → g.base + t % 2 ≤ 2 * t + 2 ∧ 2 ≤ g.row ∧ 1 ≤ t

theorem ScrBound.newRow {t : Nat} {g : Scr} (h : ScrBound t g) (tilesX : Nat) : ScrMid t (scrNewRow tilesX t g) := by
  have hle := h.row_le
  obtain he | ⟨ht, hrow, he⟩ | ⟨ht, hrow, he⟩ := scrNewRow_cases tilesX t g <;> rw [he]
  · refine ⟨h.parity, hle, ?_, h.even, fun hr => ?_⟩
    · cases hr : g.rowToggle
      · have := h.even hr
        omega
      · have := h.odd hr
        omega
    · have := h.odd hr
      omega
  · have := h.even hrow
    exact ⟨h.parity, le_refl _, by dsimp only; omega, nofun, fun _ => by dsimp only; omega⟩
  · have := h.odd hrow
    exact ⟨h.parity, le_refl _, by dsimp only; omega, fun _ => by dsimp only; omega, nofun⟩

theorem ScrMid.baseStep {t : Nat} {g : Scr} (h : ScrMid t g) : ScrBound (t + 1) (scrBaseStep g) := by
  have hle := h.row_le
  have hparity := h.parity
  unfold scrBaseStep
  split_ifs with hb
  · have ht : t % 2 = 0 := by
      rw [hb] at hparity
      have := of_decide_eq_false hparity.symm
      omega
    refine ⟨by simp; omega, by dsimp only; omega, fun hr => ?_, fun hr => ?_⟩ <;> dsimp only
    · have := h.even hr
      omega
    · have := h.odd hr
      omega
  · have ht : t % 2 = 1 := of_decide_eq_true (hparity.symm.trans (by simpa using hb))
    refine ⟨by simp; omega, by dsimp only; omega, fun hr => ?_, fun hr => ?_⟩ <;> dsimp only
    · have := h.even hr
      omega
    · have := h.odd hr
      omega

theorem scrAt_bound (tilesX : Nat) : ∀ t, ScrBound t (scrAt tilesX t)
  | 0 => ⟨rfl, le_refl _, fun _ => le_refl _, nofun⟩
  | t + 1 => ((scrAt_bound tilesX t).newRow tilesX).baseStep

/-- R218: every entry is at most three times its index. -/
theorem scrEntry_le (tilesX t : Nat) : scrEntry tilesX t ≤ 3 * t := ((scrAt_bound tilesX t).newRow tilesX).base_le

/-- R218: so are the counters, and the base number covers the 2 that a new row takes off it. -/
theorem scrAt_le (tilesX t : Nat) :
    (scrAt tilesX t).base ≤ 3 * t ∧ (scrAt tilesX t).row ≤ 3 * t ∧
      ((scrAt tilesX t).rowToggle = true → 2 ≤ (scrAt tilesX t).base) := by
  have h := scrAt_bound tilesX t
  have hle := h.row_le
  cases hr : (scrAt tilesX t).rowToggle
  · have := h.even hr
    exact ⟨by omega, by omega, nofun⟩
  · have := h.odd hr
    exact ⟨by omega, by omega, fun _ => by omega⟩

/-! ### The closed form -/

/-- The counters at column `c` of row `r` after the new-row action, for an even number of columns (R217). -/
def scrClosed (tilesX r c : Nat) : Scr where
  base := 2 * tilesX * (r / 2) + 4 * (c / 2) + 2 * (r % 2) + c % 2
  row := 2 * tilesX * (r / 2) + 2 * (r % 2)
  baseToggle := decide (c % 2 = 1)
  rowToggle := decide (r % 2 = 1)

/-- The next position is the next column, or the first of the next row. -/
theorem next_place {n t : Nat} (hn : 0 < n) :
    (t % n + 1 < n ∧ (t + 1) / n = t / n ∧ (t + 1) % n = t % n + 1) ∨
    (t % n + 1 = n ∧ (t + 1) / n = t / n + 1 ∧ (t + 1) % n = 0) := by
  have hlt := Nat.mod_lt t hn
  have hsum := Nat.div_add_mod t n
  obtain hin | hend : t % n + 1 < n ∨ t % n + 1 = n := by omega
  · refine .inl ⟨hin, ?_⟩
    have hplace : t % n + 1 + n * (t / n) = t + 1 := by omega
    exact (Nat.div_mod_unique hn).2 ⟨hplace, hin⟩
  · refine .inr ⟨hend, ?_⟩
    have hplace : 0 + n * (t / n + 1) = t + 1 := by rw [Nat.mul_add]; omega
    exact (Nat.div_mod_unique hn).2 ⟨hplace, hn⟩

/-- Inside a row the base step gives the next column. -/
theorem scrBaseStep_closed (tilesX r c : Nat) :
    scrBaseStep (scrClosed tilesX r c) =
      { scrClosed tilesX r (c + 1) with base := 2 * tilesX * (r / 2) + 4 * ((c + 1) / 2) + 2 * (r % 2) + (c + 1) % 2 } := by
  unfold scrBaseStep scrClosed
  by_cases hc : c % 2 = 1
  · have h1 : (c + 1) / 2 = c / 2 + 1 := by omega
    have h2 : (c + 1) % 2 = 0 := by omega
    simp only [hc, h1, h2]
    simp
    omega
  · have h1 : (c + 1) / 2 = c / 2 := by omega
    have h2 : (c + 1) % 2 = 1 := by omega
    have h3 : c % 2 = 0 := by omega
    simp [h1, h2, h3]

/-- The closed form, position by position (R217 item 1). -/
theorem scrNewRow_scrAt {tilesX : Nat} (hpos : 0 < tilesX) (heven : tilesX % 2 = 0) (t : Nat) :
    scrNewRow tilesX t (scrAt tilesX t) = scrClosed tilesX (t / tilesX) (t % tilesX) := by
  induction t with
  | zero => simp [scrNewRow, scrAt, scrClosed]
  | succ t ih =>
    rw [scrAt, ih, scrBaseStep_closed]
    obtain ⟨hin, hr, hc⟩ | ⟨hend, hr, hc⟩ := next_place (t := t) hpos
    · rw [scrNewRow, if_neg (by omega), hr, hc]
      rfl
    · rw [scrNewRow, if_pos ⟨hc, by omega⟩, hr, hc, hend]
      obtain ⟨n, rfl⟩ : ∃ n, tilesX = 2 * n := ⟨tilesX / 2, by omega⟩
      have hn : 2 * n / 2 = n := by omega
      obtain ⟨q, hq | hq⟩ : ∃ q, t / (2 * n) = 2 * q ∨ t / (2 * n) = 2 * q + 1 := ⟨t / (2 * n) / 2, by omega⟩
      · have h1 : 2 * q / 2 = q := by omega
        have h2 : (2 * q + 1) / 2 = q := by omega
        simp [scrClosed, hq, h1, h2, hn]
      · have h1 : (2 * q + 1) / 2 = q := by omega
        have h2 : (2 * q + 1 + 1) / 2 = q + 1 := by omega
        simp [scrClosed, hq, h1, h2, hn]
        ring_nf
        simp

theorem scrEntry_closed {tilesX : Nat} (hpos : 0 < tilesX) (heven : tilesX % 2 = 0) (t : Nat) :
    scrEntry tilesX t =
      2 * tilesX * (t / tilesX / 2) + 4 * (t % tilesX / 2) + 2 * (t / tilesX % 2) + t % tilesX % 2 := by
  rw [scrEntry, scrNewRow_scrAt hpos heven]
  rfl

/-- An entry is its band of two rows and its place in the band. -/
theorem scrEntry_band {tilesX : Nat} (hpos : 0 < tilesX) (heven : tilesX % 2 = 0) (t : Nat) :
    scrEntry tilesX t / (2 * tilesX) = t / tilesX / 2 ∧
      scrEntry tilesX t % (2 * tilesX) = 4 * (t % tilesX / 2) + 2 * (t / tilesX % 2) + t % tilesX % 2 := by
  have hc := Nat.mod_lt t hpos
  refine (Nat.div_mod_unique (by omega)).2 ⟨?_, by omega⟩
  rw [scrEntry_closed hpos heven]
  omega

/-- On a grid with both sides even every entry lies in the grid (R217 item 2). -/
theorem scrEntry_lt {tilesX tilesY : Nat} (hx : tilesX % 2 = 0) (hy : tilesY % 2 = 0) {t : Nat}
    (ht : t < tilesX * tilesY) : scrEntry tilesX t < tilesX * tilesY := by
  have hpos : 0 < tilesX := Nat.pos_of_ne_zero fun h => by simp [h] at ht
  have hrow : t / tilesX < tilesY := Nat.div_lt_of_lt_mul ht
  obtain ⟨m, rfl⟩ : ∃ m, tilesY = 2 * m := ⟨tilesY / 2, by omega⟩
  rw [show tilesX * (2 * m) = m * (2 * tilesX) by ring, ← Nat.div_lt_iff_lt_mul (by omega),
    (scrEntry_band hpos hx t).1]
  omega

/-- With an even number of columns no two entries are equal (R217 item 2). -/
theorem scrEntry_inj {tilesX : Nat} (hpos : 0 < tilesX) (hx : tilesX % 2 = 0) {i j : Nat}
    (h : scrEntry tilesX i = scrEntry tilesX j) : i = j := by
  obtain ⟨hband, hplace⟩ := scrEntry_band hpos hx i
  obtain ⟨hband', hplace'⟩ := scrEntry_band hpos hx j
  rw [h, hband'] at hband
  rw [h, hplace'] at hplace
  have hrow : i / tilesX = j / tilesX := by omega
  have hcolumn : i % tilesX = j % tilesX := by omega
  rw [← Nat.div_add_mod i tilesX, hrow, hcolumn, Nat.div_add_mod]

/-! ### TSA's words -/

/-- TSA's two numbers and two toggles are those counters (R33). -/
def CountsAre (g : TsaRegs) (r : Scr) : Prop :=
  g.baseNumber.toNat = r.base ∧ g.rowNumber.toNat = r.row ∧ g.baseToggle = r.baseToggle ∧ g.rowToggle = r.rowToggle

/-- The new-row action, while nothing wraps (R213). -/
theorem CountsAre.newRow {g : TsaRegs} {r : Scr} (h : CountsAre g r) (hrow : r.row + 2 < 2 ^ 32)
    (hbase : r.rowToggle = true → 2 ≤ r.base) :
    CountsAre (newRow g) (scrNewRow g.tilesX.toNat g.t.toNat r) := by
  obtain ⟨hb, hr, hbt, hrt⟩ := h
  have hadd : (g.rowNumber + 2#32).toNat = r.row + 2 := by
    rw [BitVec.toNat_add, hr]
    exact Nat.mod_eq_of_lt hrow
  have hsub : r.rowToggle = true → (g.baseNumber - 2#32).toNat = r.base - 2 := fun ht => by
    have := hbase ht
    rw [BitVec.toNat_sub_of_le (BitVec.le_def.2 (by rw [hb]; exact this)), hb]
    rfl
  unfold Machine.newRow scrNewRow
  split_ifs with hnew h1 h2 h2
  · exact ⟨hadd, hadd, hbt, rfl⟩
  · exact absurd (hrt.symm.trans h1) h2
  · exact absurd (hrt.trans h2) h1
  · have ht : r.rowToggle = true := by simpa using h2
    exact ⟨hsub ht, hsub ht, hbt, rfl⟩
  · exact ⟨hb, hr, hbt, hrt⟩

/-- The base step, while nothing wraps (R215). -/
theorem CountsAre.baseStep {g : TsaRegs} {r : Scr} (h : CountsAre g r) (hbase : r.base + 3 < 2 ^ 32) :
    CountsAre (baseStep g) (scrBaseStep r) := by
  obtain ⟨hb, hr, hbt, hrt⟩ := h
  have hadd : ∀ n, n ≤ 3 → (g.baseNumber + BitVec.ofNat 32 n).toNat = r.base + n := fun n hn => by
    rw [BitVec.toNat_add, hb, BitVec.toNat_ofNat, Nat.add_mod_mod]
    exact Nat.mod_eq_of_lt (by omega)
  unfold Machine.baseStep scrBaseStep
  split_ifs with h1 h2 h2
  · exact ⟨hadd 1 (by omega), hr, rfl, hrt⟩
  · exact absurd (hbt.symm.trans h1) h2
  · exact absurd (hbt.trans h2) h1
  · exact ⟨hadd 3 (by omega), hr, rfl, hrt⟩

/-- The registers at the start of a build (R211). -/
def tsaFirst (tilesX tilesY : Nat) : TsaRegs :=
  { baseNumber := 0#32, rowNumber := 0#32, baseToggle := false, rowToggle := false, t := 0#32
    tilesX := BitVec.ofNat 14 tilesX, tilesY := BitVec.ofNat 14 tilesY }

theorem tsaInit_tsa (tilesX tilesY : Nat) (s : State) : (tsaInit tilesX tilesY s).tsa = tsaFirst tilesX tilesY := rfl

section Build

variable {tilesX tilesY : Nat}

theorem tsaFirst_place (hx : tilesX < 2 ^ 14) {k : Nat} (hk : k ≤ 2 ^ 28) :
    (tsaNext^[k] (tsaFirst tilesX tilesY)).t.toNat = k ∧
      (tsaNext^[k] (tsaFirst tilesX tilesY)).tilesX.toNat = tilesX := by
  obtain ⟨ht, hX, -⟩ := tsaNext_iterate_kept k (tsaFirst tilesX tilesY)
  rw [ht, hX]
  constructor
  · show (0#32 + BitVec.ofNat 32 k).toNat = k
    rw [BitVec.zero_add, BitVec.toNat_ofNat]
    omega
  · exact Nat.mod_eq_of_lt hx

/-- TSA's words follow the counting procedure through every grid that its registers can hold (R218). -/
theorem countsAre_iterate (hx : tilesX < 2 ^ 14) (k : Nat) (hk : k ≤ 2 ^ 28) :
    CountsAre (tsaNext^[k] (tsaFirst tilesX tilesY)) (scrAt tilesX k) ∧
      CountsAre (newRow (tsaNext^[k] (tsaFirst tilesX tilesY))) (scrNewRow tilesX k (scrAt tilesX k)) := by
  have hmid : ∀ {k}, k ≤ 2 ^ 28 → CountsAre (tsaNext^[k] (tsaFirst tilesX tilesY)) (scrAt tilesX k) →
      CountsAre (newRow (tsaNext^[k] (tsaFirst tilesX tilesY))) (scrNewRow tilesX k (scrAt tilesX k)) := fun {k} hk h => by
    obtain ⟨ht, hX⟩ := tsaFirst_place (tilesX := tilesX) (tilesY := tilesY) hx hk
    obtain ⟨-, hrow, hbase⟩ := scrAt_le tilesX k
    have hnew := h.newRow (by omega) hbase
    rwa [ht, hX] at hnew
  induction k with
  | zero => exact ⟨⟨rfl, rfl, rfl, rfl⟩, hmid hk ⟨rfl, rfl, rfl, rfl⟩⟩
  | succ k ih =>
    have hentry : (scrNewRow tilesX k (scrAt tilesX k)).base ≤ 3 * k := scrEntry_le tilesX k
    have hnext : CountsAre (tsaNext^[k + 1] (tsaFirst tilesX tilesY)) (scrAt tilesX (k + 1)) := by
      rw [Function.iterate_succ_apply']
      exact (ih (by omega)).2.baseStep (by omega)
    exact ⟨hnext, hmid hk hnext⟩

/-- A finished build of the grid from `s` (R216). -/
def tsaDone (tilesX tilesY : Nat) (s : State) : State :=
  tsaEnd (tsaStep^[tilesX * tilesY] (tsaInit tilesX tilesY s))

theorem grid_lt (hx : tilesX < 2 ^ 14) (hy : tilesY < 2 ^ 14) : tilesX * tilesY < 2 ^ 28 :=
  lt_of_le_of_lt (Nat.mul_le_mul_right _ (Nat.le_of_lt_succ hx)) (by omega)

/-- TSA on a grid that fits SCR (R210). -/
theorem tsaRun_fits (hx : tilesX < 2 ^ 14) (hy : tilesY < 2 ^ 14) {s : State} (h : tilesX * tilesY ≤ s.params.scrCap) :
    tsaRun tilesX tilesY s = .go (tsaDone tilesX tilesY s) := by
  rw [tsaRun, tsaStart, if_neg (by omega), Flow.go_andThen, tsaCount_init s hx hy]
  rfl

/-- A build writes SCR, SCR_LEN and TSA's registers; what SCR held is forgotten (R216). -/
theorem tsaDone_eq (tilesX tilesY : Nat) (s : State) :
    ∃ m g l, tsaDone tilesX tilesY s = { s with scr := m, tsa := g, scrLen := l, draws := s.draws + 1 } := by
  obtain ⟨m, h⟩ := tsaStep_iterate_eq (tilesX * tilesY) (tsaInit tilesX tilesY s)
  rw [tsaDone, h]
  exact ⟨_, _, _, rfl⟩

/-- A build leaves SCR the table of the grid (R214, R216). -/
theorem tsaDone_scrambleIs (hx : tilesX < 2 ^ 14) (hy : tilesY < 2 ^ 14) (s : State) :
    scrambleIs (tsaDone tilesX tilesY s) tilesX (tilesX * tilesY) := by
  have hgrid := grid_lt hx hy
  have hcount : tsaCount (tsaStep^[tilesX * tilesY] (tsaInit tilesX tilesY s)) = tilesX * tilesY := by
    rw [tsaCount_iterate, tsaCount_init s hx hy]
  constructor
  · show (BitVec.ofNat 32 (tsaCount _)).toNat = _
    rw [hcount, BitVec.toNat_ofNat]
    omega
  · intro i hi
    have hfirst : (tsaInit tilesX tilesY s).tsa.t.toNat = 0 := rfl
    have hentry := tsaStep_iterate_rdScr (tilesX * tilesY) (tsaInit tilesX tilesY s) (by rw [hfirst]; omega) i
    rw [hfirst, if_pos (by omega), Nat.sub_zero, tsaInit_tsa] at hentry
    obtain ⟨hbase, -⟩ := (countsAre_iterate (tilesY := tilesY) hx i (by omega)).2
    exact (congrArg BitVec.toNat hentry).trans hbase

/-- A build leaves TSA's counters where the last position leaves them (R212). -/
theorem tsaDone_countersAre (hx : tilesX < 2 ^ 14) (hy : tilesY < 2 ^ 14) (s : State) :
    countersAre (tsaDone tilesX tilesY s) (scrAt tilesX (tilesX * tilesY)) := by
  have hgrid := grid_lt hx hy
  obtain ⟨m, h⟩ := tsaStep_iterate_eq (tilesX * tilesY) (tsaInit tilesX tilesY s)
  have htsa : (tsaDone tilesX tilesY s).tsa = tsaNext^[tilesX * tilesY] (tsaFirst tilesX tilesY) := by
    rw [tsaDone, h]
    rfl
  have hcounts := (countsAre_iterate (tilesY := tilesY) hx (tilesX * tilesY) (by omega)).1
  rw [← htsa] at hcounts
  exact hcounts

end Build

/-! ### CMD.BUILD_SCRAMBLE -/

theorem tiles_lt (v : Half) : v.toNat / 4 < 2 ^ 14 := by
  have := v.isLt
  omega

theorem exec_cmdBuildScramble {s : State} (hidle : s.status.busy = false) :
    exec .cmdBuildScramble s = .next (finish (scrambleRun (launched 4#8 s))) :=
  congrArg Host.Outcome.next (command_of_launch hidle (launch_plain s rfl rfl rfl))

section Scramble

variable {s : State}

theorem scrambleRun_width (hw : s.width.toNat % 4 ≠ 0) : scrambleRun s = .ended (faulted 0x13#8 0#32 s) := by
  rw [scrambleRun, scrambleStart, if_pos hw]
  rfl

theorem scrambleRun_height (hw : s.width.toNat % 4 = 0) (hh : s.height.toNat % 4 ≠ 0) :
    scrambleRun s = .ended (faulted 0x13#8 1#32 s) := by
  rw [scrambleRun, scrambleStart, if_neg (not_not.2 hw), if_pos hh]
  rfl

theorem scrambleRun_capacity (hw : s.width.toNat % 4 = 0) (hh : s.height.toNat % 4 = 0)
    (hcap : s.params.scrCap < tiles s.width s.height) : scrambleRun s = .ended (faulted 0x16#8 3#32 s) := by
  rw [scrambleRun, scrambleStart, if_neg (not_not.2 hw), if_neg (not_not.2 hh), tsaStart,
    if_pos (show s.params.scrCap < s.width.toNat / 4 * (s.height.toNat / 4) from hcap)]
  rfl

/-- R254 with both sides multiples of 4 and the table fitting. -/
theorem scrambleRun_fits (hw : s.width.toNat % 4 = 0) (hh : s.height.toNat % 4 = 0)
    (hcap : tiles s.width s.height ≤ s.params.scrCap) :
    scrambleRun s = .go (tsaDone (s.width.toNat / 4) (s.height.toNat / 4) s) := by
  rw [scrambleRun, scrambleStart, if_neg (by omega), if_neg (by omega)]
  exact tsaRun_fits (tiles_lt _) (tiles_lt _) hcap

end Scramble

/-- Settles O25: the checks in order, then the build on the launched state. -/
theorem buildScrambleTable : Obligations.BuildScrambleTable := by
  unfold Obligations.BuildScrambleTable
  intro s hidle
  rw [exec_cmdBuildScramble hidle]
  refine ⟨fun hw => ?_, fun hw hh => ?_, fun hw hh hcap => ?_, fun hw hh hcap => ?_⟩
  · rw [scrambleRun_width (s := launched 4#8 s) hw, finish_ended]
  · rw [scrambleRun_height (s := launched 4#8 s) hw hh, finish_ended]
  · rw [scrambleRun_capacity (s := launched 4#8 s) hw hh hcap, finish_ended]
  · rw [scrambleRun_fits (s := launched 4#8 s) hw hh hcap]
    have htable := tsaDone_scrambleIs (tiles_lt s.width) (tiles_lt s.height) (launched 4#8 s)
    have hcounters := tsaDone_countersAre (tiles_lt s.width) (tiles_lt s.height) (launched 4#8 s)
    obtain ⟨m, g, l, he⟩ := tsaDone_eq (s.width.toNat / 4) (s.height.toNat / 4) (launched 4#8 s)
    change ∃ t, Host.Outcome.next (complete (tsaDone (s.width.toNat / 4) (s.height.toNat / 4) (launched 4#8 s))) = _ ∧ _
    generalize tsaDone (s.width.toNat / 4) (s.height.toNat / 4) (launched 4#8 s) = u at htable hcounters he
    subst he
    exact ⟨_, rfl, htable, hcounters, fun b a => by cases b <;> rfl, rfl⟩

/-- The state a build that fits answers holds the table. -/
theorem scrambleIs_of_build {s t : State} (hidle : s.status.busy = false) (hw : s.width.toNat % 4 = 0)
    (hh : s.height.toNat % 4 = 0) (hcap : tiles s.width s.height ≤ s.params.scrCap)
    (hexec : exec .cmdBuildScramble s = .next t) :
    scrambleIs t (s.width.toNat / 4) (tiles s.width s.height) ∧
      countersAre t (scrAt (s.width.toNat / 4) (tiles s.width s.height)) := by
  obtain ⟨-, -, -, hfits⟩ := buildScrambleTable s hidle
  obtain ⟨u, hu, htable, hcounters, -⟩ := hfits hw hh hcap
  obtain rfl : u = t := Host.Outcome.next.inj (hu.symm.trans hexec)
  exact ⟨htable, hcounters⟩

/-- A position of a grid stands in a column. -/
theorem columns_pos {w h : Half} {i : Nat} (hi : i < tiles w h) : 0 < w.toNat / 4 :=
  Nat.pos_of_ne_zero fun hzero => by simp [tiles, hzero] at hi

/-- Settles O26. -/
theorem scrambleClosedFormEven : Obligations.ScrambleClosedFormEven := by
  unfold Obligations.ScrambleClosedFormEven
  intro s t hidle hw hh hcap hexec i hi tx
  obtain ⟨⟨-, htable⟩, -⟩ := scrambleIs_of_build hidle (by omega) hh hcap hexec
  rw [htable i hi]
  exact scrEntry_closed (columns_pos hi) (by omega) i

/-- Settles O27. -/
theorem scrambleEvenGridPermutes : Obligations.ScrambleEvenGridPermutes := by
  unfold Obligations.ScrambleEvenGridPermutes
  intro s t hidle hw hh hcap hexec
  obtain ⟨⟨-, htable⟩, -⟩ := scrambleIs_of_build hidle (by omega) (by omega) hcap hexec
  refine ⟨fun i hi => ?_, fun i hi j hj heq => ?_⟩
  · rw [htable i hi]
    exact scrEntry_lt (by omega) (by omega) hi
  · have hentries := congrArg BitVec.toNat heq
    rw [htable i hi, htable j hj] at hentries
    exact scrEntry_inj (columns_pos hi) (by omega) hentries

/-- Settles O28. -/
theorem scrambleEntryBound : Obligations.ScrambleEntryBound := by
  unfold Obligations.ScrambleEntryBound
  intro s t hidle hw hh hcap hexec tx n
  obtain ⟨htable, hcounters⟩ := scrambleIs_of_build hidle hw hh hcap hexec
  refine ⟨fun i hi => ?_, htable, hcounters, fun k _ => scrAt_le tx k, ?_⟩
  · rw [htable.2 i hi]
    exact scrEntry_le tx i
  · have := grid_lt (tiles_lt s.width) (tiles_lt s.height)
    show 3 * (s.width.toNat / 4 * (s.height.toNat / 4)) < 2 ^ 30
    omega

end Sys2Proof.Machine
end

section
/-! SUPPORT. What a run of ASM leaves: the intermediate image block by block, the table, the image tile by tile, or
SCR_RANGE at the least index outside the grid. -/

namespace Sys2Proof.Machine

open Sys2Proof Sys2Proof.Reference
open Sys2Proof.Config (BufName)

/-! ### Places in an image -/

/-- Two tiles of an image share no byte (R71). -/
theorem rowOffset_inj {w k k' r r' j j' : Nat} (hw : w % 4 = 0) (hpos : 0 < w) (hr : r < 4) (hr' : r' < 4) (hj : j < 16)
    (hj' : j' < 16) (h : rowOffset w (w / 4) k r + j = rowOffset w (w / 4) k' r' + j') : k = k' ∧ r = r' ∧ j = j' := by
  obtain ⟨n, rfl⟩ : ∃ n, w = 4 * n := ⟨w / 4, by omega⟩
  have hn : 4 * n / 4 = n := by omega
  have hoffset : ∀ k r, rowOffset (4 * n) n k r = 16 * (k % n + n * (4 * (k / n) + r)) := fun k r => by
    unfold rowOffset
    ring
  rw [hn, hoffset, hoffset] at h
  have hrow : k % n + n * (4 * (k / n) + r) = k' % n + n * (4 * (k' / n) + r') := by omega
  obtain ⟨hdiv, hmod⟩ := (Nat.div_mod_unique (by omega)).2 ⟨hrow, Nat.mod_lt k (by omega)⟩
  rw [Nat.add_mul_div_left _ _ (by omega), Nat.div_eq_of_lt (Nat.mod_lt _ (by omega)), Nat.zero_add] at hdiv
  rw [Nat.add_mul_mod_self_left, Nat.mod_mod] at hmod
  have hk : k / n = k' / n := by omega
  exact ⟨by rw [← Nat.div_add_mod k n, hk, ← hmod, Nat.div_add_mod], by omega, by omega⟩

/-- Where pixel `(X, Y)` of an image stands in the tiles of the image (R71). -/
theorem pixel_place {w X : Nat} (Y c : Nat) (hw : w % 4 = 0) (hX : X < w) :
    (Y * w + X) * 4 + c = rowOffset w (w / 4) (Y / 4 * (w / 4) + X / 4) (Y % 4) + (X % 4 * 4 + c) := by
  obtain ⟨n, rfl⟩ : ∃ n, w = 4 * n := ⟨w / 4, by omega⟩
  have hn : 4 * n / 4 = n := by omega
  have hcolumn : X / 4 < n := by omega
  have hdiv : (Y / 4 * n + X / 4) / n = Y / 4 := by
    rw [Nat.mul_comm, Nat.mul_add_div (by omega), Nat.div_eq_of_lt hcolumn, Nat.add_zero]
  have hmod : (Y / 4 * n + X / 4) % n = X / 4 := by
    rw [Nat.mul_comm, Nat.mul_add_mod, Nat.mod_eq_of_lt hcolumn]
  have hY := Nat.div_add_mod Y 4
  have hXsum := Nat.div_add_mod X 4
  rw [hn, rowOffset, hdiv, hmod, hY]
  omega

theorem tileIndex_lt {w h : Half} {X Y : Nat} (hw : w.toNat % 4 = 0) (hh : h.toNat % 4 = 0) (hX : X < w.toNat)
    (hY : Y < h.toNat) : Y / 4 * (w.toNat / 4) + X / 4 < tiles w h := by
  have hrow : Y / 4 + 1 ≤ h.toNat / 4 := by omega
  have hmul := Nat.mul_le_mul_right (w.toNat / 4) hrow
  rw [Nat.add_mul, Nat.one_mul, Nat.mul_comm (h.toNat / 4)] at hmul
  have hcolumn : X / 4 < w.toNat / 4 := by omega
  exact Nat.lt_of_lt_of_le (Nat.add_lt_add_left hcolumn _) hmul

/-- The image buffer `b` holds the tiles `tile i` in place `i` for every `i < n` (R71). -/
def TilesAre (t : State) (b : BufName) (w n : Nat) (tile : Nat → Nat → Nat → Nat → Byte) : Prop :=
  ∀ i < n, ∀ r < 4, ∀ j < 16, t.rd b (rowOffset w (w / 4) i r + j) = tile i (j / 4) r (j % 4)

/-- Tiles in place are an image, pixel by pixel. -/
theorem TilesAre.pixel {t : State} {b : BufName} {w h : Half} {tile : Nat → Nat → Nat → Nat → Byte}
    (ht : TilesAre t b w.toNat (tiles w h) tile) (hw : w.toNat % 4 = 0) (hh : h.toNat % 4 = 0) {X Y c : Nat}
    (hX : X < w.toNat) (hY : Y < h.toNat) (hc : c < 4) :
    t.rd b ((Y * w.toNat + X) * 4 + c) = tile (Y / 4 * (w.toNat / 4) + X / 4) (X % 4) (Y % 4) c := by
  rw [pixel_place Y c hw hX, ht _ (tileIndex_lt hw hh hX hY) _ (by omega) _ (by omega)]
  have hx : (X % 4 * 4 + c) / 4 = X % 4 := by omega
  have hbyte : (X % 4 * 4 + c) % 4 = c := by omega
  rw [hx, hbyte]

/-- One more tile, and no other tile touched. -/
theorem TilesAre.put {u t : State} {b : BufName} {w n : Nat} {tile : Nat → Nat → Nat → Nat → Byte}
    (hu : TilesAre u b w n tile) (hw : w % 4 = 0) (hpos : 0 < w)
    (hnew : ∀ r < 4, ∀ j < 16, t.rd b (rowOffset w (w / 4) n r + j) = tile n (j / 4) r (j % 4))
    (hother : ∀ a, (∀ r < 4, ∀ j < 16, a ≠ rowOffset w (w / 4) n r + j) → t.rd b a = u.rd b a) :
    TilesAre t b w (n + 1) tile := by
  intro i hi r hr j hj
  obtain hi' | rfl : i < n ∨ i = n := by omega
  · rw [hother _ fun r' hr' j' hj' heq => ?_, hu i hi' r hr j hj]
    obtain ⟨hsame, -⟩ := rowOffset_inj hw hpos hr hr' hj hj' heq
    omega
  · exact hnew r hr j hj

/-! ### A run -/

/-- The texture data of a run (R230). -/
def viewByte (p : AsmOperands) (s : State) (j : Nat) : Byte := s.rd p.buf (p.off + j)

/-- The views ASM is run on (R230): of IN or of OUT, from an offset its register holds. -/
structure AsmView (p : AsmOperands) : Prop where
  buf : p.buf = .IN ∨ p.buf = .OUT
  off : p.off < 2 ^ 32

/-- `u` is inside a run of ASM with the operands `p` that was started from `s`. -/
structure AsmRunning (s : State) (p : AsmOperands) (u : State) : Prop where
  frame : sansAsm u = sansAsm s
  code : u.errCode = s.errCode
  info : u.errInfo = s.errInfo
  seq : u.seq = s.seq
  imgW : u.imgW = s.imgW
  imgH : u.imgH = s.imgH
  w : u.asm.w = p.w
  h : u.asm.h = p.h
  alpha : u.asm.alpha = p.alpha
  n : u.asm.n.toNat = tiles p.w p.h
  tilesX : u.asm.tilesX.toNat = p.w.toNat / 4
  tilesY : u.asm.tilesY.toNat = p.h.toNat / 4
  tdBuf : u.asm.tdBuf = p.buf
  tdOff : u.asm.tdOff.toNat = p.off

/-- Byte `c` of pixel `(x, y)` of the tile of stored block `k`, in a run started from `s` (R238). -/
def storedByte (s : State) (p : AsmOperands) (k x y c : Nat) : Byte :=
  tileByte (viewByte p s) s.params.colorRev p.alpha k x y c

/-- STATUS after the first `k` blocks (R177). -/
def statusAfter (s : State) (p : AsmOperands) (k : Nat) : Status :=
  s.status.withDiffOvf (anyOverflow (viewByte p s) s.params.colorRev p.alpha k)

/-- The first `k` blocks of the run are decoded and stored (R234). -/
structure BlocksDone (s : State) (p : AsmOperands) (k : Nat) (u : State) : Prop extends AsmRunning s p u where
  place : u.asm.s.toNat = k
  hasAlpha : u.etc.hasAlpha = p.alpha
  status : u.status = statusAfter s p k
  stored : TilesAre u .IMG0 p.w.toNat k (storedByte s p)
  beyond : ∀ a, p.w.toNat * p.h.toNat * 4 ≤ a → u.rd .IMG0 a = s.rd .IMG0 a
  last : lastBlockIs s u (viewByte p s) s.params.colorRev p.alpha k

section Run

variable {s u : State} {p : AsmOperands} {k : Nat}

theorem AsmRunning.params (h : AsmRunning s p u) : u.params = s.params := (congrArg State.params h.frame :)

/-- A run does not write what it reads (R230). -/
theorem AsmRunning.tdByte (h : AsmRunning s p u) (hp : AsmView p) (j : Nat) : tdByte u j = viewByte p s j := by
  unfold Machine.tdByte viewByte
  rw [h.tdBuf, h.tdOff]
  obtain hbuf | hbuf := hp.buf <;> rw [hbuf]
  · exact (congrArg (fun v : State => v.rd .IN (p.off + j)) h.frame :)
  · exact (congrArg (fun v : State => v.rd .OUT (p.off + j)) h.frame :)

theorem BlocksDone.blockBase (h : BlocksDone s p k u) : blockBase u = k * blockSize p.alpha := by
  rw [Machine.blockBase, h.place, h.alpha]

/-- The colour half that is fetched (R233). -/
theorem BlocksDone.colourByte (h : BlocksDone s p k u) (hp : AsmView p) (j : Nat) :
    colourByte u j = blockColour (viewByte p s) s.params.colorRev p.alpha k j := by
  have hbase : colourBase u = if p.alpha then k * 16 + 8 else k * 8 := by
    rw [colourBase, h.blockBase, h.alpha]
    cases p.alpha <;> rfl
  rw [Machine.colourByte, h.params, hbase, h.toAsmRunning.tdByte hp, h.toAsmRunning.tdByte hp]
  rfl

theorem anyOverflow_succ (td : Nat → Byte) (rev alpha : Bool) (n : Nat) :
    anyOverflow td rev alpha (n + 1) = (anyOverflow td rev alpha n ||
      overflows (le32 (blockColour td rev alpha n 0) (blockColour td rev alpha n 1) (blockColour td rev alpha n 2)
        (blockColour td rev alpha n 3))) := by
  unfold anyOverflow
  rw [List.range_succ, List.any_append]
  simp

theorem statusAfter_succ (s : State) (p : AsmOperands) (n : Nat) :
    statusAfter s p (n + 1) = (statusAfter s p n).withDiffOvf (overflows
      (le32 (blockColour (viewByte p s) s.params.colorRev p.alpha n 0)
        (blockColour (viewByte p s) s.params.colorRev p.alpha n 1)
        (blockColour (viewByte p s) s.params.colorRev p.alpha n 2)
        (blockColour (viewByte p s) s.params.colorRev p.alpha n 3))) := by
  simp only [statusAfter, Status.withDiffOvf, anyOverflow_succ, Bool.or_assoc]

/-- The tile ETC makes of the fetched block (R234). -/
theorem BlocksDone.tile (h : BlocksDone s p k u) (hp : AsmView p) {x y c : Nat} (hx : x < 4) (hy : y < 4) (hc : c < 4) :
    (etcRun (asmFetch u)).rd .TILEOUT ((y * 4 + x) * 4 + c) = storedByte s p k x y c := by
  obtain ⟨hcblk, hablk, -⟩ := asmFetch_rd u
  have halpha : (asmFetch u).etc.hasAlpha = p.alpha := by
    obtain ⟨m, m', he, -⟩ := asmFetch_eq u
    rw [he]
    exact h.hasAlpha
  rw [etcRun_tile _ hx hy hc, blockTop, blockBottom, halpha]
  simp only [hcblk 0 (by omega), hcblk 1 (by omega), hcblk 2 (by omega), hcblk 3 (by omega), hcblk 4 (by omega),
    hcblk 5 (by omega), hcblk 6 (by omega), hcblk 7 (by omega), h.colourByte hp]
  refine pixelByte_congr _ _ (fun ha j hj => ?_) hx hy c
  rw [hablk (h.alpha.trans ha) j hj, h.toAsmRunning.tdByte hp, h.blockBase, ha]
  rfl

/-- DIFF_OVF after the fetched block. -/
theorem BlocksDone.etcStatus (h : BlocksDone s p k u) (hp : AsmView p) :
    (etcRun (asmFetch u)).status = statusAfter s p (k + 1) := by
  obtain ⟨hcblk, -, -⟩ := asmFetch_rd u
  have hstatus : (asmFetch u).status = statusAfter s p k := by
    obtain ⟨m, m', he, -⟩ := asmFetch_eq u
    rw [he]
    exact h.status
  rw [etcRun_status, blockTop, hstatus, statusAfter_succ]
  simp only [hcblk 0 (by omega), hcblk 1 (by omega), hcblk 2 (by omega), hcblk 3 (by omega), h.colourByte hp]

/-- One block of stage 1 writes TILEOUT's tile into IMG0, and keeps the bytes of CBLK, ABLK and TILEOUT (R234). -/
theorem asmBlock_rd (u : State) (hw : 4 ≤ u.asm.w.toNat) :
    (∀ r < 4, ∀ j < 16,
      (asmBlock u).rd .IMG0 (rowOffset u.asm.w.toNat u.asm.tilesX.toNat u.asm.s.toNat r + j) =
        (etcRun (asmFetch u)).rd .TILEOUT (r * 16 + j)) ∧
    (∀ a, (∀ r < 4, ∀ j < 16, a ≠ rowOffset u.asm.w.toNat u.asm.tilesX.toNat u.asm.s.toNat r + j) →
      (asmBlock u).rd .IMG0 a = u.rd .IMG0 a) ∧
    (∀ d a, d ≠ .IMG0 → (asmBlock u).rd d a = (etcRun (asmFetch u)).rd d a) := by
  have hasm : (etcRun (asmFetch u)).asm = u.asm := by
    obtain ⟨m, m', he, -⟩ := asmFetch_eq u
    obtain ⟨m'', e, v, he', -⟩ := etcRun_only (asmFetch u)
    rw [he', he]
  have himg : ∀ a, (etcRun (asmFetch u)).rd .IMG0 a = u.rd .IMG0 a := fun a =>
    (etcRun_rd (asmFetch u) (d := .IMG0) (.inl nofun)).trans ((asmFetch_rd u).2.2 .IMG0 a nofun nofun)
  unfold asmBlock
  generalize etcRun (asmFetch u) = v at hasm himg ⊢
  have hput := putTile_rd .IMG0 v.asm.s.toNat (fun r j => v.rd .TILEOUT (r * 16 + j)) v (by rw [hasm]; exact hw)
  have hstore : ∀ d a, (asmStore v).rd d a =
      (putTile .IMG0 v.asm.s.toNat (fun r j => v.rd .TILEOUT (r * 16 + j)) v).rd d a := fun d a => by
    unfold asmStore
    generalize putTile .IMG0 v.asm.s.toNat (fun r j => v.rd .TILEOUT (r * 16 + j)) v = v'
    cases d <;> rfl
  obtain ⟨hnew, hother⟩ := hput
  rw [hasm] at hnew hother hstore
  refine ⟨fun r hr j hj => (hstore _ _).trans (hnew r hr j hj), fun a ha => ?_, fun d a hd => ?_⟩
  · exact (hstore _ _).trans ((hother _ _ (.inr ha)).trans (himg a))
  · exact (hstore _ _).trans (hother _ _ (.inl hd))

/-- One more block (R234). -/
theorem BlocksDone.step (h : BlocksDone s p k u) (hp : AsmView p) (hw : p.w.toNat % 4 = 0) (hh : p.h.toNat % 4 = 0)
    (hk : k < tiles p.w p.h) : BlocksDone s p (k + 1) (asmBlock u) := by
  have hn : tiles p.w p.h < 2 ^ 28 := tileCount_lt p.w p.h
  have hcolumns := columns_pos hk
  obtain ⟨hnew, hother, hbytes⟩ := asmBlock_rd u (by rw [h.w]; omega)
  rw [h.w, h.tilesX, h.place] at hnew hother
  obtain ⟨hcblk, hablk, hfetch⟩ := asmFetch_rd u
  have hkeep : ∀ d a, d ≠ .IMG0 → d ≠ .TILEOUT → (asmBlock u).rd d a = (asmFetch u).rd d a := fun d a h0 h1 =>
    (hbytes d a h0).trans (etcRun_rd _ (.inl h1))
  have hstatus : (asmBlock u).status = (etcRun (asmFetch u)).status := by
    unfold asmBlock
    obtain ⟨m, he⟩ := asmStore_eq (etcRun (asmFetch u))
    rw [he]
  have hablkKept : p.alpha = false → (asmBlock u).ablk = u.ablk := fun ha => by
    obtain ⟨m, m', he, hm'⟩ := asmFetch_eq u
    obtain ⟨m'', e, v, he', -⟩ := etcRun_only (asmFetch u)
    obtain ⟨i, hi⟩ := asmStore_eq (etcRun (asmFetch u))
    unfold asmBlock
    rw [hi, he', he]
    exact hm' (h.alpha.trans ha)
  have hlast : lastBlockIs s (asmBlock u) (viewByte p s) s.params.colorRev p.alpha (k + 1) := by
    refine ⟨nofun, fun ha => (hablkKept ha).trans (h.last.2.1 ha), fun _ => ⟨fun j hj => ?_, fun ha j hj => ?_, ?_⟩⟩
    · rw [hkeep .CBLK j nofun nofun, hcblk j hj, h.colourByte hp, Nat.add_sub_cancel]
    · rw [hkeep .ABLK j nofun nofun, hablk (h.alpha.trans ha) j hj, h.toAsmRunning.tdByte hp, h.blockBase, ha,
        Nat.add_sub_cancel]
      rfl
    · intro x hx y hy c hc
      rw [hbytes .TILEOUT _ nofun, h.tile hp hx hy hc, Nat.add_sub_cancel]
      rfl
  have hstored : TilesAre (asmBlock u) .IMG0 p.w.toNat (k + 1) (storedByte s p) := by
    refine h.stored.put hw (by omega) (fun r hr j hj => ?_) hother
    have hplace : r * 16 + j = (r * 4 + j / 4) * 4 + j % 4 := by omega
    rw [hnew r hr j hj, hplace, h.tile hp (by omega) hr (by omega)]
  have hbeyond : ∀ a, p.w.toNat * p.h.toNat * 4 ≤ a → (asmBlock u).rd .IMG0 a = s.rd .IMG0 a := fun a ha => by
    refine (hother a fun r hr j hj heq => ?_).trans (h.beyond a ha)
    have := rowOffset_lt hw hh hk hr
    omega
  have hframe : sansAsm (asmBlock u) = sansAsm s := (sansAsm_asmBlocks 1 u).trans h.frame
  have hstatus' := hstatus.trans (h.etcStatus hp)
  obtain ⟨c, a, m, i, e, v, he, hea⟩ := asmBlock_eq u
  rw [he] at hlast hstored hbeyond hframe hstatus' ⊢
  refine ⟨⟨hframe, h.code, h.info, h.seq, h.imgW, h.imgH, h.w, h.h, h.alpha, h.n, h.tilesX, h.tilesY, h.tdBuf, h.tdOff⟩,
    ?_, hea.trans h.hasAlpha, hstatus', hstored, hbeyond, hlast⟩
  show (u.asm.s + 1#28).toNat = k + 1
  rw [BitVec.toNat_add, h.place]
  exact Nat.mod_eq_of_lt (show k + 1 < 2 ^ 28 by omega)

theorem BlocksDone.steps (h : BlocksDone s p 0 u) (hp : AsmView p) (hw : p.w.toNat % 4 = 0) (hh : p.h.toNat % 4 = 0)
    (n : Nat) (hn : n ≤ tiles p.w p.h) : BlocksDone s p n (asmBlock^[n] u) := by
  induction n with
  | zero => exact h
  | succ n ih =>
    rw [Function.iterate_succ_apply']
    exact (ih (by omega)).step hp hw hh hn

theorem asmBlock_iterate_index (n : Nat) (u : State) : (asmBlock^[n] u).asm.i = u.asm.i := by
  refine iterate_keeps (P := fun t => t.asm.i = u.asm.i) (fun v hv => ?_) n u rfl
  obtain ⟨c, a, m, i, e, v', he, -⟩ := asmBlock_eq v
  rw [he]
  exact hv

/-- The later stages write SCR, IMG1 and counters, nothing of stage 1's. -/
theorem BlocksDone.later (h : BlocksDone s p k u) (m : Memory 32) (g : TsaRegs) (l : Word) (m1 : Memory 8) (d : Nat)
    (r : BitVec 2) (i : BitVec 28) : BlocksDone s p k
      { u with scr := m, tsa := g, scrLen := l, img1 := m1, draws := d, asm := { u.asm with r := r, i := i } } :=
  ⟨⟨h.frame, h.code, h.info, h.seq, h.imgW, h.imgH, h.w, h.h, h.alpha, h.n, h.tilesX, h.tilesY, h.tdBuf, h.tdOff⟩,
    h.place, h.hasAlpha, h.status, h.stored, h.beyond, h.last⟩

/-- The first `k` tiles of the image are gathered (R236). -/
structure Gathered (s : State) (p : AsmOperands) (k : Nat) (u : State) : Prop extends
    BlocksDone s p (tiles p.w p.h) u where
  table : scrambleIs u (p.w.toNat / 4) (tiles p.w p.h)
  index : u.asm.i.toNat = k
  inGrid : ∀ i < k, scrEntry (p.w.toNat / 4) i < tiles p.w p.h
  image : TilesAre u .IMG1 p.w.toNat k fun i => storedByte s p (scrEntry (p.w.toNat / 4) i)

/-- One tile of stage 3 (R236, R237). -/
theorem Gathered.step (h : Gathered s p k u) (hw : p.w.toNat % 4 = 0) (hk : k < tiles p.w p.h) :
    (tiles p.w p.h ≤ scrEntry (p.w.toNat / 4) k ∧ asmGather u = .ended (scrRange u)) ∨
    ∃ t, asmGather u = .go t ∧ Gathered s p (k + 1) t := by
  have hn : tiles p.w p.h < 2 ^ 28 := tileCount_lt p.w p.h
  have hcolumns := columns_pos hk
  have hentry : (u.rdScr u.asm.i.toNat).toNat = scrEntry (p.w.toNat / 4) k := by rw [h.index]; exact h.table.2 k hk
  by_cases hin : tiles p.w p.h ≤ scrEntry (p.w.toNat / 4) k
  · exact .inl ⟨hin, if_pos (by rw [h.n, hentry]; exact hin)⟩
  · have hgo : asmGather u = _ := if_neg (by rw [h.n, hentry]; exact hin)
    rw [hentry, h.w, h.tilesX, h.index] at hgo
    have hput := putTile_rd .IMG1 k (fun r j => u.rd .IMG0
      (rowOffset p.w.toNat (p.w.toNat / 4) (scrEntry (p.w.toNat / 4) k) r + j)) u (by rw [h.w]; omega)
    obtain ⟨m, hm⟩ := putTile_eq .IMG1 k (fun r j => u.rd .IMG0
      (rowOffset p.w.toNat (p.w.toNat / 4) (scrEntry (p.w.toNat / 4) k) r + j)) u
    generalize putTile .IMG1 k (fun r j => u.rd .IMG0
      (rowOffset p.w.toNat (p.w.toNat / 4) (scrEntry (p.w.toNat / 4) k) r + j)) u = v at hgo hput hm
    rw [h.w, h.tilesX] at hput
    obtain ⟨hnew, hother⟩ := hput
    subst hm
    refine .inr ⟨_, hgo, (h.toBlocksDone.later u.scr u.tsa u.scrLen m u.draws 3#2 (u.asm.i + 1#28)), h.table, ?_, ?_, ?_⟩
    · show (u.asm.i + 1#28).toNat = k + 1
      rw [BitVec.toNat_add, h.index]
      exact Nat.mod_eq_of_lt (show k + 1 < 2 ^ 28 by omega)
    · intro i hi
      obtain hi' | rfl : i < k ∨ i = k := by omega
      · exact h.inGrid i hi'
      · omega
    · refine h.image.put hw (by omega) (fun r hr j hj => ?_) fun a ha => hother .IMG1 a (.inr ha)
      exact (hnew r hr j hj).trans (h.stored _ (by omega) r hr j hj)

/-- All of stage 3: the whole image, or SCR_RANGE at the least index outside the grid (R236, R237). -/
theorem Gathered.ends (h : Gathered s p k u) (hw : p.w.toNat % 4 = 0) (n : Nat) (hn : k + n = tiles p.w p.h) :
    (∃ t, Flow.times asmGather n u = .go t ∧ Gathered s p (tiles p.w p.h) t) ∨
    ∃ i t, leastOutside p.w p.h i ∧ Flow.times asmGather n u = .ended (scrRange t) ∧ Gathered s p i t := by
  induction n generalizing k u with
  | zero =>
    rw [Nat.add_zero] at hn
    exact .inl ⟨u, rfl, hn ▸ h⟩
  | succ n ih =>
    rw [Flow.times_succ]
    obtain ⟨hout, hended⟩ | ⟨t, hgo, ht⟩ := h.step hw (by omega)
    · rw [hended]
      exact .inr ⟨k, u, ⟨by omega, hout, h.inGrid⟩, rfl, h⟩
    · rw [hgo, Flow.go_andThen]
      exact ih ht (by omega)

/-- A run whose checks passed stands before its first block (R230). -/
theorem blocksDone_start (s : State) (hp : AsmView p) : BlocksDone s p 0 (withAlpha p.alpha (asmLatch p s)) := by
  obtain ⟨hn, hx, hy⟩ := asmLatch_regs p s
  have hoff : (BitVec.ofNat 32 p.off).toNat = p.off := Nat.mod_eq_of_lt hp.off
  have hstatus : s.status = statusAfter s p 0 := by
    rw [statusAfter, Status.withDiffOvf]
    simp [anyOverflow]
  exact ⟨⟨rfl, rfl, rfl, rfl, rfl, rfl, rfl, rfl, rfl, hn, hx, hy, rfl, hoff⟩, rfl, rfl, hstatus, nofun, fun _ _ => rfl,
    fun _ => ⟨rfl, rfl, rfl⟩, fun _ => rfl, nofun⟩

end Run

end Sys2Proof.Machine
end

section
/-! SUPPORT. What a whole run of ASM leaves, and the commands that end in one. -/

namespace Sys2Proof.Machine

open Sys2Proof Sys2Proof.Reference
open Sys2Proof.Config (BufName)

/-! ### The checks -/

section Checks

variable {s : State} {p : AsmOperands}

/-- The start of a run by the reference's first failing check (R231, R232). -/
theorem asmStart_check {code : Byte} {info : Nat} (h : checkFault s p.w p.h p.alpha p.len = some (code, info)) :
    asmStart p s = .ended (faulted code (BitVec.ofNat 32 info) (asmLatch p s)) := by
  unfold checkFault at h
  split_ifs at h with h1 h2 h3 h4 h5 <;> cases h
  · exact if_pos h1
  · exact (if_neg h1).trans (if_pos h2)
  · exact (if_neg h1).trans ((if_neg h2).trans (if_pos h3))
  · exact (if_neg h1).trans ((if_neg h2).trans ((if_neg h3).trans (if_pos h4)))
  · exact (if_neg h1).trans ((if_neg h2).trans ((if_neg h3).trans ((if_neg h4).trans (if_pos h5))))

theorem asmRun_check {code : Byte} {info : Nat} (h : checkFault s p.w p.h p.alpha p.len = some (code, info)) :
    asmRun p s = .ended (faulted code (BitVec.ofNat 32 info) (asmLatch p s)) := by
  rw [asmRun, asmStart_check h, Flow.ended_andThen]

theorem asmStart_fits (h : fits s p.w p.h p.alpha p.len) : asmStart p s = .go (withAlpha p.alpha (asmLatch p s)) := by
  obtain ⟨h1, h2, h3, h4, h5⟩ := h
  exact (if_neg (not_not.2 h1)).trans ((if_neg (not_not.2 h2)).trans ((if_neg (not_lt.2 h3)).trans
    ((if_neg (not_lt.2 h4)).trans (if_neg (not_lt.2 h5)))))

/-- A run whose checks pass: the whole image, or SCR_RANGE at the least index outside the grid (R234 to R238). -/
theorem asmRun_ends (hp : AsmView p) (hfits : fits s p.w p.h p.alpha p.len) :
    (∃ t, asmRun p s = .go (asmEnd t) ∧ Gathered s p (tiles p.w p.h) t) ∨
    ∃ i t, leastOutside p.w p.h i ∧ asmRun p s = .ended (scrRange t) ∧ Gathered s p i t := by
  obtain ⟨hw, hh, -, hscr, -⟩ := id hfits
  have hstart := blocksDone_start s hp
  rw [asmRun, asmStart_fits hfits, Flow.go_andThen, asmStages, hstart.n, hstart.tilesX, hstart.tilesY]
  have hblocks := hstart.steps hp hw hh _ le_rfl
  have hindex : (asmBlock^[tiles p.w p.h] (withAlpha p.alpha (asmLatch p s))).asm.i = 0#28 := asmBlock_iterate_index _ _
  generalize asmBlock^[tiles p.w p.h] (withAlpha p.alpha (asmLatch p s)) = u at hblocks hindex ⊢
  rw [tsaRun_fits (tiles_lt _) (tiles_lt _) (by rw [hblocks.toAsmRunning.params]; exact hscr), Flow.go_andThen]
  have htable := tsaDone_scrambleIs (tiles_lt p.w) (tiles_lt p.h) u
  obtain ⟨m, g, l, hbuilt⟩ := tsaDone_eq (p.w.toNat / 4) (p.h.toNat / 4) u
  generalize tsaDone (p.w.toNat / 4) (p.h.toNat / 4) u = v at htable hbuilt ⊢
  subst hbuilt
  have hbegun : Gathered s p 0 (beginGather { u with scr := m, tsa := g, scrLen := l, draws := u.draws + 1 }) :=
    ⟨hblocks.later m g l _ _ u.asm.r u.asm.i, htable, congrArg BitVec.toNat hindex, nofun, nofun⟩
  have hn : ({ u with scr := m, tsa := g, scrLen := l, draws := u.draws + 1 } : State).asm.n.toNat = tiles p.w p.h :=
    hblocks.n
  rw [hn]
  obtain ⟨t, he, ht⟩ | ⟨i, t, hi, he, ht⟩ := hbegun.ends hw _ (Nat.zero_add _) <;> rw [he]
  · exact .inl ⟨t, rfl, ht⟩
  · exact .inr ⟨i, t, hi, rfl, ht⟩

end Checks

/-! ### What a run leaves -/

section Leaves

variable {s t : State} {p : AsmOperands}

theorem Gathered.intermediateIs {i : Nat} (h : Gathered s p i t) (hw : p.w.toNat % 4 = 0) (hh : p.h.toNat % 4 = 0) :
    intermediateIs s t (viewByte p s) s.params.colorRev p.alpha p.w p.h :=
  ⟨fun _ hX _ hY _ hc => h.stored.pixel hw hh hX hY hc, h.beyond⟩

/-- The result of a completed run (R238). -/
theorem Gathered.assembled (h : Gathered s p (tiles p.w p.h) t) (hw : p.w.toNat % 4 = 0) (hh : p.h.toNat % 4 = 0) :
    assembled s (asmEnd t) (viewByte p s) s.params.colorRev p.alpha p.w p.h :=
  ⟨⟨h.w, h.h, fun _ hX _ hY _ hc => h.image.pixel hw hh hX hY hc⟩, h.table, h.intermediateIs hw hh, h.last⟩

/-- What SCR_RANGE leaves (R237, R297). -/
theorem Gathered.scrRangeEnded {i : Nat} (h : Gathered s p i t) (hw : p.w.toNat % 4 = 0) (hh : p.h.toNat % 4 = 0) :
    scrRangeEnded s (scrRange t) (viewByte p s) s.params.colorRev p.alpha p.w p.h i := by
  obtain ⟨m1, m2, m3, m4, d, he⟩ := scrRange_eq t
  have hinter := h.intermediateIs hw hh
  rw [he, h.index]
  exact ⟨rfl, rfl, h.table, hinter, h.imgW, h.imgH⟩

theorem scrRange_status (t : State) : (scrRange t).status = t.status.faulted := by
  obtain ⟨m1, m2, m3, m4, d, he⟩ := scrRange_eq t
  rw [he]
  rfl

/-- A completed run of ASM, as the command that ends in it leaves it. -/
structure AsmCompleted (s : State) (p : AsmOperands) (t : State) : Prop where
  status : t.status = (statusAfter s p (tiles p.w p.h)).completed
  code : t.errCode = s.errCode
  info : t.errInfo = s.errInfo
  result : assembled s t (viewByte p s) s.params.colorRev p.alpha p.w p.h

/-- A run that SCR_RANGE ended at index `i`. -/
structure AsmOutside (s : State) (p : AsmOperands) (i : Nat) (t : State) : Prop where
  status : t.status = (statusAfter s p (tiles p.w p.h)).faulted
  result : scrRangeEnded s t (viewByte p s) s.params.colorRev p.alpha p.w p.h i

theorem asmRun_completes (hp : AsmView p) (hfits : fits s p.w p.h p.alpha p.len) (hgrid : tableInGrid p.w p.h) :
    AsmCompleted s p (finish (asmRun p s)) := by
  obtain ⟨t, he, ht⟩ | ⟨i, t, ⟨hi, hout, -⟩, -⟩ := asmRun_ends hp hfits
  · rw [he, finish_go]
    exact ⟨congrArg Status.completed ht.status, ht.code, ht.info, ht.assembled hfits.1 hfits.2.1⟩
  · exact absurd (hgrid i hi) (not_lt.2 hout)

/-- The least index outside the grid is unique. -/
theorem leastOutside_unique {w h : Half} {i j : Nat} (hi : leastOutside w h i) (hj : leastOutside w h j) : i = j := by
  obtain ⟨-, hiout, hibelow⟩ := hi
  obtain ⟨-, hjout, hjbelow⟩ := hj
  obtain hlt | heq | hgt := lt_trichotomy i j
  · exact absurd (hjbelow i hlt) (not_lt.2 hiout)
  · exact heq
  · exact absurd (hibelow j hgt) (not_lt.2 hjout)

theorem asmRun_outside (hp : AsmView p) (hfits : fits s p.w p.h p.alpha p.len) {i : Nat} (hi : leastOutside p.w p.h i) :
    AsmOutside s p i (finish (asmRun p s)) := by
  obtain ⟨t, -, ht⟩ | ⟨j, t, hj, he, ht⟩ := asmRun_ends hp hfits
  · exact absurd (ht.inGrid i hi.1) (not_lt.2 hi.2.1)
  · obtain rfl := leastOutside_unique hi hj
    rw [he, finish_ended]
    exact ⟨(scrRange_status t).trans (congrArg Status.faulted ht.status), ht.scrRangeEnded hfits.1 hfits.2.1⟩

end Leaves

/-! ### What the result depends on -/

section Congr

variable {td td' : Nat → Byte} {alpha : Bool}

theorem blockColour_congr {n : Nat} (h : ∀ j < n * perBlock alpha, td j = td' j) (rev : Bool) {k j : Nat} (hk : k < n)
    (hj : j < 8) : blockColour td rev alpha k j = blockColour td' rev alpha k j := by
  have hblock : k * perBlock alpha + perBlock alpha ≤ n * perBlock alpha := by
    rw [← Nat.succ_mul]
    exact Nat.mul_le_mul_right _ hk
  unfold blockColour
  cases alpha <;> cases rev <;> exact h _ (by simp only [perBlock, if_true, if_false, Bool.false_eq_true] at *; omega)

/-- A tile depends on the bytes of its block only (R233). -/
theorem tileByte_congr {n : Nat} (h : ∀ j < n * perBlock alpha, td j = td' j) (rev : Bool) {k x y : Nat} (hk : k < n)
    (hx : x < 4) (hy : y < 4) (c : Nat) : tileByte td rev alpha k x y c = tileByte td' rev alpha k x y c := by
  unfold tileByte
  simp (disch := omega) only [blockColour_congr h rev hk]
  refine pixelByte_congr _ _ (fun ha j hj => h _ ?_) hx hy c
  have hblock := Nat.mul_le_mul_right 16 (show k + 1 ≤ n from hk)
  rw [ha, perBlock, if_pos rfl]
  omega

theorem anyOverflow_congr {n : Nat} (h : ∀ j < n * perBlock alpha, td j = td' j) (rev : Bool) :
    anyOverflow td rev alpha n = anyOverflow td' rev alpha n := by
  unfold anyOverflow
  rw [Bool.eq_iff_iff, List.any_eq_true, List.any_eq_true]
  refine exists_congr fun k => and_congr_right fun hk => ?_
  simp (disch := omega) only [blockColour_congr h rev (List.mem_range.1 hk)]

variable {s s' t : State} {w h : Half} {rev : Bool}

theorem intermediateIs_congr (htd : ∀ j < tiles w h * perBlock alpha, td j = td' j) (hs : s.img0 = s'.img0)
    (hw : w.toNat % 4 = 0) (hh : h.toNat % 4 = 0) (hi : intermediateIs s t td rev alpha w h) :
    intermediateIs s' t td' rev alpha w h := by
  refine ⟨fun X hX Y hY c hc => ?_, fun a ha => ?_⟩
  · rw [hi.1 X hX Y hY c hc]
    exact tileByte_congr htd rev (tileIndex_lt hw hh hX hY) (by omega) (by omega) c
  · rw [hi.2 a ha, State.rd, State.rd, State.buf, State.buf, hs]

theorem lastBlockIs_congr {n : Nat} (htd : ∀ j < n * perBlock alpha, td j = td' j) (hs : imageSideKept s' s)
    (hl : lastBlockIs s t td rev alpha n) : lastBlockIs s' t td' rev alpha n := by
  obtain ⟨-, -, -, -, -, -, hcblk, hablk, htile⟩ := hs
  obtain ⟨hnone, hopaque, hlast⟩ := hl
  refine ⟨fun hn => ?_, fun ha => (hopaque ha).trans hablk, fun hn => ?_⟩
  · obtain ⟨h1, h2, h3⟩ := hnone hn
    exact ⟨h1.trans hcblk, h2.trans hablk, h3.trans htile⟩
  · obtain ⟨hc, ha, ht⟩ := hlast hn
    refine ⟨fun j hj => ?_, fun halpha j hj => ?_, fun x hx y hy c hc => ?_⟩
    · rw [hc j hj, blockColour_congr htd rev (by omega) hj]
    · have hblock := Nat.mul_le_mul_right 16 (show n - 1 + 1 ≤ n by omega)
      rw [ha halpha j hj, htd]
      rw [halpha, perBlock, if_pos rfl]
      omega
    · rw [ht x hx y hy c hc, tileByte_congr htd rev (by omega) hx hy]

/-- A result depends on the bytes of its blocks, and on the state before it through the image side only. -/
theorem assembled_congr (htd : ∀ j < tiles w h * perBlock alpha, td j = td' j) (hs : imageSideKept s' s)
    (hw : w.toNat % 4 = 0) (hh : h.toNat % 4 = 0) (hgrid : tableInGrid w h) (ha : assembled s t td rev alpha w h) :
    assembled s' t td' rev alpha w h := by
  obtain ⟨⟨hiw, hih, himage⟩, htable, hinter, hlast⟩ := ha
  refine ⟨⟨hiw, hih, fun X hX Y hY c hc => ?_⟩, htable, intermediateIs_congr htd hs.1 hw hh hinter,
    lastBlockIs_congr htd hs hlast⟩
  rw [himage X hX Y hY c hc]
  exact tileByte_congr htd rev (hgrid _ (tileIndex_lt hw hh hX hY)) (by omega) (by omega) c

theorem scrRangeEnded_congr (htd : ∀ j < tiles w h * perBlock alpha, td j = td' j) (hs : imageSideKept s' s)
    (hw : w.toNat % 4 = 0) (hh : h.toNat % 4 = 0) {i : Nat} (he : scrRangeEnded s t td rev alpha w h i) :
    scrRangeEnded s' t td' rev alpha w h i := by
  obtain ⟨hcode, hinfo, htable, hinter, hiw, hih⟩ := he
  obtain ⟨himg0, -, -, -, himgW, himgH, -⟩ := hs
  exact ⟨hcode, hinfo, htable, intermediateIs_congr htd himg0 hw hh hinter, hiw.trans himgW, hih.trans himgH⟩

end Congr

/-! ### CMD.DECODE_TEX -/

/-- The run of CMD.DECODE_TEX on the launched state. -/
def texRun (s : State) : Flow := asmRun (operandsOfIn s) (acknowledge 5#8 s)

theorem exec_cmdDecodeTex {s : State} (hidle : s.status.busy = false) (hcap : s.inLen.toNat ≤ s.params.inCap.toNat) :
    exec .cmdDecodeTex s = .next (finish (texRun s)) :=
  congrArg Host.Outcome.next
    (command_of_launch hidle ((launch_reading s rfl rfl rfl).trans (if_neg (not_lt.2 hcap))))

theorem asmView_in (s : State) : AsmView (operandsOfIn s) := ⟨.inl rfl, by norm_num [operandsOfIn]⟩

theorem viewByte_in (s : State) (c : Byte) (j : Nat) : viewByte (operandsOfIn s) (acknowledge c s) j = s.rd .IN j :=
  congrArg (s.rd .IN) (Nat.zero_add j)

/-- What ASM's part leaves alone, but for CMD and the record (R255). -/
theorem onlyImageSide_of_sansAsm {c : Byte} {s t : State} (h : sansAsm t = sansAsm (acknowledge c s))
    (hseq : t.seq = .idle) : onlyImageSide s t := by
  have hcmd : t.cmd = c := (congrArg State.cmd h :)
  unfold onlyImageSide
  rw [hcmd, ← hseq]
  exact (congrArg (fun u : State => { u with
    status := t.status, errCode := t.errCode, errInfo := t.errInfo, scrLen := t.scrLen
    imgW := t.imgW, imgH := t.imgH, etc := t.etc, tsa := t.tsa, asm := t.asm, cblk := t.cblk, ablk := t.ablk
    tileout := t.tileout, img0 := t.img0, img1 := t.img1, scr := t.scr, seq := t.seq, draws := t.draws }) h :)

/-- The block is idle after a command (R24, R260). -/
theorem command_seq (c : Byte) {s : State} (hidle : s.status.busy = false) :
    (command c (commandBody c) s).seq = .idle := by
  obtain h | h := command_ends c hidle
  · exact h.seq
  · exact h.seq

theorem tex_onlyImageSide {s : State} (hidle : s.status.busy = false) (hcap : s.inLen.toNat ≤ s.params.inCap.toNat) :
    onlyImageSide s (finish (texRun s)) := by
  have hcommand : command 5#8 (commandBody 5#8) s = finish (texRun s) := Host.Outcome.next.inj (exec_cmdDecodeTex hidle hcap)
  rw [← hcommand]
  exact onlyImageSide_of_sansAsm (decodeTex_sansAsm hidle) (command_seq 5#8 hidle)

theorem asmLatch_eq_started (p : AsmOperands) (s : State) (len : Word) (hlen : p.len = len.toNat) :
    asmLatch p s = { s with asm := asmStarted p.w p.h p.alpha p.buf p.off len } := by
  have hword : BitVec.ofNat 32 p.len = len := by rw [hlen, BitVec.ofNat_toNat, BitVec.setWidth_eq]
  rw [asmLatch, hword]
  rfl

/-- Settles O29: the launch's capacity check, then ASM's checks by the reference's order. -/
theorem decodeTexChecks : Obligations.DecodeTexChecks := by
  unfold Obligations.DecodeTexChecks
  intro s hidle s1 s2 n
  have hcheck : ∀ code info, s.inLen.toNat ≤ s.params.inCap.toNat →
      checkFault s s.width s.height s.hasAlpha s.inLen.toNat = some (code, info) →
      exec .cmdDecodeTex s = .next (faulted code (BitVec.ofNat 32 info) s2) := fun code info hcap hc => by
    rw [exec_cmdDecodeTex hidle hcap, texRun, asmRun_check (p := operandsOfIn s) (s := acknowledge 5#8 s) hc,
      asmLatch_eq_started _ _ s.inLen rfl, finish_ended]
    rfl
  have hlen : BitVec.ofNat 32 s.inLen.toNat = s.inLen := by rw [BitVec.ofNat_toNat, BitVec.setWidth_eq]
  refine ⟨fun hcap => (inputCapacityAtLaunch s hidle hcap).2.1, fun hcap hw => hcheck _ _ hcap (if_pos hw),
    fun hcap hw hh => hcheck _ _ hcap ((if_neg (not_not.2 hw)).trans (if_pos hh)),
    fun hcap hw hh => ⟨fun himg => ?_, fun himg hscr => ?_, fun himg hscr hlong => ?_⟩⟩
  · exact hcheck _ _ hcap ((if_neg (not_not.2 hw)).trans ((if_neg (not_not.2 hh)).trans (if_pos himg)))
  · exact hcheck _ _ hcap ((if_neg (not_not.2 hw)).trans ((if_neg (not_not.2 hh)).trans
      ((if_neg (not_lt.2 himg)).trans (if_pos hscr))))
  · rw [hcheck _ _ hcap ((if_neg (not_not.2 hw)).trans ((if_neg (not_not.2 hh)).trans
      ((if_neg (not_lt.2 himg)).trans ((if_neg (not_lt.2 hscr)).trans (if_pos hlong))))), hlen]

/-- DIFF_OVF of a run from a launch (R177, R250). -/
theorem statusAfter_of_view {s : State} {p : AsmOperands} {td : Nat → Byte}
    (htd : ∀ j < tiles p.w p.h * perBlock p.alpha, viewByte p s j = td j) :
    statusAfter s p (tiles p.w p.h) =
      s.status.withDiffOvf (anyOverflow td s.params.colorRev p.alpha (tiles p.w p.h)) := by
  rw [statusAfter, anyOverflow_congr htd]

theorem imageSideKept_acknowledge (c : Byte) (s : State) : imageSideKept s (acknowledge c s) :=
  ⟨rfl, rfl, rfl, rfl, rfl, rfl, rfl, rfl, rfl⟩

/-- Settles O30. -/
theorem decodeTexImage : Obligations.DecodeTexImage := by
  unfold Obligations.DecodeTexImage
  intro s hidle hcap hfits hgrid td
  have hview : ∀ j < tiles s.width s.height * perBlock s.hasAlpha,
      viewByte (operandsOfIn s) (acknowledge 5#8 s) j = td j := fun j _ => viewByte_in s 5#8 j
  have hrun : AsmCompleted (acknowledge 5#8 s) (operandsOfIn s) (finish (texRun s)) :=
    asmRun_completes (s := acknowledge 5#8 s) (asmView_in s) hfits hgrid
  have hside := tex_onlyImageSide hidle hcap
  have hcmd : (finish (texRun s)).cmd = 5#8 := by
    have hcommand : command 5#8 (commandBody 5#8) s = finish (texRun s) :=
      Host.Outcome.next.inj (exec_cmdDecodeTex hidle hcap)
    rw [← hcommand]
    exact (congrArg State.cmd (decodeTex_sansAsm hidle) :)
  refine ⟨_, exec_cmdDecodeTex hidle hcap, ?_, hrun.code, hrun.info, hcmd, ?_, hside⟩
  · rw [hrun.status, statusAfter_of_view hview]
    rfl
  · exact assembled_congr hview (imageSideKept_acknowledge 5#8 s) hfits.1 hfits.2.1 hgrid hrun.result

/-- Settles O31. -/
theorem decodeTexScrRange : Obligations.DecodeTexScrRange := by
  unfold Obligations.DecodeTexScrRange
  intro s i hidle hcap hfits hi td
  have hview : ∀ j < tiles s.width s.height * perBlock s.hasAlpha,
      viewByte (operandsOfIn s) (acknowledge 5#8 s) j = td j := fun j _ => viewByte_in s 5#8 j
  have hrun : AsmOutside (acknowledge 5#8 s) (operandsOfIn s) i (finish (texRun s)) :=
    asmRun_outside (s := acknowledge 5#8 s) (asmView_in s) hfits hi
  have hcmd : (finish (texRun s)).cmd = 5#8 := by
    have hcommand : command 5#8 (commandBody 5#8) s = finish (texRun s) :=
      Host.Outcome.next.inj (exec_cmdDecodeTex hidle hcap)
    rw [← hcommand]
    exact (congrArg State.cmd (decodeTex_sansAsm hidle) :)
  refine ⟨_, exec_cmdDecodeTex hidle hcap, hcmd, ?_, ?_, tex_onlyImageSide hidle hcap⟩
  · rw [hrun.status, statusAfter_of_view hview]
    rfl
  · exact scrRangeEnded_congr hview (imageSideKept_acknowledge 5#8 s) hfits.1 hfits.2.1 hrun.result

/-- Settles O32: on a grid with both sides even the table lies in the grid. -/
theorem decodeTexEvenGridCompletes : Obligations.DecodeTexEvenGridCompletes := by
  unfold Obligations.DecodeTexEvenGridCompletes
  intro s hidle hcap hw hh hfits
  have hgrid : tableInGrid s.width s.height := fun i hi => scrEntry_lt (by omega) (by omega) hi
  obtain ⟨t, hexec, hstatus, -, -, -, ⟨⟨hiw, hih, -⟩, -⟩, -⟩ := decodeTexImage s hidle hcap hfits hgrid
  exact ⟨t, hexec, hstatus, hiw, hih⟩

end Sys2Proof.Machine
end

section
/-! SUPPORT. The commands that decompress first: the payload in OUT, its header, and ASM on it. -/

namespace Sys2Proof.Machine

open Sys2Proof Sys2Proof.Reference
open Sys2Proof.Config (BufName)

/-! ### The decompressed stream -/

/-- LZD has completed with the output `out`, started from `s`. -/
structure Decompressed (s : State) (out : List Byte) (t : State) : Prop where
  frame : sansLzd t = sansLzd s
  output : outputIs t out
  status : t.status = s.status
  code : t.errCode = s.errCode
  info : t.errInfo = s.errInfo
  seq : t.seq = s.seq

/-- LZD has ended in a fault, started from `s`. -/
structure StreamFault (s : State) (code : Byte) (info : Nat) (out : List Byte) (t : State) : Prop where
  frame : sansLzd t = sansLzd s
  output : outputIs t out
  status : t.status = s.status.faulted
  code : t.errCode = code
  info : t.errInfo = BitVec.ofNat 32 info

section Stream

variable {s : State} {out : List Byte}

theorem lzdRun_done (h : lz s.params.outCap.toNat (stream s) = .done out) :
    ∃ t, lzdRun s = .go t ∧ Decompressed s out t := by
  have hends := lzdRun_ends s
  have hframe := sansLzd_lzdRun s
  rw [h] at hends
  cases hrun : lzdRun s with
  | go t =>
    rw [hrun] at hends hframe
    obtain ⟨hout, -, hstatus, hcode, hinfo, hseq⟩ := hends
    exact ⟨t, rfl, hframe, hout, hstatus, hcode, hinfo, hseq⟩
  | ended t =>
    rw [hrun] at hends
    exact hends.elim

theorem lzdRun_fault {code : Byte} {info : Nat} (h : lz s.params.outCap.toNat (stream s) = .fault code info out) :
    ∃ t, lzdRun s = .ended t ∧ StreamFault s code info out t := by
  have hends := lzdRun_ends s
  have hframe := sansLzd_lzdRun s
  rw [h] at hends
  cases hrun : lzdRun s with
  | go t =>
    rw [hrun] at hends
    exact hends.elim
  | ended t =>
    rw [hrun] at hends hframe
    obtain ⟨hout, hstatus, hcode, hinfo, -⟩ := hends
    exact ⟨t, rfl, hframe, hout, hstatus, hcode, hinfo⟩

theorem Decompressed.params {t : State} (h : Decompressed s out t) : t.params = s.params :=
  (congrArg State.params h.frame :)

theorem imageSideKept_of_sansLzd {s t : State} (h : sansLzd t = sansLzd s) : imageSideKept s t :=
  imageSideKept_of_sansPayload (congrArg sansHdr h)

end Stream

theorem sansAsm_finish_asmRun (p : AsmOperands) (s : State) : sansAsm (finish (asmRun p s)) = sansAsm s := by
  have hframe : (asmRun p s).both fun t => sansAsm t = sansAsm s := sansAsm_asmRun p s
  exact both_finish (P := fun t => sansAsm t = sansAsm s) hframe fun _ ht => ht

/-- ASM and completion leave OUT alone. -/
theorem outputIs_asm {s : State} {out : List Byte} (h : outputIs s out) (p : AsmOperands) :
    outputIs (finish (asmRun p s)) out := by
  have hframe := sansAsm_finish_asmRun p s
  exact outputIs_congr h (congrArg State.outLen hframe :) (congrArg State.outBuf hframe :)

/-- A check that ends a run leaves the image side alone (log 20). -/
theorem imageSideKept_asmLatch (code : Byte) (info : Word) (p : AsmOperands) (s : State) :
    imageSideKept s (faulted code info (asmLatch p s)) :=
  ⟨rfl, rfl, rfl, rfl, rfl, rfl, rfl, rfl, rfl⟩

theorem imageSideKept_trans {s t u : State} (h : imageSideKept s t) (h' : imageSideKept t u) : imageSideKept s u := by
  obtain ⟨h1, h2, h3, h4, h5, h6, h7, h8, h9⟩ := h
  obtain ⟨k1, k2, k3, k4, k5, k6, k7, k8, k9⟩ := h'
  exact ⟨k1.trans h1, k2.trans h2, k3.trans h3, k4.trans h4, k5.trans h5, k6.trans h6, k7.trans h7, k8.trans h8,
    k9.trans h9⟩

/-! ### CMD.DECODE_RAW with RAW_LZ = 1 -/

/-- What LZD's and ASM's parts leave alone, but for CMD and the record (R257). -/
theorem onlyImageSide_of_sansLzdAsm {c : Byte} {s t : State}
    (h : sansAsm (sansLzd t) = sansAsm (sansLzd (acknowledge c s))) (hseq : t.seq = .idle) :
    onlyImageSide { s with outBuf := t.outBuf, outLen := t.outLen, lzd := t.lzd } t := by
  have hcmd : t.cmd = c := (congrArg State.cmd h :)
  unfold onlyImageSide
  rw [hcmd, ← hseq]
  exact (congrArg (fun u : State => { u with
    status := t.status, errCode := t.errCode, errInfo := t.errInfo, scrLen := t.scrLen
    imgW := t.imgW, imgH := t.imgH, etc := t.etc, tsa := t.tsa, asm := t.asm, cblk := t.cblk, ablk := t.ablk
    tileout := t.tileout, img0 := t.img0, img1 := t.img1, scr := t.scr, seq := t.seq, draws := t.draws
    outBuf := t.outBuf, outLen := t.outLen, lzd := t.lzd }) h :)

section Raw

variable {s : State}

/-- The run of CMD.DECODE_RAW on the launched state. -/
theorem exec_cmdDecodeRaw (hidle : s.status.busy = false) (hcap : s.inLen.toNat ≤ s.params.inCap.toNat)
    (hraw : s.ctrl.rawLz = true) : exec .cmdDecodeRaw s =
      .next (finish ((lzdRun (acknowledge 7#8 s)).andThen fun t => asmRun (operandsOfOut t) t)) := by
  have hbody : rawRun (acknowledge 7#8 s) = (lzdRun (acknowledge 7#8 s)).andThen fun t => asmRun (operandsOfOut t) t :=
    if_pos hraw
  rw [← hbody]
  exact congrArg Host.Outcome.next
    (command_of_launch hidle ((launch_reading s rfl rfl rfl).trans (if_neg (not_lt.2 hcap))))

theorem decodeRaw_kept (hidle : s.status.busy = false) {t : State} (hexec : exec .cmdDecodeRaw s = .next t) :
    t.cmd = 7#8 ∧ onlyImageSide { s with outBuf := t.outBuf, outLen := t.outLen, lzd := t.lzd } t := by
  obtain rfl : command 7#8 rawRun s = t := Host.Outcome.next.inj hexec
  have hframe := decodeRaw_sansLzdAsm hidle
  exact ⟨(congrArg State.cmd hframe :), onlyImageSide_of_sansLzdAsm hframe (command_seq 7#8 hidle)⟩

/-- The operands of CMD.DECODE_RAW with RAW_LZ = 1 on the output `out` (R257). -/
def rawOperands (s : State) (out : List Byte) : AsmOperands :=
  { w := s.width, h := s.height, alpha := s.hasAlpha, buf := .OUT, off := 0, len := out.length }

theorem asmView_raw (s : State) (out : List Byte) : AsmView (rawOperands s out) :=
  ⟨.inr rfl, by norm_num [rawOperands]⟩

theorem operandsOfOut_decompressed {t : State} {out : List Byte} (h : Decompressed (acknowledge 7#8 s) out t) :
    operandsOfOut t = rawOperands s out := by
  have hw : t.width = s.width := (congrArg State.width h.frame :)
  have hh : t.height = s.height := (congrArg State.height h.frame :)
  have ha : t.hasAlpha = s.hasAlpha := (congrArg State.hasAlpha h.frame :)
  rw [operandsOfOut, hw, hh, ha, h.output.1, rawOperands]

/-- CMD.DECODE_RAW on a stream that decompresses is ASM on its output (R257). -/
theorem raw_of_done (hidle : s.status.busy = false) (hcap : s.inLen.toNat ≤ s.params.inCap.toNat)
    (hraw : s.ctrl.rawLz = true) {out : List Byte} (hlz : lz s.params.outCap.toNat (stream s) = .done out) :
    ∃ t, Decompressed (acknowledge 7#8 s) out t ∧
      exec .cmdDecodeRaw s = .next (finish (asmRun (rawOperands s out) t)) := by
  obtain ⟨t, hrun, ht⟩ := lzdRun_done (s := acknowledge 7#8 s) hlz
  refine ⟨t, ht, ?_⟩
  rw [exec_cmdDecodeRaw hidle hcap hraw, hrun, Flow.go_andThen, operandsOfOut_decompressed ht]

theorem viewByte_raw {t : State} {out : List Byte} (h : Decompressed (acknowledge 7#8 s) out t) {n : Nat}
    (hn : n ≤ out.length) : ∀ j < n, viewByte (rawOperands s out) t j = out.getD j 0#8 := fun j hj => by
  rw [← h.output.2 j (by omega)]
  exact congrArg (t.rd .OUT) (Nat.zero_add j)

theorem decompressed_side {c : Byte} {t : State} {out : List Byte} (h : Decompressed (acknowledge c s) out t) :
    imageSideKept s t :=
  imageSideKept_trans (imageSideKept_acknowledge c s) (imageSideKept_of_sansLzd h.frame)

/-- Settles O34. -/
theorem rawWithLzImage : Obligations.RawWithLzImage := by
  unfold Obligations.RawWithLzImage
  intro s out hidle hcap hraw hlz hfits hgrid td
  obtain ⟨t, ht, hexec⟩ := raw_of_done hidle hcap hraw hlz
  obtain ⟨hcmd, hside⟩ := decodeRaw_kept hidle hexec
  have hview := viewByte_raw ht hfits.2.2.2.2
  have hparams : t.params = s.params := ht.params
  have hfits' : fits t s.width s.height s.hasAlpha out.length := by
    unfold fits
    rw [hparams]
    exact hfits
  have hrun : AsmCompleted t (rawOperands s out) (finish (asmRun (rawOperands s out) t)) :=
    asmRun_completes (asmView_raw s out) hfits' hgrid
  refine ⟨_, hexec, ?_, hrun.code.trans ht.code, hrun.info.trans ht.info, hcmd, outputIs_asm ht.output _, ?_, hside⟩
  · rw [hrun.status, statusAfter_of_view hview, ht.status, hparams]
    rfl
  · rw [← hparams]
    exact assembled_congr hview (decompressed_side ht) hfits.1 hfits.2.1 hgrid hrun.result

/-- Settles O54. -/
theorem rawWithLzFaults : Obligations.RawWithLzFaults := by
  unfold Obligations.RawWithLzFaults
  intro s hidle hcap hraw
  have hexec : exec .cmdDecodeRaw s = .next (command 7#8 rawRun s) := rfl
  obtain ⟨hcmd, hside⟩ := decodeRaw_kept hidle hexec
  refine ⟨_, hexec, hcmd, hside, fun code info out hlz => ?stream, fun out hlz => ?payload⟩
  case stream =>
    obtain ⟨t, hrun, ht⟩ := lzdRun_fault (s := acknowledge 7#8 s) hlz
    have hend : exec .cmdDecodeRaw s = .next t := by rw [exec_cmdDecodeRaw hidle hcap hraw, hrun]; rfl
    obtain rfl : command 7#8 rawRun s = t := Host.Outcome.next.inj hend
    exact ⟨ht.code, ht.info, ht.status,
      ht.output, imageSideKept_trans (imageSideKept_acknowledge 7#8 s) (imageSideKept_of_sansLzd ht.frame)⟩
  case payload =>
    obtain ⟨t, ht, hend⟩ := raw_of_done hidle hcap hraw hlz
    have hparams : t.params = s.params := ht.params
    have heq : command 7#8 rawRun s = finish (asmRun (rawOperands s out) t) := Host.Outcome.next.inj hend
    rw [heq]
    refine ⟨outputIs_asm ht.output _, fun code info hcheck => ?check, fun i hfits hi => ?outside⟩
    case check =>
      have hcheck' : checkFault t s.width s.height s.hasAlpha out.length = some (code, info) := by
        unfold checkFault at hcheck ⊢
        rw [hparams]
        exact hcheck
      rw [asmRun_check (p := rawOperands s out) hcheck', finish_ended]
      exact ⟨rfl, rfl, (congrArg Status.faulted ht.status :),
        imageSideKept_trans (decompressed_side ht) (imageSideKept_asmLatch ..)⟩
    case outside =>
      have hview := viewByte_raw ht hfits.2.2.2.2
      have hfits' : fits t s.width s.height s.hasAlpha out.length := by
        unfold fits
        rw [hparams]
        exact hfits
      have hrun : AsmOutside t (rawOperands s out) i (finish (asmRun (rawOperands s out) t)) :=
        asmRun_outside (asmView_raw s out) hfits' hi
      refine ⟨?_, ?_⟩
      · rw [hrun.status, statusAfter_of_view hview, ht.status, hparams]
        rfl
      · rw [← hparams]
        exact scrRangeEnded_congr hview (decompressed_side ht) hfits.1 hfits.2.1 hrun.result

end Raw

end Sys2Proof.Machine
end

section
/-! SUPPORT. CMD.DECODE_ENTRY: the payload, its header, its format, and ASM on the texture data behind the header. -/

namespace Sys2Proof.Machine

open Sys2Proof Sys2Proof.Reference
open Sys2Proof.Config (BufName)

/-! ### Steps 1 to 3 -/

/-- Steps 1 to 3 of CMD.DECODE_ENTRY (R256). -/
def payloadRun (s : State) : Flow := ((lzdRun s).andThen hdrRun).andThen checkFormat

/-- A payload's header. -/
def payloadHeader (out : List Byte) : TextureInfo := header (fun j => out.getD j 0#8) out.length

/-- A header is its 36 bytes and the length (R106). -/
theorem header_congr {d d' : Nat → Byte} (h : ∀ j, j < 36 → d j = d' j) (len : Nat) : header d len = header d' len := by
  unfold header
  simp (disch := decide) only [h]

/-- What step 1 to 3 leave alone: everything but the parts of LZD and HDR. -/
theorem sansPayload_payloadRun (s : State) :
    (payloadRun s).both fun t => sansHdr (sansLzd t) = sansHdr (sansLzd s) := by
  have hlzd : (lzdRun s).both fun t => sansHdr (sansLzd t) = sansHdr (sansLzd s) := congrArg sansHdr (sansLzd_lzdRun s)
  have hswap : ∀ v, sansHdr (sansLzd v) = sansLzd (sansHdr v) := fun _ => rfl
  have hhdr : ∀ u, (hdrRun u).both fun t => sansHdr (sansLzd t) = sansHdr (sansLzd u) := fun u => by
    have hrun : sansHdr (hdrRun u).state = sansHdr u := sansHdr_hdrRun u
    show sansHdr (sansLzd (hdrRun u).state) = _
    rw [hswap, hrun, hswap]
  have hformat : ∀ u, (checkFormat u).both fun t => sansHdr (sansLzd t) = sansHdr (sansLzd u) := fun u => by
    have hrun : sansHdr (checkFormat u).state = sansHdr u := sansHdr_checkFormat u
    show sansHdr (sansLzd (checkFormat u).state) = _
    rw [hswap, hrun, hswap]
  exact Flow.both_andThen_eq (F := fun t => sansHdr (sansLzd t)) (Flow.both_andThen_eq hlzd hhdr) hformat

section Entry

variable {s : State} {out : List Byte}

theorem launch_entry (hcap : s.inLen.toNat ≤ s.params.inCap.toNat) :
    launch 6#8 s = .go (launchedHeader 6#8 s) := by
  have hclears : launch 6#8 s = if readsIn 6#8 = true ∧ s.params.inCap.toNat < s.inLen.toNat then
      stop .capacity 0 (launchedHeader 6#8 s)
    else if 6#8 = 2#8 ∧ s.params.outCap.toNat < s.outLen.toNat then stop .capacity 1 (launchedHeader 6#8 s)
    else .go (launchedHeader 6#8 s) := rfl
  rw [hclears, if_neg fun h => absurd h.2 (not_lt.2 hcap), if_neg fun h => nomatch h.1]

theorem exec_cmdDecodeEntry (hidle : s.status.busy = false) (hcap : s.inLen.toNat ≤ s.params.inCap.toNat) :
    exec .cmdDecodeEntry s = .next (finish ((payloadRun (launchedHeader 6#8 s)).andThen
      fun t => asmRun (operandsOfEntry t) t)) :=
  congrArg Host.Outcome.next (command_of_launch hidle (launch_entry hcap))

/-- The bytes of a payload in OUT. -/
theorem Decompressed.bytes {u t : State} (h : Decompressed u out t) {j : Nat} (hj : j < out.length) :
    t.rd .OUT j = out.getD j 0#8 := h.output.2 j hj

theorem Decompressed.header {u t : State} (h : Decompressed u out t) (hlong : 36 ≤ out.length) :
    parsedHeader t = payloadHeader out := by
  rw [parsedHeader_eq, h.output.1]
  exact header_congr (fun j hj => h.bytes (by omega)) _

theorem Decompressed.magicOk {t : State} (h : Decompressed (launchedHeader 6#8 s) out t) (hlong : 36 ≤ out.length) :
    magicOk t (fun j => t.rd .OUT j) ↔ Reference.magicOk s fun j => out.getD j 0#8 := by
  have hparams : t.params = s.params := h.params
  unfold Reference.magicOk
  simp (disch := omega) only [hparams, h.bytes]

/-! ### The faults of steps 1 to 3 -/

theorem payloadRun_short {t : State} (hrun : lzdRun (launchedHeader 6#8 s) = .go t)
    (ht : Decompressed (launchedHeader 6#8 s) out t) (hshort : out.length < 36) :
    payloadRun (launchedHeader 6#8 s) = .ended (faulted 0x01#8 0#32 t) := by
  rw [payloadRun, hrun, Flow.go_andThen, hdrRun_short (by rw [ht.output.1]; exact hshort), Flow.ended_andThen]

theorem payloadRun_badMagic {t : State} (hrun : lzdRun (launchedHeader 6#8 s) = .go t)
    (ht : Decompressed (launchedHeader 6#8 s) out t) (hlong : 36 ≤ out.length)
    (hm : ¬ Reference.magicOk s fun j => out.getD j 0#8) :
    payloadRun (launchedHeader 6#8 s) = .ended (faulted 0x01#8 1#32 t) := by
  rw [payloadRun, hrun, Flow.go_andThen,
    hdrRun_badMagic (by rw [ht.output.1]; exact hlong) (mt (ht.magicOk hlong).1 hm), Flow.ended_andThen]

theorem payloadRun_strict {t : State} (hrun : lzdRun (launchedHeader 6#8 s) = .go t)
    (ht : Decompressed (launchedHeader 6#8 s) out t) (hlong : 36 ≤ out.length)
    (hm : Reference.magicOk s fun j => out.getD j 0#8) (hs : (payloadHeader out).sizeOk = false)
    (hstrict : s.ctrl.strict = true) :
    payloadRun (launchedHeader 6#8 s) =
      .ended (faulted 0x02#8 (BitVec.ofNat 32 (out.length - 36)) { t with ti := payloadHeader out }) := by
  have hctrl : t.ctrl.strict = s.ctrl.strict := (congrArg (fun u : State => u.ctrl.strict) ht.frame :)
  rw [payloadRun, hrun, Flow.go_andThen, hdrRun_strict (by rw [ht.output.1]; exact hlong) ((ht.magicOk hlong).2 hm)
    (by rw [ht.header hlong]; exact hs) (hctrl.trans hstrict), Flow.ended_andThen, ht.output.1, ht.header hlong]

/-- HDR has passed in CMD.DECODE_ENTRY: OUT holds the payload and TI_* its header (R256 step 2). -/
structure Parsed (s : State) (out : List Byte) (t : State) : Prop where
  frame : sansHdr (sansLzd t) = sansHdr (sansLzd (acknowledge 6#8 s))
  output : outputIs t out
  ti : t.ti = payloadHeader out
  status : t.status = { Status.launched with warnSize := !(payloadHeader out).sizeOk }
  code : t.errCode = 0#8
  info : t.errInfo = 0#32

theorem hdrRun_parsed_of_done {t : State} (ht : Decompressed (launchedHeader 6#8 s) out t) (hlong : 36 ≤ out.length)
    (hm : Reference.magicOk s fun j => out.getD j 0#8)
    (hok : (payloadHeader out).sizeOk = true ∨ s.ctrl.strict = false) :
    ∃ v, hdrRun t = .go v ∧ Parsed s out v := by
  have hlen : 36 ≤ t.outLen.toNat := by rw [ht.output.1]; exact hlong
  have hm' := (ht.magicOk hlong).2 hm
  have hheader := ht.header hlong
  have hctrl : t.ctrl.strict = s.ctrl.strict := (congrArg (fun u : State => u.ctrl.strict) ht.frame :)
  have hframe : sansHdr (sansLzd t) = sansHdr (sansLzd (acknowledge 6#8 s)) := (congrArg sansHdr ht.frame :)
  have hstatus : t.status = Status.launched := ht.status
  cases hs : (payloadHeader out).sizeOk
  · have hstrict : s.ctrl.strict = false := hok.resolve_left (by rw [hs]; nofun)
    rw [hdrRun_warns hlen hm' (by rw [hheader]; exact hs) (hctrl.trans hstrict), hheader]
    exact ⟨_, rfl, hframe, ht.output, rfl, by rw [hs, hstatus]; rfl, ht.code, ht.info⟩
  · rw [hdrRun_sizeOk hlen hm' (by rw [hheader]; exact hs), hheader]
    exact ⟨_, rfl, hframe, ht.output, rfl, by rw [hs]; exact hstatus, ht.code, ht.info⟩

/-- A payload that HDR accepts (R256 steps 1 and 2). -/
theorem payloadRun_parsed (hlz : lz s.params.outCap.toNat (stream s) = .done out) (hlong : 36 ≤ out.length)
    (hm : Reference.magicOk s fun j => out.getD j 0#8)
    (hok : (payloadHeader out).sizeOk = true ∨ s.ctrl.strict = false) :
    ∃ v, payloadRun (launchedHeader 6#8 s) = checkFormat v ∧ Parsed s out v := by
  obtain ⟨t, hrun, ht⟩ := lzdRun_done (s := launchedHeader 6#8 s) hlz
  obtain ⟨v, hhdr, hv⟩ := hdrRun_parsed_of_done ht hlong hm hok
  exact ⟨v, by rw [payloadRun, hrun, Flow.go_andThen, hhdr, Flow.go_andThen], hv⟩

theorem Parsed.unsupported {v : State} (hv : Parsed s out v) (hf : (payloadHeader out).fmtClass = 2#2) :
    checkFormat v = .ended (faulted 0x03#8 (payloadHeader out).format v) := by
  have hformat : BitVec.ofNat 32 (payloadHeader out).format.toNat = (payloadHeader out).format := by
    rw [BitVec.ofNat_toNat, BitVec.setWidth_eq]
  rw [checkFormat, hv.ti, if_pos hf, stop, raise_eq_faulted, hformat]
  rfl

theorem Parsed.supported {v : State} (hv : Parsed s out v) (hf : (payloadHeader out).fmtClass ≠ 2#2) :
    checkFormat v = .go v := by
  rw [checkFormat, hv.ti, if_neg hf]

/-- What the parts of LZD and HDR leave alone, but for CMD and the record (R256). -/
theorem onlyPayloadSide_of_sansPayload {t : State} (h : sansHdr (sansLzd t) = sansHdr (sansLzd (acknowledge 6#8 s)))
    (hseq : t.seq = .idle) : onlyPayloadSide s t := by
  have hcmd : t.cmd = 6#8 := (congrArg State.cmd h :)
  unfold onlyPayloadSide
  rw [hcmd, ← hseq]
  exact (congrArg (fun u : State => { u with
    status := t.status, errCode := t.errCode, errInfo := t.errInfo, outBuf := t.outBuf
    outLen := t.outLen, lzd := t.lzd, ti := t.ti, seq := t.seq, draws := t.draws }) h :)

/-- CMD.DECODE_ENTRY leaves everything but the parts of LZD, HDR and ASM alone (R256). -/
theorem decodeEntry_frame (hidle : s.status.busy = false) :
    sansAsm (sansHdr (sansLzd (command 6#8 entryRun s))) = sansAsm (sansHdr (sansLzd (acknowledge 6#8 s))) := by
  have hasm : ∀ p u, (asmRun p u).both fun t => sansAsm (sansHdr (sansLzd t)) = sansAsm (sansHdr (sansLzd u)) :=
    fun p u => by
      have hswap : ∀ v, sansAsm (sansHdr (sansLzd v)) = sansHdr (sansLzd (sansAsm v)) := fun _ => rfl
      have hrun : sansAsm (asmRun p u).state = sansAsm u := sansAsm_asmRun p u
      show sansAsm (sansHdr (sansLzd (asmRun p u).state)) = _
      rw [hswap, hrun, hswap]
  have hpayload : ∀ u, (payloadRun u).both fun t => sansAsm (sansHdr (sansLzd t)) = sansAsm (sansHdr (sansLzd u)) :=
    fun u => congrArg sansAsm (sansPayload_payloadRun u)
  exact command_keeps (fun t => sansAsm (sansHdr (sansLzd t))) hidle (fun _ _ _ => rfl) (fun _ => rfl)
    (Flow.both_andThen_eq (F := fun t => sansAsm (sansHdr (sansLzd t))) (hpayload _) fun t => hasm _ t)

theorem decodeEntry_kept (hidle : s.status.busy = false) {t : State} (hexec : exec .cmdDecodeEntry s = .next t) :
    t.cmd = 6#8 ∧
      onlyImageSide { s with outBuf := t.outBuf, outLen := t.outLen, lzd := t.lzd, ti := t.ti } t := by
  obtain rfl : command 6#8 entryRun s = t := Host.Outcome.next.inj hexec
  have hframe := decodeEntry_frame hidle
  have hseq : (command 6#8 entryRun s).seq = .idle := command_seq 6#8 hidle
  have hcmd : (command 6#8 entryRun s).cmd = 6#8 := (congrArg State.cmd hframe :)
  generalize command 6#8 entryRun s = t at hframe hseq hcmd ⊢
  refine ⟨hcmd, ?_⟩
  unfold onlyImageSide
  rw [hcmd, ← hseq]
  exact (congrArg (fun u : State => { u with
    status := t.status, errCode := t.errCode, errInfo := t.errInfo, scrLen := t.scrLen
    imgW := t.imgW, imgH := t.imgH, etc := t.etc, tsa := t.tsa, asm := t.asm, cblk := t.cblk, ablk := t.ablk
    tileout := t.tileout, img0 := t.img0, img1 := t.img1, scr := t.scr, seq := t.seq, draws := t.draws
    outBuf := t.outBuf, outLen := t.outLen, lzd := t.lzd, ti := t.ti }) hframe :)

/-- A fault of steps 1 to 3 is the end of the command, the image side untouched (R256, R297). -/
theorem entry_of_ended (hidle : s.status.busy = false) (hcap : s.inLen.toNat ≤ s.params.inCap.toNat) {t : State}
    (h : payloadRun (launchedHeader 6#8 s) = .ended t) :
    command 6#8 entryRun s = t ∧ imageSideKept s t ∧ onlyPayloadSide s t := by
  have heq : command 6#8 entryRun s = t := Host.Outcome.next.inj
    ((exec_cmdDecodeEntry hidle hcap).trans (by rw [h, Flow.ended_andThen, finish_ended]))
  have hrun := sansPayload_payloadRun (launchedHeader 6#8 s)
  rw [h] at hrun
  have hframe : sansHdr (sansLzd t) = sansHdr (sansLzd (acknowledge 6#8 s)) := hrun
  have hseq : t.seq = .idle := heq ▸ command_seq 6#8 hidle
  exact ⟨heq, imageSideKept_of_sansPayload (s := acknowledge 6#8 s) hframe, onlyPayloadSide_of_sansPayload hframe hseq⟩

/-- Settles O36. -/
theorem entryFaultsInOrder : Obligations.EntryFaultsInOrder := by
  unfold Obligations.EntryFaultsInOrder
  intro s hidle hcap
  have hexec : exec .cmdDecodeEntry s = .next (command 6#8 entryRun s) := rfl
  refine ⟨_, hexec, (decodeEntry_kept hidle hexec).1, fun code info out hlz => ?stream, fun out hlz => ?payload⟩
  case stream =>
    obtain ⟨t, hrun, ht⟩ := lzdRun_fault (s := launchedHeader 6#8 s) hlz
    have hended : payloadRun (launchedHeader 6#8 s) = .ended t := by
      rw [payloadRun, hrun, Flow.ended_andThen, Flow.ended_andThen]
    obtain ⟨rfl, himage, hpayload⟩ := entry_of_ended hidle hcap hended
    exact ⟨ht.code, ht.info, ht.status, ht.output, (congrArg State.ti ht.frame :), himage, hpayload⟩
  case payload =>
    intro d ti
    obtain ⟨t, hrun, ht⟩ := lzdRun_done (s := launchedHeader 6#8 s) hlz
    have hti : t.ti = { s.ti with valid := false } := (congrArg State.ti ht.frame :)
    have hstatus : t.status.faulted = { doneStatus false false with err := true } :=
      (congrArg Status.faulted ht.status :)
    refine ⟨fun hbad => ?header, fun hlong hm hs hstrict => ?strict, fun hlong hm hok hf => ?format⟩
    case header =>
      by_cases hshort : out.length < 36
      · obtain ⟨heq, himage, hpayload⟩ := entry_of_ended hidle hcap (payloadRun_short hrun ht hshort)
        rw [heq, if_pos hshort]
        exact ⟨rfl, rfl, hstatus, ht.output, hti, himage, hpayload⟩
      · obtain ⟨heq, himage, hpayload⟩ := entry_of_ended hidle hcap
          (payloadRun_badMagic hrun ht (not_lt.1 hshort) (hbad.resolve_left hshort))
        rw [heq, if_neg hshort]
        exact ⟨rfl, rfl, hstatus, ht.output, hti, himage, hpayload⟩
    case strict =>
      obtain ⟨heq, himage, hpayload⟩ := entry_of_ended hidle hcap (payloadRun_strict hrun ht hlong hm hs hstrict)
      rw [heq]
      exact ⟨rfl, rfl, hstatus, ht.output, rfl, himage, hpayload⟩
    case format =>
      obtain ⟨v, hv, hparsed⟩ := payloadRun_parsed hlz hlong hm hok
      obtain ⟨heq, himage, hpayload⟩ := entry_of_ended hidle hcap (hv.trans (hparsed.unsupported hf))
      rw [heq]
      exact ⟨rfl, rfl, (congrArg Status.faulted hparsed.status :), hparsed.output, hparsed.ti, himage, hpayload⟩

/-! ### Step 4 -/

/-- The operands of ASM for a payload (R256 step 4). -/
def entryOperands (out : List Byte) : AsmOperands :=
  { w := (payloadHeader out).width, h := (payloadHeader out).height
    alpha := (payloadHeader out).fmtClass == 1#2, buf := .OUT, off := 36, len := out.length - 36 }

theorem asmView_entry (out : List Byte) : AsmView (entryOperands out) := ⟨.inr rfl, by norm_num [entryOperands]⟩

theorem Parsed.operands {v : State} (hv : Parsed s out v) : operandsOfEntry v = entryOperands out := by
  rw [operandsOfEntry, hv.ti, hv.output.1, entryOperands]

theorem Parsed.params {v : State} (hv : Parsed s out v) : v.params = s.params := (congrArg State.params hv.frame :)

theorem Parsed.side {v : State} (hv : Parsed s out v) : imageSideKept s v :=
  imageSideKept_of_sansPayload (s := acknowledge 6#8 s) hv.frame

theorem Parsed.view {v : State} (hv : Parsed s out v) {n : Nat} (hn : n ≤ out.length - 36) :
    ∀ j < n, viewByte (entryOperands out) v j = out.getD (36 + j) 0#8 := fun j hj =>
  hv.output.2 (36 + j) (by omega)

/-- An accepted payload of a supported format goes to ASM (R256 step 4). -/
theorem entry_of_parsed (hidle : s.status.busy = false) (hcap : s.inLen.toNat ≤ s.params.inCap.toNat)
    (hlz : lz s.params.outCap.toNat (stream s) = .done out) (hlong : 36 ≤ out.length)
    (hm : Reference.magicOk s fun j => out.getD j 0#8)
    (hok : (payloadHeader out).sizeOk = true ∨ s.ctrl.strict = false) (hf : (payloadHeader out).fmtClass ≠ 2#2) :
    ∃ v, Parsed s out v ∧ exec .cmdDecodeEntry s = .next (finish (asmRun (entryOperands out) v)) := by
  obtain ⟨v, hv, hparsed⟩ := payloadRun_parsed hlz hlong hm hok
  refine ⟨v, hparsed, ?_⟩
  rw [exec_cmdDecodeEntry hidle hcap, hv, hparsed.supported hf, Flow.go_andThen, hparsed.operands]

theorem Parsed.ti_asm {v : State} (hv : Parsed s out v) (p : AsmOperands) :
    (finish (asmRun p v)).ti = payloadHeader out :=
  (congrArg State.ti (sansAsm_finish_asmRun p v) :).trans hv.ti

theorem Parsed.fits {v : State} (hv : Parsed s out v) {w h : Half} {alpha : Bool} {len : Nat}
    (hfits : fits s w h alpha len) : Reference.fits v w h alpha len := by
  unfold Reference.fits
  rw [hv.params]
  exact hfits

/-- Settles O35. -/
theorem entryDecodesPayload : Obligations.EntryDecodesPayload := by
  unfold Obligations.EntryDecodesPayload
  intro s out hidle hcap hlz hlong d ti alpha td hm hok hf hfits hgrid
  obtain ⟨v, hv, hexec⟩ := entry_of_parsed hidle hcap hlz hlong hm hok hf
  obtain ⟨hcmd, hside⟩ := decodeEntry_kept hidle hexec
  have hview := hv.view hfits.2.2.2.2
  have hrun : AsmCompleted v (entryOperands out) (finish (asmRun (entryOperands out) v)) :=
    asmRun_completes (asmView_entry out) (hv.fits hfits) hgrid
  refine ⟨_, hexec, ?_, hrun.code.trans hv.code, hrun.info.trans hv.info, hcmd, outputIs_asm hv.output _, hv.ti_asm _, ?_,
    hside⟩
  · rw [hrun.status, statusAfter_of_view hview, hv.status, hv.params]
    rfl
  · rw [← hv.params]
    exact assembled_congr hview hv.side hfits.1 hfits.2.1 hgrid hrun.result

/-- Settles O55. -/
theorem entryAssemblyFaults : Obligations.EntryAssemblyFaults := by
  unfold Obligations.EntryAssemblyFaults
  intro s out hidle hcap hlz hlong d ti alpha td hm hok hf
  obtain ⟨v, hv, hexec⟩ := entry_of_parsed hidle hcap hlz hlong hm hok hf
  obtain ⟨hcmd, hside⟩ := decodeEntry_kept hidle hexec
  refine ⟨_, hexec, hcmd, outputIs_asm hv.output _, hv.ti_asm _, hside, fun code info hcheck => ?check,
    fun i hfits hi => ?outside⟩
  case check =>
    have hcheck' : checkFault v ti.width ti.height alpha (out.length - 36) = some (code, info) := by
      unfold checkFault at hcheck ⊢
      rw [hv.params]
      exact hcheck
    rw [asmRun_check (p := entryOperands out) hcheck', finish_ended]
    exact ⟨rfl, rfl, (congrArg Status.faulted hv.status :), imageSideKept_trans hv.side (imageSideKept_asmLatch ..)⟩
  case outside =>
    have hview := hv.view hfits.2.2.2.2
    have hrun : AsmOutside v (entryOperands out) i (finish (asmRun (entryOperands out) v)) :=
      asmRun_outside (asmView_entry out) (hv.fits hfits) hi
    refine ⟨?_, ?_⟩
    · rw [hrun.status, statusAfter_of_view hview, hv.status, hv.params]
      rfl
    · rw [← hv.params]
      exact scrRangeEnded_congr hview hv.side hfits.1 hfits.2.1 hrun.result

end Entry

end Sys2Proof.Machine
end

section
/-! SUPPORT. The host's side: reset, register and buffer accesses, and the end of a disturbed command. -/

namespace Sys2Proof.Machine

open Sys2Proof Sys2Proof.Reference
open Sys2Proof.Config (BufName)

/-! ### Reset -/

theorem readReg_reset (r : HostReg) : readReg State.reset r = 0#32 := by
  cases r <;> rfl

/-- A reset leaves every host register as `State.reset` has it (R321). -/
theorem readReg_resetNow (s : State) (r : HostReg) : readReg (resetNow s) r = 0#32 := by
  rw [← readReg_reset r]
  cases r <;> rfl

/-- Settles O47: a reset lands alike on an idle and on a running block. -/
theorem resetClearsHostRegisters : Obligations.ResetClearsHostRegisters := by
  unfold Obligations.ResetClearsHostRegisters
  refine ⟨readReg_reset, fun s rest hh => ⟨resetNow (withHost rest s), ?_, readReg_resetNow _, rfl, rfl, rfl⟩⟩
  cases hb : s.status.busy
  · exact step_idle hb hh
  · exact step_lands hb hh rfl

/-! ### Registers -/

/-- Settles O48: the write lands, register by register. -/
theorem hostWritesOperandRegisters : Obligations.HostWritesOperandRegisters := by
  unfold Obligations.HostWritesOperandRegisters
  intro s r v n rest hidle hh hr
  refine ⟨writeOperand r v (withHost rest s), (step_idle hidle hh).trans (hostIdle_writeReg hr v _), ?_, ?_, ?_, ?_, ?_,
    ?_, fun h1 h2 h3 h4 h5 h6 => ?_⟩
  case refine_7 => cases r <;> first | rfl | contradiction
  all_goals
    rintro rfl
    rfl

theorem status_word_toNat (t : Status) : (t.word.setWidth 32).toNat =
    t.busy.toNat + 2 * t.done.toNat + 4 * t.err.toNat + 8 * t.warnSize.toNat + 16 * t.diffOvf.toNat := by
  obtain ⟨b, d, e, w, o⟩ := t
  revert b d e w o
  decide

theorem ctrl_word_toNat (c : Ctrl) : (c.word.setWidth 32).toNat = c.strict.toNat + 2 * c.rawLz.toNat := by
  obtain ⟨a, b⟩ := c
  revert a b
  decide

/-- Settles O49. -/
theorem statusAndCtrlLayout : Obligations.StatusAndCtrlLayout := fun s =>
  ⟨status_word_toNat s.status, ctrl_word_toNat s.ctrl⟩

theorem setWidth_toNat {n : Nat} (v : BitVec n) (h : n ≤ 32) : (v.setWidth 32).toNat = v.toNat :=
  BitVec.toNat_setWidth_of_le h

theorem ofBool_toNat (b : Bool) : ((BitVec.ofBool b).setWidth 32).toNat = b.toNat := by
  cases b <;> rfl

/-- What a register reads as, by number (R21). -/
theorem readReg_toNat (s : State) (r : HostReg) : (readReg s r).toNat = regValue s r := by
  cases r
  case STATUS => exact status_word_toNat s.status
  case CTRL => exact ctrl_word_toNat s.ctrl
  case HAS_ALPHA => exact ofBool_toNat _
  case TI_VALID => exact ofBool_toNat _
  case TI_SIZE_OK => exact ofBool_toNat _
  case CMD => exact setWidth_toNat _ (by norm_num)
  case ERR_CODE => exact setWidth_toNat _ (by norm_num)
  case WIDTH => exact setWidth_toNat _ (by norm_num)
  case HEIGHT => exact setWidth_toNat _ (by norm_num)
  case IMG_W => exact setWidth_toNat _ (by norm_num)
  case IMG_H => exact setWidth_toNat _ (by norm_num)
  case TI_WIDTH => exact setWidth_toNat _ (by norm_num)
  case TI_HEIGHT => exact setWidth_toNat _ (by norm_num)
  case TI_MIPLEVEL => exact setWidth_toNat _ (by norm_num)
  case TI_TYPE => exact setWidth_toNat _ (by norm_num)
  case TI_CUBEMAP => exact setWidth_toNat _ (by norm_num)
  case TI_FMTCLASS => exact setWidth_toNat _ (by norm_num)
  all_goals rfl

theorem regBits_eq (r : HostReg) : r.bits = regBits r := by
  cases r <;> rfl

/-- The operand registers are those marked W but CMD (R21). -/
theorem isOperandReg_iff (r : HostReg) : isOperandReg r = true ↔
    r = .CTRL ∨ r = .IN_LEN ∨ r = .OUT_LEN ∨ r = .WIDTH ∨ r = .HEIGHT ∨ r = .HAS_ALPHA := by
  cases r <;> decide

/-- Settles O50: none of the four actions disturbs the running command. -/
theorem hostWhileBusy : Obligations.HostWhileBusy := by
  unfold Obligations.HostWhileBusy
  intro s v r rest hlegal hb
  refine ⟨fun hh => step_lands hb hh rfl, fun hh hr => ?_, fun hh => ?_, fun hh hr => ?_⟩
  · have hignored : isOperandReg r = false :=
      eq_false_of_ne_true fun h => hr (.inr ((isOperandReg_iff r).1 h))
    rw [step_lands hb hh rfl, hostBusy_writeReg, hignored]
    rfl
  · have hdone : s.status.done = false := (live_of_statusLegal hlegal hb).2.done
    have hbits : ∀ t : Status, (t.word.setWidth 32).getLsbD 0 = t.busy ∧ (t.word.setWidth 32).getLsbD 1 = t.done := by
      rintro ⟨b, d, e, w, o⟩
      revert b d e w o
      decide
    obtain ⟨h0, h1⟩ := hbits s.status
    exact ⟨answer (readReg (withHost rest s) .STATUS) (withHost rest s), step_lands hb hh rfl, rfl, h0.trans hb,
      h1.trans hdone⟩
  · refine ⟨(answerUnspecified r.bits (withHost rest s)).readData, ?_, ?_⟩
    · rw [← regBits_eq]
      exact answerUnspecified_lt r.bits _
    · exact (step_lands hb hh rfl).trans (hostBusy_readReg hr _)

/-- Settles O51. -/
theorem faultEntryRecord : Obligations.FaultEntryRecord := by
  unfold Obligations.FaultEntryRecord
  refine ⟨raise_eq_faulted, fun e n s later => ?_, by decide⟩
  rw [stop, raise_eq_faulted, Flow.ended_andThen]

/-! ### Buffers -/

theorem hostWritable_iff (b : BufName) : hostWritable b = true ↔ b = .IN ∨ b = .OUT ∨ b = .CBLK ∨ b = .ABLK := by
  cases b <;> decide

/-- A byte written to a buffer, and what it leaves alone (R36). -/
theorem wr_buffers (s : State) (b : BufName) (a : Nat) (v : Byte) :
    (s.wr b a v).rd b a = v ∧ (∀ c, c ≠ a → (s.wr b a v).rd b c = s.rd b c) ∧
      ∀ d, d ≠ b → (s.wr b a v).buf d = s.buf d := by
  refine ⟨?_, fun c hc => ?_, fun d hd => ?_⟩
  · rw [State.rd_wr, if_pos ⟨rfl, rfl⟩]
  · rw [State.rd_wr, if_neg fun h => hc h.2]
  · cases b <;> cases d <;> first | rfl | contradiction

/-- The buffers the host writes (R62). -/
theorem wr_hostWritable {b : BufName} (hb : b = .IN ∨ b = .OUT ∨ b = .CBLK ∨ b = .ABLK) (s : State) (a : Nat) (v : Byte) :
    s.wr b a v = { s with
      inBuf := (s.wr b a v).inBuf, outBuf := (s.wr b a v).outBuf, cblk := (s.wr b a v).cblk
      ablk := (s.wr b a v).ablk } := by
  obtain rfl | rfl | rfl | rfl := hb <;> rfl

theorem capacity_withHost (h : List HostEvent) (s : State) (b : BufName) : (withHost h s).capacity b = s.capacity b := by
  cases b <;> rfl

theorem rd_withHost (h : List HostEvent) (s : State) (b : BufName) (a : Nat) : (withHost h s).rd b a = s.rd b a := by
  cases b <;> rfl

theorem buf_withHost (h : List HostEvent) (s : State) (b : BufName) : (withHost h s).buf b = s.buf b := by
  cases b <;> rfl

/-- Settles O56: each access by its own equation. -/
theorem hostBufferAccesses : Obligations.HostBufferAccesses := by
  unfold Obligations.HostBufferAccesses
  intro s op n rest hidle hh
  have hstep : step s = hostIdle op (withHost rest s) := step_idle hidle hh
  refine ⟨fun b a v hop => ⟨fun hb => ⟨fun ha => ?_, fun ha => ?_⟩, fun hb => ?_⟩, fun b a hop => ⟨fun ha => ?_, fun ha => ?_⟩,
    fun i hop => ⟨fun hi => ?_, fun hi => ?_⟩, fun r hop => ?_⟩ <;> rw [hstep, hop]
  · obtain ⟨hsame, hother, hbufs⟩ := wr_buffers (withHost rest s) b a v
    have hgo : hostIdle (.writeBuf b a v) (withHost rest s) = .next ((withHost rest s).wr b a v) := by
      rw [hostIdle_writeBuf, (hostWritable_iff b).2 hb, capacity_withHost, if_neg nofun, if_neg (not_le.2 ha)]
    exact ⟨_, hgo, hsame, fun c hc => (hother c hc).trans (rd_withHost rest s b c),
      fun d hd => (hbufs d hd).trans (buf_withHost rest s d), wr_hostWritable hb (withHost rest s) a v⟩
  · rw [hostIdle_writeBuf, (hostWritable_iff b).2 hb, capacity_withHost, if_neg nofun, if_pos ha]
  · obtain rfl | rfl | rfl := hb <;> rfl
  · rw [hostIdle_readBuf, capacity_withHost, if_neg (not_le.2 ha), rd_withHost]
    rfl
  · rw [hostIdle_readBuf, capacity_withHost, if_pos ha]
  · exact if_neg (not_le.2 hi)
  · exact if_pos hi
  · exact ⟨readReg (withHost rest s) r, rfl, (readReg_toNat _ r).trans (by cases r <;> rfl)⟩

/-! ### The end of a disturbed command -/

/-- What of the state the end leaves alone: what each loss either keeps or is not marked for (R261). -/
theorem endDisturbed_fixes {α : Type} (f : State → α) {rawLz : Bool} {s : State}
    (ho : writesOutput rawLz s.cmd = false ∨ ∀ u, f (loseOutput u) = f u)
    (ht : writesTable s.cmd = false ∨ ∀ u, f (loseTable u) = f u)
    (hl : writesTile s.cmd = false ∨ ∀ u : State, f (u.forget .TILEOUT) = f u)
    (hi : writesImage s.cmd = false ∨ ∀ u, f (loseImage u) = f u)
    (hh : runsHeader s.cmd = false ∨ ∀ u, f (loseHeader u) = f u) (hs : ∀ u, f (loseStatus u) = f u) :
    f (endDisturbed rawLz s) = f s := by
  have hkeep : ∀ {m : Bool} {g : State → State}, (m = false ∨ ∀ u, f (g u) = f u) →
      m = true → ∀ u, f u = f s → f (g u) = f s := fun h hm u hu =>
    (h.resolve_left (by rw [hm]; nofun) u).trans hu
  exact endDisturbed_keeps (P := fun u => f u = f s) (hkeep ho) (hkeep ht) (hkeep hl) (hkeep hi) (hkeep hh)
    (fun u hu => (hs u).trans hu) rfl

section Disturbed

variable {rawLz : Bool} {s : State}

theorem endDisturbed_output (h : writesOutput rawLz s.cmd = false) :
    (endDisturbed rawLz s).outBuf = s.outBuf ∧ (endDisturbed rawLz s).outLen = s.outLen := by
  have hfix := endDisturbed_fixes (rawLz := rawLz) (fun u => (u.outBuf, u.outLen)) (.inl h) (.inr fun _ => rfl)
    (.inr fun _ => rfl) (.inr fun u => by rw [loseImage_eq]) (.inr fun _ => rfl) fun _ => rfl
  exact Prod.mk.inj hfix

theorem endDisturbed_table (h : writesTable s.cmd = false) :
    (endDisturbed rawLz s).scr = s.scr ∧ (endDisturbed rawLz s).scrLen = s.scrLen := by
  have hfix := endDisturbed_fixes (rawLz := rawLz) (fun u => (u.scr, u.scrLen)) (.inr fun _ => rfl) (.inl h)
    (.inr fun _ => rfl) (.inr fun u => by rw [loseImage_eq]) (.inr fun _ => rfl) fun _ => rfl
  exact Prod.mk.inj hfix

theorem endDisturbed_tile (h : writesTile s.cmd = false) : (endDisturbed rawLz s).tileout = s.tileout :=
  endDisturbed_fixes State.tileout (.inr fun _ => rfl) (.inr fun _ => rfl) (.inl h)
    (.inr fun u => by rw [loseImage_eq]) (.inr fun _ => rfl) fun _ => rfl

theorem endDisturbed_header (h : runsHeader s.cmd = false) : (endDisturbed rawLz s).ti = s.ti :=
  endDisturbed_fixes State.ti (.inr fun _ => rfl) (.inr fun _ => rfl) (.inr fun _ => rfl)
    (.inr fun u => by rw [loseImage_eq]) (.inl h) fun _ => rfl

/-- The image side but SCR and TILEOUT. -/
theorem endDisturbed_image (h : writesImage s.cmd = false) :
    imageSideKept s { endDisturbed rawLz s with scr := s.scr, scrLen := s.scrLen, tileout := s.tileout } := by
  have hfix := endDisturbed_fixes (rawLz := rawLz)
    (fun u => ((u.img0, u.img1), (u.imgW, u.imgH), u.cblk, u.ablk)) (.inr fun _ => rfl) (.inr fun _ => rfl)
    (.inr fun _ => rfl) (.inl h) (.inr fun _ => rfl) fun _ => rfl
  simp only [Prod.mk.injEq] at hfix
  obtain ⟨⟨h0, h1⟩, ⟨hw, hh⟩, hc, ha⟩ := hfix
  exact ⟨h0, h1, rfl, rfl, hw, hh, hc, ha, rfl⟩

/-- The whole image side. -/
theorem endDisturbed_imageSide (hi : writesImage s.cmd = false) (ht : writesTable s.cmd = false)
    (hl : writesTile s.cmd = false) : imageSideKept s (endDisturbed rawLz s) := by
  obtain ⟨h0, h1, -, -, hw, hh, hc, ha, -⟩ := endDisturbed_image (rawLz := rawLz) hi
  obtain ⟨hs, hlen⟩ := endDisturbed_table (rawLz := rawLz) ht
  exact ⟨h0, h1, hs, hlen, hw, hh, hc, ha, endDisturbed_tile hl⟩

end Disturbed

/-- A read of a running block disturbs it (R323). -/
theorem disturb_answer (n : Nat) (s : State) :
    disturb s (answerUnspecified n s) = goTo (.disturbed (rawLzSeen s)) (answerUnspecified n s) := disturb_eq rfl

/-- The codes a fault can have are those of R281. -/
theorem code_mem_of_faultName (e : FaultName) : e.code.toNat ∈
    [0x01, 0x02, 0x03, 0x04, 0x10, 0x11, 0x12, 0x13, 0x14, 0x15, 0x16] := by
  cases e <;> decide

/-- STATUS and the fault registers after the end (R24, R281). -/
theorem endDisturbed_outcome (rawLz : Bool) (s : State) :
    (endDisturbed rawLz s).status.busy = false ∧ (endDisturbed rawLz s).status.done = true ∧
      (((endDisturbed rawLz s).status.err = false ∧ (endDisturbed rawLz s).errCode = 0#8 ∧
          (endDisturbed rawLz s).errInfo = 0#32) ∨
        ((endDisturbed rawLz s).status.err = true ∧ (endDisturbed rawLz s).errCode.toNat ∈
          [0x01, 0x02, 0x03, 0x04, 0x10, 0x11, 0x12, 0x13, 0x14, 0x15, 0x16])) := by
  unfold endDisturbed
  generalize loseIf (runsHeader s.cmd) loseHeader _ = u
  obtain ⟨hbusy, hdone, h | ⟨herr, e, -, hcode⟩⟩ := loseStatus_outcome u
  · exact ⟨hbusy, hdone, .inl h⟩
  · exact ⟨hbusy, hdone, .inr ⟨herr, by rw [hcode]; exact code_mem_of_faultName e⟩⟩

/-- The write of an operand register as the reference has it (R21). -/
theorem writeOperand_eq_operandWritten {r : HostReg}
    (hr : r = .CTRL ∨ r = .IN_LEN ∨ r = .OUT_LEN ∨ r = .WIDTH ∨ r = .HEIGHT ∨ r = .HAS_ALPHA) (v : Word) (s : State) :
    writeOperand r v s = operandWritten r v s := by
  obtain rfl | rfl | rfl | rfl | rfl | rfl := hr <;> rfl

/-- Settles O57: the accesses by their equations, the end by what each loss is marked for. -/
theorem disturbedCommandEnds : Obligations.DisturbedCommandEnds := by
  unfold Obligations.DisturbedCommandEnds
  intro s hb
  refine ⟨fun op rest hh => ⟨fun r v hop hr => ?write, fun b a v hop hw ha => ?writeBuf, fun b a hop ha => ?readBuf,
    fun i hop hi => ?readScr⟩, fun raw hseq hh => ?ends⟩
  case write =>
    intro u
    rw [step_lands hb hh rfl, hop, hostBusy_writeReg, (isOperandReg_iff r).2 hr, writeOperand_eq_operandWritten hr]
    rfl
  case writeBuf =>
    obtain ⟨hsame, hother, hbufs⟩ := wr_buffers (withHost rest s) b a v
    have hctrl : ((withHost rest s).wr b a v).ctrl = (withHost rest s).ctrl := by cases b <;> rfl
    have hgo : step s = .next (goTo (.disturbed (rawSeen s)) ((withHost rest s).wr b a v)) := by
      rw [step_lands hb hh rfl, hop, hostBusy_writeBuf, (hostWritable_iff b).2 hw, capacity_withHost, if_neg nofun,
        if_neg (not_le.2 ha), disturb_eq hctrl]
      rfl
    have hshape := wr_hostWritable hw (withHost rest s) a v
    generalize (withHost rest s).wr b a v = t at hsame hother hbufs hgo hshape
    refine ⟨_, hgo, (goTo_rd ..).trans hsame, fun c hc => (goTo_rd ..).trans ((hother c hc).trans (rd_withHost rest s b c)),
      fun d hd => (goTo_buf ..).trans ((hbufs d hd).trans (buf_withHost rest s d)), ?_⟩
    rw [hshape]
    rfl
  case readBuf =>
    refine ⟨(answerUnspecified 8 (withHost rest s)).readData, answerUnspecified_lt 8 _, ?_⟩
    rw [step_lands hb hh rfl, hop, hostBusy_readBuf, capacity_withHost, if_neg (not_le.2 ha), disturb_answer]
    rfl
  case readScr =>
    refine ⟨(answerUnspecified 32 (withHost rest s)).readData, ?_⟩
    rw [step_lands hb hh rfl, hop, hostBusy_readScr,
      if_neg (show ¬ (withHost rest s).params.scrCap ≤ i from not_le.2 hi), disturb_answer]
    rfl
  case ends =>
    have hstep : step s = .next (endDisturbed raw s) := by
      rw [step_unit hb hh, unitStep_eq hb, unitNext, hseq]
    obtain ⟨hbusy, hdone, houtcome⟩ := endDisturbed_outcome raw s
    obtain ⟨hcmd, hparams, hin, hinLen, hw, hht, ha, hctrl, hhost, hread⟩ := endDisturbed_operands raw s
    refine ⟨_, hstep, rfl, hbusy, hdone, houtcome, hcmd,
      ⟨hin, hinLen, hw, hht, ha, hctrl, hparams, hhost, hread⟩, fun hc => ?_, fun hc => ?_, fun hc => ?_, fun hc => ?_,
      fun hc => ?_, fun hc => ⟨?_, fun hraw => ?_⟩⟩
    · exact ⟨endDisturbed_imageSide (by rw [hc]; rfl) (by rw [hc]; rfl) (by rw [hc]; rfl),
        endDisturbed_header (by rw [hc]; rfl)⟩
    · exact ⟨endDisturbed_imageSide (by rw [hc]; rfl) (by rw [hc]; rfl) (by rw [hc]; rfl),
        endDisturbed_output (by rw [hc]; rfl)⟩
    · obtain ⟨h0, h1, -, -, hiw, hih, hcb, hab, -⟩ := endDisturbed_image (rawLz := raw) (s := s) (by rw [hc]; rfl)
      obtain ⟨hs, hlen⟩ := endDisturbed_table (rawLz := raw) (s := s) (by rw [hc]; rfl)
      obtain ⟨hout, houtLen⟩ := endDisturbed_output (rawLz := raw) (s := s) (by rw [hc]; rfl)
      exact ⟨⟨h0, h1, hs, hlen, hiw, hih, hcb, hab, rfl⟩, hout, houtLen, endDisturbed_header (by rw [hc]; rfl)⟩
    · obtain ⟨h0, h1, -, -, hiw, hih, hcb, hab, -⟩ := endDisturbed_image (rawLz := raw) (s := s) (by rw [hc]; rfl)
      obtain ⟨hout, houtLen⟩ := endDisturbed_output (rawLz := raw) (s := s) (by rw [hc]; rfl)
      exact ⟨⟨h0, h1, rfl, rfl, hiw, hih, hcb, hab, endDisturbed_tile (by rw [hc]; rfl)⟩, hout, houtLen,
        endDisturbed_header (by rw [hc]; rfl)⟩
    · obtain ⟨hout, houtLen⟩ := endDisturbed_output (rawLz := raw) (s := s) (by rw [hc]; rfl)
      exact ⟨hout, houtLen, endDisturbed_header (by rw [hc]; rfl)⟩
    · exact endDisturbed_header (by rw [hc]; rfl)
    · exact endDisturbed_output (by rw [hc, hraw]; rfl)

end Sys2Proof.Machine
end

section
/-! SUPPORT. No operation of a unit reads CMD or the place of the sequencer. -/

namespace Sys2Proof.Machine

open Sys2Proof Sys2Proof.Reference
open Sys2Proof.Config (BufName)

/-- `s` with another code in CMD and another place of the sequencer; with the same code it is `goTo q s`, by `rfl`. -/
def relabel (c : Byte → Byte) (q : Seq) (s : State) : State := { s with cmd := c s.cmd, seq := q }

/-- The same for a flow; a command that a fault has ended stays idle. -/
def Flow.relabelled (c : Byte → Byte) (q : Seq) : Flow → Flow
  | .go s => .go (relabel c q s)
  | .ended s => .ended { s with cmd := c s.cmd }

section Relabel

variable (c : Byte → Byte) (q : Seq)

theorem Flow.relabelled_andThen {x : Flow} {f g : State → Flow}
    (h : ∀ t, g (relabel c q t) = (f t).relabelled c q) :
    (x.relabelled c q).andThen g = (x.andThen f).relabelled c q := by
  cases x with
  | go t => exact h t
  | ended t => rfl

theorem Flow.relabelled_ite {P : Prop} [Decidable P] {x y x' y' : Flow} (hx : x' = x.relabelled c q)
    (hy : y' = y.relabelled c q) : (if P then x' else y') = (if P then x else y).relabelled c q := by
  split_ifs
  · exact hx
  · exact hy

theorem relabel_rd (s : State) (b : BufName) (a : Nat) : (relabel c q s).rd b a = s.rd b a := by cases b <;> rfl

theorem relabel_asm (s : State) : (relabel c q s).asm = s.asm := rfl

theorem relabel_rdScr (s : State) (i : Nat) : (relabel c q s).rdScr i = s.rdScr i := rfl

theorem relabel_wr (s : State) (b : BufName) (a : Nat) (v : Byte) :
    (relabel c q s).wr b a v = relabel c q (s.wr b a v) := by cases b <;> rfl

theorem relabel_fill (b : BufName) (a : Nat) (f : Nat → Byte) (n : Nat) (s : State) :
    State.fill b a f n (relabel c q s) = relabel c q (State.fill b a f n s) := by
  induction n with
  | zero => rfl
  | succ n ih => rw [State.fill, ih, relabel_wr, State.fill]

theorem foldl_relabel {α : Type} {f g : State → α → State}
    (h : ∀ s x, g (relabel c q s) x = relabel c q (f s x)) (l : List α) (s : State) : l.foldl g (relabel c q s) = relabel c q (l.foldl f s) := by
  induction l generalizing s with
  | nil => rfl
  | cons x l ih => rw [List.foldl_cons, List.foldl_cons, h, ih]

theorem iterate_relabel {f : State → State} (h : ∀ s, f (relabel c q s) = relabel c q (f s)) (n : Nat) (s : State) :
    f^[n] (relabel c q s) = relabel c q (f^[n] s) := by
  induction n generalizing s with
  | zero => rfl
  | succ n ih => rw [Function.iterate_succ_apply, Function.iterate_succ_apply, h, ih]

theorem times_relabel {f : State → Flow} (h : ∀ s, f (relabel c q s) = (f s).relabelled c q) (n : Nat) (s : State) :
    Flow.times f n (relabel c q s) = (Flow.times f n s).relabelled c q := by
  induction n generalizing s with
  | zero => rfl
  | succ n ih => rw [Flow.times_succ, Flow.times_succ, h, Flow.relabelled_andThen c q ih]

/-! ### LZD -/

theorem relabel_emitOne (v : Byte) (n : Nat) (s : State) :
    emitOne v n (relabel c q s) = (emitOne v n s).relabelled c q := Flow.relabelled_ite c q rfl rfl

theorem relabel_copyBytes (n : Nat) (s : State) : copyBytes n (relabel c q s) = relabel c q (copyBytes n s) := by
  induction n generalizing s with
  | zero => rfl
  | succ n ih => exact ih (copyByte s)

theorem relabel_lzdBref (o b : Byte) (s : State) :
    lzdBref o b (relabel c q s) = (lzdBref o b s).relabelled c q := by
  refine Flow.relabelled_ite c q rfl (Flow.relabelled_ite c q rfl ?_)
  have hbegin : beginCopy (latchBref o b (relabel c q s)) = relabel c q (beginCopy (latchBref o b s)) := rfl
  rw [hbegin, relabel_copyBytes]
  rfl

theorem relabel_lzdMark (m : Byte) (s : State) : lzdMark m (relabel c q s) = (lzdMark m s).relabelled c q :=
  Flow.relabelled_ite c q rfl rfl

theorem relabel_lzdStart (s : State) : lzdStart (relabel c q s) = (lzdStart s).relabelled c q := by
  rw [lzdStart_eq, lzdStart_eq, relabel_rd, relabel_lzdMark]

theorem relabel_lzdStep (s : State) : lzdStep (relabel c q s) = (lzdStep s).relabelled c q := by
  have htoken : tokenAt (relabel c q s) = tokenAt s := rfl
  unfold lzdStep
  rw [htoken]
  cases tokenAt s with
  | error e => rfl
  | ok p =>
    obtain ⟨i, rest⟩ := p
    cases i
    case lit b => exact relabel_emitOne c q b 1 (latchBytes (encode s.lzd.m (.lit b)) s)
    case esc => exact relabel_emitOne c q s.lzd.m 2 (latchBytes (encode s.lzd.m .esc) s)
    case bref o b => exact relabel_lzdBref c q o b (latchBytes (encode s.lzd.m (.bref o b)) s)
    all_goals rfl

/-! ### HDR, TSA and ETC -/

theorem relabel_hdrRun (s : State) : hdrRun (relabel c q s) = (hdrRun s).relabelled c q :=
  Flow.relabelled_ite c q rfl (Flow.relabelled_ite c q rfl
    (Flow.relabelled_ite c q rfl (Flow.relabelled_ite c q rfl rfl)))

theorem relabel_checkFormat (s : State) : checkFormat (relabel c q s) = (checkFormat s).relabelled c q :=
  Flow.relabelled_ite c q rfl rfl

theorem relabel_tsaStart (x y : Nat) (s : State) :
    tsaStart x y (relabel c q s) = (tsaStart x y s).relabelled c q := Flow.relabelled_ite c q rfl rfl

theorem relabel_scrambleStart (s : State) : scrambleStart (relabel c q s) = (scrambleStart s).relabelled c q :=
  Flow.relabelled_ite c q rfl (Flow.relabelled_ite c q rfl (relabel_tsaStart c q _ _ s))

theorem relabel_tsaStep (s : State) : tsaStep (relabel c q s) = relabel c q (tsaStep s) := rfl

theorem relabel_tsaSteps (n : Nat) (s : State) : tsaStep^[n] (relabel c q s) = relabel c q (tsaStep^[n] s) :=
  iterate_relabel c q (relabel_tsaStep c q) n s

theorem relabel_tsaRun (x y : Nat) (s : State) : tsaRun x y (relabel c q s) = (tsaRun x y s).relabelled c q := by
  rw [tsaRun, relabel_tsaStart]
  refine Flow.relabelled_andThen c q fun t => ?_
  have hcount : tsaCount (relabel c q t) = tsaCount t := rfl
  rw [hcount, relabel_tsaSteps]
  rfl

theorem relabel_decodePixel (flip : Bool) (p r : SubBlock) (s : State) (xy : BitVec 2 × BitVec 2) :
    decodePixel flip p r (relabel c q s) xy = relabel c q (decodePixel flip p r s xy) := by
  have hinputs : SamePixelInputs s (relabel c q s) := ⟨rfl, rfl, rfl⟩
  have halpha : ∀ i, pixelAlpha (relabel c q s) i = pixelAlpha s i := fun i => by
    simp only [pixelAlpha, hinputs.hasAlpha, relabel_rd]
  have hdelta : ∀ x y, pixelDelta (relabel c q s) flip p r x y = pixelDelta s flip p r x y := fun _ _ => rfl
  have hlatch : latchPixel (relabel c q s) flip p r xy.1 xy.2 = relabel c q (latchPixel s flip p r xy.1 xy.2) := by
    simp only [latchPixel, halpha, hdelta]
    rfl
  simp only [decodePixel, putPixel, halpha, hdelta, hlatch, relabel_wr]

theorem relabel_decodePixels (flip : Bool) (p r : SubBlock) (s : State) :
    decodePixels flip p r (relabel c q s) = relabel c q (decodePixels flip p r s) :=
  foldl_relabel c q (relabel_decodePixel c q flip p r) scanOrder s

theorem relabel_decodeInd (flip : Bool) (f : IndFields) (s : State) :
    decodeInd flip f (relabel c q s) = relabel c q (decodeInd flip f s) := by
  have hlatch : ∀ top bottom flip differential p r, latchBlock top bottom flip differential p r (relabel c q s) =
      relabel c q (latchBlock top bottom flip differential p r s) := fun _ _ _ _ _ _ => rfl
  rw [decodeInd, hlatch, relabel_decodePixels, decodeInd]

theorem relabel_decodeDif (flip : Bool) (f : DifFields) (s : State) :
    decodeDif flip f (relabel c q s) = relabel c q (decodeDif flip f s) := by
  have hlatch : ∀ top bottom flip differential p r,
      latchBlock top bottom flip differential p r (flagOverflow f (relabel c q s)) =
      relabel c q (latchBlock top bottom flip differential p r (flagOverflow f s)) := fun _ _ _ _ _ _ => rfl
  rw [decodeDif, hlatch, relabel_decodePixels, decodeDif]

theorem relabel_decodeAlpha (a : BitVec 64) (s : State) :
    decodeAlpha a (relabel c q s) = relabel c q (decodeAlpha a s) := by
  refine foldl_relabel c q (fun t xy => ?_) scanOrder s
  exact relabel_wr c q
    { t with etc := { t.etc with
        x := xy.1, y := xy.2, idx := BitVec.ofNat 4 (pixelIndex xy.1 xy.2)
        alpha := expAlpha (alphaNibble a (pixelIndex xy.1 xy.2)) } } .TILEOUT _ _

theorem relabel_blockOp (i : Instr) (s : State) : blockOp i (relabel c q s) = relabel c q (blockOp i s) := by
  cases i
  case etcIndNf f => exact relabel_decodeInd c q false f s
  case etcIndFl f => exact relabel_decodeInd c q true f s
  case etcDifNf f => exact relabel_decodeDif c q false f s
  case etcDifFl f => exact relabel_decodeDif c q true f s
  case etcA4 a => exact relabel_decodeAlpha c q a s
  all_goals rfl

theorem relabel_alphaHalf (s : State) :
    runBlock .alpha (alphaBytes (relabel c q s)) (relabel c q s) = relabel c q (runBlock .alpha (alphaBytes s) s) := by
  rw [runBlock_alpha, runBlock_alpha, relabel_decodeAlpha]
  simp only [relabel_rd]

theorem relabel_colourHalf (s : State) :
    runBlock .colour (colourBytes (relabel c q s)) (relabel c q s) =
      relabel c q (runBlock .colour (colourBytes s) s) := by
  rw [runBlock_colour, runBlock_colour, relabel_blockOp]
  simp only [relabel_rd]

theorem relabel_etcRun (s : State) : etcRun (relabel c q s) = relabel c q (etcRun s) := by
  have halpha : (relabel c q s).etc.hasAlpha = s.etc.hasAlpha := rfl
  unfold etcRun
  rw [halpha]
  cases s.etc.hasAlpha
  · exact relabel_colourHalf c q s
  · dsimp only
    rw [if_pos rfl, if_pos rfl, relabel_alphaHalf]
    exact relabel_colourHalf c q _

/-! ### ASM -/

theorem relabel_asmStart (p : AsmOperands) (s : State) : asmStart p (relabel c q s) = (asmStart p s).relabelled c q :=
  Flow.relabelled_ite c q rfl (Flow.relabelled_ite c q rfl (Flow.relabelled_ite c q rfl
    (Flow.relabelled_ite c q rfl (Flow.relabelled_ite c q rfl rfl))))

theorem relabel_asmFetch (s : State) : asmFetch (relabel c q s) = relabel c q (asmFetch s) := by
  have hbyte : ∀ j, tdByte (relabel c q s) j = tdByte s j := fun j => relabel_rd c q s _ _
  have hcolour : colourByte (relabel c q s) = colourByte s := funext fun j => by
    unfold colourByte
    rw [hbyte, hbyte]
    rfl
  have hbase : blockBase (relabel c q s) = blockBase s := rfl
  have halpha : (relabel c q s).asm.alpha = s.asm.alpha := rfl
  unfold asmFetch
  simp only [hcolour, hbyte, hbase, halpha]
  cases s.asm.alpha
  · exact relabel_fill c q _ _ _ _ s
  · rw [if_pos rfl, if_pos rfl, relabel_fill, relabel_fill]

theorem relabel_putTile (dst : BufName) (k : Nat) (row : Nat → Nat → Byte) (s : State) :
    putTile dst k row (relabel c q s) = relabel c q (putTile dst k row s) :=
  foldl_relabel c q (fun t r =>
    relabel_fill c q dst _ (row r) 16 { t with asm := { t.asm with r := BitVec.ofNat 2 r } }) [0, 1, 2, 3] s

theorem relabel_asmStore (s : State) : asmStore (relabel c q s) = relabel c q (asmStore s) := by
  simp only [asmStore, relabel_asm, relabel_rd, relabel_putTile]
  generalize putTile .IMG0 s.asm.s.toNat _ s = v
  rfl

theorem relabel_asmBlock (s : State) : asmBlock (relabel c q s) = relabel c q (asmBlock s) := by
  rw [asmBlock, relabel_asmFetch, relabel_etcRun, relabel_asmStore, asmBlock]

theorem relabel_forget (s : State) (b : BufName) : (relabel c q s).forget b = relabel c q (s.forget b) := by
  cases b <;> rfl

theorem relabel_raise (e : FaultName) (info : Nat) (s : State) :
    raise e info (relabel c q s) = { raise e info s with cmd := c (raise e info s).cmd } := rfl

theorem relabel_scrRange (s : State) :
    Flow.ended (scrRange (relabel c q s)) = (Flow.ended (scrRange s)).relabelled c q := by
  simp only [scrRange, relabel_asm, relabel_forget]
  exact congrArg Flow.ended (relabel_raise c q .scrRange _ _)

theorem relabel_asmGather (s : State) : asmGather (relabel c q s) = (asmGather s).relabelled c q := by
  simp only [asmGather, relabel_asm, relabel_rd, relabel_rdScr, relabel_putTile]
  refine Flow.relabelled_ite c q (relabel_scrRange c q s) ?_
  generalize putTile .IMG1 s.asm.i.toNat _ s = v
  rfl

theorem relabel_asmStages (s : State) : asmStages (relabel c q s) = (asmStages s).relabelled c q := by
  have hblocks := iterate_relabel c q (relabel_asmBlock c q) s.asm.n.toNat s
  have hn : (relabel c q s).asm.n.toNat = s.asm.n.toNat := rfl
  have hx : (relabel c q s).asm.tilesX.toNat = s.asm.tilesX.toNat := rfl
  have hy : (relabel c q s).asm.tilesY.toNat = s.asm.tilesY.toNat := rfl
  unfold asmStages
  rw [hn, hx, hy, hblocks, relabel_tsaRun]
  refine Flow.relabelled_andThen c q fun t => ?_
  have hgather := times_relabel c q (relabel_asmGather c q) t.asm.n.toNat (beginGather t)
  have hbegin : beginGather (relabel c q t) = relabel c q (beginGather t) := rfl
  have hcount : (relabel c q t).asm.n.toNat = t.asm.n.toNat := rfl
  rw [hbegin, hcount, hgather]
  exact Flow.relabelled_andThen c q fun _ => rfl

theorem relabel_asmRun (p : AsmOperands) (s : State) : asmRun p (relabel c q s) = (asmRun p s).relabelled c q := by
  rw [asmRun, relabel_asmStart]
  exact Flow.relabelled_andThen c q (relabel_asmStages c q)

end Relabel

/-! ### CMD.DECODE_RAW with RAW_LZ = 0 -/

theorem finish_relabelled (c : Byte → Byte) (q : Seq) (x : Flow) :
    finish (x.relabelled c q) = { finish x with cmd := c (finish x).cmd } := by
  cases x <;> rfl

/-- Settles O33: the two launches differ in CMD only, and ASM does not read it. -/
theorem rawWithoutLzIsDecodeTex : Obligations.RawWithoutLzIsDecodeTex := by
  unfold Obligations.RawWithoutLzIsDecodeTex
  intro s hidle hraw
  refine ⟨command 5#8 (fun s => asmRun (operandsOfIn s) s) s, rfl, ?_⟩
  have hexec : exec .cmdDecodeRaw s = .next (command 7#8 rawRun s) := rfl
  rw [hexec, command_idle hidle, command_idle hidle, launch_reading s rfl rfl rfl, launch_reading s rfl rfl rfl]
  by_cases hcap : s.params.inCap.toNat < s.inLen.toNat
  · rw [if_pos hcap, if_pos hcap]
    rfl
  · have hbody : rawRun (acknowledge 7#8 s) =
        (asmRun (operandsOfIn s) (acknowledge 5#8 s)).relabelled (fun _ => 7#8) s.seq := by
      rw [← relabel_asmRun]
      exact if_neg (by rw [show (acknowledge 7#8 s).ctrl.rawLz = false from hraw]; nofun)
    rw [if_neg hcap, if_neg hcap, Flow.go_andThen, Flow.go_andThen, hbody, finish_relabelled]
    rfl

end Sys2Proof.Machine
end

section
/-! SUPPORT. The sequencer: unit step by unit step a launched command reaches the state in which the atomic command ends
(R329). One lemma per place, each saying what is left to do there. -/

namespace Sys2Proof.Machine

/-! ### Runs of steps -/

/-- `n` steps of the machine lead from `s` to `t`. -/
inductive Steps : Nat → State → State → Prop
  | zero (s : State) : Steps 0 s s
  | succ {n : Nat} {s t u : State} (h : step s = .next t) (rest : Steps n t u) : Steps (n + 1) s u

/-- Some number of steps leads from `s` to `t`. -/
def Reach (s t : State) : Prop := ∃ n, Steps n s t

theorem run_succ_of_step {M : Host.Core} {s t : M.State} (n : Nat) (h : M.step s = .next t) :
    M.run (n + 1) s = M.run n t := by
  rw [Host.Core.run, h]

theorem Steps.run {n : Nat} {s t : State} (h : Steps n s t) : Host.Core.run Sys2Proof.core n s = .next t := by
  induction h with
  | zero s => rfl
  | succ h _ ih => exact (run_succ_of_step (M := Sys2Proof.core) _ h).trans ih

theorem Steps.one {s t : State} (h : step s = .next t) : Steps 1 s t := .succ h (.zero t)

theorem Steps.add {n m : Nat} {s t u : State} (h : Steps n s t) (h' : Steps m t u) : Steps (n + m) s u := by
  induction h with
  | zero s => rwa [Nat.zero_add]
  | succ h _ ih =>
    rw [Nat.succ_add]
    exact .succ h (ih h')

theorem Reach.refl (s : State) : Reach s s := ⟨0, Steps.zero s⟩

theorem Steps.reach {n : Nat} {s t : State} (h : Steps n s t) : Reach s t := ⟨n, h⟩

theorem Reach.trans {s t u : State} (h : Reach s t) (h' : Reach t u) : Reach s u := by
  obtain ⟨n, hn⟩ := h
  obtain ⟨m, hm⟩ := h'
  exact ⟨n + m, hn.add hm⟩

/-! ### A flow and what follows it -/

/-- The state after a flow: `f` of where it goes on, or the state in which a fault ended it. -/
def Flow.thenDo (f : State → State) : Flow → State
  | .go s => f s
  | .ended s => s

theorem Flow.thenGo_eq (q : Seq) (x : Flow) : x.thenGo q = x.thenDo (goTo q) := by cases x <;> rfl

theorem finish_eq (x : Flow) : finish x = x.thenDo complete := by cases x <;> rfl

theorem finish_andThen (x : Flow) (f : State → Flow) : finish (x.andThen f) = x.thenDo fun t => finish (f t) := by
  cases x <;> rfl

theorem Flow.state_relabelled (q : Seq) (x : Flow) : (x.relabelled id q).state = x.thenDo (goTo q) := by
  cases x <;> rfl

/-- What follows a flow does not see the place the flow was run at, if it sets a place of its own. -/
theorem Flow.thenDo_relabelled {f : State → State} {q : Seq} (hf : ∀ t, f (goTo q t) = f t) (x : Flow) :
    (x.relabelled id q).thenDo f = x.thenDo f := by
  cases x with
  | go t => exact hf t
  | ended t => rfl

theorem reach_thenDo {x : Flow} {f g : State → State} (h : ∀ t, x = .go t → Reach (f t) (g t)) :
    Reach (x.thenDo f) (x.thenDo g) := by
  cases x with
  | go t => exact h t rfl
  | ended t => exact Reach.refl t

/-! ### A running command -/

/-- The command `c` runs, with nothing pending; `raw` is RAW_LZ. -/
structure Ready (c : Byte) (raw : Bool) (s : State) : Prop where
  busy : s.status.busy = true
  host : s.host = []
  cmd : s.cmd = c
  rawLz : s.ctrl.rawLz = raw

section Ready

variable {c : Byte} {raw : Bool} {s t : State} {x : Flow}

theorem Ready.of_sansResults (h : Ready c raw s) (hs : StandsAt s t) (hf : sansResults t = sansResults s) :
    Ready c raw t where
  busy := hs.busy.trans h.busy
  host := (congrArg State.host hf :).trans h.host
  cmd := (congrArg State.cmd hf :).trans h.cmd
  rawLz := (congrArg (fun u => u.ctrl.rawLz) hf :).trans h.rawLz

/-- A flow that goes on leaves the command running. -/
theorem Ready.of_go (h : Ready c raw s) (hs : x.Sound s) (hf : x.both fun t => sansResults t = sansResults s)
    (hx : x = .go t) : Ready c raw t := by
  subst hx
  exact h.of_sansResults hs hf

theorem Ready.lzdRun (h : Ready c raw s) (hx : lzdRun s = .go t) : Ready c raw t :=
  h.of_go (sound_lzdRun (StandsAt.refl s)) (sansResults_of_sansLzd (sansLzd_lzdRun s)) hx

theorem Ready.lzdMark {m : Byte} (h : Ready c raw s) (hx : lzdMark m s = .go t) : Ready c raw t :=
  h.of_go (sound_lzdMark m (StandsAt.refl s)) (sansResults_of_sansLzd (sansLzd_lzdMark m s)) hx

theorem Ready.lzdStep (h : Ready c raw s) (hi : s.lzd.ip.toNat < s.inLen.toNat) (hx : lzdStep s = .go t) :
    Ready c raw t :=
  h.of_go (sound_lzdStep hi (StandsAt.refl s)) (sansResults_of_sansLzd (sansLzd_lzdStep hi)) hx

theorem Ready.hdrRun (h : Ready c raw s) (hx : hdrRun s = .go t) : Ready c raw t :=
  h.of_go (sound_hdrRun (StandsAt.refl s)) (sansResults_of_sansHdr (sansHdr_hdrRun s)) hx

theorem Ready.checkFormat (h : Ready c raw s) (hx : checkFormat s = .go t) : Ready c raw t :=
  h.of_go (sound_checkFormat (StandsAt.refl s)) (sansResults_of_sansHdr (sansHdr_checkFormat s)) hx

theorem Ready.blockOp (h : Ready c raw s) (i : Instr) : Ready c raw (blockOp i s) := by
  obtain ⟨m, e, v, he, -⟩ := blockOp_only i s
  rw [he]
  exact ⟨h.busy, h.host, h.cmd, h.rawLz⟩

theorem Ready.etcRun (h : Ready c raw s) : Ready c raw (etcRun s) := by
  obtain ⟨m, e, v, he, -⟩ := etcRun_only s
  rw [he]
  exact ⟨h.busy, h.host, h.cmd, h.rawLz⟩

theorem Ready.asmFetch (h : Ready c raw s) : Ready c raw (asmFetch s) := by
  obtain ⟨c, a, hf, -⟩ := asmFetch_eq s
  rw [hf]
  exact ⟨h.busy, h.host, h.cmd, h.rawLz⟩

theorem Ready.asmBlock (h : Ready c raw s) : Ready c raw (asmBlock s) := by
  obtain ⟨c, a, m, i, e, v, he, -⟩ := asmBlock_eq s
  rw [he]
  exact ⟨h.busy, h.host, h.cmd, h.rawLz⟩

theorem Ready.tsaStart {x y : Nat} (h : Ready c raw s) (hx : tsaStart x y s = .go t) : Ready c raw t := by
  obtain ⟨-, he⟩ | ⟨-, he⟩ := tsaStart_cases x y s <;> rw [he] at hx <;> cases hx
  exact ⟨h.busy, h.host, h.cmd, h.rawLz⟩

theorem Ready.tsaStep (h : Ready c raw s) : Ready c raw (tsaStep s) := by
  rw [tsaStep_eq]
  exact ⟨h.busy, h.host, h.cmd, h.rawLz⟩

theorem Ready.asmStart {p : AsmOperands} (h : Ready c raw s) (hx : asmStart p s = .go t) : Ready c raw t := by
  obtain ⟨e, n, he⟩ | ⟨-, -, -, -, -, he⟩ := asmStart_cases p s <;> rw [he] at hx <;> cases hx
  exact ⟨h.busy, h.host, h.cmd, h.rawLz⟩

theorem Ready.asmGather (h : Ready c raw s) (hx : asmGather s = .go t) : Ready c raw t := by
  obtain ⟨-, he⟩ | ⟨-, m, he⟩ := asmGather_cases s <;> rw [he] at hx <;> cases hx
  exact ⟨h.busy, h.host, h.cmd, h.rawLz⟩

/-- A unit step at the place `q`. -/
theorem Ready.steps_unit (h : Ready c raw s) (q : Seq) : Steps 1 (goTo q s) (unitNext (goTo q s)) :=
  Steps.one (step_running h.busy h.host)

theorem Ready.reach_unit (h : Ready c raw s) (q : Seq) : Reach (goTo q s) (unitNext (goTo q s)) :=
  (h.steps_unit q).reach

end Ready

/-! ### LZD -/

section Lzd

variable {c : Byte} {raw : Bool} {s t : State}

/-- A token that is not the last moves `ip` on, inside the stream (R122). -/
theorem lzdStep_ip (hi : s.lzd.ip.toNat < s.inLen.toNat) (h : lzdStep s = .go t) :
    s.lzd.ip.toNat < t.lzd.ip.toNat ∧ t.inLen = s.inLen := by
  have hlen := s.inLen.isLt
  have hnext : ∀ n, 0 < n → s.lzd.ip.toNat + n ≤ s.inLen.toNat →
      s.lzd.ip.toNat < (BitVec.ofNat 32 (s.lzd.ip.toNat + n)).toNat := fun n hn hle => by
    rw [BitVec.toNat_ofNat, Nat.mod_eq_of_lt (by omega)]
    omega
  have hone : ∀ {v n u}, emitOne v n u = .go t → u.lzd.ip = s.lzd.ip → u.inLen = s.inLen → 0 < n →
      s.lzd.ip.toNat + n ≤ s.inLen.toNat → s.lzd.ip.toNat < t.lzd.ip.toNat ∧ t.inLen = s.inLen :=
    fun {v n u} he hip hin hn hle => by
      obtain ⟨-, hc⟩ | ⟨-, hc⟩ := emitOne_cases v n u <;> rw [hc] at he <;> cases he
      refine ⟨?_, hin⟩
      show _ < (BitVec.ofNat 32 (u.lzd.ip.toNat + n)).toNat
      rw [hip]
      exact hnext n hn hle
  obtain ⟨-, he⟩ | ⟨-, -, he⟩ | ⟨-, hl, -, he⟩ | ⟨-, -, -, he⟩ | ⟨-, hl, -, he⟩ := lzdStep_cases hi <;> rw [he] at h
  · exact hone h rfl rfl Nat.one_pos (by omega)
  · cases h
  · exact hone h rfl rfl Nat.two_pos (by omega)
  · cases h
  · obtain ⟨-, hc⟩ | ⟨-, -, -, hc⟩ | ⟨-, -, -, hc⟩ := lzdBref_cases _ _ _ <;> rw [hc] at h <;> cases h
    obtain ⟨m, hm⟩ := copyBytes_eq _ (beginCopy (latchBref _ _ _))
    rw [hm]
    exact ⟨hnext 3 (by omega) (by omega), rfl⟩

/-- The termination step (R127). -/
theorem Ready.steps_lzdEnd (h : Ready c raw s) (hi : s.inLen.toNat ≤ s.lzd.ip.toNat) :
    Steps 1 (goTo .token s) (afterLzd s) := by
  have hunit : unitNext (goTo .token s) = afterLzd s := if_pos hi
  rw [← hunit]
  exact h.steps_unit .token

/-- The token loop, with room for the rest of the stream. -/
theorem steps_lzdLoop (k : Nat) (h : Ready c raw s) (hk : s.inLen.toNat - s.lzd.ip.toNat ≤ k) :
    ∃ n ≤ s.inLen.toNat - s.lzd.ip.toNat + 1, Steps n (goTo .token s) ((lzdLoop k s).thenDo afterLzd) := by
  induction k generalizing s with
  | zero => exact ⟨1, by omega, h.steps_lzdEnd (by omega)⟩
  | succ k ih =>
    by_cases hi : s.inLen.toNat ≤ s.lzd.ip.toNat
    · rw [lzdLoop_end _ hi]
      exact ⟨1, by omega, h.steps_lzdEnd hi⟩
    · have hunit : unitNext (goTo .token s) = (lzdStep s).thenDo (goTo .token) := by
        rw [← Flow.state_relabelled, ← relabel_lzdStep]
        exact if_neg hi
      have hstep := h.steps_unit .token
      rw [hunit] at hstep
      rw [lzdLoop_succ, if_neg hi]
      cases hx : lzdStep s with
      | ended t =>
        rw [hx] at hstep
        exact ⟨1, by omega, hstep⟩
      | go t =>
        rw [hx] at hstep
        obtain ⟨hip, hlen⟩ := lzdStep_ip (Nat.lt_of_not_le hi) hx
        obtain ⟨n, hn, hsteps⟩ := ih (h.lzdStep (Nat.lt_of_not_le hi) hx) (by rw [hlen]; omega)
        exact ⟨1 + n, by rw [hlen] at hn; omega, hstep.add hsteps⟩

/-- LZD from its start step to its termination step (R127). -/
theorem steps_lzdRun (h : Ready c raw s) :
    ∃ n ≤ s.inLen.toNat + 1, Steps n (goTo .mark s) ((lzdRun s).thenDo afterLzd) := by
  have hunit : unitNext (goTo .mark s) = (lzdMark (s.rd .IN 0) s).thenDo (goTo .token) := by
    show (lzdStart (relabel id .mark s)).thenGo .token = _
    rw [relabel_lzdStart, Flow.thenGo_eq, Flow.thenDo_relabelled (fun _ => rfl), lzdStart_eq]
  have hstep := h.steps_unit .mark
  rw [hunit] at hstep
  rw [lzdRun, lzdStart_eq]
  obtain ⟨-, hx⟩ | ⟨hlen, hx⟩ := lzdMark_cases (s.rd .IN 0) s
  · rw [hx] at hstep ⊢
    exact ⟨1, by omega, hstep⟩
  · have hready := h.lzdMark hx
    rw [hx] at hstep ⊢
    obtain ⟨n, hn, hsteps⟩ := steps_lzdLoop s.inLen.toNat hready (Nat.sub_le _ _)
    refine ⟨1 + n, ?_, hstep.add hsteps⟩
    have hone : n ≤ s.inLen.toNat - 1 + 1 := hn
    omega

end Lzd

end Sys2Proof.Machine
end

section
/-! SUPPORT. ETC, TSA, ASM and HDR unit step by unit step, and from the places of each command its atomic end (R329). -/

namespace Sys2Proof.Machine

variable {c : Byte} {raw : Bool} {s t : State}

/-! ### What a unit step does at a place -/

theorem goTo_relabel (q q' : Seq) (s : State) : goTo q (relabel id q' s) = goTo q s := rfl

theorem blockSeq_relabel (q : Seq) (s : State) : blockSeq (relabel id q s) = blockSeq s := rfl

theorem unitNext_colour (s : State) :
    unitNext (goTo .colour s) = afterColour (runBlock .colour (colourBytes s) s) := by
  show afterColour (runBlock .colour (colourBytes (relabel id .colour s)) (relabel id .colour s)) = _
  rw [relabel_colourHalf]
  rfl

theorem unitNext_alpha (s : State) :
    unitNext (goTo .alpha s) = goTo .colour (runBlock .alpha (alphaBytes s) s) := by
  show goTo .colour (runBlock .alpha (alphaBytes (relabel id .alpha s)) (relabel id .alpha s)) = _
  rw [relabel_alphaHalf, goTo_relabel]

theorem unitNext_store (s : State) : unitNext (goTo .store s) = goTo .block (asmStore s) := by
  have hrelabel := relabel_asmStore id .store s
  rw [unitNext, ← goTo_relabel .block .store (asmStore s), ← hrelabel]
  rfl

theorem unitNext_fetch (h : s.asm.s.toNat < s.asm.n.toNat) :
    unitNext (goTo .block s) = goTo (blockSeq (asmFetch s)) (asmFetch s) := by
  show blockStep (relabel id .block s) = _
  rw [blockStep, relabel_asm, if_pos h, relabel_asmFetch, goTo_relabel, blockSeq_relabel]

theorem unitNext_blocksEnd (h : ¬ s.asm.s.toNat < s.asm.n.toNat) :
    unitNext (goTo .block s) = (tsaStart s.asm.tilesX.toNat s.asm.tilesY.toNat s).thenDo (goTo .table) := by
  show blockStep (relabel id .block s) = _
  rw [blockStep, relabel_asm, if_neg h, relabel_tsaStart, Flow.thenGo_eq, Flow.thenDo_relabelled fun _ => rfl]

theorem unitNext_scramble (s : State) : unitNext (goTo .scramble s) = (scrambleStart s).thenDo (goTo .table) := by
  show (scrambleStart (relabel id .scramble s)).thenGo .table = _
  rw [relabel_scrambleStart, Flow.thenGo_eq, Flow.thenDo_relabelled fun _ => rfl]

theorem unitNext_gather (h : s.asm.i.toNat < s.asm.n.toNat) :
    unitNext (goTo .gather s) = (asmGather s).thenDo (goTo .gather) := by
  rw [← Flow.state_relabelled, ← relabel_asmGather]
  exact if_pos h

/-! ### ETC -/

/-- A block's instructions, from its first (R104). -/
theorem reach_etcRun (h : Ready c raw s) : Reach (goTo (blockSeq s) s) (afterColour (etcRun s)) := by
  cases ha : s.etc.hasAlpha with
  | false =>
    have hrun : etcRun s = runBlock .colour (colourBytes s) s := by simp [etcRun, ha]
    have hseq : blockSeq s = .colour := by simp [blockSeq, ha]
    rw [hrun, hseq, ← unitNext_colour]
    exact h.reach_unit .colour
  | true =>
    have hrun : etcRun s = runBlock .colour (colourBytes (runBlock .alpha (alphaBytes s) s))
        (runBlock .alpha (alphaBytes s) s) := by simp [etcRun, ha]
    have hseq : blockSeq s = .alpha := by simp [blockSeq, ha]
    have halpha := h.reach_unit .alpha
    rw [unitNext_alpha] at halpha
    rw [hrun, hseq, ← unitNext_colour]
    exact halpha.trans ((h.blockOp (.etcA4 _)).reach_unit .colour)

/-! ### ASM's stage 1 -/

/-- One block of stage 1 (R233, R234). -/
theorem reach_asmBlock (h : Ready c raw s) (hc : c ≠ 3#8) (hs : s.asm.s.toNat < s.asm.n.toNat) :
    Reach (goTo .block s) (goTo .block (asmBlock s)) := by
  have hfetch := h.reach_unit .block
  rw [unitNext_fetch hs] at hfetch
  have hetc := reach_etcRun h.asmFetch
  have hready := h.asmFetch.etcRun
  rw [afterColour, if_neg (by rw [hready.cmd]; exact hc)] at hetc
  have hstore := hready.reach_unit .store
  rw [unitNext_store] at hstore
  exact (hfetch.trans hetc).trans hstore

theorem asmBlock_asm (s : State) : (asmBlock s).asm = { s.asm with r := 3#2, s := s.asm.s + 1#28 } := by
  obtain ⟨c, a, m, i, e, v, he, -⟩ := asmBlock_eq s
  rw [he]

/-- Stage 1, `k` blocks of it (R234). -/
theorem reach_asmBlocks (k : Nat) (h : Ready c raw s) (hc : c ≠ 3#8) (hk : s.asm.s.toNat + k ≤ s.asm.n.toNat) :
    Reach (goTo .block s) (goTo .block (asmBlock^[k] s)) := by
  induction k generalizing s with
  | zero => exact Reach.refl _
  | succ k ih =>
    have hn := s.asm.n.isLt
    have hnext : (asmBlock s).asm.s.toNat = s.asm.s.toNat + 1 := by
      rw [asmBlock_asm]
      show (s.asm.s + 1#28).toNat = _
      rw [BitVec.toNat_add, show (1#28).toNat = 1 from rfl, Nat.mod_eq_of_lt (by omega)]
    have hsame : (asmBlock s).asm.n = s.asm.n := by rw [asmBlock_asm]
    rw [Function.iterate_succ_apply]
    exact (reach_asmBlock h hc (by omega)).trans (ih h.asmBlock (by rw [hnext, hsame]; omega))

/-! ### TSA -/

/-- What follows the table: the end of CMD.BUILD_SCRAMBLE (R254), or stage 3 (R235, R236). -/
def afterTable (s : State) : State :=
  if s.cmd = 4#8 then complete (tsaEnd s) else goTo .gather (beginGather (tsaEnd s))

theorem tableStep_goTo (s : State) (h : ¬ s.tsa.t.toNat < tsaCount s) : tableStep (goTo .table s) = afterTable s :=
  if_neg h

/-- The positions that are left, and the end of the table (R212, R216). -/
theorem reach_table (k : Nat) (h : Ready c raw s) (hk : s.tsa.t.toNat + k = tsaCount s) :
    Reach (goTo .table s) (afterTable (tsaStep^[k] s)) := by
  induction k generalizing s with
  | zero =>
    have hunit : unitNext (goTo .table s) = afterTable s := tableStep_goTo s (by omega)
    rw [Function.iterate_zero_apply, ← hunit]
    exact h.reach_unit .table
  | succ k ih =>
    have hlt : tsaCount s < 2 ^ 14 * 2 ^ 14 := Nat.mul_lt_mul'' s.tsa.tilesX.isLt s.tsa.tilesY.isLt
    have hunit : unitNext (goTo .table s) = goTo .table (tsaStep s) :=
      if_pos (show s.tsa.t.toNat < tsaCount s by omega)
    have hnext : (tsaStep s).tsa.t.toNat = s.tsa.t.toNat + 1 := by
      rw [tsaStep_eq]
      show (tsaNext s.tsa).t.toNat = _
      rw [(tsaNext_kept s.tsa).1, BitVec.toNat_add, show (1#32).toNat = 1 from rfl, Nat.mod_eq_of_lt (by omega)]
    have hstep := h.reach_unit .table
    rw [hunit] at hstep
    rw [Function.iterate_succ_apply]
    exact hstep.trans (ih h.tsaStep (by rw [hnext, tsaCount_step]; omega))

/-- A started build (R211 to R216). -/
theorem reach_tsaInit {x y : Nat} (h : Ready c raw s) :
    Reach (goTo .table (tsaInit x y s)) (afterTable (tsaStep^[tsaCount (tsaInit x y s)] (tsaInit x y s))) :=
  reach_table _ ⟨h.busy, h.host, h.cmd, h.rawLz⟩ (Nat.zero_add _)

/-- CMD.BUILD_SCRAMBLE (R254). -/
theorem reach_scrambleRun (h : Ready 4#8 raw s) : Reach (goTo .scramble s) (finish (scrambleRun s)) := by
  have hstep := h.reach_unit .scramble
  rw [unitNext_scramble] at hstep
  rw [scrambleRun, finish_andThen]
  refine hstep.trans (reach_thenDo fun t ht => ?_)
  obtain ⟨x, y, rfl⟩ : ∃ x y, t = tsaInit x y s := by
    unfold scrambleStart at ht
    split_ifs at ht
    · cases ht
    · cases ht
    · obtain ⟨-, he⟩ | ⟨-, he⟩ := tsaStart_cases (s.width.toNat / 4) (s.height.toNat / 4) s <;>
        rw [he] at ht <;> cases ht
      exact ⟨_, _, rfl⟩
  have hcmd : (tsaStep^[tsaCount (tsaInit x y s)] (tsaInit x y s)).cmd = 4#8 := by
    obtain ⟨m, hm⟩ := tsaStep_iterate_eq (tsaCount (tsaInit x y s)) (tsaInit x y s)
    rw [hm]
    exact h.cmd
  have hend := reach_tsaInit (x := x) (y := y) h
  rw [afterTable, if_pos hcmd] at hend
  exact hend

/-! ### ASM's stage 3 -/

/-- What is left of stage 3 with `k` tiles to go, and the result (R236, R238). -/
def gathered (k : Nat) (s : State) : State := finish ((Flow.times asmGather k s).andThen fun t => .go (asmEnd t))

theorem gathered_succ (k : Nat) (s : State) : gathered (k + 1) s = (asmGather s).thenDo (gathered k) := by
  rw [gathered, Flow.times_succ, Flow.andThen_assoc, finish_andThen]
  rfl

theorem asmGather_asm (h : asmGather s = .go t) : t.asm = { s.asm with r := 3#2, i := s.asm.i + 1#28 } := by
  obtain ⟨-, he⟩ | ⟨-, m, he⟩ := asmGather_cases s <;> rw [he] at h <;> cases h
  rfl

/-- Stage 3 (R236 to R238). -/
theorem reach_gather (k : Nat) (h : Ready c raw s) (hk : s.asm.i.toNat + k = s.asm.n.toNat) :
    Reach (goTo .gather s) (gathered k s) := by
  have hstep := h.reach_unit .gather
  induction k generalizing s with
  | zero =>
    have hunit : unitNext (goTo .gather s) = gathered 0 s :=
      if_neg (show ¬ s.asm.i.toNat < s.asm.n.toNat by omega)
    rw [← hunit]
    exact hstep
  | succ k ih =>
    rw [unitNext_gather (by omega)] at hstep
    rw [gathered_succ]
    refine hstep.trans (reach_thenDo fun t ht => ?_)
    have hn := s.asm.n.isLt
    have hasm := asmGather_asm ht
    have hnext : t.asm.i.toNat = s.asm.i.toNat + 1 := by
      rw [hasm]
      show (s.asm.i + 1#28).toNat = _
      rw [BitVec.toNat_add, show (1#28).toNat = 1 from rfl, Nat.mod_eq_of_lt (by omega)]
    have hready := h.asmGather ht
    exact ih hready (by rw [hnext, hasm]; show _ = s.asm.n.toNat; omega) (hready.reach_unit .gather)

/-! ### ASM -/

theorem asmBlocks_asm (k : Nat) (s : State) :
    ∃ r, (asmBlock^[k] s).asm = { s.asm with r := r, s := s.asm.s + BitVec.ofNat 28 k } := by
  induction k with
  | zero => exact ⟨s.asm.r, by simp⟩
  | succ k ih =>
    obtain ⟨r, hr⟩ := ih
    refine ⟨3#2, ?_⟩
    rw [Function.iterate_succ_apply', asmBlock_asm, hr, BitVec.ofNat_add, ← BitVec.add_assoc]

/-- The three stages of a run that is at its start (R234 to R238). -/
theorem reach_asmStages (h : Ready c raw s) (h3 : c ≠ 3#8) (h4 : c ≠ 4#8) (hs : s.asm.s = 0#28)
    (hi : s.asm.i = 0#28) :
    Reach (goTo .block s) (finish (asmStages s)) := by
  have hblocks := reach_asmBlocks s.asm.n.toNat h h3 (by rw [hs]; exact (Nat.zero_add _).le)
  refine hblocks.trans ?_
  obtain ⟨r, hasm⟩ := asmBlocks_asm s.asm.n.toNat s
  have hready : Ready c raw (asmBlock^[s.asm.n.toNat] s) :=
    iterate_keeps (P := Ready c raw) (fun _ hu => hu.asmBlock) _ s h
  rw [asmStages, tsaRun, Flow.andThen_assoc]
  generalize asmBlock^[s.asm.n.toNat] s = u at hready hasm
  have hstep := hready.reach_unit .block
  rw [unitNext_blocksEnd (by rw [hasm]; simp [hs]), hasm] at hstep
  rw [finish_andThen]
  refine hstep.trans (reach_thenDo fun t ht => ?_)
  obtain ⟨-, he⟩ | ⟨-, he⟩ := tsaStart_cases s.asm.tilesX.toNat s.asm.tilesY.toNat u <;>
    rw [he] at ht <;> cases ht
  refine (reach_tsaInit hready).trans ?_
  obtain ⟨m, hm⟩ := tsaStep_iterate_eq (tsaCount (tsaInit s.asm.tilesX.toNat s.asm.tilesY.toNat u))
    (tsaInit s.asm.tilesX.toNat s.asm.tilesY.toNat u)
  rw [Flow.go_andThen]
  generalize tsaStep^[_] _ = v at hm
  have hbuilt : v.asm = u.asm := by rw [hm]; rfl
  have hv : Ready c raw v := by rw [hm]; exact ⟨hready.busy, hready.host, hready.cmd, hready.rawLz⟩
  rw [afterTable, if_neg (by rw [hv.cmd]; exact h4)]
  have hgather : Ready c raw (beginGather (tsaEnd v)) := ⟨hv.busy, hv.host, hv.cmd, hv.rawLz⟩
  refine reach_gather (s := beginGather (tsaEnd v)) v.asm.n.toNat hgather ?_
  show v.asm.i.toNat + v.asm.n.toNat = v.asm.n.toNat
  rw [hbuilt, hasm]
  simp [hi]

end Sys2Proof.Machine
end

section
/-! SUPPORT. Each command from where it is launched to its atomic end (R329), and the bound of R327 for LZD. -/

namespace Sys2Proof.Machine

variable {c : Byte} {raw : Bool} {s t : State}

/-! ### ASM and HDR in their commands -/

theorem relabel_assembleStart (q : Seq) (s : State) :
    assembleStart (relabel id q s) = (assembleStart s).relabelled id q := by
  refine Flow.relabelled_ite id q ?_
    (Flow.relabelled_ite id q (relabel_asmStart id q _ s) (relabel_asmStart id q _ s))
  rw [relabel_checkFormat]
  exact Flow.relabelled_andThen id q fun t => relabel_asmStart id q _ t

/-- What follows the checks of ASM finds a run at its start (R34). -/
theorem assembleStart_go (h : Ready c raw s) (hx : assembleStart s = .go t) :
    Ready c raw t ∧ t.asm.s = 0#28 ∧ t.asm.i = 0#28 := by
  have hstart : ∀ {p u}, Ready c raw u → asmStart p u = .go t → Ready c raw t ∧ t.asm.s = 0#28 ∧ t.asm.i = 0#28 :=
    fun {p u} hu hp => by
      refine ⟨hu.asmStart hp, ?_⟩
      obtain ⟨e, n, he⟩ | ⟨-, -, -, -, -, he⟩ := asmStart_cases p u <;> rw [he] at hp <;> cases hp
      exact ⟨rfl, rfl⟩
  unfold assembleStart at hx
  split_ifs at hx
  · cases hf : checkFormat s with
    | ended u => rw [hf] at hx; cases hx
    | go u =>
      rw [hf] at hx
      exact hstart (h.checkFormat hf) hx
  · exact hstart h hx
  · exact hstart h hx

/-- ASM in the running command (R230). -/
theorem reach_assemble (h : Ready c raw s) (h3 : c ≠ 3#8) (h4 : c ≠ 4#8) :
    Reach (goTo .assemble s) (finish ((assembleStart s).andThen asmStages)) := by
  have hunit : unitNext (goTo .assemble s) = (assembleStart s).thenDo (goTo .block) := by
    show (assembleStart (relabel id .assemble s)).thenGo .block = _
    rw [relabel_assembleStart, Flow.thenGo_eq, Flow.thenDo_relabelled fun _ => rfl]
  have hstep := h.reach_unit .assemble
  rw [hunit] at hstep
  rw [finish_andThen]
  refine hstep.trans (reach_thenDo fun t ht => ?_)
  obtain ⟨hready, hs, hi⟩ := assembleStart_go h ht
  exact reach_asmStages hready h3 h4 hs hi

/-- What follows HDR's success in the running command (R252, R256). -/
def afterParse (s : State) : State := if s.cmd = 6#8 then goTo .assemble s else complete s

/-- HDR in the running command (R150). -/
theorem reach_header (h : Ready c raw s) : Reach (goTo .header s) ((hdrRun s).thenDo afterParse) := by
  have hunit : unitNext (goTo .header s) = (hdrRun s).thenDo afterParse := by
    show afterHeader (hdrRun (relabel id .header s)) = _
    rw [relabel_hdrRun]
    cases hdrRun s <;> rfl
  rw [← hunit]
  exact h.reach_unit .header

/-! ### The commands -/

/-- CMD.DECOMPRESS (R251), with the bound of R327. -/
theorem steps_decompress (h : Ready 1#8 raw s) :
    ∃ n ≤ s.inLen.toNat + 1, Steps n (goTo .mark s) (finish (lzdRun s)) := by
  obtain ⟨n, hn, hsteps⟩ := steps_lzdRun h
  refine ⟨n, hn, ?_⟩
  have hend : (lzdRun s).thenDo afterLzd = finish (lzdRun s) := by
    rw [finish_eq]
    cases hx : lzdRun s with
    | ended t => rfl
    | go t =>
      have hcmd := (h.lzdRun hx).cmd
      show afterLzd t = complete t
      rw [afterLzd, hcmd]
      rfl
  rwa [← hend]

/-- CMD.PARSE_HEADER (R252). -/
theorem reach_parseHeader (h : Ready 2#8 raw s) : Reach (goTo .header s) (finish (hdrRun s)) := by
  rw [finish_eq]
  refine (reach_header h).trans (reach_thenDo fun t ht => ?_)
  rw [afterParse, if_neg (by rw [(h.hdrRun ht).cmd]; decide)]
  exact Reach.refl _

/-- CMD.DECODE_BLOCK (R253). -/
theorem reach_decodeBlock (h : Ready 3#8 raw s) : Reach (goTo (blockSeq s) s) (complete (etcRun s)) := by
  have hetc := reach_etcRun h
  rwa [afterColour, if_pos h.etcRun.cmd] at hetc

/-- CMD.DECODE_TEX (R255). -/
theorem reach_decodeTex (h : Ready 5#8 raw s) : Reach (goTo .assemble s) (finish (asmRun (operandsOfIn s) s)) := by
  have hstart : assembleStart s = asmStart (operandsOfIn s) s := by
    rw [assembleStart, h.cmd]
    rfl
  rw [asmRun, ← hstart]
  exact reach_assemble h (by decide) (by decide)

/-- CMD.DECODE_ENTRY (R256). -/
theorem reach_decodeEntry (h : Ready 6#8 raw s) : Reach (goTo .mark s) (finish (entryRun s)) := by
  obtain ⟨n, -, hlzd⟩ := steps_lzdRun h
  rw [entryRun, Flow.andThen_assoc, Flow.andThen_assoc, finish_andThen]
  refine hlzd.reach.trans (reach_thenDo fun t ht => ?_)
  have hready := h.lzdRun ht
  rw [afterLzd, if_pos hready.cmd, finish_andThen]
  refine (reach_header hready).trans (reach_thenDo fun u hu => ?_)
  have hparsed := hready.hdrRun hu
  have hstart : (checkFormat u).andThen (fun v => asmRun (operandsOfEntry v) v) =
      (assembleStart u).andThen asmStages := by
    rw [assembleStart, if_pos hparsed.cmd, Flow.andThen_assoc]
    rfl
  rw [afterParse, if_pos hparsed.cmd, hstart]
  exact reach_assemble hparsed (by decide) (by decide)

/-- CMD.DECODE_RAW with RAW_LZ = 1 (R257). -/
theorem reach_decodeRaw_lz (h : Ready 7#8 true s) : Reach (goTo .mark s) (finish (rawRun s)) := by
  obtain ⟨n, -, hlzd⟩ := steps_lzdRun h
  rw [rawRun, if_pos h.rawLz, finish_andThen]
  refine hlzd.reach.trans (reach_thenDo fun t ht => ?_)
  have hready := h.lzdRun ht
  have hstart : assembleStart t = asmStart (operandsOfOut t) t := by
    rw [assembleStart, hready.cmd, hready.rawLz]
    rfl
  have hafter : afterLzd t = goTo .assemble t := by
    rw [afterLzd, hready.cmd]
    rfl
  rw [hafter, asmRun, ← hstart]
  exact reach_assemble hready (by decide) (by decide)

/-- CMD.DECODE_RAW with RAW_LZ = 0 (R257). -/
theorem reach_decodeRaw_plain (h : Ready 7#8 false s) : Reach (goTo .assemble s) (finish (rawRun s)) := by
  have hstart : assembleStart s = asmStart (operandsOfIn s) s := by
    rw [assembleStart, h.cmd, h.rawLz]
    rfl
  rw [rawRun, if_neg (by rw [h.rawLz]; nofun), asmRun, ← hstart]
  exact reach_assemble h (by decide) (by decide)

/-- The codes that are not reserved (R109). -/
theorem code_cases (h : isReserved c = false) :
    c = 1#8 ∨ c = 2#8 ∨ c = 3#8 ∨ c = 4#8 ∨ c = 5#8 ∨ c = 6#8 ∨ c = 7#8 := by
  rw [← Bool.not_eq_true, isReserved_iff] at h
  bv_omega

/-- A launched command that is not reserved, from where it begins to its end (R329). -/
theorem reach_enter (h : Ready c raw s) (hc : isReserved c = false) : Reach (enter c s) (finish (commandBody c s)) := by
  obtain rfl | rfl | rfl | rfl | rfl | rfl | rfl := code_cases hc
  · obtain ⟨n, -, hsteps⟩ := steps_decompress h
    exact hsteps.reach
  · exact reach_parseHeader h
  · exact reach_decodeBlock (s := withAlpha s.hasAlpha s) ⟨h.busy, h.host, h.cmd, h.rawLz⟩
  · exact reach_scrambleRun h
  · exact reach_decodeTex h
  · exact reach_decodeEntry h
  · cases raw with
    | true =>
      have henter : enter 7#8 s = goTo .mark s := by simp [enter, h.rawLz]
      rw [henter]
      exact reach_decodeRaw_lz h
    | false =>
      have henter : enter 7#8 s = goTo .assemble s := by simp [enter, h.rawLz]
      rw [henter]
      exact reach_decodeRaw_plain h

theorem ready_launchClears (c : Byte) (hhost : s.host = []) : Ready c s.ctrl.rawLz (launchClears c s) := by
  unfold launchClears
  split_ifs <;> exact ⟨rfl, hhost, rfl, rfl⟩

/-- A command that is launched on an idle block (R250). -/
theorem startCommand_idle (c : Byte) (hidle : s.status.busy = false) :
    startCommand c s = (launch c s).thenDo (enter c) := by
  rw [startCommand, if_neg (by rw [hidle]; nofun)]
  cases launch c s <;> rfl

/-- Settles O52: from each place of the sequencer the steps that are left do what is left of the atomic command. -/
theorem stepwiseEqualsAtomic : Obligations.StepwiseEqualsAtomic := by
  unfold Obligations.StepwiseEqualsAtomic
  intro c s hidle hhost
  rw [exec_command, command_idle hidle, startCommand_idle c hidle, finish_andThen]
  have hreach : Reach ((launch c s).thenDo (enter c)) ((launch c s).thenDo fun t => finish (commandBody c t)) := by
    refine reach_thenDo fun t ht => ?_
    obtain ⟨e, n, he⟩ | ⟨he, hc⟩ := launch_cases c s <;> rw [he] at ht <;> cases ht
    exact reach_enter (ready_launchClears c hhost) hc
  obtain ⟨n, hn⟩ := hreach
  exact ⟨n, hn.run⟩

/-- Settles O53: the start step, a step for each token, of which each moves `ip` on, and the termination step. -/
theorem decompressEndsWithinBound : Obligations.DecompressEndsWithinBound := by
  unfold Obligations.DecompressEndsWithinBound
  intro s hidle hhost
  have hexec : exec .cmdDecompress s = .next (command 1#8 lzdRun s) := rfl
  rw [hexec, command_idle hidle, startCommand_idle 1#8 hidle, finish_andThen]
  obtain ⟨e, n, he⟩ | ⟨he, -⟩ := launch_cases 1#8 s <;> rw [he]
  · exact ⟨0, Nat.zero_le _, (Steps.zero _).run⟩
  · obtain ⟨n, hn, hsteps⟩ := steps_decompress (ready_launchClears 1#8 hhost)
    exact ⟨n, hn, hsteps.run⟩

end Sys2Proof.Machine
end
